-- ==== Sys2Proof/Word.lean ====
section
/-! DEFINITION. The word types of the Eryon EY16-768 (R1, R3, R70) and the sparse table used for
every collection the manual indexes by a number. -/

namespace Sys2Proof

/-- 8 bits. -/
abbrev Byte := BitVec 8
/-- A word of R3: 4 bytes. -/
abbrev Word := BitVec 32
/-- 64 bits: an affine base, an address, a register pair. -/
abbrev DWord := BitVec 64
/-- 128 bits: a cairn name or a group of four registers (R70, R276). -/
abbrev QWord := BitVec 128
/-- One bit per lane of a strand (R8: a strand is 32 lanes). -/
abbrev LaneMask := BitVec 32

/-- A collection indexed by a number: entries in strictly rising order of the index; an index with no
entry holds the default its reader names. -/
abbrev Tbl (α : Type) := List (Nat × α)

end Sys2Proof
end

