-- ==== Sys2Proof/Syntax.lean ====
section
/-! DEFINITION. The syntax of the Eryon: operand specifiers (R67), modifiers (R73, R74 and the tables of
each chapter) and ONE instruction type with one constructor per row of the table of operations and events.
The Ramson rows carry their 96-bit word's fields, the reeve rows (prefix `rv`) their 32-bit word's fields,
the host commands and machine events (prefix `ev`) what the outside or the schedule names. -/

namespace Sys2Proof

/-- Type codes of R73, in code order. -/
inductive Ty where
  | s8 | s16 | s32 | s64 | n8 | n16 | n32 | n64 | b8 | b16 | b32 | b64 | b128
  | f32 | f16 | bf16 | f16x2 | bf16x2 | e4m3 | e5m2
  | bfp2 | bfp3 | bfp4 | bfp5 | bfp6 | bfp7 | bfp8
deriving DecidableEq, Repr

/-- Rounding modes of R74. -/
inductive Rnd where
  | rne | rtz | rdn | rup | rs
deriving DecidableEq, Repr

/-- The part of an affine register an operand names (R67). -/
inductive APart where
  | pair | base | stride
deriving DecidableEq, Repr

/-- Special registers, in the order of R68. -/
inductive SReg where
  | lane | strand | item | unit | ux | uy | uz | ix | iy | iz | quarter | core | cluster | die | clock | seed
deriving DecidableEq, Repr

/-- An operand of a Ramson instruction: a 16-bit specifier (R67), or the literal that takes the place of
B when LIT = 1 (R71). -/
inductive Opnd where
  | vec (n : Fin 256)
  | aff (n : Fin 32) (part : APart)
  | pred (n : Fin 8)
  | conv (n : Fin 8)
  | inline (e : Fin 64)
  | special (r : SReg)
  | td (n : Fin 256)
  | acc (n : Fin 8)
  | null
  | lit (w : Word)
deriving DecidableEq, Repr

/-- Guard, lookahead, last-read and yield fields (R63, R65, R75-R78). -/
structure Ctl where
  gneg : Bool
  gpred : Fin 8
  la : Fin 16
  lra : Bool
  lrb : Bool
  lrc : Bool
  yield : Bool
deriving DecidableEq, Repr

/-- The four operand positions (R66). LIT = 1 is `b = .lit w`, and `c` is then `.null`, since operand C
does not exist. -/
structure Ops where
  d : Opnd
  a : Opnd
  b : Opnd
  c : Opnd
deriving DecidableEq, Repr

/-- Comparison conditions of `icmp` and `acmp` (R144, R180). -/
inductive Cond where
  | eq | ne | lt | le | gt | ge
deriving DecidableEq, Repr

/-- Conditions of `fcmp` (R144). -/
inductive FCond where
  | eq | ne | lt | le | gt | ge | num | nan
deriving DecidableEq, Repr

/-- `bmix` functions (R142). -/
inductive BmixFn where
  | maj | xor3 | and3 | or3 | mux | andor | andxor | orand
deriving DecidableEq, Repr

/-- `bsel` modes (R143). -/
inductive BselMode where
  | pick | funnel | rev
deriving DecidableEq, Repr

/-- `pagg` modes (R148). -/
inductive PaggMode where
  | every | some | same | mask | count
deriving DecidableEq, Repr

/-- `lxch` modes (R152). -/
inductive XchMode where
  | abs | back | fwd | mir | rot
deriving DecidableEq, Repr

/-- Atomic functions of R264. -/
inductive AtomFn where
  | add | min | max | and | or | xor | exch
deriving DecidableEq, Repr

/-- Levels of `cancel` and of `cread.rec` (R310, R411). -/
inductive Level where
  | launch | graph | phase | job
deriving DecidableEq, Repr

/-- Field codes of `tdmod` (R352). -/
inductive TdField where
  | base | sbase | rows | cols | pitch | spitch | baseadd | sbaseadd
deriving DecidableEq, Repr

/-- Spaces of `cread` with their MOD[71:69] field (R411). -/
inductive ReadSpace where
  | meter
  | reeveCore | reeveTenant | reeveCluster
  | record (l : Level)
  | coll (dsel : Fin 8)
  | time
  | clock
deriving DecidableEq, Repr

/-- Types of `tlbinv` (R433). -/
inductive TlbType where
  | va | ipa | vf | all
deriving DecidableEq, Repr

/-- Types of `cmaint` (R433). -/
inductive CmaintType where
  | l1wb | l1inv | l2page
deriving DecidableEq, Repr

/-- A function of the device: the physical function or one of 128 virtual functions (R21). -/
inductive Fn where
  | pf
  | vf (n : Fin 128)
deriving DecidableEq, Repr

/-- What a peer asks for (R449, R269): a read of n bytes, a write, or a read-modify-write of 4 or 8 bytes. -/
inductive PeerOp where
  | read (n : Nat)
  | write (data : List Byte)
  | atomic (f : AtomFn) (t : Ty) (v : DWord)
  | cas (wide : Bool) (cmp new : DWord)
deriving DecidableEq, Repr

/-- Fields of a reeve word beside its operation (R335). -/
structure RvOps where
  d : Fin 16
  a : Fin 16
  b : Fin 16
  imm : BitVec 14
deriving DecidableEq, Repr

/-- Which of the two signatures of an object verify (R23). -/
structure Sigs where
  rsa : Bool
  slh : Bool
deriving DecidableEq, Repr

/-- What the steps of start-up find (R452). -/
structure StartResult where
  firmware : Sigs
  /-- the firmware's version, compared with the rollback floor -/
  version : Nat
  /-- the derived identity keys match the vendor part -/
  identity : Bool
  /-- the two parts of the configuration image (R450) -/
  vendor : Sigs
  field : Sigs
  /-- by die, the physical cores, 0 to 25, that the self-test finds working (R14) -/
  cores : List (List Nat)
  /-- col lanes and HBM rows that the self-test finds failed, by col and by channel group -/
  lanes : List (Fin 24 × Nat)
  rows : List (Fin 192 × Nat)
  /-- a col or a stack is beyond its spares -/
  beyond : Bool
  /-- training and scrub succeed -/
  memory : Bool
deriving DecidableEq, Repr

/-- A link and which of its two directions (R10). -/
structure LinkWay where
  link : Fin 38
  back : Bool
deriving DecidableEq, Repr

/-- A place the scrub found failing after its rewrite (R378): an HBM page (package slice, page in its group)
or the whole slice. -/
inductive ScrubFail where
  | page (slice : Fin 192) (page : Nat)
  | slice (slice : Fin 192)
deriving DecidableEq, Repr

/-- Which roles an array bank moves between (R229). -/
inductive BankRole where
  | regext (q : Fin 4) | scratch | l1
deriving DecidableEq, Repr

/-- One instruction or step of the Eryon: one constructor per row of the table of operations and events. -/
inductive Instr where
  -- group 0: integer arithmetic (R133)
  | iadd (c : Ctl) (t : Ty) (sat : Bool) (o : Ops)
  | isub (c : Ctl) (t : Ty) (sat : Bool) (o : Ops)
  | imul (c : Ctl) (t : Ty) (sat : Bool) (o : Ops)
  | imulh (c : Ctl) (t : Ty) (o : Ops)
  | imad (c : Ctl) (t : Ty) (sat : Bool) (o : Ops)
  | imin (c : Ctl) (t : Ty) (o : Ops)
  | imax (c : Ctl) (t : Ty) (o : Ops)
  | iabs (c : Ctl) (t : Ty) (sat : Bool) (o : Ops)
  | ineg (c : Ctl) (t : Ty) (sat : Bool) (o : Ops)
  | idiv (c : Ctl) (t : Ty) (o : Ops)
  | irem (c : Ctl) (t : Ty) (o : Ops)
  | iaddc (c : Ctl) (t : Ty) (cp : Fin 8) (o : Ops)
  | isad (c : Ctl) (t : Ty) (o : Ops)
  | idot4 (c : Ctl) (t : Ty) (sa sb sat : Bool) (o : Ops)
  | mov (c : Ctl) (t : Ty) (o : Ops)
  | iclamp (c : Ctl) (t : Ty) (o : Ops)
  -- group 1: logic and bits (R139)
  | and (c : Ctl) (t : Ty) (o : Ops)
  | or (c : Ctl) (t : Ty) (o : Ops)
  | xor (c : Ctl) (t : Ty) (o : Ops)
  | not (c : Ctl) (t : Ty) (o : Ops)
  | andn (c : Ctl) (t : Ty) (o : Ops)
  | shl (c : Ctl) (t : Ty) (clamp : Bool) (o : Ops)
  | shr (c : Ctl) (t : Ty) (clamp : Bool) (o : Ops)
  | sar (c : Ctl) (t : Ty) (clamp : Bool) (o : Ops)
  | rotl (c : Ctl) (t : Ty) (o : Ops)
  | popc (c : Ctl) (t : Ty) (o : Ops)
  | clz (c : Ctl) (t : Ty) (o : Ops)
  | brev (c : Ctl) (t : Ty) (o : Ops)
  | bfe (c : Ctl) (t : Ty) (o : Ops)
  | bfi (c : Ctl) (t : Ty) (o : Ops)
  | bmix (c : Ctl) (t : Ty) (f : BmixFn) (o : Ops)
  | bsel (c : Ctl) (t : Ty) (m : BselMode) (o : Ops)
  -- group 2: compare, predicate, select (R144)
  | icmp (c : Ctl) (t : Ty) (cond : Cond) (o : Ops)
  | fcmp (c : Ctl) (t : Ty) (cond : FCond) (o : Ops)
  | sel (c : Ctl) (t : Ty) (o : Ops)
  | pand (c : Ctl) (na nb : Bool) (o : Ops)
  | por (c : Ctl) (na nb : Bool) (o : Ops)
  | pxor (c : Ctl) (na nb : Bool) (o : Ops)
  | pnot (c : Ctl) (o : Ops)
  | pmov (c : Ctl) (o : Ops)
  | pagg (c : Ctl) (m : PaggMode) (o : Ops)
  | pclass (c : Ctl) (t : Ty) (o : Ops)
  -- group 3: cross-lane (R151)
  | lxch (c : Ctl) (t : Ty) (m : XchMode) (o : Ops)
  | lred (c : Ctl) (t : Ty) (op : Fin 7) (o : Ops)
  | lscan (c : Ctl) (t : Ty) (op : Fin 7) (o : Ops)
  | lbcast (c : Ctl) (t : Ty) (o : Ops)
  | lmatch (c : Ctl) (t : Ty) (o : Ops)
  -- group 4: float arithmetic (R159)
  | fadd (c : Ctl) (t : Ty) (r : Rnd) (o : Ops)
  | fsub (c : Ctl) (t : Ty) (r : Rnd) (o : Ops)
  | fmul (c : Ctl) (t : Ty) (r : Rnd) (o : Ops)
  | ffma (c : Ctl) (t : Ty) (r : Rnd) (o : Ops)
  | fmin (c : Ctl) (t : Ty) (o : Ops)
  | fmax (c : Ctl) (t : Ty) (o : Ops)
  | frnd (c : Ctl) (t : Ty) (r : Rnd) (o : Ops)
  | fdiv (c : Ctl) (t : Ty) (r : Rnd) (o : Ops)
  | fsqrt (c : Ctl) (t : Ty) (r : Rnd) (o : Ops)
  | fclamp (c : Ctl) (t : Ty) (o : Ops)
  | fscale (c : Ctl) (t : Ty) (r : Rnd) (o : Ops)
  | fdot2 (c : Ctl) (t : Ty) (r : Rnd) (o : Ops)
  -- group 5: special functions (R165)
  | frcp (c : Ctl) (t : Ty) (o : Ops)
  | frsq (c : Ctl) (t : Ty) (o : Ops)
  | fexp2 (c : Ctl) (t : Ty) (o : Ops)
  | flog2 (c : Ctl) (t : Ty) (o : Ops)
  | fsinpi (c : Ctl) (t : Ty) (o : Ops)
  | fcospi (c : Ctl) (t : Ty) (o : Ops)
  | ftanh (c : Ctl) (t : Ty) (o : Ops)
  | fsigm (c : Ctl) (t : Ty) (o : Ops)
  -- group 6: conversion and quantise (R167)
  | cvt (c : Ctl) (code : Fin 30) (r : Rnd) (o : Ops)
  | qnt (c : Ctl) (t : Ty) (r : Rnd) (o : Ops)
  | dqnt (c : Ctl) (t : Ty) (r : Rnd) (o : Ops)
  | bfpack (c : Ctl) (t : Ty) (r : Rnd) (o : Ops)
  | bfunpack (c : Ctl) (t : Ty) (o : Ops)
  | seed (c : Ctl) (o : Ops)
  | pack (c : Ctl) (t : Ty) (o : Ops)
  | unpack (c : Ctl) (t : Ty) (o : Ops)
  -- group 7: affine (R180)
  | aset (c : Ctl) (o : Ops)
  | aadd (c : Ctl) (o : Ops)
  | asub (c : Ctl) (o : Ops)
  | amul (c : Ctl) (o : Ops)
  | ashl (c : Ctl) (o : Ops)
  | aand (c : Ctl) (o : Ops)
  | amov (c : Ctl) (o : Ops)
  | avec (c : Ctl) (t : Ty) (o : Ops)
  | auni (c : Ctl) (t : Ty) (o : Ops)
  | acmp (c : Ctl) (t : Ty) (cond : Cond) (o : Ops)
  | aaddr (c : Ctl) (s : Fin 5) (o : Ops)
  -- group 8: control (R188, R100)
  | bra (c : Ctl) (o : Ops)
  | brx (c : Ctl) (o : Ops)
  | call (c : Ctl) (o : Ops)
  | calli (c : Ctl) (o : Ops)
  | ret (c : Ctl) (o : Ops)
  | fent (c : Ctl) (o : Ops)
  | exit (c : Ctl) (o : Ops)
  | ksign (c : Ctl) (o : Ops)
  | kwait (c : Ctl) (o : Ops)
  | yield (c : Ctl) (o : Ops)
  | refill (c : Ctl) (o : Ops)
  | itemdone (c : Ctl) (o : Ops)
  | trap (c : Ctl) (o : Ops)
  | nop (c : Ctl) (o : Ops)
  | grow (c : Ctl) (o : Ops)
  | shrink (c : Ctl) (o : Ops)
  | brk (c : Ctl) (o : Ops)
  -- group 9: memory (R253, R256)
  | ld (c : Ctl) (acc : Fin 10) (t : Ty) (o : Ops)
  | st (c : Ctl) (acc : Fin 9) (t : Ty) (o : Ops)
  | ldu (c : Ctl) (t : Ty) (o : Ops)
  | pvaddr (c : Ctl) (o : Ops)
  | pf (c : Ctl) (l2 : Bool) (o : Ops)
  -- group 10: atomics and fences (R264, R265)
  | atom (c : Ctl) (f : AtomFn) (t : Ty) (o : Ops)
  | atomcas (c : Ctl) (t : Ty) (o : Ops)
  | red (c : Ctl) (f : AtomFn) (t : Ty) (o : Ops)
  | fence (c : Ctl) (o : Ops)
  -- group 11: cairn (R283)
  | nmlook (c : Ctl) (dsel : Fin 8) (o : Ops)
  | nmnode (c : Ctl) (dsel : Fin 8) (o : Ops)
  | nmreadLine (c : Ctl) (dsel : Fin 8) (root : Bool) (o : Ops)
  | nmreadPiece (c : Ctl) (dsel : Fin 8) (root : Bool) (o : Ops)
  | nmwalk (c : Ctl) (dsel : Fin 8) (root : Bool) (o : Ops)
  | nmswap (c : Ctl) (dsel : Fin 8) (o : Ops)
  | nmref (c : Ctl) (dsel : Fin 8) (root : Bool) (o : Ops)
  | nmdrop (c : Ctl) (dsel : Fin 8) (o : Ops)
  | nmcopy (c : Ctl) (dsel : Fin 8) (root : Bool) (o : Ops)
  -- group 12: copy and barrier (R316, R396)
  | cpin (c : Ctl) (coord : Fin 32) (bytes sig : Bool) (o : Ops)
  | cpout (c : Ctl) (coord : Fin 32) (bytes sig : Bool) (o : Ops)
  | cpmc (c : Ctl) (coord : Fin 32) (bytes : Bool) (o : Ops)
  | cpseal (c : Ctl) (o : Ops)
  | barinit (c : Ctl) (o : Ops)
  | arrive (c : Ctl) (one x : Bool) (o : Ops)
  | bwait (c : Ctl) (seq : Bool) (o : Ops)
  | barinv (c : Ctl) (o : Ops)
  -- group 13: matrix (R204)
  | mma (c : Ctl) (k : Fin 8) (coord : Fin 32) (o : Ops)
  | mzero (c : Ctl) (o : Ops)
  | mld (c : Ctl) (coord : Fin 32) (o : Ops)
  | mdrain (c : Ctl) (r : Rnd) (coord : Fin 32) (o : Ops)
  | mmov (c : Ctl) (t : Ty) (o : Ops)
  | mput (c : Ctl) (t : Ty) (o : Ops)
  -- group 14: launch, descriptor, task (R310, R352, R411)
  | launch (c : Ctl) (o : Ops)
  | trigger (c : Ctl) (o : Ops)
  | tsig (c : Ctl) (o : Ops)
  | cancel (c : Ctl) (l : Level) (o : Ops)
  | tdset (c : Ctl) (o : Ops)
  | tdmod (c : Ctl) (f : TdField) (o : Ops)
  | tdinv (c : Ctl) (all : Bool) (o : Ops)
  | cread (c : Ctl) (sp : ReadSpace) (o : Ops)
  -- group 15: system (R433, R295); `bulk` is one word with two rows, told apart by its command block (R441)
  | sget (c : Ctl) (o : Ops)
  | sset (c : Ctl) (o : Ops)
  | zsig (c : Ctl) (o : Ops)
  | tlbinv (c : Ctl) (t : TlbType) (o : Ops)
  | cmaint (c : Ctl) (t : CmaintType) (o : Ops)
  | halt (c : Ctl) (bnd gang : Bool) (o : Ops)
  | bulkEvict (c : Ctl) (o : Ops)
  | bulkReturn (c : Ctl) (o : Ops)
  | wsel (c : Ctl) (o : Ops)
  | nmsync (c : Ctl) (dsel : Fin 8) (o : Ops)
  -- reeve code (R336)
  | rvLi (o : RvOps)
  | rvMov (o : RvOps)
  | rvAdd (o : RvOps)
  | rvSub (o : RvOps)
  | rvAnd (o : RvOps)
  | rvOr (o : RvOps)
  | rvXor (o : RvOps)
  | rvShl (o : RvOps)
  | rvShr (o : RvOps)
  | rvMul (o : RvOps)
  | rvMin (o : RvOps)
  | rvMax (o : RvOps)
  | rvSlt (o : RvOps)
  | rvSltn (o : RvOps)
  | rvSeq (o : RvOps)
  | rvSel (o : RvOps)
  | rvCget (o : RvOps)
  | rvCld (o : RvOps)
  | rvCst (o : RvOps)
  | rvCcas (o : RvOps)
  | rvLoop (o : RvOps)
  | rvLend (o : RvOps)
  | rvBf (o : RvOps)
  | rvJf (o : RvOps)
  | rvDset (o : RvOps)
  | rvDone (o : RvOps)
  | rvAddi (o : RvOps)
  | rvAndi (o : RvOps)
  -- register writes and commands of the host (R443)
  /-- JOB_SUBMIT of a function; `sealed`: the write lies in the function's IDE stream (R385). -/
  | evJobSubmit (fn : Fn) (addr : DWord) (sealed : Bool)
  | evS1rootWrite (vf : Fin 128) (v : DWord)
  | evTlbInv (vf : Fin 128) (v : DWord)
  | evReeveLoad (fn : Fn) (addr : DWord)
  | evReeveLoadComplete (fn : Fn)
  | evReeveCtlArm (fn : Fn) (v : DWord)
  | evReeveCtlUnload (fn : Fn) (v : DWord)
  | evPrqPop (fn : Fn)
  | evPrqReplyResolved (fn : Fn) (v : DWord)
  | evPrqReplyFail (fn : Fn) (v : DWord)
  | evEvqPull (fn : Fn) (v : DWord)
  | evTrapReplyResume (fn : Fn) (v : DWord)
  | evTrapReplyEnd (fn : Fn) (v : DWord)
  | evPartCreate (addr : DWord)
  | evPartDestroy (addr : DWord)
  | evBindVf (addr : DWord)
  | evUnbindVf (addr : DWord)
  | evUnbindVfComplete (vf : Fin 128)
  | evReceipt (addr : DWord)
  | evUsagePull (v : DWord)
  | evUsageDone
  | evLifeRead (v : DWord)
  | evCairnRegion (addr : DWord)
  | evCairnCreate (addr : DWord)
  | evCairnDelete (addr : DWord)
  | evCairnLink (addr : DWord)
  | evCairnUnlink (addr : DWord)
  | evRailVote (p : Fin 64) (v : DWord)
  | evRegisterWrite (fn : Fn) (off : Nat) (v : BitVec 256)
  /-- A CXL.mem write through window `w` at byte offset `off` (R248, R447). -/
  | evHostWrite (w : Fin 8) (off : Nat) (data : List Byte)
  | evHostRead (w : Fin 8) (off : Nat) (n : Nat)
  /-- An access arriving from a peer on a port, for an IPA of a receiving VF (R449). -/
  | evPeerAccess (port : Fin 12) (vf : Fin 128) (ipa : Nat) (op : PeerOp)
  | evFlr (vf : Fin 128)
  | evStartUp (r : StartResult)
  /-- Cols are links 0-23, peer ports links 24-35, host ports links 36-37 (R385). -/
  | evFlitTagFail (way : LinkWay)
  | evLink (port : Fin 12) (up : Bool)
  | evColRekey (link : Fin 38)
  | evPtmAlign (offset : Int)
  -- events of the machine
  | evQuantumExpiry (cl : Fin 192)
  | evTickWatchdog (cl : Fin 192)
  | evEnq (cl : Fin 192)
  | evPick (cl : Fin 192)
  | evTick (cl : Fin 192)
  | evBlock (cl : Fin 192)
  | evWake (cl : Fin 192)
  | evMigr (cl : Fin 192)
  | evBlockThreshold (uid : Nat)
  | evReeveOverrun (cl : Fin 192)
  | evFairnessTimerExpiry (uid k : Nat)
  | evSqueeze (core : Fin 384) (q : Fin 4)
  | evSpillRestore (core : Fin 384) (q : Fin 4)
  | evLaunchAccept (cl : Fin 192)
  | evJobStart (fn : Fn) (part : Fin 64) (entry : Fin 16)
  | evGraphExpand (fn : Fn) (part : Fin 64) (entry : Fin 16) (g : Fin 64)
  | evPhaseComplete (fn : Fn) (part : Fin 64) (entry : Fin 16)
  | evUnitCut (lid : Nat)
  /-- Admits the first unit of run-queue entry `eid` of a cluster to one of its cores (R32). -/
  | evUnitAdmit (cl : Fin 192) (eid : Nat) (core1 : Bool)
  | evConcurrentAdmit (lid : Nat)
  /-- A parked launch span (`slot` of a cluster) or unit span (`slot` of a unit) resumes alone (R55). -/
  | evSpanResumeAlone (inUnit : Bool) (owner slot : Nat)
  | evItemQueueFetch (core : Fin 384) (lid : Nat)
  | evUnitComplete (uid : Nat)
  /-- The value of outstanding instruction `id` of a strand, or of a span's `ldu`, returns with the
  generation tag it was sent with (R423). -/
  | evMemoryResponse (uid k id : Nat) (gen : Byte)
  | evSpanResponse (inUnit : Bool) (owner slot : Nat)
  | evResourceHoldEnd (uid k : Nat)
  | evMmaStart (core : Fin 384) (q : Fin 4)
  | evMmaComplete (core : Fin 384) (q : Fin 4)
  | evMdrainSnapshot (core : Fin 384) (q : Fin 4) (id : Nat)
  | evMdrainApply (core : Fin 384) (q : Fin 4) (id : Nat)
  | evCopyLand (core : Fin 384) (id : Nat)
  | evBatchDeferredArrival (core : Fin 384) (id : Nat)
  | evUnitSave (uid : Nat)
  | evBoundaryStopDone (uid : Nat)
  | evBoundaryStopMiss (uid : Nat)
  | evHaltDone (id : Nat)
  | evBulkDone (die : Fin 16) (engine : Fin 8)
  | evBankMove (core : Fin 384) (src dst : BankRole)
  | evLaneRatioApply (cl : Fin 192)
  | evQuarterWorldMove (core : Fin 384) (q : Fin 4)
  | evPassCountSet (cl : Fin 192) (v : BitVec 2)
  | evPowerTokensSet (die : Fin 16) (n : Nat)
  | evMatrixTokenAdvance (die : Fin 16)
  | evUsageRecordPeriodic (p : Fin 64)
  | evMeterMs (p : Fin 64)
  | evCairnCacheInvalidate (core : Fin 384)
  | evReclaimNode (p : Fin 64) (dom : Fin 256) (slice : Fin 192)
  /-- A line sent by a peer in a sync arrives for a domain (R296). -/
  | evNmsyncLineReceived (p : Fin 64) (dom : Fin 256) (name : QWord) (line : List Byte) (root : Bool)
  | evNmsyncComplete (id : Nat) (state : Fin 6) (sent suppressed target : Nat)
  | evNmsyncTimeout (id : Nat) (target : Nat)
  | evLifeHistogramWrite
  | evPartitionReassignDone (p : Fin 64)
  | evPartitionReleaseDone (p : Fin 64)
  | evDrainEnd (p : Fin 64)
  | evScrubEnd (p : Fin 64) (fails : List ScrubFail)
  | evCopyBytesLanded (core : Fin 384) (id first n : Nat)
  | evCopyUncorr (core : Fin 384) (id first : Nat)
  | evFlrComplete (vf : Fin 128)
  | evOrderlyShutdown
  /-- An SPDM exchange sets the IDE stream keys of a function, or (`none`) the key-import key (R385, R448). -/
  | evSpdmExchange (stream : Option Fn)
  | evNmsyncOffer (p : Fin 64) (dom : Fin 256) (name : QWord)
deriving DecidableEq, Repr

end Sys2Proof
end

