-- ==== Sys2Proof/Machine/Bits.lean ====
section
/-! DEFINITION. Bit-field, sign and byte-order helpers over numbers, and the sparse table. A register word, a
group of words or a field is handled here as a natural number below a power of two; registers themselves are
bit vectors. Little-endian everywhere (R1). -/

namespace Sys2Proof.Machine

/-- Bits [hi:lo] of `x` with `w = hi − lo + 1`. -/
def fld (x lo w : Nat) : Nat := (x >>> lo) % 2 ^ w

/-- `x` with its `w`-bit field at `lo` replaced by `v`. -/
def setFld (x lo w v : Nat) : Nat := x - ((fld x lo w) <<< lo) + ((v % 2 ^ w) <<< lo)

/-- The `n`-bit pattern `x` read as two's complement (R109). -/
def sext (n x : Nat) : Int :=
  let y := x % 2 ^ n
  if 2 * y < 2 ^ n then (y : Int) else (y : Int) - (2 ^ n : Nat)

/-- `x` modulo `2^n`, as a natural (R129). -/
def wrap (n : Nat) (x : Int) : Nat := (x % ((2 ^ n : Nat) : Int)).toNat

/-- `x` limited to `lo … hi`. -/
def clampI (lo hi x : Int) : Int := if x < lo then lo else if hi < x then hi else x

def minI (a b : Int) : Int := if a ≤ b then a else b
def maxI (a b : Int) : Int := if a ≤ b then b else a

/-- Bytes of `x`, least significant first (R1). -/
def toBytes : Nat → Nat → List Byte
  | 0, _ => []
  | n + 1, x => BitVec.ofNat 8 x :: toBytes n (x / 256)

/-- The number whose little-endian bytes are given (R1). -/
def ofBytes : List Byte → Nat
  | [] => 0
  | b :: bs => b.toNat + 256 * ofBytes bs

/-- `n` bytes of a list from offset `off`, zero where the list has ended. -/
def slice (bs : List Byte) (off n : Nat) : List Byte :=
  let r := (bs.drop off).take n
  r ++ List.replicate (n - r.length) 0

/-- Bit `i` of a lane mask. -/
def lane (m : LaneMask) (i : Nat) : Bool := m.getLsbD i

/-- The lane numbers 0 … 31. -/
def lanes32 : List Nat := List.range 32

/-- The mask of the lanes below 32 that satisfy `f`. -/
def maskOf (f : Nat → Bool) : LaneMask :=
  BitVec.ofNat 32 (lanes32.foldl (fun acc i => if f i then acc + 2 ^ i else acc) 0)

/-- The lanes of a mask, rising. -/
def lanesOf (m : LaneMask) : List Nat := lanes32.filter (lane m)

/-- Number of ones in the low `n` bits. -/
def popcount : Nat → Nat → Nat
  | 0, _ => 0
  | n + 1, x => x % 2 + popcount n (x / 2)

/-- The lowest lane of a mask (32 when empty). -/
def lowest (m : LaneMask) : Nat := ((lanesOf m).head?).getD 32

def allLanes : LaneMask := BitVec.allOnes 32

/-- `⌊log₂ x⌋`, 0 at 0. -/
def log2 (x : Nat) : Nat := Nat.log2 x

/-- Element `i` of a list, or `d`. -/
def nth {α : Type} (l : List α) (i : Nat) (d : α) : α := (l[i]?).getD d

/-- The list with element `i` replaced (unchanged when absent). -/
def setNth {α : Type} (l : List α) (i : Nat) (v : α) : List α := l.set i v

/-! The sparse table: entries in strictly rising order of the index. -/

namespace Tbl

def find? {α : Type} : Tbl α → Nat → Option α
  | [], _ => none
  | (k, v) :: t, i => if k = i then some v else find? t i

def getD {α : Type} (t : Tbl α) (i : Nat) (d : α) : α := (find? t i).getD d

def put {α : Type} : Tbl α → Nat → α → Tbl α
  | [], i, v => [(i, v)]
  | (k, w) :: t, i, v =>
    if i < k then (i, v) :: (k, w) :: t
    else if i = k then (i, v) :: t
    else (k, w) :: put t i v

def del {α : Type} (t : Tbl α) (i : Nat) : Tbl α := t.filter (fun e => e.1 != i)

/-- The entry rewritten by `f`, from the default `d` when absent. -/
def upd {α : Type} (t : Tbl α) (i : Nat) (d : α) (f : α → α) : Tbl α := put t i (f (getD t i d))

/-- The entry rewritten by `f` where present. -/
def upd? {α : Type} (t : Tbl α) (i : Nat) (f : α → α) : Tbl α :=
  match find? t i with
  | some v => put t i (f v)
  | none => t

def has {α : Type} (t : Tbl α) (i : Nat) : Bool := (find? t i).isSome

/-- The entries kept by a test, in order. -/
def keep {α : Type} (t : Tbl α) (p : Nat → α → Bool) : Tbl α := t.filter (fun e => p e.1 e.2)

def mapV {α β : Type} (t : Tbl α) (f : Nat → α → β) : Tbl β := t.map (fun e => (e.1, f e.1 e.2))

/-- The lowest index at or above `lo` that is not in use, among the next `n`. -/
def lowestFree {α : Type} (t : Tbl α) (lo : Nat) : Nat → Nat
  | 0 => lo
  | n + 1 => if has t lo then lowestFree t (lo + 1) n else lo

/-- Strictly rising indexes, all above `lo`. -/
def sortedFrom {α : Type} : Nat → Tbl α → Bool
  | _, [] => true
  | lo, (k, _) :: t => decide (lo ≤ k) && sortedFrom (k + 1) t

/-- The table's canonical form. -/
def sorted {α : Type} (t : Tbl α) : Bool := sortedFrom 0 t

end Tbl

end Sys2Proof.Machine
end

