-- ==== Sys2Proof/Machine/Forms.lean ====
section
/-! DEFINITION. The operand forms of every Ramson instruction: what each position accepts, how it is read, and
which modifiers are legal (R66, R67, R70, R71, R73, R74, R127, R128 and the encoding table of each chapter).
One table serves well-formedness (R82), the name limit (R70), mapping checks (R96), windows (R79) and last-read
bits (R75). -/

namespace Sys2Proof

/-! Widths and kinds of the types of R73. -/

namespace Ty

def bits : Ty → Nat
  | .s8 | .n8 | .b8 | .e4m3 | .e5m2 => 8
  | .s16 | .n16 | .b16 | .f16 | .bf16 => 16
  | .s32 | .n32 | .b32 | .f32 | .f16x2 | .bf16x2 => 32
  | .s64 | .n64 | .b64 => 64
  | .b128 => 128
  | .bfp2 => 2 | .bfp3 => 3 | .bfp4 => 4 | .bfp5 => 5 | .bfp6 => 6 | .bfp7 => 7 | .bfp8 => 8

def words (t : Ty) : Nat := if bits t ≤ 32 then 1 else bits t / 32

def signed : Ty → Bool
  | .s8 | .s16 | .s32 | .s64 => true
  | _ => false

def isFloat : Ty → Bool
  | .f32 | .f16 | .bf16 | .f16x2 | .bf16x2 | .e4m3 | .e5m2 => true
  | _ => false

def isPacked : Ty → Bool
  | .f16x2 | .bf16x2 => true
  | _ => false

def isBfp : Ty → Bool
  | .bfp2 | .bfp3 | .bfp4 | .bfp5 | .bfp6 | .bfp7 | .bfp8 => true
  | _ => false

end Ty

end Sys2Proof

namespace Sys2Proof.Machine

/-- How a source is read in one lane: an integer or bit string of so many words, with its literal sign-extended
or not (R71), or a float type (R72, R157). -/
inductive Rd where
  | int (words : Nat) (sx : Bool)
  | flt (t : Ty)
deriving DecidableEq, Repr

/-- What one operand position accepts. `vec` is the number of words of an accepted vector operand (0: none);
`inl` and `lit` are ranges of accepted entries and literals; `spec` accepts every special register, `uspec` only
those that are not pair-valued (R181); `wr` marks a destination. -/
structure Need where
  vec : Nat := 0
  pair : Bool := false
  base : Bool := false
  stride : Bool := false
  inl : Option (Nat × Nat) := none
  spec : Bool := false
  uspec : Bool := false
  pred : Bool := false
  conv : Bool := false
  td : Bool := false
  acc : Bool := false
  null : Bool := false
  lit : Option (Nat × Nat) := none
  rd : Rd := .int 1 false
  wr : Bool := false
deriving DecidableEq, Repr

/-- The form of one instruction: four positions, whether a lookahead is legal (R77), whether it is privileged
(R81), whether register operands are read only in the lowest lane of T, and whether its modifiers are legal. -/
structure Shape where
  d : Need
  a : Need
  b : Need
  c : Need
  la : Bool := false
  priv : Bool := false
  once : Bool := false
  mods : Bool := true
deriving DecidableEq, Repr

def inRange (r : Option (Nat × Nat)) (x : Nat) : Bool :=
  match r with
  | some (lo, hi) => decide (lo ≤ x) && decide (x ≤ hi)
  | none => false

/-- Does a position accept an operand (R82)? -/
def Need.accepts (n : Need) : Opnd → Bool
  | .vec v => n.vec != 0 && v.val % n.vec == 0
  | .aff _ .pair => n.pair
  | .aff _ .base => n.base
  | .aff _ .stride => n.stride
  | .pred _ => n.pred
  | .conv _ => n.conv
  | .inline e => inRange n.inl e.val
  | .special r => n.spec || (n.uspec && r != .lane && r != .item)
  | .td _ => n.td
  | .acc _ => n.acc
  | .null => n.null
  | .lit w => inRange n.lit w.toNat

/-! The recurring positions. -/

def litMax : Nat := 2 ^ 32 - 1
def anyLit : Option (Nat × Nat) := some (0, litMax)

def Need.unused : Need := { null := true }
/-- A vector destination of `w` words, or null (R128). -/
def Need.vdst (w : Nat) : Need := { vec := w, null := true, wr := true }
/-- A vector destination that may not be null. -/
def Need.vdst! (w : Nat) : Need := { vec := w, wr := true }
def Need.pdst : Need := { pred := true, null := true, wr := true }
def Need.psrc : Need := { pred := true, null := true }
def Rd.words : Rd → Nat
  | .int w _ => w
  | .flt _ => 1
/-- A data source of R127. -/
def Need.src (r : Rd) : Need :=
  if r.words = 4 then { vec := 4, null := true, rd := r }
  else { vec := r.words, pair := true, base := true, stride := true, inl := some (0, 63), spec := true, null := true, rd := r }
/-- A data source with a literal form. -/
def Need.srcL (r : Rd) : Need := { Need.src r with lit := if r.words = 4 then none else anyLit }
/-- A vector source of `w` words. -/
def Need.vsrc (w : Nat) : Need := { vec := w, rd := .int w false }
/-- An affine destination (R182). -/
def Need.adst : Need := { pair := true, base := true, stride := true, wr := true }
/-- An affine source (R181). -/
def Need.asrc : Need := { pair := true, base := true, stride := true, inl := some (0, 63), spec := true, null := true }
def Need.asrcL : Need := { Need.asrc with lit := anyLit }
/-- A scalar affine source (R180). -/
def Need.scalar : Need :=
  { base := true, stride := true, inl := some (0, 63), uspec := true, null := true, lit := anyLit }
/-- A base address (R254): affine pair, `.b`, or an even vector. -/
def Need.addr : Need := { vec := 2, pair := true, base := true, rd := .int 2 false }
def Need.tens : Need := { td := true }
def Need.tile : Need := { acc := true }
/-- A 32-bit natural: vector, affine pair, `.b`, inline entries up to `e`, literal up to `l`. -/
def Need.nat32 (lo e : Nat) (l : Option (Nat × Nat)) : Need :=
  { vec := 1, pair := true, base := true, inl := some (lo, e), lit := l }


def isS8to64 (t : Ty) : Bool := t ∈ [Ty.s8, .s16, .s32, .s64]
def isSN8to64 (t : Ty) : Bool := t ∈ [Ty.s8, .s16, .s32, .s64, .n8, .n16, .n32, .n64]
def isSN32to64 (t : Ty) : Bool := t ∈ [Ty.s32, .n32, .s64, .n64]
def isB32to64 (t : Ty) : Bool := t ∈ [Ty.b32, .b64]
def isB32to128 (t : Ty) : Bool := t ∈ [Ty.b32, .b64, .b128]
def isArithF (t : Ty) : Bool := t ∈ [Ty.f32, .f16, .bf16, .f16x2, .bf16x2]
def isCmpF (t : Ty) : Bool := t ∈ [Ty.f32, .f16, .bf16, .e4m3, .e5m2]

/-- How a source of an integer or untyped type is read. -/
def rdI (t : Ty) : Rd := .int (Ty.words t) (t.signed)
def rd32 : Rd := .int 1 false

/-- `D, A, B` over one type, B with a literal form. -/
def dab (t : Ty) (r : Rd) (ok : Bool) : Shape :=
  { d := .vdst (Ty.words t), a := .src r, b := .srcL r, c := .unused, mods := ok }
def dabc (t : Ty) (r : Rd) (ok : Bool) : Shape :=
  { d := .vdst (Ty.words t), a := .src r, b := .src r, c := .src r, mods := ok }
def da (w : Nat) (r : Rd) (ok : Bool) : Shape :=
  { d := .vdst w, a := .src r, b := .unused, c := .unused, mods := ok }

/-- Widths and types of a conversion code (R168): destination words, how A is read, exact. -/
def cvtForm (code : Nat) : Nat × Rd × Bool :=
  match code with
  | 4 => (1, .flt .f16, true) | 5 => (1, .flt .bf16, true)
  | 6 => (1, .flt .e4m3, true) | 7 => (1, .flt .e5m2, true)
  | 10 | 11 => (2, .flt .f32, false)
  | 12 => (1, .int 1 true, false) | 13 => (1, .int 1 false, false)
  | 14 => (1, .int 2 true, false) | 15 => (1, .int 2 false, false)
  | 20 | 21 | 22 | 23 => (1, .int 1 true, true)
  | 24 => (1, .int 2 true, true) | 25 => (1, .int 2 false, true)
  | 28 => (2, .int 1 true, true) | 29 => (2, .int 1 false, true)
  | _ => (1, .flt .f32, false)

/-- Index operand B of a memory instruction and its shift C (R254). -/
def memB : Need := { vec := 1, null := true, lit := anyLit, rd := .int 1 true }
def memC (b : Opnd) : Need :=
  match b with
  | .vec _ => { null := true, inl := some (0, 4) }
  | _ => .unused

/-- The types of an atomic function (R264). -/
def atomTy (f : AtomFn) (t : Ty) : Bool :=
  match f with
  | .add => t ∈ [Ty.s32, .n32, .s64, .n64, .f32, .f16x2, .bf16x2]
  | .min | .max => t ∈ [Ty.s32, .n32, .s64, .n64, .f32]
  | .and | .or | .xor | .exch => t ∈ [Ty.b32, .b64]

/-- How an operand of group 10 is read (R266). -/
def rdAtom (t : Ty) : Rd := if t.isFloat then .flt t else rdI t

/-- The access constant of group 10 (R265). -/
def atomC (ok : Nat → Bool) (nullOk : Bool) (c : Opnd) : Need :=
  match c with
  | .inline e => if ok e.val then { inl := some (e.val, e.val) } else {}
  | _ => { null := nullOk }

/-- A name operand, or a slot number under ROOT (R283). -/
def nameNeed (root : Bool) : Need :=
  if root then Need.nat32 0 31 none else { vec := 4, null := true, rd := .int 4 false }

/-- A matrix column (R205). -/
def colNeed (t : Ty) (b : Opnd) : Need :=
  let w := Ty.words t
  let ok (x : Nat) : Bool := x % w == 0 && x ≤ 64 - w
  match b with
  | .inline e => if e.val ≤ 15 && ok e.val then { inl := some (0, 15) } else {}
  | .lit x => if ok x.toNat then { lit := anyLit } else {}
  | _ => {}

/-- The index operand of `cread` (R411). -/
def creadB : ReadSpace → Need
  | .meter => Need.nat32 0 6 (some (0, 6))
  | .reeveCore | .reeveTenant | .reeveCluster => Need.nat32 0 9 (some (0, 9))
  | .record .launch => { Need.nat32 0 31 anyLit with null := true }
  | _ => .unused

/-- A system selector or VF operand (R433). -/
def sysB : Need := Need.nat32 0 31 anyLit

/-- The form of every Ramson instruction; the rows that have no 96-bit word have none. A `pmov` whose D is null takes A of either class:
null stands for the predicate destination (R147; DESIGN CHOICE, log 163). -/
def shape : Instr → Option Shape
  | .iadd _ t _ _ | .isub _ t _ _ | .imul _ t _ _ => some (dab t (rdI t) (isSN8to64 t))
  | .imulh _ t _ => some (dab t (rdI t) (isSN32to64 t))
  | .imad _ t _ _ => some (dabc t (rdI t) (isSN8to64 t))
  | .imin _ t _ | .imax _ t _ => some (dab t (rdI t) (isSN8to64 t))
  | .iabs _ t _ _ => some (da (Ty.words t) (rdI t) (isS8to64 t))
  | .ineg _ t _ _ => some (da (Ty.words t) (rdI t) (isSN8to64 t))
  | .idiv _ t _ | .irem _ t _ => some { dab t (rdI t) (isSN32to64 t) with la := true }
  | .iaddc _ t _ o =>
    some { dab t (rdI t) (t == .n32 || t == .n64) with
           c := match o.b with | .lit _ => .unused | _ => .psrc }
  | .isad _ t _ => some (dabc t (rdI t) (t ∈ [Ty.s8, .s16, .s32, .n8, .n16, .n32]))
  | .idot4 _ t _ _ _ _ => some (dabc t (rdI t) (t == .s32 || t == .n32))
  | .mov _ t o =>
    match o.d with
    | .aff _ _ =>
      some { d := .adst, a := .unused, b := { inl := some (0, 63), lit := anyLit }, c := .unused,
             mods := t == .s64 || t == .n64 }
    | _ => some { d := .vdst (Ty.words t), a := .unused, b := .srcL (rdI t), c := .unused, mods := isB32to128 t }
  | .iclamp _ t _ => some (dabc t (rdI t) (isSN8to64 t))
  | .and _ t _ | .or _ t _ | .xor _ t _ | .andn _ t _ => some (dab t (rdI t) (isB32to64 t))
  | .not _ t _ => some (da (Ty.words t) (rdI t) (isB32to64 t))
  | .shl _ t _ _ | .shr _ t _ _ | .sar _ t _ _ | .rotl _ t _ =>
    some { dab t (rdI t) (isB32to64 t) with b := .srcL rd32 }
  | .popc _ t _ | .clz _ t _ => some (da 1 (rdI t) (isB32to64 t))
  | .brev _ t _ => some (da (Ty.words t) (rdI t) (isB32to64 t))
  | .bfe _ t _ => some { dab t (rdI t) (isSN32to64 t) with b := .srcL rd32 }
  | .bfi _ t _ => some { dabc t (rdI t) (isB32to64 t) with c := .src rd32 }
  | .bmix _ t _ _ => some (dabc t (rdI t) (isB32to64 t))
  | .bsel _ t m _ =>
    if m = .rev then some (da 1 rd32 (t == .b32)) else some (dabc t rd32 (t == .b32))
  | .icmp _ t _ _ => some { dab t (rdI t) (isSN8to64 t) with d := .pdst }
  | .fcmp _ t _ _ => some { dab t (.flt t) (isCmpF t) with d := .pdst }
  | .sel _ t _ => some { dabc t (rdI t) (isB32to128 t) with c := .psrc }
  | .pand _ _ _ _ | .por _ _ _ _ | .pxor _ _ _ _ => some { d := .pdst, a := .psrc, b := .psrc, c := .unused }
  | .pnot _ _ => some { d := .pdst, a := .psrc, b := .unused, c := .unused }
  | .pmov _ o =>
    let toPred : Bool := match o.d with | .pred _ => true | _ => false
    let fromVec : Bool := match o.a with | .vec _ => true | _ => false
    some { d := { vec := 1, pred := true, null := true, wr := true }, a := { vec := 1, pred := true, null := true },
           b := .unused, c := .unused, mods := !fromVec || toPred || o.d == .null }
  | .pagg _ m _ =>
    some { d := if m = .mask ∨ m = .count then .vdst 1 else .pdst, a := .psrc, b := .unused, c := .unused }
  | .pclass _ t _ => some { d := .pdst, a := .src (.flt t), b := .srcL rd32, c := .unused, mods := isCmpF t }
  | .lxch _ t _ _ | .lbcast _ t _ =>
    some { d := .vdst (Ty.words t), a := .src (rdI t), b := .srcL rd32, c := .unused, mods := isB32to128 t }
  | .lred _ t _ _ | .lscan _ t _ _ =>
    if t.isFloat then some (da 1 (.flt t) (isArithF t)) else some (da (Ty.words t) (rdI t) (isSN32to64 t))
  | .lmatch _ t _ => some (da 1 (rdI t) (isB32to64 t))
  | .fadd _ t _ _ | .fsub _ t _ _ | .fmul _ t _ _ => some (dab t (.flt t) (isArithF t))
  | .ffma _ t _ _ => some (dabc t (.flt t) (isArithF t))
  | .fmin _ t _ | .fmax _ t _ => some (dab t (.flt t) (isArithF t))
  | .frnd _ t _ _ => some (da 1 (.flt t) (isArithF t))
  | .fdiv _ t _ _ => some { dab t (.flt t) (isArithF t) with la := true }
  | .fsqrt _ t _ _ => some { da 1 (.flt t) (isArithF t) with la := true }
  | .fclamp _ t _ => some (dabc t (.flt t) (isArithF t))
  | .fscale _ t _ _ => some { dab t (.flt t) (isArithF t) with b := .srcL (.int 1 true) }
  | .fdot2 _ t _ _ => some { dabc t (.flt t) t.isPacked with c := .src (.flt .f32) }
  | .frcp _ t _ | .frsq _ t _ | .fexp2 _ t _ | .flog2 _ t _ | .fsinpi _ t _ | .fcospi _ t _ | .ftanh _ t _
  | .fsigm _ t _ => some { da 1 (.flt t) (isArithF t) with la := true }
  | .cvt _ code r _ =>
    let f := cvtForm code.val
    some { d := .vdst f.1, a := .src f.2.1,
           b := if code.val = 26 ∨ code.val = 27 then .src (.flt .f32) else .unused, c := .unused,
           mods := !f.2.2 || r == .rne }
  | .qnt _ t _ _ =>
    some { d := .vdst 1, a := .src (.flt .f32), b := .srcL (.flt .f32), c := .unused,
           mods := t ∈ [Ty.e4m3, .e5m2, .f16, .bf16, .s8, .n8, .s16, .n16, .s32] }
  | .dqnt _ t _ _ =>
    some { d := .vdst 1, a := .src (if t.isFloat then .flt t else rdI t), b := .srcL (.flt .f32), c := .unused,
           mods := t ∈ [Ty.e4m3, .e5m2, .f16, .bf16, .s8, .n8, .s16, .n16, .s32, .n32] }
  | .bfpack _ t _ _ => some (da 1 (.flt .f32) t.isBfp)
  | .bfunpack _ t _ => some { d := .vdst 1, a := .src rd32, b := .srcL (.flt .f32), c := .unused, mods := t.isBfp }
  | .seed _ _ => some { d := .unused, a := .unused, b := .srcL rd32, c := .unused, once := true }
  | .pack _ t _ =>
    if t = .b8 then some (dabc t rd32 true)
    else if t = .b16 then some { dabc t rd32 true with c := .unused }
    else some (da 1 rd32 t.isBfp)
  | .unpack _ t _ =>
    if t.isBfp then some (da 1 rd32 true)
    else some { d := .vdst 1, a := .src rd32, b := .srcL rd32, c := .unused,
                mods := t ∈ [Ty.s8, .n8, .s16, .n16] }
  | .aset _ _ | .aadd _ _ | .asub _ _ => some { d := .adst, a := .asrc, b := .asrcL, c := .unused }
  | .amul _ _ | .ashl _ _ | .aand _ _ => some { d := .adst, a := .asrc, b := .scalar, c := .unused }
  | .amov _ _ => some { d := .adst, a := .asrc, b := .unused, c := .unused }
  | .avec _ t _ => some { d := .vdst (Ty.words t), a := .asrc, b := .unused, c := .unused, mods := isB32to64 t }
  | .auni _ t _ =>
    some { d := .adst, a := .vsrc (Ty.words t), b := .unused, c := .unused, once := true,
           mods := t ∈ [Ty.s32, .n32, .b64] }
  | .acmp _ t _ _ => some { d := .pdst, a := .asrc, b := .asrcL, c := .unused, mods := t == .s64 || t == .n64 }
  | .aaddr _ _ _ => some { d := .adst, a := .asrc, b := .asrcL, c := .unused }
  | .bra _ _ | .call _ _ => some { d := .unused, a := .unused, b := { lit := anyLit }, c := .unused }
  | .brx _ _ | .calli _ _ =>
    some { d := .unused, a := { vec := 2, pair := true, rd := .int 2 false }, b := .unused, c := .unused }
  | .ret _ _ | .exit _ _ | .yield _ _ | .refill _ _ | .itemdone _ _ | .nop _ _ =>
    some { d := .unused, a := .unused, b := .unused, c := .unused }
  | .fent _ _ => some { d := .unused, a := .unused, b := { inl := some (1, 15), lit := some (1, 256) }, c := .unused }
  | .ksign _ _ | .kwait _ _ => some { d := { conv := true }, a := .unused, b := .unused, c := .unused }
  | .trap _ _ => some { d := .unused, a := .unused, b := { inl := some (0, 15), lit := some (0, 255) }, c := .unused }
  | .brk _ _ =>
    some { d := .unused, a := .unused, b := { inl := some (0, 15), lit := some (0, 255), null := true }, c := .unused }
  | .grow _ _ | .shrink _ _ =>
    some { d := .unused, a := .unused, b := { inl := some (0, 15), lit := some (0, 256) }, c := .unused }
  | .ld _ acc t o =>
    some { d := .vdst (Ty.words t), a := .addr, b := memB, c := memC o.b, la := true,
           mods := (t ∈ [Ty.s8, .s16, .n8, .n16, .b8, .b16, .b32, .b64, .b128]) && (t != .b128 || acc.val == 0) }
  | .st _ acc t o =>
    some { d := { vec := Ty.words t, null := true, rd := .int (Ty.words t) false }, a := .addr, b := memB, c := memC o.b, la := true,
           mods := (t ∈ [Ty.b8, .b16, .b32, .b64, .b128]) && (t != .b128 || acc.val == 0) }
  | .ldu _ t _ =>
    some { d := .adst, a := { pair := true, base := true }, b := { null := true, lit := anyLit }, c := .unused,
           la := true, mods := t ∈ [Ty.s32, .n32, .b64] }
  -- a null D of `pvaddr` is accepted (DESIGN CHOICE, log 149)
  | .pvaddr _ o => some { d := .vdst 2, a := .addr, b := memB, c := memC o.b, la := true }
  | .pf _ _ o => some { d := .unused, a := .addr, b := memB, c := memC o.b, la := true }
  | .atom _ f t o =>
    some { d := .vdst (Ty.words t), a := .addr, b := .src (rdAtom t),
           c := atomC (fun e => decide (e ≤ 17)) true o.c, la := true, mods := atomTy f t }
  | .atomcas _ t o =>
    some { d := .vdst (Ty.words t), a := .addr, b := .vsrc (2 * Ty.words t),
           c := atomC (fun e => decide (e ≤ 17)) true o.c, la := true, mods := isB32to64 t }
  | .red _ f t o =>
    some { d := .unused, a := .addr, b := .src (rdAtom t),
           c := atomC (fun e => decide (e ≤ 3) || (decide (8 ≤ e) && decide (e ≤ 11))) true o.c, la := true,
           mods := atomTy f t }
  | .fence _ o =>
    some { d := .unused, a := .unused, b := .unused,
           c := atomC (fun e => decide (4 ≤ e) && decide (e ≤ 15)) false o.c, la := true }
  | .nmlook _ _ _ | .nmnode _ _ _ =>
    some { d := .vdst! 4, a := .addr, b := { null := true, lit := anyLit }, c := .unused, la := true }
  | .nmreadLine _ _ root _ => some { d := .unused, a := .addr, b := nameNeed root, c := .unused, la := true }
  | .nmreadPiece _ _ root _ =>
    some { d := .vdst! 4, a := nameNeed root, b := Need.nat32 0 11 (some (0, 11)), c := .unused, la := true }
  | .nmwalk _ _ root _ =>
    some { d := .vdst! 4, a := nameNeed root, b := Need.nat32 0 31 anyLit, c := .unused, la := true }
  | .nmswap _ _ _ =>
    some { d := .vdst 4, a := Need.nat32 0 31 none, b := nameNeed false, c := nameNeed false, la := true }
  | .nmref _ _ root _ =>
    some { d := if root then .vdst! 4 else .unused, a := nameNeed root, b := .unused, c := .unused, la := true }
  | .nmdrop _ _ _ => some { d := .unused, a := nameNeed false, b := .unused, c := .unused, la := true }
  | .nmcopy _ _ root _ =>
    some { d := .unused, a := .addr, b := nameNeed root, c := { pair := true }, la := true }
  | .cpin _ _ bytes sig _ | .cpout _ _ bytes sig _ =>
    some { d := .tens, a := .tens, b := if bytes then .addr else .unused,
           c := if sig then Need.nat32 0 31 none else .unused, la := true }
  | .cpmc _ _ bytes _ =>
    some { d := .tens, a := .tens, b := if bytes then .addr else .unused, c := .vsrc 2, la := true }
  | .cpseal _ _ => some { d := .vdst 1, a := .addr, b := .unused, c := .unused, la := true }
  | .barinit _ _ => some { d := .unused, a := .addr, b := Need.nat32 1 15 (some (1, 65535)), c := .unused, la := true }
  | .arrive _ _ x _ =>
    some { d := .unused, a := .addr, b := if x then Need.nat32 0 15 (some (0, 2 ^ 31 - 1)) else .unused, c := .unused,
           la := true }
  | .bwait _ seq _ =>
    some { d := .unused, a := .addr,
           b := if seq then Need.nat32 0 15 (some (0, 65535)) else Need.nat32 0 1 (some (0, 1)), c := .unused, la := true }
  | .barinv _ _ => some { d := .unused, a := .addr, b := .unused, c := .unused, la := true }
  | .mma _ _ _ _ => some { d := .tile, a := .vsrc 1, b := .tens, c := .tens, la := true }
  | .mzero _ _ => some { d := .tile, a := .unused, b := .unused, c := .unused, la := true }
  | .mld _ _ _ => some { d := .tile, a := .tens, b := .unused, c := .unused, la := true }
  | .mdrain _ _ _ _ =>
    some { d := .tens, a := .tile, b := { pair := true }, c := { pair := true, null := true }, la := true }
  | .mmov _ t o =>
    some { d := .vdst! (Ty.words t), a := .tile, b := colNeed t o.b, c := .unused, la := true, mods := isB32to128 t }
  | .mput _ t o =>
    some { d := .tile, a := .vsrc (Ty.words t), b := colNeed t o.b, c := .unused, la := true, mods := isB32to128 t }
  | .launch _ _ => some { d := .vdst 1, a := .addr, b := .unused, c := .unused }
  | .trigger _ _ => some { d := .unused, a := .unused, b := .unused, c := .unused, once := true }
  | .tsig _ _ =>
    some { d := .unused, a := .unused, b := { vec := 1, pair := true, inl := some (0, 31), lit := some (0, 4095) },
           c := .unused }
  | .cancel _ l o =>
    some { d := .unused,
           a := if l = .launch then { vec := 1, null := true } else .unused,
           b := if l = .launch ∧ o.a = .null then { null := true, lit := anyLit } else .unused,
           c := .unused, once := true }
  | .tdset _ _ => some { d := .tens, a := .addr, b := .unused, c := .unused, once := true }
  | .tdmod _ _ o =>
    some { d := .tens, a := { vec := 2, pair := true, base := true, inl := some (0, 31), null := true, rd := .int 2 false },
           b := if o.a = .null then { null := true, lit := anyLit } else .unused, c := .unused, once := true }
  | .tdinv _ all _ =>
    some { d := if all then .unused else .tens, a := .unused, b := .unused, c := .unused, once := true }
  | .cread _ sp _ =>
    let w := match sp with | .record _ => 4 | _ => 2
    some { d := .vdst! w, a := .unused, b := creadB sp, c := .unused, once := true }
  | .sget _ _ => some { d := .vdst! 2, a := .unused, b := sysB, c := .unused, priv := true, once := true }
  | .sset _ _ =>
    some { d := { vec := 2, null := true, rd := .int 2 false }, a := .unused, b := sysB, c := .unused, priv := true, once := true }
  | .zsig _ _ => some { d := .unused, a := .unused, b := .unused, c := .unused, priv := true, once := true }
  | .tlbinv _ t _ =>
    some { d := .unused, a := if t = .va ∨ t = .ipa then .addr else .unused, b := sysB, c := .unused,
           priv := true, once := true }
  | .cmaint _ t _ =>
    some { d := .unused, a := if t = .l2page then .addr else .unused, b := .unused, c := .unused,
           priv := true, once := true }
  | .halt _ bnd gang _ =>
    some { d := .unused, a := .addr, b := sysB, c := .unused, priv := true, once := true, mods := bnd || !gang }
  | .bulkEvict _ _ | .bulkReturn _ _ =>
    some { d := .unused, a := .addr, b := .unused, c := .unused, priv := true, once := true }
  | .wsel _ _ => some { d := .vdst 1, a := .unused, b := sysB, c := .unused, priv := true, once := true }
  | .nmsync _ _ _ =>
    some { d := .unused, a := { nameNeed false with null := false }, b := { vec := 2, pair := true, rd := .int 2 false },
           c := { vec := 1, base := true }, priv := true, once := true }
  | _ => none

end Sys2Proof.Machine
end

