-- ==== Sys2Proof/WellFormed.lean ====
section
/-! DEFINITION. Which instructions are well-formed: R82 for the 96-bit words (with R66, R70, R71, R75, R77), R335
for the reeve words, and nothing for the rows that have no word. -/

namespace Sys2Proof

open Sys2Proof.Machine

/-- The control fields and operands of a 96-bit instruction. -/
def fieldsOf : Instr → Option (Ctl × Ops)
  | .iadd c _ _ o | .isub c _ _ o | .imul c _ _ o | .imad c _ _ o | .iabs c _ _ o | .ineg c _ _ o => some (c, o)
  | .imulh c _ o | .imin c _ o | .imax c _ o | .idiv c _ o | .irem c _ o | .isad c _ o | .mov c _ o
  | .iclamp c _ o => some (c, o)
  | .iaddc c _ _ o => some (c, o)
  | .idot4 c _ _ _ _ o => some (c, o)
  | .and c _ o | .or c _ o | .xor c _ o | .not c _ o | .andn c _ o | .rotl c _ o | .popc c _ o | .clz c _ o
  | .brev c _ o | .bfe c _ o | .bfi c _ o => some (c, o)
  | .shl c _ _ o | .shr c _ _ o | .sar c _ _ o => some (c, o)
  | .bmix c _ _ o => some (c, o)
  | .bsel c _ _ o => some (c, o)
  | .icmp c _ _ o => some (c, o)
  | .fcmp c _ _ o => some (c, o)
  | .sel c _ o | .pclass c _ o => some (c, o)
  | .pand c _ _ o | .por c _ _ o | .pxor c _ _ o => some (c, o)
  | .pnot c o | .pmov c o => some (c, o)
  | .pagg c _ o => some (c, o)
  | .lxch c _ _ o => some (c, o)
  | .lred c _ _ o | .lscan c _ _ o => some (c, o)
  | .lbcast c _ o | .lmatch c _ o => some (c, o)
  | .fadd c _ _ o | .fsub c _ _ o | .fmul c _ _ o | .ffma c _ _ o | .frnd c _ _ o | .fdiv c _ _ o | .fsqrt c _ _ o
  | .fscale c _ _ o | .fdot2 c _ _ o | .qnt c _ _ o | .dqnt c _ _ o | .bfpack c _ _ o => some (c, o)
  | .fmin c _ o | .fmax c _ o | .fclamp c _ o | .frcp c _ o | .frsq c _ o | .fexp2 c _ o | .flog2 c _ o
  | .fsinpi c _ o | .fcospi c _ o | .ftanh c _ o | .fsigm c _ o | .bfunpack c _ o | .pack c _ o
  | .unpack c _ o => some (c, o)
  | .cvt c _ _ o => some (c, o)
  | .seed c o => some (c, o)
  | .aset c o | .aadd c o | .asub c o | .amul c o | .ashl c o | .aand c o | .amov c o => some (c, o)
  | .avec c _ o | .auni c _ o => some (c, o)
  | .acmp c _ _ o => some (c, o)
  | .aaddr c _ o => some (c, o)
  | .bra c o | .brx c o | .call c o | .calli c o | .ret c o | .fent c o | .exit c o | .ksign c o | .kwait c o
  | .yield c o | .refill c o | .itemdone c o | .trap c o | .nop c o | .grow c o | .shrink c o | .brk c o => some (c, o)
  | .ld c _ _ o => some (c, o)
  | .st c _ _ o => some (c, o)
  | .ldu c _ o => some (c, o)
  | .pvaddr c o => some (c, o)
  | .pf c _ o => some (c, o)
  | .atom c _ _ o | .red c _ _ o => some (c, o)
  | .atomcas c _ o => some (c, o)
  | .fence c o => some (c, o)
  | .nmlook c _ o | .nmnode c _ o | .nmswap c _ o | .nmdrop c _ o => some (c, o)
  | .nmreadLine c _ _ o | .nmreadPiece c _ _ o | .nmwalk c _ _ o | .nmref c _ _ o | .nmcopy c _ _ o => some (c, o)
  | .cpin c _ _ _ o | .cpout c _ _ _ o => some (c, o)
  | .cpmc c _ _ o => some (c, o)
  | .cpseal c o | .barinit c o | .barinv c o => some (c, o)
  | .arrive c _ _ o => some (c, o)
  | .bwait c _ o => some (c, o)
  | .mma c _ _ o => some (c, o)
  | .mzero c o => some (c, o)
  | .mld c _ o => some (c, o)
  | .mdrain c _ _ o => some (c, o)
  | .mmov c _ o | .mput c _ o => some (c, o)
  | .launch c o | .trigger c o | .tsig c o => some (c, o)
  | .cancel c _ o => some (c, o)
  | .tdset c o => some (c, o)
  | .tdmod c _ o => some (c, o)
  | .tdinv c _ o => some (c, o)
  | .cread c _ o => some (c, o)
  | .sget c o | .sset c o | .zsig c o => some (c, o)
  | .tlbinv c _ o => some (c, o)
  | .cmaint c _ o => some (c, o)
  | .halt c _ _ o => some (c, o)
  | .bulkEvict c o | .bulkReturn c o | .wsel c o => some (c, o)
  | .nmsync c _ o => some (c, o)
  | _ => none

def isVec : Opnd → Bool
  | .vec _ => true
  | _ => false

def isLit : Opnd → Bool
  | .lit _ => true
  | _ => false

/-- A 96-bit instruction is well-formed (R82); beside a literal there is no operand C (R66). -/
def wellFormedWord (sh : Shape) (c : Ctl) (o : Ops) : Bool :=
  sh.mods && sh.d.accepts o.d && sh.a.accepts o.a && sh.b.accepts o.b && sh.c.accepts o.c
    && (!c.lra || isVec o.a) && (!c.lrb || isVec o.b) && (!c.lrc || isVec o.c)
    && (sh.la || c.la.val == 0) && (!isLit o.b || o.c == .null)

/-- Which fields of a reeve word an operation uses (R336): D, A, B, IMM. -/
def reeveUses : Instr → Option (RvOps × Bool × Bool × Bool × Bool)
  | .rvLi o => some (o, true, false, false, true)
  | .rvMov o | .rvDset o => some (o, true, true, false, false)
  | .rvAdd o | .rvSub o | .rvAnd o | .rvOr o | .rvXor o | .rvShl o | .rvShr o | .rvMul o | .rvMin o | .rvMax o
  | .rvSlt o | .rvSltn o | .rvSeq o | .rvSel o => some (o, true, true, true, false)
  | .rvCget o | .rvCld o | .rvCst o | .rvLoop o | .rvAddi o | .rvAndi o => some (o, true, true, false, true)
  | .rvCcas o => some (o, true, true, true, true)
  | .rvLend o | .rvDone o => some (o, false, false, false, false)
  | .rvBf o => some (o, false, true, false, true)
  | .rvJf o => some (o, false, false, false, true)
  | _ => none

/-- A reeve word is well-formed when the fields it does not use are 0 (R335). -/
def wellFormedReeve (o : RvOps) (ud ua ub ui : Bool) : Bool :=
  (ud || o.d.val == 0) && (ua || o.a.val == 0) && (ub || o.b.val == 0) && (ui || o.imm == 0)

def wellFormed (i : Instr) : Bool :=
  match fieldsOf i, shape i with
  | some (c, o), some sh => wellFormedWord sh c o
  | _, _ =>
    match reeveUses i with
    | some (o, ud, ua, ub, ui) => wellFormedReeve o ud ua ub ui
    | none => true

end Sys2Proof
end

