-- ==== Sys2Proof/Decode.lean ====
section
/-! DEFINITION. From words to instructions and back: the specifiers of R67, the modifier codes of R73 and R74, the
opcode map of R80 and the word of R63; the reeve word of R335. Decoding is total and rejects by name. -/

namespace Sys2Proof

open Sys2Proof.Machine

/-- Why a word is no instruction (R82, R335). -/
inductive DecodeError where
  /-- the all-zero word -/
  | allZero
  /-- the all-one word -/
  | allOne
  /-- an operation R80 or R335 leaves unassigned, or a modifier value no entry lists -/
  | unassigned
  /-- a specifier with a payload bit outside R67, an illegal part or special register -/
  | badSpecifier
  /-- reserved bit [72], or a bit the entry leaves undefined -/
  | reservedBit
  /-- an operand class, group, modifier, last-read bit or lookahead the entry does not accept -/
  | illFormed
  /-- fewer bytes than a word -/
  | tooShort
deriving DecidableEq, Repr

/-! ## Codes -/

def tyList : List Ty :=
  [.s8, .s16, .s32, .s64, .n8, .n16, .n32, .n64, .b8, .b16, .b32, .b64, .b128, .f32, .f16, .bf16, .f16x2, .bf16x2,
   .e4m3, .e5m2, .bfp2, .bfp3, .bfp4, .bfp5, .bfp6, .bfp7, .bfp8]

/-- Type codes of R73. -/
def tyCode : Ty → Nat
  | .s8 => 0 | .s16 => 1 | .s32 => 2 | .s64 => 3 | .n8 => 4 | .n16 => 5 | .n32 => 6 | .n64 => 7 | .b8 => 8
  | .b16 => 9 | .b32 => 10 | .b64 => 11 | .b128 => 12 | .f32 => 13 | .f16 => 14 | .bf16 => 15 | .f16x2 => 16
  | .bf16x2 => 17 | .e4m3 => 18 | .e5m2 => 19 | .bfp2 => 20 | .bfp3 => 21 | .bfp4 => 22 | .bfp5 => 23 | .bfp6 => 24
  | .bfp7 => 25 | .bfp8 => 26

def tyOf (n : Nat) : Option Ty := tyList[n]?

/-- Rounding codes of R74. -/
def rndCode : Rnd → Nat
  | .rne => 0 | .rtz => 1 | .rdn => 2 | .rup => 3 | .rs => 4
def rndOf (n : Nat) : Option Rnd := [Rnd.rne, .rtz, .rdn, .rup, .rs][n]?

def condCode : Cond → Nat
  | .eq => 0 | .ne => 1 | .lt => 2 | .le => 3 | .gt => 4 | .ge => 5
def condOf (n : Nat) : Option Cond := [Cond.eq, .ne, .lt, .le, .gt, .ge][n]?

def fcondCode : FCond → Nat
  | .eq => 0 | .ne => 1 | .lt => 2 | .le => 3 | .gt => 4 | .ge => 5 | .num => 6 | .nan => 7
def fcondOf (n : Nat) : Option FCond := [FCond.eq, .ne, .lt, .le, .gt, .ge, .num, .nan][n]?

def bmixCode : BmixFn → Nat
  | .maj => 0 | .xor3 => 1 | .and3 => 2 | .or3 => 3 | .mux => 4 | .andor => 5 | .andxor => 6 | .orand => 7
def bmixOf (n : Nat) : Option BmixFn := [BmixFn.maj, .xor3, .and3, .or3, .mux, .andor, .andxor, .orand][n]?

def bselCode : BselMode → Nat
  | .pick => 0 | .funnel => 1 | .rev => 2
def bselOf (n : Nat) : Option BselMode := [BselMode.pick, .funnel, .rev][n]?

def paggCode : PaggMode → Nat
  | .every => 0 | .some => 1 | .same => 2 | .mask => 3 | .count => 4
def paggOf (n : Nat) : Option PaggMode := [PaggMode.every, .some, .same, .mask, .count][n]?

def xchCode : XchMode → Nat
  | .abs => 0 | .back => 1 | .fwd => 2 | .mir => 3 | .rot => 4
def xchOf (n : Nat) : Option XchMode := [XchMode.abs, .back, .fwd, .mir, .rot][n]?

def atomCode : AtomFn → Nat
  | .add => 0 | .min => 1 | .max => 2 | .and => 3 | .or => 4 | .xor => 5 | .exch => 6
def atomOf (n : Nat) : Option AtomFn := [AtomFn.add, .min, .max, .and, .or, .xor, .exch][n]?

def levelCode : Level → Nat
  | .launch => 0 | .graph => 1 | .phase => 2 | .job => 3
def levelOf (n : Nat) : Option Level := [Level.launch, .graph, .phase, .job][n]?

def tdCode : TdField → Nat
  | .base => 0 | .sbase => 1 | .rows => 2 | .cols => 3 | .pitch => 4 | .spitch => 5 | .baseadd => 6 | .sbaseadd => 7
def tdOf (n : Nat) : Option TdField := [TdField.base, .sbase, .rows, .cols, .pitch, .spitch, .baseadd, .sbaseadd][n]?

def tlbCode : TlbType → Nat
  | .va => 0 | .ipa => 1 | .vf => 2 | .all => 3
def tlbOf (n : Nat) : Option TlbType := [TlbType.va, .ipa, .vf, .all][n]?

def cmaintCode : CmaintType → Nat
  | .l1wb => 0 | .l1inv => 1 | .l2page => 2
def cmaintOf (n : Nat) : Option CmaintType := [CmaintType.l1wb, .l1inv, .l2page][n]?

/-- MOD of `cread` (R411). -/
def spaceCode : ReadSpace → Nat
  | .meter => 0
  | .reeveCore => 1 + 32 * 1
  | .reeveTenant => 1 + 32 * 2
  | .reeveCluster => 1 + 32 * 3
  | .record l => 2 + 32 * levelCode l
  | .coll d => 3 + 32 * d.val
  | .time => 4
  | .clock => 5

def spaceOf (m : Nat) : Option ReadSpace :=
  match m % 32, m / 32 with
  | 0, 0 => some .meter
  | 1, 1 => some .reeveCore
  | 1, 2 => some .reeveTenant
  | 1, 3 => some .reeveCluster
  | 2, k => (levelOf k).map .record
  | 3, k => if h : k < 8 then some (.coll ⟨k, h⟩) else none
  | 4, 0 => some .time
  | 5, 0 => some .clock
  | _, _ => none

def sregList : List SReg :=
  [.lane, .strand, .item, .unit, .ux, .uy, .uz, .ix, .iy, .iz, .quarter, .core, .cluster, .die, .clock, .seed]

/-- Special register numbers of R68. -/
def sregCode : SReg → Nat
  | .lane => 0 | .strand => 1 | .item => 2 | .unit => 3 | .ux => 4 | .uy => 5 | .uz => 6 | .ix => 7 | .iy => 8
  | .iz => 9 | .quarter => 10 | .core => 11 | .cluster => 12 | .die => 13 | .clock => 14 | .seed => 15

/-! ## Specifiers (R67) -/

def apartCode : APart → Nat
  | .pair => 0 | .base => 1 | .stride => 2
def apartOf (n : Nat) : Option APart := [APart.pair, .base, .stride][n]?

def specCode : Opnd → Nat
  | .vec n => n.val
  | .aff n p => 1 * 8192 + 32 * apartCode p + n.val
  | .pred n => 2 * 8192 + n.val
  | .conv n => 2 * 8192 + 8 + n.val
  | .inline e => 3 * 8192 + e.val
  | .special r => 4 * 8192 + sregCode r
  | .td n => 5 * 8192 + n.val
  | .acc n => 6 * 8192 + n.val
  | .null => 7 * 8192
  | .lit _ => 7 * 8192

/-- The operand a specifier names; payload bits outside R67 make it no specifier. -/
def specOf (x : Nat) : Option Opnd :=
  let p := x % 8192
  match x / 8192 with
  | 0 => if h : p < 256 then some (.vec ⟨p, h⟩) else none
  | 1 => if p < 128 then (apartOf (p / 32)).map (.aff (Fin.ofNat 32 p)) else none
  | 2 => if p < 8 then some (.pred (Fin.ofNat 8 p)) else if p < 16 then some (.conv (Fin.ofNat 8 p)) else none
  | 3 => if h : p < 64 then some (.inline ⟨p, h⟩) else none
  | 4 => (sregList[p]?).map .special
  | 5 => if h : p < 256 then some (.td ⟨p, h⟩) else none
  | 6 => if h : p < 8 then some (.acc ⟨p, h⟩) else none
  | 7 => if p = 0 then some .null else none
  | _ => none

/-! ## The opcode map (R80): 64·group + operation -/

def opcode : Instr → Option Nat
  | .iadd .. => some 0 | .isub .. => some 1 | .imul .. => some 2 | .imulh .. => some 3 | .imad .. => some 4
  | .imin .. => some 5 | .imax .. => some 6 | .iabs .. => some 7 | .ineg .. => some 8 | .idiv .. => some 9
  | .irem .. => some 10 | .iaddc .. => some 11 | .isad .. => some 12 | .idot4 .. => some 13 | .mov .. => some 14
  | .iclamp .. => some 15
  | .and .. => some 64 | .or .. => some 65 | .xor .. => some 66 | .not .. => some 67 | .andn .. => some 68
  | .shl .. => some 69 | .shr .. => some 70 | .sar .. => some 71 | .rotl .. => some 72 | .popc .. => some 73
  | .clz .. => some 74 | .brev .. => some 75 | .bfe .. => some 76 | .bfi .. => some 77 | .bmix .. => some 78
  | .bsel .. => some 79
  | .icmp .. => some 128 | .fcmp .. => some 129 | .sel .. => some 130 | .pand .. => some 131 | .por .. => some 132
  | .pxor .. => some 133 | .pnot .. => some 134 | .pmov .. => some 135 | .pagg .. => some 136 | .pclass .. => some 137
  | .lxch .. => some 192 | .lred .. => some 193 | .lscan .. => some 194 | .lbcast .. => some 195
  | .lmatch .. => some 196
  | .fadd .. => some 256 | .fsub .. => some 257 | .fmul .. => some 258 | .ffma .. => some 259 | .fmin .. => some 260
  | .fmax .. => some 261 | .frnd .. => some 262 | .fdiv .. => some 263 | .fsqrt .. => some 264 | .fclamp .. => some 265
  | .fscale .. => some 266 | .fdot2 .. => some 267
  | .frcp .. => some 320 | .frsq .. => some 321 | .fexp2 .. => some 322 | .flog2 .. => some 323
  | .fsinpi .. => some 324 | .fcospi .. => some 325 | .ftanh .. => some 326 | .fsigm .. => some 327
  | .cvt .. => some 384 | .qnt .. => some 385 | .dqnt .. => some 386 | .bfpack .. => some 387 | .bfunpack .. => some 388
  | .seed .. => some 389 | .pack .. => some 390 | .unpack .. => some 391
  | .aset .. => some 448 | .aadd .. => some 449 | .asub .. => some 450 | .amul .. => some 451 | .ashl .. => some 452
  | .aand .. => some 453 | .amov .. => some 454 | .avec .. => some 455 | .auni .. => some 456 | .acmp .. => some 457
  | .aaddr .. => some 458
  | .bra .. => some 512 | .brx .. => some 513 | .call .. => some 514 | .calli .. => some 515 | .ret .. => some 516
  | .fent .. => some 517 | .exit .. => some 518 | .ksign .. => some 519 | .kwait .. => some 520 | .yield .. => some 521
  | .refill .. => some 522 | .itemdone .. => some 523 | .trap .. => some 524 | .nop .. => some 525
  | .grow .. => some 526 | .shrink .. => some 527 | .brk .. => some 528
  | .ld .. => some 576 | .st .. => some 577 | .ldu .. => some 578 | .pvaddr .. => some 579 | .pf .. => some 580
  | .atom .. => some 640 | .atomcas .. => some 641 | .red .. => some 642 | .fence .. => some 643
  | .nmlook .. => some 704 | .nmnode .. => some 705 | .nmreadLine .. => some 706 | .nmreadPiece .. => some 706
  | .nmwalk .. => some 707 | .nmswap .. => some 708 | .nmref .. => some 709 | .nmdrop .. => some 710
  | .nmcopy .. => some 711
  | .cpin .. => some 768 | .cpout .. => some 769 | .cpmc .. => some 770 | .cpseal .. => some 771
  | .barinit .. => some 772 | .arrive .. => some 773 | .bwait .. => some 774 | .barinv .. => some 775
  | .mma .. => some 832 | .mzero .. => some 833 | .mld .. => some 834 | .mdrain .. => some 835 | .mmov .. => some 836
  | .mput .. => some 837
  | .launch .. => some 896 | .trigger .. => some 897 | .tsig .. => some 898 | .cancel .. => some 899
  | .tdset .. => some 900 | .tdmod .. => some 901 | .tdinv .. => some 902 | .cread .. => some 903
  | .sget .. => some 960 | .sset .. => some 961 | .zsig .. => some 962 | .tlbinv .. => some 963 | .cmaint .. => some 964
  | .halt .. => some 965 | .bulkEvict .. => some 966 | .bulkReturn .. => some 966 | .wsel .. => some 967
  | .nmsync .. => some 968
  | _ => none

def b2n (b : Bool) : Nat := if b then 1 else 0

/-- MOD, bits [71:64] of the word, as each chapter's encoding table lays it out. -/
def modBits : Instr → Nat
  | .iadd _ t s _ | .isub _ t s _ | .imul _ t s _ | .imad _ t s _ | .iabs _ t s _ | .ineg _ t s _ => tyCode t + 32 * b2n s
  | .imulh _ t _ | .imin _ t _ | .imax _ t _ | .idiv _ t _ | .irem _ t _ | .isad _ t _ | .mov _ t _
  | .iclamp _ t _ => tyCode t
  | .iaddc _ t cp _ => tyCode t + 32 * cp.val
  | .idot4 _ t sa sb s _ => tyCode t + 32 * b2n sa + 64 * b2n sb + 128 * b2n s
  | .and _ t _ | .or _ t _ | .xor _ t _ | .not _ t _ | .andn _ t _ | .rotl _ t _ | .popc _ t _ | .clz _ t _
  | .brev _ t _ | .bfe _ t _ | .bfi _ t _ => tyCode t
  | .shl _ t k _ | .shr _ t k _ | .sar _ t k _ => tyCode t + 32 * b2n k
  | .bmix _ t f _ => tyCode t + 32 * bmixCode f
  | .bsel _ t m _ => tyCode t + 32 * bselCode m
  | .icmp _ t c _ => tyCode t + 32 * condCode c
  | .fcmp _ t c _ => tyCode t + 32 * fcondCode c
  | .sel _ t _ | .pclass _ t _ => tyCode t
  | .pand _ na nb _ | .por _ na nb _ | .pxor _ na nb _ => 32 * b2n na + 64 * b2n nb
  | .pnot _ _ | .pmov _ _ => 0
  | .pagg _ m _ => 32 * paggCode m
  | .lxch _ t m _ => tyCode t + 32 * xchCode m
  | .lred _ t k _ | .lscan _ t k _ => tyCode t + 32 * k.val
  | .lbcast _ t _ | .lmatch _ t _ => tyCode t
  | .fadd _ t r _ | .fsub _ t r _ | .fmul _ t r _ | .ffma _ t r _ | .frnd _ t r _ | .fdiv _ t r _ | .fsqrt _ t r _
  | .fscale _ t r _ | .fdot2 _ t r _ | .qnt _ t r _ | .dqnt _ t r _ | .bfpack _ t r _ => tyCode t + 32 * rndCode r
  | .fmin _ t _ | .fmax _ t _ | .fclamp _ t _ | .frcp _ t _ | .frsq _ t _ | .fexp2 _ t _ | .flog2 _ t _
  | .fsinpi _ t _ | .fcospi _ t _ | .ftanh _ t _ | .fsigm _ t _ | .bfunpack _ t _ | .pack _ t _
  | .unpack _ t _ => tyCode t
  | .cvt _ k r _ => k.val + 32 * rndCode r
  | .seed _ _ => 0
  | .aset .. | .aadd .. | .asub .. | .amul .. | .ashl .. | .aand .. | .amov .. => 0
  | .avec _ t _ | .auni _ t _ => tyCode t
  | .acmp _ t c _ => tyCode t + 32 * condCode c
  | .aaddr _ s _ => s.val
  | .bra .. | .brx .. | .call .. | .calli .. | .ret .. | .fent .. | .exit .. | .ksign .. | .kwait .. | .yield ..
  | .refill .. | .itemdone .. | .trap .. | .nop .. | .grow .. | .shrink .. | .brk .. => 0
  | .ld _ acc t _ => tyCode t + 16 * acc.val
  | .st _ acc t _ => tyCode t + 16 * acc.val
  | .ldu _ t _ => tyCode t
  | .pvaddr .. => 0
  | .pf _ l2 _ => 16 * b2n l2
  | .atom _ f t _ | .red _ f t _ => tyCode t + 32 * atomCode f
  | .atomcas _ t _ => tyCode t
  | .fence .. => 0
  | .nmlook _ ds _ | .nmnode _ ds _ | .nmswap _ ds _ | .nmdrop _ ds _ => 32 * ds.val
  | .nmreadLine _ ds r _ | .nmwalk _ ds r _ | .nmref _ ds r _ | .nmcopy _ ds r _ => 16 * b2n r + 32 * ds.val
  | .nmreadPiece _ ds r _ => 1 + 16 * b2n r + 32 * ds.val
  | .cpin _ k b s _ | .cpout _ k b s _ => k.val + 32 * b2n b + 64 * b2n s
  | .cpmc _ k b _ => k.val + 32 * b2n b
  | .cpseal .. | .barinit .. | .barinv .. => 0
  | .arrive _ one x _ => b2n one + 2 * b2n x
  | .bwait _ sq _ => b2n sq
  | .mma _ k a _ => a.val + 32 * k.val
  | .mzero .. => 0
  | .mld _ a _ => a.val
  | .mdrain _ r a _ => a.val + 32 * rndCode r
  | .mmov _ t _ | .mput _ t _ => tyCode t
  | .launch .. | .trigger .. | .tsig .. | .tdset .. => 0
  | .cancel _ l _ => levelCode l
  | .tdmod _ f _ => tdCode f
  | .tdinv _ all _ => b2n all
  | .cread _ sp _ => spaceCode sp
  | .sget .. | .sset .. | .zsig .. | .bulkEvict .. | .bulkReturn .. | .wsel .. => 0
  | .tlbinv _ t _ => tlbCode t
  | .cmaint _ t _ => cmaintCode t
  | .halt _ b g _ => b2n b + 2 * b2n g
  | .nmsync _ ds _ => 32 * ds.val
  | _ => 0

/-! ## The word (R63) -/

/-- Bits [31:0]: operands C and B, or the literal. -/
def lowWord (o : Ops) : Nat :=
  match o.b with
  | .lit w => w.toNat
  | b => specCode o.c * 65536 + specCode b

/-- Bits [95:64] by the formula of R126. -/
def thirdWord (op m : Nat) (c : Ctl) (lit : Bool) : Nat :=
  op * 4194304 + b2n c.gneg * 2097152 + c.gpred.val * 262144 + c.la.val * 16384 + b2n c.lra * 8192
    + b2n c.lrb * 4096 + b2n c.lrc * 2048 + b2n c.yield * 1024 + b2n lit * 512 + m

/-- Operation number of a reeve word (R336). -/
def reeveOp : Instr → Option (Nat × RvOps)
  | .rvLi o => some (0, o) | .rvMov o => some (1, o) | .rvAdd o => some (2, o) | .rvSub o => some (3, o)
  | .rvAnd o => some (4, o) | .rvOr o => some (5, o) | .rvXor o => some (6, o) | .rvShl o => some (7, o)
  | .rvShr o => some (8, o) | .rvMul o => some (9, o) | .rvMin o => some (10, o) | .rvMax o => some (11, o)
  | .rvSlt o => some (12, o) | .rvSltn o => some (13, o) | .rvSeq o => some (14, o) | .rvSel o => some (15, o)
  | .rvCget o => some (16, o) | .rvCld o => some (17, o) | .rvCst o => some (18, o) | .rvCcas o => some (19, o)
  | .rvLoop o => some (20, o) | .rvLend o => some (21, o) | .rvBf o => some (22, o) | .rvJf o => some (23, o)
  | .rvDset o => some (24, o) | .rvDone o => some (25, o) | .rvAddi o => some (26, o) | .rvAndi o => some (27, o)
  | _ => none

/-- The word of an instruction as a number (R63, R335); 0 for the rows that have no word. -/
def wordOf (i : Instr) : Nat :=
  match opcode i, fieldsOf i with
  | some op, some (c, o) =>
    thirdWord op (modBits i) c (isLit o.b) * 2 ^ 64 + (specCode o.d * 65536 + specCode o.a) * 2 ^ 32 + lowWord o
  | _, _ =>
    match reeveOp i with
    | some (op, o) => op * 67108864 + o.d.val * 4194304 + o.a.val * 262144 + o.b.val * 16384 + o.imm.toNat
    | none => 0

/-- The bytes of an instruction as memory holds them (R63, R335, R1). -/
def encode (i : Instr) : List Byte :=
  match opcode i with
  | some _ => toBytes 12 (wordOf i)
  | none =>
    match reeveOp i with
    | some _ => toBytes 4 (wordOf i)
    | none => []

/-! ## Decoding -/

def bitAt (m i : Nat) : Bool := m / 2 ^ i % 2 == 1

/-- The instruction of a group's operation number, from its MOD bits. Undefined MOD bits are dropped here and
refused by `decodeWord`, which compares the word. -/
def parse0 (k m : Nat) (c : Ctl) (o : Ops) : Option Instr :=
  match tyOf (m % 32) with
  | none => none
  | some t =>
    match k with
    | 0 => some (.iadd c t (bitAt m 5) o) | 1 => some (.isub c t (bitAt m 5) o) | 2 => some (.imul c t (bitAt m 5) o)
    | 3 => some (.imulh c t o) | 4 => some (.imad c t (bitAt m 5) o) | 5 => some (.imin c t o) | 6 => some (.imax c t o)
    | 7 => some (.iabs c t (bitAt m 5) o) | 8 => some (.ineg c t (bitAt m 5) o) | 9 => some (.idiv c t o)
    | 10 => some (.irem c t o) | 11 => some (.iaddc c t (Fin.ofNat 8 (m / 32)) o) | 12 => some (.isad c t o)
    | 13 => some (.idot4 c t (bitAt m 5) (bitAt m 6) (bitAt m 7) o) | 14 => some (.mov c t o)
    | 15 => some (.iclamp c t o) | _ => none

def parse1 (k m : Nat) (c : Ctl) (o : Ops) : Option Instr :=
  match tyOf (m % 32) with
  | none => none
  | some t =>
    match k with
    | 0 => some (.and c t o) | 1 => some (.or c t o) | 2 => some (.xor c t o) | 3 => some (.not c t o)
    | 4 => some (.andn c t o) | 5 => some (.shl c t (bitAt m 5) o) | 6 => some (.shr c t (bitAt m 5) o)
    | 7 => some (.sar c t (bitAt m 5) o) | 8 => some (.rotl c t o) | 9 => some (.popc c t o) | 10 => some (.clz c t o)
    | 11 => some (.brev c t o) | 12 => some (.bfe c t o) | 13 => some (.bfi c t o)
    | 14 => (bmixOf (m / 32)).map (.bmix c t · o) | 15 => (bselOf (m / 32)).map (.bsel c t · o) | _ => none

def parse2 (k m : Nat) (c : Ctl) (o : Ops) : Option Instr :=
  match k with
  | 0 => match tyOf (m % 32), condOf (m / 32) with
         | some t, some q => some (.icmp c t q o)
         | _, _ => none
  | 1 => match tyOf (m % 32), fcondOf (m / 32) with
         | some t, some q => some (.fcmp c t q o)
         | _, _ => none
  | 2 => (tyOf (m % 32)).map (.sel c · o)
  | 3 => some (.pand c (bitAt m 5) (bitAt m 6) o)
  | 4 => some (.por c (bitAt m 5) (bitAt m 6) o)
  | 5 => some (.pxor c (bitAt m 5) (bitAt m 6) o)
  | 6 => some (.pnot c o)
  | 7 => some (.pmov c o)
  | 8 => (paggOf (m / 32)).map (.pagg c · o)
  | 9 => (tyOf (m % 32)).map (.pclass c · o)
  | _ => none

def parse3 (k m : Nat) (c : Ctl) (o : Ops) : Option Instr :=
  match tyOf (m % 32) with
  | none => none
  | some t =>
    match k with
    | 0 => (xchOf (m / 32)).map (.lxch c t · o)
    | 1 => if h : m / 32 < 7 then some (.lred c t ⟨m / 32, h⟩ o) else none
    | 2 => if h : m / 32 < 7 then some (.lscan c t ⟨m / 32, h⟩ o) else none
    | 3 => some (.lbcast c t o)
    | 4 => some (.lmatch c t o)
    | _ => none

def parse4 (k m : Nat) (c : Ctl) (o : Ops) : Option Instr :=
  match tyOf (m % 32), rndOf (m / 32) with
  | some t, some r =>
    match k with
    | 0 => some (.fadd c t r o) | 1 => some (.fsub c t r o) | 2 => some (.fmul c t r o) | 3 => some (.ffma c t r o)
    | 4 => some (.fmin c t o) | 5 => some (.fmax c t o) | 6 => some (.frnd c t r o) | 7 => some (.fdiv c t r o)
    | 8 => some (.fsqrt c t r o) | 9 => some (.fclamp c t o) | 10 => some (.fscale c t r o)
    | 11 => some (.fdot2 c t r o) | _ => none
  | _, _ => none

def parse5 (k m : Nat) (c : Ctl) (o : Ops) : Option Instr :=
  match tyOf (m % 32) with
  | none => none
  | some t =>
    match k with
    | 0 => some (.frcp c t o) | 1 => some (.frsq c t o) | 2 => some (.fexp2 c t o) | 3 => some (.flog2 c t o)
    | 4 => some (.fsinpi c t o) | 5 => some (.fcospi c t o) | 6 => some (.ftanh c t o) | 7 => some (.fsigm c t o)
    | _ => none

def parse6 (k m : Nat) (c : Ctl) (o : Ops) : Option Instr :=
  match k with
  | 0 => if h : m % 32 < 30 then (rndOf (m / 32)).map (.cvt c ⟨m % 32, h⟩ · o) else none
  | 1 => match tyOf (m % 32), rndOf (m / 32) with
         | some t, some r => some (.qnt c t r o)
         | _, _ => none
  | 2 => match tyOf (m % 32), rndOf (m / 32) with
         | some t, some r => some (.dqnt c t r o)
         | _, _ => none
  | 3 => match tyOf (m % 32), rndOf (m / 32) with
         | some t, some r => some (.bfpack c t r o)
         | _, _ => none
  | 4 => (tyOf (m % 32)).map (.bfunpack c · o)
  | 5 => some (.seed c o)
  | 6 => (tyOf (m % 32)).map (.pack c · o)
  | 7 => (tyOf (m % 32)).map (.unpack c · o)
  | _ => none

def parse7 (k m : Nat) (c : Ctl) (o : Ops) : Option Instr :=
  match k with
  | 0 => some (.aset c o) | 1 => some (.aadd c o) | 2 => some (.asub c o) | 3 => some (.amul c o)
  | 4 => some (.ashl c o) | 5 => some (.aand c o) | 6 => some (.amov c o)
  | 7 => (tyOf (m % 32)).map (.avec c · o)
  | 8 => (tyOf (m % 32)).map (.auni c · o)
  | 9 => match tyOf (m % 32), condOf (m / 32) with
         | some t, some q => some (.acmp c t q o)
         | _, _ => none
  | 10 => if h : m < 5 then some (.aaddr c ⟨m, h⟩ o) else none
  | _ => none

def parse8 (k : Nat) (c : Ctl) (o : Ops) : Option Instr :=
  match k with
  | 0 => some (.bra c o) | 1 => some (.brx c o) | 2 => some (.call c o) | 3 => some (.calli c o) | 4 => some (.ret c o)
  | 5 => some (.fent c o) | 6 => some (.exit c o) | 7 => some (.ksign c o) | 8 => some (.kwait c o)
  | 9 => some (.yield c o) | 10 => some (.refill c o) | 11 => some (.itemdone c o) | 12 => some (.trap c o)
  | 13 => some (.nop c o) | 14 => some (.grow c o) | 15 => some (.shrink c o) | 16 => some (.brk c o) | _ => none

def parse9 (k m : Nat) (c : Ctl) (o : Ops) : Option Instr :=
  match k with
  | 0 => if h : m / 16 < 10 then (tyOf (m % 16)).map (.ld c ⟨m / 16, h⟩ · o) else none
  | 1 => if h : m / 16 < 9 then (tyOf (m % 16)).map (.st c ⟨m / 16, h⟩ · o) else none
  | 2 => (tyOf (m % 16)).map (.ldu c · o)
  | 3 => some (.pvaddr c o)
  | 4 => some (.pf c (bitAt m 4) o)
  | _ => none

def parse10 (k m : Nat) (c : Ctl) (o : Ops) : Option Instr :=
  match k with
  | 0 => match tyOf (m % 32), atomOf (m / 32) with
         | some t, some f => some (.atom c f t o)
         | _, _ => none
  | 1 => (tyOf (m % 32)).map (.atomcas c · o)
  | 2 => match tyOf (m % 32), atomOf (m / 32) with
         | some t, some f => some (.red c f t o)
         | _, _ => none
  | 3 => some (.fence c o)
  | _ => none

def parse11 (k m : Nat) (c : Ctl) (o : Ops) : Option Instr :=
  let ds := Fin.ofNat 8 (m / 32)
  match k with
  | 0 => some (.nmlook c ds o) | 1 => some (.nmnode c ds o)
  | 2 => some (if bitAt m 0 then .nmreadPiece c ds (bitAt m 4) o else .nmreadLine c ds (bitAt m 4) o)
  | 3 => some (.nmwalk c ds (bitAt m 4) o) | 4 => some (.nmswap c ds o) | 5 => some (.nmref c ds (bitAt m 4) o)
  | 6 => some (.nmdrop c ds o) | 7 => some (.nmcopy c ds (bitAt m 4) o) | _ => none

def parse12 (k m : Nat) (c : Ctl) (o : Ops) : Option Instr :=
  let r := Fin.ofNat 32 m
  match k with
  | 0 => some (.cpin c r (bitAt m 5) (bitAt m 6) o) | 1 => some (.cpout c r (bitAt m 5) (bitAt m 6) o)
  | 2 => some (.cpmc c r (bitAt m 5) o) | 3 => some (.cpseal c o) | 4 => some (.barinit c o)
  | 5 => some (.arrive c (bitAt m 0) (bitAt m 1) o) | 6 => some (.bwait c (bitAt m 0) o) | 7 => some (.barinv c o)
  | _ => none

def parse13 (k m : Nat) (c : Ctl) (o : Ops) : Option Instr :=
  let r := Fin.ofNat 32 m
  match k with
  | 0 => some (.mma c (Fin.ofNat 8 (m / 32)) r o) | 1 => some (.mzero c o) | 2 => some (.mld c r o)
  | 3 => (rndOf (m / 32)).map (.mdrain c · r o)
  | 4 => (tyOf (m % 32)).map (.mmov c · o) | 5 => (tyOf (m % 32)).map (.mput c · o) | _ => none

def parse14 (k m : Nat) (c : Ctl) (o : Ops) : Option Instr :=
  match k with
  | 0 => some (.launch c o) | 1 => some (.trigger c o) | 2 => some (.tsig c o)
  | 3 => (levelOf m).map (.cancel c · o)
  | 4 => some (.tdset c o)
  | 5 => (tdOf m).map (.tdmod c · o)
  | 6 => some (.tdinv c (bitAt m 0) o)
  | 7 => (spaceOf m).map (.cread c · o)
  | _ => none

def parse15 (k m : Nat) (c : Ctl) (o : Ops) : Option Instr :=
  match k with
  | 0 => some (.sget c o) | 1 => some (.sset c o) | 2 => some (.zsig c o)
  | 3 => (tlbOf m).map (.tlbinv c · o)
  | 4 => (cmaintOf m).map (.cmaint c · o)
  | 5 => some (.halt c (bitAt m 0) (bitAt m 1) o)
  | 6 => some (.bulkEvict c o)
  | 7 => some (.wsel c o)
  | 8 => some (.nmsync c (Fin.ofNat 8 (m / 32)) o)
  | _ => none

def parseOp (op m : Nat) (c : Ctl) (o : Ops) : Option Instr :=
  let k := op % 64
  match op / 64 with
  | 0 => parse0 k m c o | 1 => parse1 k m c o | 2 => parse2 k m c o | 3 => parse3 k m c o
  | 4 => parse4 k m c o | 5 => parse5 k m c o | 6 => parse6 k m c o | 7 => parse7 k m c o
  | 8 => parse8 k c o | 9 => parse9 k m c o | 10 => parse10 k m c o | 11 => parse11 k m c o
  | 12 => parse12 k m c o | 13 => parse13 k m c o | 14 => parse14 k m c o | 15 => parse15 k m c o
  | _ => none

/-- Control fields of a third word. -/
def ctlOf (x : Nat) : Ctl :=
  ⟨bitAt x 21, Fin.ofNat 8 (x / 2 ^ 18), Fin.ofNat 16 (x / 2 ^ 14), bitAt x 13, bitAt x 12, bitAt x 11, bitAt x 10⟩

/-- The four operands of the low 64 bits under LIT. -/
def opsOf (lit : Bool) (lo : Nat) : Option Ops :=
  match specOf (lo / 2 ^ 48 % 65536), specOf (lo / 2 ^ 32 % 65536) with
  | some d, some a =>
    if lit then some ⟨d, a, .lit (BitVec.ofNat 32 lo), .null⟩
    else
      match specOf (lo % 65536), specOf (lo / 65536 % 65536) with
      | some b, some cc => some ⟨d, a, b, cc⟩
      | _, _ => none
  | _, _ => none

/-- A 96-bit word as an instruction (R63, R80, R82). -/
def decodeWord (w : Nat) : Except DecodeError Instr :=
  if w = 0 then .error .allZero
  else if w = 2 ^ 96 - 1 then .error .allOne
  else
    let x := w / 2 ^ 64
    if bitAt x 8 then .error .reservedBit
    else
      match opsOf (bitAt x 9) (w % 2 ^ 64) with
      | none => .error .badSpecifier
      | some o =>
        match parseOp (x / 4194304) (x % 256) (ctlOf x) o with
        | none => .error .unassigned
        | some i =>
          if wordOf i ≠ w then .error .reservedBit
          else if wellFormed i then .ok i
          else .error .illFormed

/-- A 32-bit reeve word as an instruction (R335, R336). -/
def parseReeve (op : Nat) (o : RvOps) : Option Instr :=
  match op with
  | 0 => some (.rvLi o) | 1 => some (.rvMov o) | 2 => some (.rvAdd o) | 3 => some (.rvSub o) | 4 => some (.rvAnd o)
  | 5 => some (.rvOr o) | 6 => some (.rvXor o) | 7 => some (.rvShl o) | 8 => some (.rvShr o) | 9 => some (.rvMul o)
  | 10 => some (.rvMin o) | 11 => some (.rvMax o) | 12 => some (.rvSlt o) | 13 => some (.rvSltn o)
  | 14 => some (.rvSeq o) | 15 => some (.rvSel o) | 16 => some (.rvCget o) | 17 => some (.rvCld o)
  | 18 => some (.rvCst o) | 19 => some (.rvCcas o) | 20 => some (.rvLoop o) | 21 => some (.rvLend o)
  | 22 => some (.rvBf o) | 23 => some (.rvJf o) | 24 => some (.rvDset o) | 25 => some (.rvDone o)
  | 26 => some (.rvAddi o) | 27 => some (.rvAndi o) | _ => none

def decodeReeve (w : Nat) : Except DecodeError Instr :=
  if 2 ^ 32 ≤ w then .error .unassigned
  else
    let o : RvOps := ⟨Fin.ofNat 16 (w / 4194304), Fin.ofNat 16 (w / 262144), Fin.ofNat 16 (w / 16384), BitVec.ofNat 14 w⟩
    match parseReeve (w / 67108864) o with
    | none => .error .unassigned
    | some i => if wellFormed i then .ok i else .error .reservedBit

/-- Twelve bytes of a Ramson instruction stream. -/
def decode (bs : List Byte) : Except DecodeError Instr :=
  if bs.length < 12 then .error .tooShort else decodeWord (ofBytes (bs.take 12))

/-- Four bytes of a reeve instruction stream. -/
def decodeReeveBytes (bs : List Byte) : Except DecodeError Instr :=
  if bs.length < 4 then .error .tooShort else decodeReeve (ofBytes (bs.take 4))

/-- The instruction of a row's word, numbered as the opcode table numbers it: 32 bits for the reeve rows, 96 for
the others. -/
def decodeTableWord (nbits w : Nat) : Option Instr :=
  if nbits = 32 then
    match decodeReeve w with
    | .ok i => some i
    | .error _ => none
  else if nbits = 96 then
    match decode (toBytes 12 w) with
    | .ok i => some i
    | .error _ => none
  else none

end Sys2Proof
end

