-- ==== Sys2Proof/Machine/Hash.lean ====
section
/-! DEFINITION. The two hashes the manual names and leaves to their own standards (log 30): keyed BLAKE3 over one
chunk, for cairn names (R276), and SHA-384, for usage records, receipts and attestation (R379, R408, R450). -/

namespace Sys2Proof.Machine

open Sys2Proof

/-! ## BLAKE3, keyed mode, input of at most one chunk -/

def blakeIv : List Word :=
  [0x6A09E667, 0xBB67AE85, 0x3C6EF372, 0xA54FF53A, 0x510E527F, 0x9B05688C, 0x1F83D9AB, 0x5BE0CD19]

def blakePerm : List Nat := [2, 6, 3, 10, 7, 0, 4, 13, 1, 11, 12, 5, 9, 14, 15, 8]

def rotr32 (x : Word) (n : Nat) : Word := x.rotateRight n

/-- The mixing function on words a, b, c, d of the state. -/
def blakeG (v : List Word) (a b c d : Nat) (x y : Word) : List Word :=
  let w := fun i => nth v i 0
  let a1 := w a + w b + x
  let d1 := rotr32 (w d ^^^ a1) 16
  let c1 := w c + d1
  let b1 := rotr32 (w b ^^^ c1) 12
  let a2 := a1 + b1 + y
  let d2 := rotr32 (d1 ^^^ a2) 8
  let c2 := c1 + d2
  let b2 := rotr32 (b1 ^^^ c2) 7
  setNth (setNth (setNth (setNth v a a2) b b2) c c2) d d2

/-- Which words a round mixes: four columns, then four diagonals. -/
def blakeMix : List (Nat × Nat × Nat × Nat) :=
  [(0, 4, 8, 12), (1, 5, 9, 13), (2, 6, 10, 14), (3, 7, 11, 15),
   (0, 5, 10, 15), (1, 6, 11, 12), (2, 7, 8, 13), (3, 4, 9, 14)]

def blakeRound (v m : List Word) : List Word :=
  (blakeMix.zipIdx).foldl (fun v e =>
    blakeG v e.1.1 e.1.2.1 e.1.2.2.1 e.1.2.2.2 (nth m (2 * e.2) 0) (nth m (2 * e.2 + 1) 0)) v

def blakeRounds : Nat → List Word → List Word → List Word
  | 0, v, _ => v
  | n + 1, v, m => blakeRounds n (blakeRound v m) (blakePerm.map (fun i => nth m i 0))

/-- One block of `len` bytes under the given flags: the new chaining value. -/
def blakeCompress (cv : List Word) (block : List Byte) (len flags : Nat) : List Word :=
  let m := (List.range 16).map (fun i => BitVec.ofNat 32 (ofBytes (slice block (4 * i) 4)))
  let v := blakeRounds 7 (cv ++ blakeIv.take 4 ++ [0, 0, BitVec.ofNat 32 len, BitVec.ofNat 32 flags]) m
  (List.range 8).map (fun i => nth v i 0 ^^^ nth v (i + 8) 0)

/-- The blocks of the chunk, the last one as the root. `first`: no block has been read. -/
def blakeBlocks : Nat → Bool → List Word → List Byte → List Word
  | 0, _, cv, _ => cv
  | n + 1, first, cv, bs =>
    let flags := 16 + (if first then 1 else 0)
    if bs.length ≤ 64 then blakeCompress cv (slice bs 0 64) bs.length (flags + 10)
    else blakeBlocks n false (blakeCompress cv (bs.take 64) 64 flags) (bs.drop 64)

/-- The first 32 bytes of the keyed BLAKE3 of at most 1,024 bytes; byte 0 of the key is its lowest. -/
def blakeKeyed (key : BitVec 256) (bs : List Byte) : List Byte :=
  let cv := (List.range 8).map (fun i => BitVec.ofNat 32 (key.toNat / 2 ^ (32 * i)))
  (blakeBlocks 16 true cv bs).flatMap (fun w => toBytes 4 w.toNat)

/-! ## SHA-384 -/

def shaK0 : List DWord :=
  [0x428A2F98D728AE22, 0x7137449123EF65CD, 0xB5C0FBCFEC4D3B2F, 0xE9B5DBA58189DBBC,
   0x3956C25BF348B538, 0x59F111F1B605D019, 0x923F82A4AF194F9B, 0xAB1C5ED5DA6D8118,
   0xD807AA98A3030242, 0x12835B0145706FBE, 0x243185BE4EE4B28C, 0x550C7DC3D5FFB4E2,
   0x72BE5D74F27B896F, 0x80DEB1FE3B1696B1, 0x9BDC06A725C71235, 0xC19BF174CF692694,
   0xE49B69C19EF14AD2, 0xEFBE4786384F25E3, 0x0FC19DC68B8CD5B5, 0x240CA1CC77AC9C65]
def shaK1 : List DWord :=
  [0x2DE92C6F592B0275, 0x4A7484AA6EA6E483, 0x5CB0A9DCBD41FBD4, 0x76F988DA831153B5,
   0x983E5152EE66DFAB, 0xA831C66D2DB43210, 0xB00327C898FB213F, 0xBF597FC7BEEF0EE4,
   0xC6E00BF33DA88FC2, 0xD5A79147930AA725, 0x06CA6351E003826F, 0x142929670A0E6E70,
   0x27B70A8546D22FFC, 0x2E1B21385C26C926, 0x4D2C6DFC5AC42AED, 0x53380D139D95B3DF,
   0x650A73548BAF63DE, 0x766A0ABB3C77B2A8, 0x81C2C92E47EDAEE6, 0x92722C851482353B]
def shaK2 : List DWord :=
  [0xA2BFE8A14CF10364, 0xA81A664BBC423001, 0xC24B8B70D0F89791, 0xC76C51A30654BE30,
   0xD192E819D6EF5218, 0xD69906245565A910, 0xF40E35855771202A, 0x106AA07032BBD1B8,
   0x19A4C116B8D2D0C8, 0x1E376C085141AB53, 0x2748774CDF8EEB99, 0x34B0BCB5E19B48A8,
   0x391C0CB3C5C95A63, 0x4ED8AA4AE3418ACB, 0x5B9CCA4F7763E373, 0x682E6FF3D6B2B8A3,
   0x748F82EE5DEFB2FC, 0x78A5636F43172F60, 0x84C87814A1F0AB72, 0x8CC702081A6439EC]
def shaK3 : List DWord :=
  [0x90BEFFFA23631E28, 0xA4506CEBDE82BDE9, 0xBEF9A3F7B2C67915, 0xC67178F2E372532B,
   0xCA273ECEEA26619C, 0xD186B8C721C0C207, 0xEADA7DD6CDE0EB1E, 0xF57D4F7FEE6ED178,
   0x06F067AA72176FBA, 0x0A637DC5A2C898A6, 0x113F9804BEF90DAE, 0x1B710B35131C471B,
   0x28DB77F523047D84, 0x32CAAB7B40C72493, 0x3C9EBE0A15C9BEBC, 0x431D67C49C100D4C,
   0x4CC5D4BECB3E42B6, 0x597F299CFC657E2A, 0x5FCB6FAB3AD6FAEC, 0x6C44198C4A475817]
def shaK : List DWord := shaK0 ++ shaK1 ++ shaK2 ++ shaK3

def shaIv : List DWord :=
  [0xCBBB9D5DC1059ED8, 0x629A292A367CD507, 0x9159015A3070DD17, 0x152FECD8F70E5939,
   0x67332667FFC00B31, 0x8EB44A8768581511, 0xDB0C2E0D64F98FA7, 0x47B5481DBEFA4FA4]

def rotr64 (x : DWord) (n : Nat) : DWord := x.rotateRight n

/-- The message schedule, newest word first: `n` more words. -/
def shaSchedule : Nat → List DWord → List DWord
  | 0, w => w
  | n + 1, w =>
    let a := nth w 1 0
    let b := nth w 14 0
    let s1 := rotr64 a 19 ^^^ rotr64 a 61 ^^^ (a >>> 6)
    let s0 := rotr64 b 1 ^^^ rotr64 b 8 ^^^ (b >>> 7)
    shaSchedule n ((s1 + nth w 6 0 + s0 + nth w 15 0) :: w)

def shaRound (h : List DWord) (kw : DWord) : List DWord :=
  let v := fun i => nth h i 0
  let s1 := rotr64 (v 4) 14 ^^^ rotr64 (v 4) 18 ^^^ rotr64 (v 4) 41
  let ch := (v 4 &&& v 5) ^^^ (~~~(v 4) &&& v 6)
  let t1 := v 7 + s1 + ch + kw
  let s0 := rotr64 (v 0) 28 ^^^ rotr64 (v 0) 34 ^^^ rotr64 (v 0) 39
  let maj := (v 0 &&& v 1) ^^^ (v 0 &&& v 2) ^^^ (v 1 &&& v 2)
  [t1 + s0 + maj, v 0, v 1, v 2, v 3 + t1, v 4, v 5, v 6]

/-- Big-endian words of a block. -/
def beWord (bs : List Byte) : DWord := BitVec.ofNat 64 (ofBytes bs.reverse)

def shaBlock (h : List DWord) (block : List Byte) : List DWord :=
  let m := ((List.range 16).map (fun i => beWord (slice block (8 * i) 8))).reverse
  let w := (shaSchedule 64 m).reverse
  let r := (shaK.zip w).foldl (fun h e => shaRound h (e.1 + e.2)) h
  (h.zip r).map (fun e => e.1 + e.2)

def shaBlocks : Nat → List DWord → List Byte → List DWord
  | 0, h, _ => h
  | n + 1, h, bs => shaBlocks n (shaBlock h (bs.take 128)) (bs.drop 128)

/-- SHA-384 of a list of bytes. -/
def sha384 (bs : List Byte) : List Byte :=
  let pad := (240 - (bs.length + 1) % 128) % 128
  let all := bs ++ [0x80] ++ List.replicate pad 0 ++ (toBytes 16 (8 * bs.length)).reverse
  ((shaBlocks (all.length / 128) shaIv all).take 6).flatMap (fun w => (toBytes 8 w.toNat).reverse)

end Sys2Proof.Machine
end

