-- ==== Sys2Proof/Config.lean ====
section
/-! DEFINITION. What one Eryon fixes and the manual does not give: keys, signatures, the energy table
and the free values. Every one is an opaque constant: nothing can be proved of its value. -/

namespace Sys2Proof.Config

/-- The free value number `n` (log 2): drawn by the steps that meet a value the manual leaves open. -/
opaque freeNat : Nat → Nat
/-- Byte `i` of the RSA-3072 signature (R23) over the given bytes. -/
opaque rsaByte : List Byte → Nat → Byte
/-- Byte `i` of the SLH-DSA signature (R23) over the given bytes. -/
opaque slhByte : List Byte → Nat → Byte
/-- Byte `i` of the SHA-384 of the device identity key (R379, R408, R450). -/
opaque identityByte : Nat → Byte
/-- Byte `i` of the sweep measurement held in the vendor part of the configuration image (R384, R450). -/
opaque sweepByte : Nat → Byte
/-- Bytes of code that the sweep measurement covers (R384): the manual gives no length. -/
opaque sweepLen : Nat
/-- Byte `i` of the field part of the configuration image (R450, R451), whose layout the manual does not give: a function of
the histograms and of the retired pages. -/
opaque fieldPartByte : List Nat → List Nat → Nat → Byte
/-- How many bytes LIFE_READ writes (R451): the manual gives the image no length. -/
opaque fieldPartLen : Nat
/-- MISS of a launch, core, tenant or cluster that has issued no instruction in the quantum, with so many misses (R338). -/
opaque missIdle : Nat → Nat
/-- Bytes in an image of one item whose layout R428 and R430 do not give, by kind: 0 a queued `mma`, 1 a drain, 2 a copy or an incoming packet,
3 a sealed batch, 4 a scoreboard range, 6 an open batch; and of a descriptor entry, 5 its identifier number, 7 its launch tag. -/
opaque imagePart : Nat → Nat
/-- Byte `i` of item number `n` (a free value) of the same kinds in an image. -/
opaque imageByte : Nat → Nat → Nat → Byte
/-- What `bfunpack` writes for -2^128, by the bits of an element (R173): `.f32` holds no such value. -/
opaque bfunpackLow : Nat → BitVec 32
/-- Flags of a new cairn directory entry, by name (R272): the manual gives them no meaning. -/
opaque entryFlags : Nat → Nat
/-- SHARDBASE of a domain's shard, by partition, domain and channel group (R274): the manual does not place the directory. -/
opaque shardBase : Nat → Nat → Nat → Nat
/-- FREEHEAD, by partition, domain, channel group and the number of free data lines there (R274). -/
opaque freeHead : Nat → Nat → Nat → Nat → Nat
/-- The channel group of a partition in which a slot of a domain's root table lies: the manual names no home for it (log 153). -/
opaque slotGroup : Nat → Nat → Nat → Nat

/-- Where the hardware would put the spill area of a strand, by unit and strand (R218, R221): the manual gives no place. -/
opaque spillPlace : Nat → Nat → Nat
/-- Energy of one event of the given kind, in nJ at 0.72 V (R417, R450: the energy table). -/
opaque energyNJ : Nat → Nat
/-- The key a domain generates at creation number `n` (R274). -/
opaque domainKey : Nat → BitVec 256
/-- AES-256 key unwrap under the key-import key number `k` (R448): none when the tag fails. -/
opaque unwrapKey : Nat → List Byte → Option (BitVec 256)
/-- Byte `i` of an evicted page sealed under a partition key with its authenticated data (R364):
VF, IPA, slot and version. -/
opaque sealByte : Nat → Nat → Nat → Nat → Nat → List Byte → Nat → Byte
/-- The plain byte `i` that unsealing gives under the same key and authenticated data (R364). -/
opaque unsealByte : Nat → Nat → Nat → Nat → Nat → List Byte → Nat → Byte

end Sys2Proof.Config
end

