-- ==== Sys2Proof/Machine/State.lean ====
section
/-! DEFINITION. The state of the Eryon as plain data: everything the manual gives the machine (INVENTORY.md lists
each piece with its rule), and beside it the schedule `turns`, the acting agent and the counter of free values,
which are the model's own (logs 1 and 2). Collections are sparse tables in rising order of their index. -/

namespace Sys2Proof.Machine

open Sys2Proof

/-! ## Tensor descriptors (R348, R351) -/

structure Tdesc where
  base : DWord := 0
  sbase : DWord := 0
  rows : Nat := 0
  cols : Nat := 0
  pitch : Nat := 0
  spitch : Nat := 0
  fmt : Ty := .s8
  sdir : Nat := 0
  unsc : Bool := false
deriving DecidableEq, Repr, Inhabited

/-! ## Strands (R177, R193, R429) -/

/-- An affine register: base and stride (R5). -/
structure Aff where
  base : DWord := 0
  stride : Word := 0
deriving DecidableEq, Repr, Inhabited

/-- STATE of a path (R177). -/
inductive PathSt where
  | run
  /-- parked on convergence register k at its kwait -/
  | parked (k : Fin 8)
  /-- held in `bwait` -/
  | bwait
  /-- held on a resource -/
  | hold
  /-- parked by a trap, break or step, or by a translation fault -/
  | fault
deriving DecidableEq, Repr

/-- A path-table entry (R177). DEPTH is the length of the stack, innermost frame first. -/
structure Path where
  pc : DWord
  lanes : LaneMask
  st : PathSt := .run
  limit : Nat
  stack : List (DWord × Nat) := []
  aff : List Aff
deriving DecidableEq, Repr

/-- A vector register: live mask and the word of each lane (R93, R94); `bank` numbers the departing lent bank that its
physical register lies in, 0 for none (R104). -/
structure VReg where
  mask : LaneMask := 0
  words : List Word
  bank : Nat := 0
deriving DecidableEq, Repr

/-- STATE of a convergence register (R193). -/
inductive KSt where
  | idle | armed | waiting | matrix
deriving DecidableEq, Repr

/-- The operands an `mma` reads from the path that completes the signing (R206). -/
structure MmaOp where
  tile : Nat
  koff : Nat
  noff : Int
  tdA : Nat
  tdB : Nat
deriving DecidableEq, Repr

/-- A convergence register with the issue state of a matrix wait (R193, R206). -/
structure Conv where
  mask : LaneMask := 0
  signed : LaneMask := 0
  st : KSt := .idle
  pc : DWord := 0
  rows : List Word := []
  /-- in state MATRIX, the operands of the path that signed last -/
  op : Option MmaOp := none
deriving DecidableEq, Repr

/-- A destination whose value is outstanding, as the position names it: words per lane of a vector group, or the
value of an affine register for the paths that held `lanes` (R79, R182). -/
inductive Out where
  | vec (n : Nat) (words : List (List Word))
  | aff (n : Nat) (part : APart) (val : DWord) (lanes : LaneMask)
deriving DecidableEq, Repr

/-- Where bytes lie once an address is translated. -/
inductive Loc where
  | mem (pa : Nat)
  | host (io : Nat)
  | peer (idx vf ipa : Nat)
  | scratch (off : Nat)
deriving DecidableEq, Repr

/-- An outstanding long-latency instruction (R78, R79, R258, R430). `win` counts, lane by lane, the instructions
its window still covers; `ready` are the lanes whose values have returned; `todo` the lanes not yet performed
at their home; `parked` the lanes that wait on a page request, with its tag and whose queue holds it. -/
structure Pend where
  id : Nat
  pc : DWord
  instr : Instr
  lanes : LaneMask
  win : List Nat
  outs : List Out
  ready : LaneMask
  todo : LaneMask := 0
  parked : Tbl (Nat × Bool) := []
  addr : List Nat := []
  data : List (List Word) := []
  /-- where the lanes of `todo` are performed -/
  locs : Tbl Loc := []
  /-- the generation tag its responses carry (R423) -/
  gen : Byte := 0
  done : LaneMask := 0
  /-- nothing of the instruction has been performed: once no lane is parked it issues again (R258) -/
  reissue : Bool := false
  /-- the source values read at issue, and the state of `%seed` used, as a replay packet records them (R430) -/
  srcs : List Byte := []
  seed : Word := 0
  /-- the lanes that take part, where `lanes` are those that wait for the value (R261) -/
  took : LaneMask := 0
  /-- lanes that met an uncorrectable error, whose record is still to be posted (R259) -/
  bad : LaneMask := 0
  /-- the descriptors read when the instruction issued, for as long as it waits (R356) -/
  tds : List Tdesc := []
deriving DecidableEq, Repr

/-- An allocation that waits on an empty pool: the lanes of its path, the registers it needs, the clock when it began to wait,
and the registers that the restore of its strand has taken for it (R98, R101, R102). -/
structure Stall where
  lanes : LaneMask
  need : Nat
  since : Nat
  granted : Nat := 0
deriving DecidableEq, Repr

/-- Why lanes of a strand are parked with a token (R422). -/
inductive TokenKind where
  | trap | brk | step
deriving DecidableEq, Repr

structure Token where
  num : Nat
  kind : TokenKind
  lanes : LaneMask
  pc : DWord
deriving DecidableEq, Repr

/-- A fault of an instruction: code, REASON, lanes that took it, lanes performed before it, lane addresses, AUX
(R419). -/
structure FaultInfo where
  code : Nat
  reason : Nat := 0
  lanes : LaneMask
  done : LaneMask := 0
  addrs : List Nat := []
  aux : List Byte := []
  aux2 : List Byte := []
  precise : Bool := true
deriving DecidableEq, Repr

/-- A strand (R24, R53, R98, R429). `cur` is the lowest lane of the current path. -/
structure Strand where
  k : Nat
  quarter : Nat
  slot : Nat
  paths : List Path
  cur : Nat := 0
  timer : Nat := 0
  regs : Tbl VReg := []
  spilled : Tbl VReg := []
  isSpilled : Bool := false
  /-- the first byte of its spill area, counted through the partition's pages, and whether a spill has written there (R32, R218) -/
  spillAt : Nat := 0
  spillUsed : Bool := false
  /-- the allocations that stall, one for each path that waits (R98, R101) -/
  stalls : List Stall := []
  preds : List LaneMask
  convs : List Conv
  seed : Word
  g : Nat
  items : List Nat
  hasItem : LaneMask
  marked : LaneMask := 0
  refilled : Bool := false
  pends : List Pend := []
  token : Option Token := none
  /-- faults whose record waits for room in the event queue, by the PC of their instruction: the strand stays where it stands (R420) -/
  owed : List (DWord × FaultInfo) := []
  /-- instructions of a single-stepped strand that have issued and not completed, with their lanes (R422) -/
  steps : List (DWord × LaneMask) := []
  /-- copies of the open batch of each lane, and the lane's batch counter (R315) -/
  openBatch : Tbl (List Nat) := []
  batchCtr : List Nat := []
  ending : Bool := false
  completed : Bool := false
  /-- a `yield` gives up the strand's next issue slot (R199) -/
  yielded : Bool := false
deriving DecidableEq, Repr

/-! ## Spans (R42) -/

/-- A predicate of a span: kind and threshold (R42). -/
structure SPred where
  kind : Nat := 0
  c : Nat := 0
deriving DecidableEq, Repr, Inhabited

inductive SpanSt where
  | run | ldu | kwait
deriving DecidableEq, Repr

/-- A lookahead window open in a span: the `ldu`'s destination, its value, whether it has returned, and the
instructions left. -/
structure SWin where
  n : Nat
  part : APart
  data : DWord
  returned : Bool
  left : Nat
  /-- what it read: address and type (R62) -/
  va : Nat := 0
  t : Ty := .b32
  /-- the `ldu`, with the source values read at issue, as its replay packet records them (R430) -/
  pc : DWord := 0
  instr : Option Instr := none
  srcs : List Byte := []
  /-- its reading after a restore found no page, or no right: the strands that the cut makes read it (R45, R426) -/
  stale : Bool := false
deriving DecidableEq, Repr

/-- Does a span still wait for the value (R58)? -/
def SWin.waits (w : SWin) : Bool := !w.returned && !w.stale

structure Span where
  lid : Nat
  lo : Nat
  hi : Nat
  pc : DWord
  unit : Nat := 0
  aff : List Aff
  preds : List SPred
  convs : List Conv
  st : SpanSt := .run
  wins : List SWin := []
  /-- in a unit span, the local number of the item LO (R30, R60) -/
  loc : Nat := 0
  /-- a split of it was refused at launch level: its units are cut into strands (R56) -/
  owed : Bool := false
deriving DecidableEq, Repr

/-! ## Units (R32, R427) -/

/-- A unit resident on a core or saved in an image: its identity, strands, spans and scratchpad. -/
structure WUnit where
  lid : Nat
  u : Nat
  core : Nat
  slot : Nat := 0
  strands : Tbl Strand := []
  spans : Tbl Span := []
  scratch : List Host.Cell := []
  /-- refill launches: runs of items first placed, as (local, item, count) (R60) -/
  runs : List (Nat × Nat × Nat) := []
  begun : Bool := false
  /-- device time at which it began, and the priority of the entry it came from (R338) -/
  beganAt : Nat := 0
  prio : Nat := 0
  issued : Bool := false
  watch : Nat := 0
  /-- ends with the next TICK: its strands take the highest issue priority (R38) -/
  boost : Bool := false
  /-- matrix context numbers held in each quarter (R203) -/
  ctx : Tbl (List Nat) := []
  triggered : Bool := false
  /-- a `cancel` has reached the unit; its strands end at their next issue (R314) -/
  cancelled : Bool := false
  /-- time since which every strand is held (R332) -/
  heldSince : Option Nat := none
  /-- issue time in the current quantum of its cluster, in half ns (R338) -/
  used : Nat := 0
  /-- BLOCK has been raised for the present hold (R332) -/
  blockSent : Bool := false
  /-- a strand cut waits for an outstanding `ldu`: no span of the unit issues (R53) -/
  cutting : Bool := false
  /-- bytes of its scratchpad allocation in each scratchpad bank of its core (R229, R383) -/
  banks : Tbl Nat := []
deriving DecidableEq, Repr

/-! ## Launches, graphs, phases, jobs (R26, R300, R402) -/

/-- The fields of a launch parameter block (R26). -/
structure Lpb where
  addr : Nat := 0
  entry : DWord := 0
  args : DWord := 0
  ux : Nat := 1
  uy : Nat := 1
  uz : Nat := 1
  sx : Nat := 1
  sy : Nat := 1
  sz : Nat := 1
  order : Nat := 0
  logw : Nat := 0
  progress : Nat := 0
  refill : Bool := false
  noprog : Bool := false
  fpolicy : Bool := false
  mctx : Nat := 0
  kind : Bool := false
  vregs : Nat := 1
  vfloor : Nat := 0
  scratch : Nat := 0
  priv : Nat := 0
  privbase : Nat := 0
  deplist : Nat := 0
  depcount : Nat := 0
  taskbase : Nat := 0
deriving DecidableEq, Repr, Inhabited

/-- A dependant-list entry (R27). -/
structure Dep where
  task : Bool
  early : Bool
  index : Nat
deriving DecidableEq, Repr

/-- Where a job sits: function code (VF v: v; PF of partition p: 128 + p) and queue entry. -/
structure JobRef where
  fn : Nat
  entry : Nat
deriving DecidableEq, Repr

/-- STATUS of a completion record (R402). -/
inductive Status where
  | waiting | running | complete | cancelled | refused | faulted
deriving DecidableEq, Repr

/-- A completion record (R402). HANDLE is 0xFFFF for graphs and phases. -/
structure Rec where
  done : Nat := 0
  total : Nat := 0
  status : Status := .waiting
  handle : Nat := 0xFFFF
  jobtag : Nat := 0
deriving DecidableEq, Repr, Inhabited

/-- A live launch (R26, R43, R402, R420). Its key is 65,536·(function code) + handle. -/
structure Launch where
  handle : Nat
  fn : Nat
  part : Nat
  job : JobRef
  /-- graph and index in the graph; none for a device-side launch (R311) -/
  graph : Option (Nat × Nat) := none
  lpb : Lpb
  deps : List Dep := []
  home : Nat := 0
  priv : Bool := false
  sweep : Bool := false
  /-- in a span table: not yet cut into units (R43, R50) -/
  inTable : Bool := true
  /-- a unit cut has begun: no span of the launch issues (R50) -/
  cutting : Bool := false
  recd : Rec
  triggers : Nat := 0
  earlyFired : Bool := false
  /-- the pool of a refill launch (R59); the pieces of a concurrent launch that waits for admission (R36) -/
  pool : List Span := []
  /-- a concurrent launch whose units wait for one admission (R36) -/
  concWait : Bool := false
  records : Nat := 0
  dropped : Nat := 0
  faults : Nat := 0
  acceptTime : Nat := 0
  /-- how a cancelled or faulted launch ends once its resident units have ended (R314) -/
  ending : Option Status := none
  /-- order of acceptance (R36, R43) -/
  seq : Nat := 0
deriving DecidableEq, Repr

/-- A launch of a graph (R301): address, in-degree, and how it ended. -/
structure GLaunch where
  addr : Nat
  lpb : Lpb := {}
  deps : List Dep := []
  indeg : Nat := 0
  /-- when its in-degree fell to 0: its place in the order of acceptance (R43) -/
  ready : Option Nat := none
  /-- handle once accepted -/
  handle : Option Nat := none
  ended : Option Status := none
deriving DecidableEq, Repr

/-- A graph of the current phase (R300, R301). -/
structure Graph where
  list : Nat
  nlaunch : Nat
  launches : List GLaunch := []
  expanded : Bool := false
  recd : Rec
  /-- launches whose block read a FAIL reply has ended, with their FPOLICY, while the expansion waits for others (R477) -/
  failedReads : Tbl Bool := []
deriving DecidableEq, Repr

/-- A block read that waits on a page request for a job (R477): (0, 0) the job block and phase lists, (g + 1, 0) the
expansion of graph g, (g + 1, i + 1) the acceptance of its launch i. -/
structure JobWait where
  reader : Nat × Nat
  tag : Nat
  pfq : Bool
  /-- in a graph's expansion, the block that missed: 0 its list, i + 1 the launch of index i, with the FPOLICY read so far -/
  item : Nat := 0
  fpolicy : Bool := false
deriving DecidableEq, Repr

/-- A job-queue entry (R299-R301). Its index in the queue table is 16·(function code) + entry. -/
structure Job where
  addr : Nat
  part : Nat
  started : Bool := false
  phlist : Nat := 0
  nphase : Nat := 0
  tag : Nat := 0
  /-- number of the current phase -/
  phase : Nat := 0
  graphs : List Graph := []
  phaseRec : Rec := { handle := 0 }
  /-- the current phase's graphs have been read -/
  phaseOpen : Bool := false
  recd : Rec
  /-- a phase or graph entry failed, or FPOLICY 1 acted: the job ends FAULTED -/
  failed : Option Status := none
  waits : List JobWait := []
  /-- the current phase's entry once it has been read, GRLIST and NGRAPH, while its graph list has not (R300) -/
  phaseEntry : Option (Nat × Nat) := none
deriving DecidableEq, Repr

/-- STATE of a task-table entry (R307). -/
inductive TaskSt where
  | free | waiting | queued | running | done
deriving DecidableEq, Repr

/-- A task-table entry (R307): COUNT, STATE, the launch, and the three 16-bit SUCC fields of its record. -/
structure TaskEntry where
  count : Nat
  st : TaskSt
  lid : Nat
  succ : List Nat
deriving DecidableEq, Repr

/-! ## Run queues (R303) -/

/-- What a run-queue entry holds (R303). -/
inductive RqKind where
  | range (first count : Nat) (span : Span)
  | unit (u : Nat) (pieces : List Span)
  | task (u t : Nat)
  /-- a saved unit, by its age -/
  | resume (uid : Nat)
deriving DecidableEq, Repr

structure RqEntry where
  eid : Nat
  lid : Nat
  kind : RqKind
  prio : Nat := 0
  blocked : Bool := false
  queued : Nat := 0
deriving DecidableEq, Repr

/-! ## Events (R419, R446) -/

/-- A 384-byte event record by its fields (R419). -/
structure Event where
  code : Nat
  reason : Nat := 0
  vf : Nat := 0
  launch : Nat := 0
  flags : Nat := 0
  pc : Nat := 0
  unit : Nat := 0
  strand : Nat := 0
  quarter : Nat := 0
  faulted : Word := 0
  done : Word := 0
  jobtag : Nat := 0
  token : Nat := 0
  time : Nat := 0
  aux : List Byte := []
  addrs : List Nat := []
  aux2 : List Byte := []
deriving DecidableEq, Repr

/-! ## Memory (R223, R226, R238) -/

/-- A byte held in an L1: its value, whether it is dirty, the world tag of its line (R383), and whether the work that wrote it counts
in the meters (R404, R445). -/
structure L1Byte where
  val : Byte
  dirty : Bool
  world : Nat
  counted : Bool := false
deriving DecidableEq, Repr

/-- A sector held in the L2: dirty or not, and whether work that counts in the meters has written it since it was read (R227, R404,
R445). -/
structure L2Sector where
  dirty : Bool := false
  counted : Bool := false
deriving DecidableEq, Repr

/-- Where a page leads (R359, R363): a physical page, a host IO page, or a page of a peer. -/
inductive Leaf where
  | page (pa : Nat)
  | host (io : Nat)
  | peer (idx vf page : Nat)
deriving DecidableEq, Repr

/-- A cached translation of one page (R362). `ipa` is the intermediate page, and `via` those of the stage-1 tables that led to it, for
`.ipa` invalidations (R438). -/
structure Xlat where
  leaf : Leaf
  ipa : Nat
  r1 : Bool
  w1 : Bool
  x1 : Bool
  r2 : Bool
  w2 : Bool
  x2 : Bool
  retired : Bool
  via : List Nat := []
deriving DecidableEq, Repr

/-- A relaxed strong store on its way to its home (R242). -/
structure Send where
  core : Nat
  uid : Nat
  k : Nat
  loc : Loc
  data : List Byte
  /-- the lane, instruction and generic address that a record of UNCORR names (R259) -/
  lane : Nat := 0
  pc : DWord := 0
  addr : Nat := 0
  /-- do the meters count it (R404, R445)? -/
  counted : Bool := true
deriving DecidableEq, Repr

/-- A page request (R366) and whom it waits for: the merged key is (die, VF, stage, page). -/
structure PageReq where
  tag : Nat
  vf : Nat
  die : Nat
  stage2 : Bool
  cause : Nat
  access : Nat
  table : Bool
  page : Nat
  popped : Bool := false
  /-- the partition its VF was bound to (R376) -/
  part : Nat := 0
deriving DecidableEq, Repr

/-- An entry of a core's descriptor table (R351). -/
structure TdEntry where
  d : Tdesc
  lid : Nat
  valid : Bool
deriving DecidableEq, Repr

/-! ## Copies (R315) -/

/-- Where one byte of a copy comes from and goes to: `none` as source is a zero fill, as destination a byte that
falls outside a global tensor and is only counted (R317, R324). -/
structure CByte where
  src : Option Loc
  dst : Option Loc
  /-- the source, once it is read (R244); a `cpmc` reads it once for its destinations (R326) -/
  val : Option Byte := none
  landed : Bool := false
deriving DecidableEq, Repr

/-- An entered copy of one lane (R320), per destination unit for `cpmc`. `dests` lists (unit, next byte not
landed) of each scratchpad destination; a copy to global memory lists its own unit. -/
structure Copy where
  id : Nat
  uid : Nat
  k : Nat
  lane : Nat
  pc : DWord
  lid : Nat
  /-- the bytes in landing order, one list per destination unit -/
  parts : List (Nat × List CByte)
  /-- offset of the barrier that counts the bytes (R324) -/
  bar : Option Nat := none
  task : Option Nat := none
  /-- number of the batch once sealed -/
  batch : Option Nat := none
  /-- an `nmcopy`: the root it holds, with its domain (R294) -/
  root : Option (Nat × Nat × QWord) := none
  /-- and the first leaf that it copies (R292) -/
  leaf : Nat := 0
  /-- ended by UNCORR (R328): it stays listed so that its batch never arrives -/
  failed : Bool := false
  /-- pages whose translation it holds (R322): (VF, VA page, IPA page) -/
  pages : List (Nat × Nat × Nat) := []
  /-- the probed pieces of global memory: address, bytes, location (R322, R329) -/
  locs : List (Nat × Nat × Loc) := []
  /-- units restored while the copy lands in them: the core that reads the source for each (R329) -/
  readers : Tbl Nat := []
deriving DecidableEq, Repr

/-- A sealed-batch record (R315, R327). -/
structure Sealed where
  num : Nat
  uid : Nat
  k : Nat
  lane : Nat
  bar : Nat
  copies : List Nat
  pc : DWord := 0
deriving DecidableEq, Repr

/-- A scoreboard range: copy, unit, first and last byte (R321). -/
structure SbRange where
  copy : Nat
  uid : Nat
  first : Nat
  last : Nat
deriving DecidableEq, Repr

/-! ## Matrix units (R202, R206, R210, R212) -/

/-- An issued `mma` (R206). -/
structure Mma where
  uid : Nat
  k : Nat
  tile : Nat
  signed : LaneMask
  rows : List Word
  koff : Nat
  noff : Int
  a : Tdesc
  b : Tdesc
  /-- aligned 4-byte words of the scratchpad that its gather has read before it starts: (word number, value) (R209) -/
  early : Tbl Word := []
deriving DecidableEq, Repr

/-- The operand latch of a running `mma` (R202, R208): for each signed lane its 96 elements and three scale bytes,
and the 96×64 elements and 3×64 scale bytes of B. -/
structure Latch where
  rows : List (Nat × List Nat × List Nat)
  bElems : List Nat
  bScales : List Nat
deriving DecidableEq, Repr

structure Running where
  ctx : Nat
  m : Mma
  latch : Latch
deriving DecidableEq, Repr

/-- A matrix context: owner, tiles (element 64·i + j of tile t at key 2,048·t + 64·i + j, unlisted +0), queue. -/
structure MCtx where
  owner : Option Nat := none
  tiles : Tbl Word := []
  queue : List Mma := []
deriving DecidableEq, Repr

/-- An `mdrain` from its issue until its update is applied (R212-R215). -/
structure Drain where
  id : Nat
  uid : Nat
  k : Nat
  pc : DWord
  ctx : Nat
  tile : Nat
  td : Tdesc
  roff : Int
  coff : Int
  sA : Word
  sB : Word
  rnd : Rnd
  seed : Word
  bar : Option Nat
  snapshot : Option (Tbl Word) := none
  /-- where each element of the update lies, probed at issue: (64·i + j, location) -/
  dst : List (Nat × Loc)
  /-- elements that it has read before it writes: (64·i + j, bits) (R214) -/
  early : Tbl Nat := []
deriving DecidableEq, Repr

/-- A quarter of a core (R93, R202, R382). -/
structure Quarter where
  ctxs : List MCtx := [{}, {}]
  running : Option Running := none
  lastCtx : Nat := 1
  /-- lane cycles of the current burst (R210) -/
  burst : Nat := 0
  drains : List Drain := []
  /-- a `zsig` waits for the quarter to empty; were nonzero words seen (R437)? -/
  zsig : Option Bool := none
  /-- the unit span, as (unit, slot), that its affine unit issued last (R44) -/
  lastSpan : Option (Nat × Nat) := none
  /-- units that are no sweep have left the quarter since its world came: what they wrote may stand in its arrays (R384) -/
  left : Bool := false
deriving DecidableEq, Repr

/-! ## Metering (R404-R408) -/

structure UsageRec where
  final : Bool
  seq : Nat
  incarn : Nat
  part : Nat
  skipped : Nat
  vfmap : Nat
  time : Nat
  counters : List Nat
  prev : List Byte
deriving DecidableEq, Repr

/-! ## Cairn memory (R272-R281) -/

/-- A live directory entry with its data line (R272): count saturates at 0xFFFF_FFFF. -/
structure CEntry where
  line : List Byte
  count : Nat
  group : Nat
  /-- the entry's flags, whose meaning the manual does not give (log 152) -/
  flags : Nat := 0
deriving DecidableEq, Repr

/-- A freed data line that some cores may still cache (R281). -/
structure FreedLine where
  group : Nat
  cores : List Nat
deriving DecidableEq, Repr

/-- A node whose count reached 0, waiting for reclaim: its name and its line (R281). -/
structure RNode where
  part : Nat
  dom : Nat
  name : QWord
  line : List Byte
  group : Nat
  /-- when it was queued: its place among the nodes that overflowed -/
  seq : Nat := 0
  /-- the unit whose operation dropped it, or dropped a node above it: it completes after the reclaim (R293; DEDUCED, log 168) -/
  by' : Option Nat := none
deriving DecidableEq, Repr

/-- The root entry of a domain in the metadata block of one channel group (R224, R274); VALID is 1 while the domain exists. -/
structure Shard where
  base : Nat := 0
  lines : Nat := 0
  freeHead : Nat := 0xFFFFFFFF
  live : Nat := 0
deriving DecidableEq, Repr, Inhabited

structure Domain where
  key : BitVec 256
  budget : Nat
  nslots : Nat
  /-- the names of root slots, unlisted Z -/
  roots : Tbl QWord := []
  /-- live entries by name -/
  dir : Tbl CEntry := []
  /-- free data lines of each channel group of the partition -/
  free : List Nat := []
  freed : List FreedLine := []
  /-- reclaim overflow (R273) -/
  overflow : List RNode := []
  collisions : Nat := 0
  /-- lines of the region this domain holds (R273) -/
  lines : Nat := 0
  /-- its root entries, by channel group (R274) -/
  shards : List Shard := []
deriving DecidableEq, Repr

structure Region where
  first : Nat
  units : Nat
  freeLines : Nat
deriving DecidableEq, Repr

/-- An `nmsync` in progress (R295, R296): the status block's location. -/
structure Sync where
  id : Nat
  part : Nat
  dom : Nat
  root : QWord
  status : Loc
  handle : Nat
  start : Nat := 0
  /-- the partition of the launch that issued it (R376) -/
  issuer : Nat := 0
  /-- names still to offer, in order, and every name offered so far (R296) -/
  offers : List QWord := []
  offered : List QWord := []
  /-- lines marked for sending and not yet sent, the last one marked first: children come before their parents (R296) -/
  marked : List QWord := []
  /-- lines sent, and offered names that every target held -/
  sent : Nat := 0
  held : Nat := 0
deriving DecidableEq, Repr

/-! ## Reeves (R331-R346) -/

/-- Decision points (R332), numbered as POINT (R343). -/
inductive Point where
  | enq | pick | tick | block | wake | migr
deriving DecidableEq, Repr

/-- An event of a reeve event queue (R332). -/
inductive REvt where
  /-- entry, and the commons offset of the MIGR record that moved it -/
  | enq (eid : Nat) (rec : Int)
  | pick (core : Nat)
  | tick
  | block (uid : Nat)
  | wake (eid : Nat)
  /-- the VF; after a WAKE the entry and the requested cluster -/
  | migr (fn : Nat) (woken : Option (Nat × Nat))
deriving DecidableEq, Repr

/-- A loaded routine (R343). -/
structure Routine where
  code : List Word
  allow : Nat
  wsize : Nat
  wbase : Nat
  suspended : Bool := false
deriving DecidableEq, Repr

/-- A loop in progress (R336): first body word, counter register, iterations left. -/
structure RLoop where
  start : Nat
  reg : Nat
  left : Nat
deriving DecidableEq, Repr

/-- The call a reeve is running, with what was captured when it started (R334). -/
structure RCall where
  ev : REvt
  point : Point
  host : Bool
  /-- the tenant (function code) of a tenant call; the running tenant of a host call, none if none -/
  fn : Option Nat
  part : Nat
  routine : Routine
  /-- candidates: entry numbers, units or function codes -/
  cands : List Nat
  /-- captured counters: per candidate, per core, tenant, cluster -/
  cnt0 : List (List Nat)
  cnt1 : List (List Nat)
  cnt2 : List Nat
  cnt3 : List Nat
  g : List DWord
  dx : List DWord
  /-- the starting decision, kept for illegal values (R345) -/
  rr : List DWord
  pc : Nat := 0
  loops : List RLoop := []
  used : Nat := 0
deriving DecidableEq, Repr

structure Reeve where
  call : Option RCall := none
  queue : List REvt := []
  /-- producers that found the queue full, in order (R332) -/
  waiting : List REvt := []
  /-- commons lines cached, and whether held for writing (R342) -/
  cache : List (Nat × Bool) := []
  /-- the tenant level's pointer of PICK: the entry last picked, and the place it held (R346) -/
  lastPick : Option (Nat × Nat) := none
  /-- the host level's pointer of PICK -/
  lastTenant : Option Nat := none
deriving DecidableEq, Repr

/-! ## Cores, clusters, dies -/

/-- An item-queue entry (R59). -/
structure ItemEntry where
  span : Span
deriving DecidableEq, Repr

structure Core where
  qptr : Nat := 0
  quarters : List Quarter := [{}, {}, {}, {}]
  /-- ARRAY_SPLIT (R228) -/
  xt : Nat := 0
  st : Nat := 32
  lt : Nat := 16
  /-- banks lent to each quarter; XC is their least -/
  xq : List Nat := [0, 0, 0, 0]
  sc : Nat := 32
  lc : Nat := 16
  /-- WORLD_MAP (R382), by quarter -/
  wTgt : List Nat := [0, 0, 0, 0]
  wCur : List Nat := [0, 0, 0, 0]
  wPend : List Bool := [false, false, false, false]
  wFail : List Bool := [false, false, false, false]
  td : Tbl TdEntry := []
  copies : List Copy := []
  /-- copies entered by other cores that land here (R321) -/
  ranges : List SbRange := []
  seals : List Sealed := []
  items : List ItemEntry := []
  l1 : Tbl L1Byte := []
  /-- worlds whose units have left words in their scratchpad banks (R384) -/
  scratchLeft : List Nat := []
  /-- cairn lines cached (R281), each with the world of the access that filled it (R383): (world, partition, domain, name) -/
  cairn : List (Nat × Nat × Nat × QWord) := []
  /-- key: (function code)·2^40 + page number (R358, R362) -/
  tlb : Tbl Xlat := []
  /-- its walk cache: valid table entries; key: (function code)·2^40 + physical address (R347, R362) -/
  walks : Tbl Nat := []
  /-- generation tags of strand slots, unlisted 0 (R423) -/
  gens : Tbl Byte := []
  lastAdmit : Nat := 0
deriving DecidableEq, Repr

/-- What one launch did on one core in a quantum (R338): instructions, L2 misses, issue time in half ns. -/
structure Stat where
  lid : Nat
  core : Nat
  instrs : Nat
  misses : Nat
  used : Nat
deriving DecidableEq, Repr

/-- A lane of a `launch` that waits for a span-table entry, by its arrival (R43). -/
structure LaunchWait where
  stamp : Nat
  uid : Nat
  k : Nat
  lane : Nat
deriving DecidableEq, Repr

structure Cluster where
  table : Tbl Span := []
  /-- device-side launches that wait for an entry of the table (R43) -/
  arrivals : List LaunchWait := []
  cursor : Nat := 63
  rq : List RqEntry := []
  reeve : Reeve := {}
  /-- quantum in µs and when the current one began (R332) -/
  quantum : Nat := 2000
  quantumAt : Nat := 0
  ticks : Nat := 0
  /-- LANE_RATIO and PASS_COUNT (R414, R415) -/
  laneTgt : Nat := 1
  laneCur : Nat := 1
  pass : Nat := 0
  stats : List Stat := []
  lastStats : List Stat := []
  /-- device time at which each tenant last held the cluster (R338) -/
  heldAt : Tbl Nat := []
  /-- the outgoing VF keeps the cluster for one quantum (R431) -/
  keep : Bool := false
  /-- the VFs whose units have held the cluster, the last one first (R332, R338) -/
  tenants : List Nat := []
deriving DecidableEq, Repr

/-- A bulk command in progress (R441). -/
structure BulkOp where
  engine : Nat
  part : Nat
  evict : Bool
  vf : Nat
  rwx : Nat
  ipa : Nat
  frame : Nat
  io : Nat
  slot : Nat
  block : Loc
  /-- the engine has begun it: address of the leaf and the entry that stood there -/
  started : Bool := false
  leaf : Nat := 0
  old : Nat := 0
deriving DecidableEq, Repr

structure Die where
  /-- partition that holds each bulk engine; none: in the pool (R372) -/
  engines : List (Option Nat) := [none, none, none, none, none, none, none, none]
  bulk : List BulkOp := []
  /-- matrix power tokens: count and the slice each stands at (R416) -/
  tokens : List Nat := [0]
  tokenCycles : Nat := 0
  /-- its TLB and walk cache, with the keys of a core's (R347, R362) -/
  tlb : Tbl Xlat := []
  walks : Tbl Nat := []
  /-- consecutive gang switches that it missed (R431) -/
  misses : Nat := 0
deriving DecidableEq, Repr

/-! ## Functions and partitions -/

/-- A `halt` in progress (R440). -/
structure Halt where
  id : Nat
  part : Nat
  vf : Nat
  bnd : Bool
  gang : Bool
  block : Loc
  deadline : Nat
  start : Nat
  incoming : Option Nat
  /-- units still to save -/
  todo : List Nat
  saved : List Nat := []
  /-- packages dies whose boundary stop missed -/
  missed : List Nat := []
  forced : Bool := false
  full : Bool := false
deriving DecidableEq, Repr

/-- The state a function keeps for its guest or, for the PF, for the hypervisor (DEDUCED, log 116). -/
structure FnState where
  /-- event queue (R446) -/
  events : List Event := []
  dropped : Bool := false
  /-- S1ROOT (R444) -/
  s1root : DWord := 0
  /-- copies that outstanding writes of TLB_INV wait for: BUSY is 1 while one of them has not landed (R362, R444) -/
  tlbBusy : List Nat := []
  /-- tenant routines by point (R331) -/
  routines : Tbl Routine := []
  lastcode : Nat := 0
  loading : Option DWord := none
  /-- MSI-X vectors raised since start-up (R446) -/
  msix : List Nat := [0, 0, 0, 0]
  /-- VF binding entry (R372) and S2ROOT (R358) -/
  part : Nat := 0
  bound : Bool := false
  port : Bool := false
  world : Nat := 0
  share : Nat := 0
  s2root : DWord := 0
  /-- CAIRN_BIND0-7 (R275), SAVE_AREA, DEBUG (R436) -/
  cairnBind : List Word := [0, 0, 0, 0, 0, 0, 0, 0]
  saveArea : DWord := 0
  debugWord : DWord := 0
  halted : Bool := false
  /-- UNBIND_VF in progress (R375): the command waits for the VF's jobs -/
  unbinding : Bool := false
  flr : Bool := false
  /-- IPA pages whose return failed its check: they are never mapped (R364) -/
  barred : List Nat := []
  /-- saves that a reset abandoned, until their status blocks are written (R386) -/
  resetHalts : List Halt := []
  /-- faults raised by its launches (R338) -/
  faults : Nat := 0
  /-- an IDE stream is established (R385) -/
  ide : Bool := false
deriving DecidableEq, Repr

/-- STATE of a partition (R371). -/
inductive PartSt where
  | free | reassign | release | live | drain | scrub
deriving DecidableEq, Repr

/-- A partition command: its number, and the block read when it was written (R373). -/
structure PartCmd where
  op : Nat
  bits : Nat
  /-- its place in the order of all writes (R374) -/
  seq : Nat := 0
deriving DecidableEq, Repr

structure Partition where
  st : PartSt := .free
  dir : Bool := false
  span : Bool := false
  first : Nat := 0
  count : Nat := 0
  owner : Word := 0
  clog : Nat := 0
  cbase : Nat := 0
  eng : Nat := 0
  /-- the command in progress, and those written after it, oldest first (R373) -/
  cmd : Option PartCmd := none
  cmds : List PartCmd := []
  /-- memory key number; none before REASSIGN and after the pool's REASSIGN (R369) -/
  key : Option Nat := none
  /-- metering counters 0-4 and 6 (R404), and ENERGY in units of 1/5184 nJ (R417) -/
  meters : List Nat := [0, 0, 0, 0, 0, 0, 0]
  usage : List UsageRec := []
  nextSeq : Nat := 0
  skipped : Nat := 0
  prev : List Byte := []
  incarn : Nat := 0
  t0 : Nat := 0
  periods : Nat := 0
  msDone : Nat := 0
  railVote : DWord := 3
  pfCairn : DWord := 0
  pfDropped : Bool := false
  hostRoutines : Tbl Routine := []
  hostLastcode : Nat := 0
  hostLoading : Option DWord := none
  region : Option Region := none
  domains : Tbl Domain := []
  links : Tbl (Nat × Nat) := []
  /-- when SCRUB began, and the receipt kept while the partition waits in SCRUB for a buffer (R379, R380) -/
  scrubStart : Nat := 0
  receipt : Option (List Byte) := none
  /-- CODE and count of the PART_DONE that ends the DESTROY (R374, R410) -/
  doneCode : Nat := 0
  written : Nat := 0
  /-- CREATE's image could not be read: no receipt is written (R374) -/
  noReceipt : Bool := false
deriving DecidableEq, Repr

/-- A saved unit (R427): its state, kind, place in the save area, and what its core held for it. -/
structure Image where
  unit : WUnit
  mid : Bool
  fn : Nat
  /-- the page requests that its restore waits for, by copy: tag and queue; and those that were answered FAIL: copy, code, tag (R329, R367) -/
  awaits : List (Nat × Nat × Bool) := []
  fails : List (Nat × Nat × Nat) := []
  /-- byte offset and length within the save area -/
  off : Nat
  len : Nat
  items : List ItemEntry := []
  ctxs : List (Nat × Nat × MCtx) := []
  drains : List (Nat × Drain) := []
  copies : List Copy := []
  /-- the copies of other units that land in this one: its incoming packets (R329) -/
  incoming : List Nat := []
  ranges : List SbRange := []
  seals : List Sealed := []
  td : Tbl TdEntry := []
  /-- section 8 (R428): launch spans of the VF, and the launches whose pools it holds -/
  launchSpans : List Span := []
  pools : List Nat := []
  /-- a boundary stop, or a gang's forced stop, wrote it; it goes back to its core when the gang misses (R431) -/
  core : Nat := 0
deriving DecidableEq, Repr

/-- A boundary stop in progress (R424): issue of the unit is closed. -/
structure Stop where
  uid : Nat
  halt : Nat
deriving DecidableEq, Repr

structure CxlWin where
  valid : Bool := false
  part : Nat := 0
  first : Nat := 0
  pages : Nat := 0
deriving DecidableEq, Repr

/-- A link (R10, R20, R385): up, consecutive tag failures of each direction, key changes. -/
structure Link where
  up : Bool := true
  fails : Nat := 0
  failsBack : Nat := 0
  keys : Nat := 0
deriving DecidableEq, Repr

/-- The lifetime histograms (R413): bins by die, counts by package slice and by link, hours and power cycles. -/
structure Life where
  temp : Tbl (List Nat) := []
  rail : Tbl (List Nat) := []
  errors : Tbl Nat := []
  retired : Tbl Nat := []
  repaired : Tbl Nat := []
  hours : Nat := 0
  cycles : Nat := 0
deriving DecidableEq, Repr

/-- Repair maps of the configuration image (R12, R14, R450, R452): by die the physical cores mapped out, by col the lanes that spares
replace, by channel group the rows that post-package repair replaces. -/
structure Repairs where
  cores : Tbl (List Nat) := []
  lanes : Tbl (List Nat) := []
  rows : Tbl (List Nat) := []
deriving DecidableEq, Repr

/-- What the vendor part of the configuration image holds beside hashes and tables (R450): the rollback floor for firmware and the
as-shipped repair maps (log 170). -/
structure VendorPart where
  floor : Nat := 0
  shipped : Repairs := {}
deriving DecidableEq, Repr

/-- A USAGE_PULL that has not ended: partition, host address, and SEQ of the record written, none for an empty queue
(R410). -/
structure Pull where
  part : Nat
  io : Nat
  seq : Option Nat := none
deriving DecidableEq, Repr

/-- STAGE of DEVICE_STATUS (R452). -/
structure DevStatus where
  stage : Nat := 0
  ready : Bool := false
  failcode : Nat := 0
deriving DecidableEq, Repr

/-! ## The machine -/

/-! ## The agents of a step -/

/-- Who issues the instruction that `exec` runs. -/
inductive Actor where
  | none
  | strand (uid k : Nat)
  | span (cl slot : Nat)
  | unitSpan (uid slot : Nat)
  | reeve (cl : Nat)
deriving DecidableEq, Repr

/-- A page of a peer, by PEER_MAP index, receiving VF and IPA page, that the peer refuses to reads or to writes, or cannot translate
(R449). -/
structure PeerRefusal where
  peer : Nat
  vf : Nat
  page : Nat
  write : Bool
deriving DecidableEq, Repr

/-- One turn of the schedule (log 1): which agent moves next, or what arrives from outside. -/
inductive Turn where
  /-- the strand issues from its current path -/
  | strand (uid k : Nat)
  | span (cl slot : Nat)
  | unitSpan (uid slot : Nat)
  | reeve (cl : Nat)
  /-- a host command or machine event -/
  | event (i : Instr)
  /-- the front-end clock and device time advance (R69, R406) -/
  | cycles (n : Nat)
  /-- an L1 drops one line, by its number (`lineNo`), after writing its dirty bytes back (R226) -/
  | evictL1 (core line : Nat)
  /-- an L2 bank drops one sector, by its number (`secOf`), after writing it back if dirty (R227) -/
  | evictL2 (sector : Nat)
  /-- a TLB, or a walk cache, of a core or of a die drops one entry, by its key (R347) -/
  | evictTlb (core vf vpn : Nat)
  | evictDieTlb (die vf vpn : Nat)
  | evictWalk (core vf pa : Nat)
  | evictDieWalk (die vf pa : Nat)
  /-- the n-th store on its way is performed at its home (R242) -/
  | perform (n : Nat)
  /-- a waiting strong load is performed at its home (R242) -/
  | performLoad (uid k id : Nat)
  /-- the gather of the n-th queued `mma` of a context reads one aligned word before the `mma` starts (R209) -/
  | gatherWord (core q ctx n word : Nat)
  /-- the next name that a sync offers is answered: does every target hold it (R296)? -/
  | syncOffer (id : Nat) (held : Bool)
  /-- a sync sends its next marked line (R296) -/
  | syncSend (id : Nat)
  /-- a drain reads the word of one of its elements before its update writes it (R214) -/
  | drainWord (core q id elem : Nat)
  /-- a copy reads the source word of one byte of a unit's part before it lands (R244) -/
  | copyWord (core id unit byte : Nat)
  /-- the power goes (R413) -/
  | powerLoss
  /-- a flit of one direction of a link arrives with a good tag: its failures are no longer in a row (R385) -/
  | goodFlit (link : Nat) (back : Bool)
  /-- a sector of HBM becomes uncorrectable (R259) -/
  | hbmError (sector : Nat)
  /-- a peer refuses a page to reads or to writes from now on, or serves it again (R449) -/
  | peerPage (x : PeerRefusal) (refuse : Bool)
deriving DecidableEq, Repr

/-- The state of the machine. -/
structure State where
  /-- the schedule (log 1): what moves in the coming steps -/
  turns : List Turn
  actor : Actor
  /-- numbers the free values drawn (log 2) -/
  free : Nat
  /-- `%clock` (R69), device time (R406) and the PTM offset still to remove (R406) -/
  clock : Nat
  time : Nat
  ptm : Int
  dev : DevStatus
  /-- global memory by physical address; an unlisted byte reads 0 (R218) -/
  mem : List Host.Cell
  /-- host memory by IO address; an unlisted byte reads 0 (log 4) -/
  hostMem : List Host.Cell
  /-- peers' memory, by 2^72·index + 2^60·VF + IPA; an unlisted byte reads 0 (log 4) -/
  peerMem : List Host.Cell
  /-- what peers refuse or cannot translate (R449; log 173) -/
  peerRefuses : List PeerRefusal
  /-- what the last host or peer read returned; none is poison (log 3, R447) -/
  latch : Option (List Byte)
  /-- sectors held by the L2 banks, by number (`secOf`) (R227, R404) -/
  l2 : Tbl L2Sector
  /-- strong stores on their way, oldest first (R242) -/
  sends : List Send
  cores : Tbl Core
  clusters : Tbl Cluster
  dies : Tbl Die
  /-- reclaim queues by package slice (R281) -/
  reclaim : Tbl (List RNode)
  units : Tbl WUnit
  images : Tbl Image
  launches : Tbl Launch
  /-- records of ended launches, until their handle is reused (R403) -/
  ended : Tbl Rec
  /-- job queues: 16·(function code) + entry -/
  jobs : Tbl Job
  /-- final records of ended jobs, their last phase and its graphs, until the entry is reused (R403) -/
  endedJobs : Tbl (Rec × Rec × List Rec)
  /-- task tables: 4,096·VF + task; an unlisted entry is FREE (R307) -/
  tasks : Tbl TaskEntry
  reqs : List PageReq
  /-- VFs 0-127 and the PF at 128 -/
  fns : Tbl FnState
  parts : Tbl Partition
  /-- slices not in the pool: in use by a partition, or excluded for ever (R369) -/
  usedSlices : List Nat
  excludedSlices : List Nat
  /-- retired pages by physical address (R369, R378) -/
  retired : List Nat
  commons : Tbl DWord
  syncs : List Sync
  halts : List Halt
  stops : List Stop
  pfPart : Nat
  cxl : Tbl CxlWin
  peerMap : Tbl DWord
  mcast : Tbl (BitVec 256)
  links : Tbl Link
  /-- attestation log entries, oldest first (R382, R432, R450) -/
  attest : List (List Nat)
  /-- lifetime histograms, their copy in flash, and when they were last written there (R413) -/
  life : Life
  lifeFlash : Life
  lifeAt : Nat
  /-- the repair maps (R450, R452) -/
  repairs : Repairs
  /-- USAGE_PULL writes in the order made (R410) -/
  pulls : List Pull
  /-- 48-byte sectors, by number (`secOf`), that read as uncorrectable (R259) -/
  badSectors : List Nat
  /-- the strand, as (unit, number), that issued last in each quarter, by 4·core + quarter (R199) -/
  lastIssue : Tbl (Nat × Nat)
  /-- the vendor part of the configuration image (R450, R452) -/
  vendor : VendorPart
  receiptSeq : Nat
  importKey : Nat
  /-- serial numbers: unit ages, run-queue entries, launches, copies and the like -/
  serial : Nat
deriving DecidableEq, Repr

/-! ## How a step can stop -/

/-- The faults that end a run. The faults of the manual (R418) are next states: a record is posted and the policy
acts. -/
inductive Fault where
  /-- Raised by the meaning of a Ramson or reeve instruction in a state where no strand, span or reeve is issuing it.
  `step` never reaches it: it sets the actor before every instruction. Safe. -/
  | noIssuer
deriving DecidableEq, Repr

/-- What the model refuses. -/
inductive Refusal where
  /-- An instruction that has no meaning yet, by its mnemonic. Raised by `exec` only. Safe. -/
  | notModelled (mnemonic : String)
deriving DecidableEq, Repr

/-! ## Reset -/

/-- Canonical memory: strictly rising addresses, no entry equal to what an unlisted byte reads as (0, R218). -/
def cellsWf : Nat → List Host.Cell → Bool
  | _, [] => true
  | lo, (a, b) :: t => decide (lo ≤ a) && b != 0 && cellsWf (a + 1) t

/-- The three memories are canonical. -/
def Memory.wf (s : State) : Bool := cellsWf 0 s.mem && cellsWf 0 s.hostMem && cellsWf 0 s.peerMem

/-- The machine right after reset: start-up has not begun (R452), nothing is resident, every table is empty, memory
reads zero. Values the manual does not give are those of logs 1, 2, 3, 4 and 9. -/
def State.reset : State where
  turns := []
  actor := .none
  free := 0
  clock := 0
  time := 0
  ptm := 0
  dev := {}
  mem := []
  hostMem := []
  peerMem := []
  peerRefuses := []
  latch := some []
  l2 := []
  sends := []
  cores := []
  clusters := []
  dies := []
  reclaim := []
  units := []
  images := []
  launches := []
  ended := []
  jobs := []
  endedJobs := []
  tasks := []
  reqs := []
  fns := []
  parts := []
  usedSlices := []
  excludedSlices := []
  retired := []
  commons := []
  syncs := []
  halts := []
  stops := []
  pfPart := 0
  cxl := []
  peerMap := []
  mcast := []
  links := []
  attest := []
  life := {}
  lifeFlash := {}
  lifeAt := 0
  repairs := {}
  pulls := []
  badSectors := []
  lastIssue := []
  vendor := {}
  receiptSeq := 0
  importKey := 0
  serial := 0

end Sys2Proof.Machine
end

