-- ==== Sys2Proof/Machine/Store.lean ====
section
/-! DEFINITION. The named operations over the tables and memories of the state: accessors, partition geometry
(R224, R225, R370), metering (R404), memory bytes, stores on their way (R242), the L2 and the L1s
(R226, R227, R237-R239, R383). -/

namespace Sys2Proof.Machine

open Sys2Proof

/-! ## Accessors -/

def coreOf (s : State) (c : Nat) : Core := Tbl.getD s.cores c {}
def setCore (s : State) (c : Nat) (f : Core → Core) : State := { s with cores := Tbl.upd s.cores c {} f }
def clusterOf (s : State) (c : Nat) : Cluster := Tbl.getD s.clusters c {}
def setCluster (s : State) (c : Nat) (f : Cluster → Cluster) : State :=
  { s with clusters := Tbl.upd s.clusters c {} f }
def dieOf (s : State) (d : Nat) : Die := Tbl.getD s.dies d {}
def setDie (s : State) (d : Nat) (f : Die → Die) : State := { s with dies := Tbl.upd s.dies d {} f }
def fnOf (s : State) (f : Nat) : FnState := Tbl.getD s.fns f {}
def setFn (s : State) (n : Nat) (f : FnState → FnState) : State := { s with fns := Tbl.upd s.fns n {} f }
def partOf (s : State) (p : Nat) : Partition := Tbl.getD s.parts p {}
def setPart (s : State) (p : Nat) (f : Partition → Partition) : State := { s with parts := Tbl.upd s.parts p {} f }
def unit? (s : State) (u : Nat) : Option WUnit := Tbl.find? s.units u
def setUnit (s : State) (u : Nat) (f : WUnit → WUnit) : State := { s with units := Tbl.upd? s.units u f }
def launch? (s : State) (l : Nat) : Option Launch := Tbl.find? s.launches l
def setLaunch (s : State) (l : Nat) (f : Launch → Launch) : State := { s with launches := Tbl.upd? s.launches l f }
def strand? (s : State) (u k : Nat) : Option Strand := (unit? s u).bind (fun w => Tbl.find? w.strands k)
def setStrand (s : State) (u k : Nat) (f : Strand → Strand) : State :=
  setUnit s u (fun w => { w with strands := Tbl.upd? w.strands k f })
def quarterOf (s : State) (c q : Nat) : Quarter := nth (coreOf s c).quarters q {}
def setQuarter (s : State) (c q : Nat) (f : Quarter → Quarter) : State :=
  setCore s c (fun co => { co with quarters := setNth co.quarters q (f (nth co.quarters q {})) })

/-- A fresh serial number. -/
def fresh (s : State) : Nat × State := (s.serial, { s with serial := s.serial + 1 })
/-- A fresh free value (log 2). -/
def freeVal (s : State) : Nat × State := (Config.freeNat s.free, { s with free := s.free + 1 })

/-- Die of a package core, and of a cluster (R14). -/
def dieOfCore (c : Nat) : Nat := c / 24
def dieOfCluster (c : Nat) : Nat := c / 12

/-- Function code of a launch key, and whether it belongs to the PF. -/
def fnOfLid (lid : Nat) : Nat := lid / 65536
/-- The event queue of a function code: the VF's own, or the PF's (R445). -/
def queueOf (fn : Nat) : Nat := if fn < 128 then fn else 128
def isPf (fn : Nat) : Bool := decide (128 ≤ fn)

/-! ## Partitions -/

/-- First package slice and number of channel groups (R370). -/
def partSpan (p : Partition) : Nat × Nat := if p.span then (12 * p.first, 12 * p.count) else (p.first, p.count)
def partSlices (p : Partition) : List Nat := (List.range (partSpan p).2).map (· + (partSpan p).1)

/-- The partition that holds a slice. -/
def partOfSlice (s : State) (sl : Nat) : Option Nat :=
  (s.parts.find? (fun e => e.2.st != .free && decide ((partSpan e.2).1 ≤ sl) && decide (sl < (partSpan e.2).1 + (partSpan e.2).2))).map
    (·.1)

/-- Package slice of a physical address; none where bits [35:32] name no slice (R224). -/
def sliceOfPa (pa : Nat) : Option Nat := if fld pa 32 4 < 12 then some (12 * fld pa 36 4 + fld pa 32 4) else none
def paOf (slice off : Nat) : Nat := (slice / 12) * 2 ^ 36 + (slice % 12) * 2 ^ 32 + off

def pagesPerGroup : Nat := 87381
def pageBytes : Nat := 49152

/-- Physical address of a partition page (R225). -/
def pageToPa (p : Partition) (page : Nat) : Nat :=
  let g := partSpan p
  paOf (g.1 + page % g.2) (page / g.2 * pageBytes)

/-- Partition and partition page of a physical address. -/
def pageOfPa (s : State) (pa : Nat) : Option (Nat × Nat) :=
  match sliceOfPa pa with
  | none => none
  | some sl =>
    match partOfSlice s sl with
    | none => none
    | some p =>
      let g := partSpan (partOf s p)
      some (p, pa % 2 ^ 32 / pageBytes * g.2 + (sl - g.1))

/-- Partition pages `[first, first + n)` that a region of n units of 64 MiB touches (R273). -/
def regionPages (r : Region) : Nat := (r.units * 67108864 + pageBytes - 1) / pageBytes

/-- Bytes of a strand's spill area (R218). -/
def spillLen (l : Lpb) : Nat := 132 * (l.vregs - l.vfloor)

/-- Bytes of a partition's pages. -/
def partBytes (p : Partition) : Nat := pagesPerGroup * (partSpan p).2 * pageBytes

/-- The byte ranges of a partition that spill areas, its cairn region and save areas hold (R221): first byte, counted through the
partition's pages, and length. -/
def heldRanges (s : State) (p : Nat) : List (Nat × Nat) :=
  let spills := s.units.flatMap (fun e =>
    match Tbl.find? s.launches e.2.lid with
    | some l => if l.part = p then e.2.strands.map (fun t => (t.2.spillAt, spillLen l.lpb)) else []
    | none => [])
  let cairn := match (partOf s p).region with
    | some r => [(r.first * pageBytes, regionPages r * pageBytes)]
    | none => []
  let saves := (s.fns.filter (fun e => e.2.bound && e.2.part == p)).map (fun e =>
    (e.2.saveArea.toNat % 2 ^ 32 * pageBytes, e.2.saveArea.toNat / 2 ^ 32 * pageBytes))
  (spills ++ cairn ++ saves).filter (fun (e : Nat × Nat) => e.2 != 0)

def rangeClear (held : List (Nat × Nat)) (a n : Nat) : Bool :=
  held.all (fun e => decide (a + n ≤ e.1) || decide (e.1 + e.2 ≤ a))

/-- A place for `n` bytes at the end of the partition's pages or before a held range. -/
def clearSpot (total n : Nat) (held : List (Nat × Nat)) : Option Nat :=
  ((total - n) :: held.map (fun e => e.1 - n)).find? (fun a => decide (a + n ≤ total) && rangeClear held a n)

/-- Do `k` areas of `n` bytes find room? -/
def areasFit (total n : Nat) : Nat → List (Nat × Nat) → Bool
  | 0, _ => true
  | k + 1, held => match clearSpot total n held with
    | some a => areasFit total n k ((a, n) :: held)
    | none => false

/-- Can the spill areas of `k` more strands of a launch be reserved (R32, R218)? -/
def spillRoom (s : State) (l : Launch) (k : Nat) : Bool :=
  spillLen l.lpb == 0 || areasFit (partBytes (partOf s l.part)) (spillLen l.lpb) k (heldRanges s l.part)

/-- Where the spill areas of the strands of unit `uid` lie: the manual places them nowhere, and a free value names the place of each, where
that leaves room for the others (DESIGN CHOICE, log 132). -/
def placeSpills (total n uid : Nat) : List Nat → List (Nat × Nat) → Tbl Nat
  | [], _ => []
  | k :: ks, held =>
    let f := total - n - Config.spillPlace uid k % (total - n + 1)
    let a := if rangeClear held f n && areasFit total n ks.length ((f, n) :: held) then f else (clearSpot total n held).getD 0
    Tbl.put (placeSpills total n uid ks ((a, n) :: held)) k a

/-- The strands of a unit with their spill areas. -/
def withSpills (s : State) (l : Launch) (uid : Nat) (ts : Tbl Strand) : Tbl Strand :=
  if spillLen l.lpb = 0 then ts
  else
    let at' := placeSpills (partBytes (partOf s l.part)) (spillLen l.lpb) uid (ts.map (·.1)) (heldRanges s l.part)
    Tbl.mapV ts (fun k t => { t with spillAt := Tbl.getD at' k 0, spillUsed := false })

/-- Some of the `n` bytes at byte `a` of partition `p` lie in the spill area of a resident strand. -/
def inSpill (s : State) (p a n : Nat) : Bool :=
  s.units.any (fun e =>
    match Tbl.find? s.launches e.2.lid with
    | none => false
    | some l =>
      let len := spillLen l.lpb
      decide (0 < len) && l.part == p && e.2.strands.any (fun t =>
        let b := t.2.spillAt
        decide (a < b + len) && decide (b < a + n)))

/-- Are some of the `n` bytes at an address, all in one page, removed from program access (R221)? Metadata blocks, cairn regions,
save areas and spill areas. -/
def removedPa (s : State) (pa n : Nat) : Bool :=
  if 0xFFFFC000 ≤ pa % 2 ^ 32 then true
  else
    match pageOfPa s pa with
    | none => false
    | some (p, page) =>
      inSpill s p (page * pageBytes + pa % 2 ^ 32 % pageBytes) n ||
      (match (partOf s p).region with
       | some r => decide (r.first ≤ page) && decide (page < r.first + regionPages r)
       | none => false)
      || s.fns.any (fun e => e.2.bound && e.2.part == p &&
          decide (e.2.saveArea.toNat % 2 ^ 32 ≤ page) &&
          decide (page < e.2.saveArea.toNat % 2 ^ 32 + e.2.saveArea.toNat / 2 ^ 32))

/-! ## Metering (R404, R417) -/

def meterMax : Nat := 2 ^ 64 - 1

/-- The counters of a partition stand still from the end of DRAIN on (R407). -/
def frozen (p : Partition) : Bool :=
  p.st == .free || p.st == .scrub || ((p.st == .reassign || p.st == .release) && p.dir)

def meterAdd (s : State) (p i n : Nat) : State :=
  setPart s p (fun q =>
    { q with meters := if frozen q then q.meters else setNth q.meters i (min (meterMax * 5184) (nth q.meters i 0 + n)) })

/-- Counter `i` as it reads: saturated, ENERGY floored to nJ (R404, R417). -/
def meterRead (p : Partition) (i : Nat) : Nat :=
  min meterMax (if i = 5 then nth p.meters 5 0 / 5184 else if i = 6 then nth p.meters 6 0 else nth p.meters i 0)

/-- Energy of one event of the given kind, at the partition's own vote (R417, log 24). -/
def chargeEnergy (s : State) (part kind : Nat) : State :=
  let v := 60 + 4 * (fld (partOf s part).railVote.toNat 0 3)
  meterAdd s part 5 (Config.energyNJ kind * v * v)

/-- Numbers of the events that are no instruction in the energy table: a sector of HBM read or written, a sector read or written at the
L2, a byte of a copy landed, an operation on a cairn region (R417; DESIGN CHOICE, log 24). -/
def energyHbm : Nat := 0x10000
def energyL2 : Nat := 0x10001
def energyCopy : Nat := 0x10002
def energyCairn : Nat := 0x10003

/-- ns of an hour (R413). -/
def hourNs : Nat := 3600000000000

/-! ## Bytes -/

def cellGet : List Host.Cell → Nat → Byte
  | [], _ => 0
  | (k, v) :: t, a => if k = a then v else if a < k then 0 else cellGet t a

def cellPut : List Host.Cell → Nat → Byte → List Host.Cell
  | [], a, b => if b = 0 then [] else [(a, b)]
  | (k, v) :: t, a, b =>
    if a < k then (if b = 0 then (k, v) :: t else (a, b) :: (k, v) :: t)
    else if a = k then (if b = 0 then t else (a, b) :: t)
    else (k, v) :: cellPut t a b

def getBytes (m : List Host.Cell) (a : Nat) : Nat → List Byte
  | 0 => []
  | n + 1 => cellGet m a :: getBytes m (a + 1) n

def putBytes (m : List Host.Cell) (a : Nat) : List Byte → List Host.Cell
  | [] => m
  | b :: bs => putBytes (cellPut m a b) (a + 1) bs

/-- Zeroes `[a, a + n)`. -/
def zeroBytes (m : List Host.Cell) (a n : Nat) : List Host.Cell :=
  m.filter (fun c => !(decide (a ≤ c.1) && decide (c.1 < a + n)))

/-! ## Sectors and lines (R223, R224) -/

/-- Numbers kept for the sectors of one channel group: 4 GiB is no multiple of 48, so sectors are counted from the start of
each group, four to a line (R223, R224). -/
def groupSectors : Nat := 89478488
/-- Number of the 48-byte sector that holds a physical address. -/
def secOf (pa : Nat) : Nat := pa / 2 ^ 32 * groupSectors + pa % 2 ^ 32 / 48
/-- Physical address of the first byte of a sector. -/
def secBase (sec : Nat) : Nat := sec / groupSectors * 2 ^ 32 + sec % groupSectors * 48
/-- Number of the 192-byte line that holds a physical address. -/
def lineNo (pa : Nat) : Nat := secOf pa / 4
/-- Physical address of the first byte of the line that holds a physical address. -/
def lineBase (pa : Nat) : Nat := secBase (4 * lineNo pa)

/-- Numbers of the 48-byte sectors that `[pa, pa + n)` touches. -/
def sectorsOf (pa n : Nat) : List Nat :=
  if n = 0 then [] else (List.range (secOf (pa + n - 1) - secOf pa + 1)).map (· + secOf pa)

/-! ## The L2 (R227, R404) -/

/-- Is a sector part of the page at a physical address? -/
def pageSectors (pa : Nat) (sec : Nat) : Bool := decide (secOf pa ≤ sec) && decide (sec ≤ secOf (pa + pageBytes - 1))

/-- Slice, bank (the colour) and set of a sector's line in the L2 (R227). -/
def l2Set (sec : Nat) : Nat × Nat × Nat :=
  let o := sec % groupSectors * 48
  let p := o / pageBytes
  (sec / groupSectors, fld p 0 2 ^^^ fld p 2 2 ^^^ fld p 4 2 ^^^ fld p 6 2, o % pageBytes / 192)

/-- Ways of a set (R227). -/
def l2Ways : Nat := 16

/-- The lines, four sectors each, that a rising table of sectors lists. -/
def linesOf {α : Type} (t : Tbl α) (line : Nat → Nat) : List Nat :=
  t.foldr (fun e l => match l with
    | x :: _ => if x = line e.1 then l else line e.1 :: l
    | [] => [line e.1]) []

/-- Lines resident in the set of a sector. -/
def l2InSet (s : State) (sec : Nat) : List Nat := linesOf (s.l2.filter (fun e => l2Set e.1 == l2Set sec)) (· / 4)

/-- A sector read (2) or written (3) at its channel group: counted in the partition that the group belongs to, with its energy. -/
def chargeSector (s : State) (charge : Bool) (sec i : Nat) : State :=
  if charge then
    match (sliceOfPa (secBase sec)).bind (partOfSlice s) with
    | some p => chargeEnergy (meterAdd s p i 48) p energyHbm
    | none => s
  else s

/-- A sector accessed at its home. -/
def chargeL2 (s : State) (charge : Bool) (sec : Nat) : State :=
  if charge then
    match (sliceOfPa (secBase sec)).bind (partOfSlice s) with
    | some p => chargeEnergy s p energyL2
    | none => s
  else s

/-- Writes back, and drops, the L2 sectors that satisfy a test: the meters count what counted work wrote. -/
def l2Drop (s : State) (p : Nat → Bool) : State :=
  let s := (s.l2.filter (fun e => e.2.dirty && p e.1)).foldl (fun s e => chargeSector s e.2.counted e.1 3) s
  { s with l2 := s.l2.filter (fun e => !p e.1) }

/-- Room for a sector's line in its set: where all 16 ways hold other lines, one of them leaves, which a free value names
(R227: replacement within a set is not architected). -/
def l2Room (s : State) (sec : Nat) : State :=
  let ls := l2InSet s sec
  if ls.contains (sec / 4) || decide (ls.length < l2Ways) then s
  else
    let v := freeVal s
    l2Drop v.2 (fun x => x / 4 == nth ls (v.1 % ls.length) 0)

/-- An access of `[pa, pa + n)` at the home: absent sectors are read from HBM, written ones become dirty. -/
def l2Touch (s : State) (charge : Bool) (pa n : Nat) (write : Bool) : State :=
  (sectorsOf pa n).foldl (fun s sec =>
    let s := chargeL2 s charge sec
    match Tbl.find? s.l2 sec with
    | some d => if write && (!d.dirty || (charge && !d.counted)) then { s with l2 := Tbl.put s.l2 sec ⟨true, charge || d.counted⟩ } else s
    | none =>
      let s := l2Room s sec
      let s := if write && decide (pa ≤ secBase sec) && decide (secBase sec + 48 ≤ pa + n) then s
               else chargeSector s charge sec 2
      { s with l2 := Tbl.put s.l2 sec ⟨write, write && charge⟩ }) s

/-! ## Locations -/

def peerKey (idx vf ipa : Nat) : Nat := idx * 2 ^ 72 + vf * 2 ^ 60 + ipa

/-- The home a location lies at: a slice, the host port, a peer (R242, R251). -/
def homeOf : Loc → Nat
  | .mem pa => pa / 2 ^ 32
  | .host _ => 1024
  | .peer i _ _ => 2048 + i
  | .scratch _ => 4096

/-- The home of a location and its aligned 4-byte word there (R236). -/
def wordOf (l : Loc) : Nat × Nat :=
  (homeOf l, match l with | .mem pa => pa / 4 | .host io => io / 4 | .peer i v ipa => peerKey i v ipa / 4 | .scratch o => o / 4)

/-- Byte `i` after a location. -/
def Loc.plus : Loc → Nat → Loc
  | .mem pa, i => .mem (pa + i)
  | .host io, i => .host (io + i)
  | .peer x v ipa, i => .peer x v (ipa + i)
  | .scratch o, i => .scratch (o + i)

/-- Reads at the home of a location (not for the scratchpad). -/
def readHome (s : State) (loc : Loc) (n : Nat) : List Byte :=
  match loc with
  | .mem pa => getBytes s.mem pa n
  | .host io => getBytes s.hostMem io n
  | .peer i v ipa => getBytes s.peerMem (peerKey i v ipa) n
  | .scratch _ => List.replicate n 0

/-- The home's part of an access: L2 and metering. -/
def touchHome (s : State) (charge : Bool) (loc : Loc) (n : Nat) (write : Bool) : State :=
  match loc with
  | .mem pa => l2Touch s charge pa n write
  | _ => s

/-- Writes at the home of a location. -/
def writeHome (s : State) (charge : Bool) (loc : Loc) (bs : List Byte) : State :=
  match loc with
  | .mem pa => { l2Touch s charge pa bs.length true with mem := putBytes s.mem pa bs }
  | .host io => { s with hostMem := putBytes s.hostMem io bs }
  | .peer i v ipa => { s with peerMem := putBytes s.peerMem (peerKey i v ipa) bs }
  | .scratch _ => s

/-! ## Links and uncorrectable sectors (R9, R10, R20, R21, R259, R385, R449) -/

/-- Mesh coordinates of the dies (R9). -/
def dieXY (d : Nat) : Nat × Nat :=
  nth [(0, 0), (0, 1), (1, 1), (1, 0), (2, 0), (3, 0), (3, 1), (2, 1), (2, 2), (3, 2), (3, 3), (2, 3), (1, 3), (1, 2),
       (0, 2), (0, 3)] d (0, 0)

/-- The coordinates from `a` up to, not including, `b`, in either direction. -/
def stepsBetween (a b : Nat) : List Nat := (List.range (max a b - min a b)).map (· + min a b)

/-- The cols from one die to another: along x, then along y (R10). The col from (x, y) to (x + 1, y) is link 3y + x, the
col from (x, y) to (x, y + 1) is link 12 + 3x + y (log 37). -/
def routeCols (a b : Nat) : List Nat :=
  let p := dieXY a
  let q := dieXY b
  (stepsBetween p.1 q.1).map (fun x => 3 * p.2 + x) ++ (stepsBetween p.2 q.2).map (fun y => 12 + 3 * q.1 + y)

/-- The die of a peer port (R20). -/
def portDie (p : Nat) : Nat := nth [0, 1, 3, 4, 5, 6, 9, 10, 11, 12, 14, 15] p 0
/-- The die of a host port (R21). -/
def hostDie (h : Nat) : Nat := if h = 0 then 0 else 15

def linkUp (s : State) (l : Nat) : Bool := (Tbl.getD s.links l {}).up

/-- Port of a PEER_MAP entry (R449). -/
def peerPort (s : State) (i : Nat) : Nat := fld (Tbl.getD s.peerMap i 0).toNat 1 4

/-- The die of a location's home, or of the port it is reached through; `h` is the host port of its function (R20, R21). -/
def homeDie (s : State) (h : Nat) : Loc → Option Nat
  | .mem pa => some (pa / 2 ^ 36)
  | .host _ => some (hostDie h)
  | .peer i _ _ => some (portDie (peerPort s i))
  | .scratch _ => none

/-- The port's link beyond that die. -/
def portLinks (s : State) (h : Nat) : Loc → List Nat
  | .host _ => [36 + h]
  | .peer i _ _ => [24 + peerPort s i]
  | _ => []

/-- The links that an access from a die crosses, on its way and back (R10): the two ways are routed each along x first. -/
def linksTo (s : State) (die h : Nat) (loc : Loc) : List Nat :=
  match homeDie s h loc with
  | some d => routeCols die d ++ routeCols d die ++ portLinks s h loc
  | none => []

/-- The links that a tile crosses which die `die` asks for at its home and die `goal` receives (R11, R326). -/
def linksVia (s : State) (die h : Nat) (loc : Loc) (goal : Nat) : List Nat :=
  match homeDie s h loc with
  | some d => routeCols die d ++ routeCols d goal ++ portLinks s h loc
  | none => []

/-- The links that an access of a port crosses: the port's own, and the cols between its die and the home, on its way and back
(R10, R20, R21). -/
def linksIn (die link pa : Nat) : List Nat := link :: (routeCols die (pa / 2 ^ 36) ++ routeCols (pa / 2 ^ 36) die)

/-- Host port of a function: H0 of the PF, BIND_VF's of a VF (R21, R372). -/
def portOfFn (s : State) (fn : Nat) : Nat := if isPf fn then 0 else if (fnOf s fn).port then 1 else 0

/-- Does a function's register file accept writes: the device is ready, the function is in no reset, its host port is up (R21)? -/
def fnOpen (s : State) (fn : Nat) : Bool := s.dev.ready && !(fnOf s (queueOf fn)).flr && linkUp s (36 + portOfFn s fn)

/-- Host port of a unit's function. -/
def portOfUnit (s : State) (uid : Nat) : Nat :=
  match unit? s uid with
  | some w => portOfFn s (fnOfLid w.lid)
  | none => 0

/-- Does a peer refuse the page of an access that reads, or that writes (R449)? -/
def peerSays (s : State) (i v ipa : Nat) (rd wr : Bool) : Bool :=
  s.peerRefuses.any (fun x => x.peer == i && x.vf == v && x.page == ipa / pageBytes && (if x.write then wr else rd))

/-- Can a home serve a read, or a write, of `[loc, loc + n)`: its sectors can be read, its peer is mapped and does not refuse it? -/
def homeServes (s : State) (loc : Loc) (n : Nat) (rd wr : Bool) : Bool :=
  match loc with
  | .mem pa => (sectorsOf pa n).all (fun c => Tbl.has s.l2 c || !s.badSectors.contains c)
  | .peer i v ipa => (Tbl.getD s.peerMap i 0).getLsbD 0 && decide (peerPort s i < 12) && !peerSays s i v ipa rd wr
  | _ => true

/-- Does an access meet no uncorrectable error: its links are up, and its home serves it? (DEDUCED, log 106) -/
def reachable (s : State) (die h : Nat) (loc : Loc) (n : Nat) (rd : Bool := true) (wr : Bool := false) : Bool :=
  (linksTo s die h loc).all (linkUp s) && homeServes s loc n rd wr

/-- May an access of a port reach `n` bytes at their home, which can still be read? (DEDUCED, log 106) -/
def portReaches (s : State) (die link pa n : Nat) : Bool := (linksIn die link pa).all (linkUp s) && homeServes s (.mem pa) n true true

/-! ## Stores on their way (R242) -/

/-- Must `a`, sent earlier, be performed before `b`? The stores of one core reach one home in the order sent (R233, R234:
strands of a core order them at `.core`; DEDUCED, log 133); those of one thread to homes on its own die too (R242). -/
def Send.before (a b : Send) : Bool :=
  a.core == b.core &&
    (homeOf a.loc == homeOf b.loc ||
      (a.uid == b.uid && a.k == b.k &&
        (match a.loc, b.loc with
         | .mem p, .mem q => decide (p / 2 ^ 36 = dieOfCore a.core) && decide (q / 2 ^ 36 = dieOfCore a.core)
         | _, _ => false)))

/-- The sends to perform so that those chosen by `p` are: the chosen ones and, before each, what must precede it. -/
def sendSplit (p : Send → Bool) : List Send → List Send × List Send
  | [] => ([], [])
  | x :: rest =>
    let r := sendSplit p rest
    if p x || r.1.any (fun y => x.before y) then (x :: r.1, r.2) else (r.1, x :: r.2)

def performSends (s : State) (p : Send → Bool) : State :=
  let r := sendSplit p s.sends
  r.1.foldl (fun s x => writeHome s x.counted x.loc x.data) { s with sends := r.2 }

def lineOf : Loc → Nat
  | .mem pa => lineNo pa
  | .host io => io / 192
  | .peer i v ipa => peerKey i v ipa / 192
  | .scratch o => o / 192

def sameLine (a b : Loc) : Bool := homeOf a == homeOf b && lineOf a == lineOf b

/-- Performs the sends of a core to the line of a location. -/
def forceLine (s : State) (core : Nat) (loc : Loc) : State :=
  performSends s (fun x => x.core == core && sameLine x.loc loc)

/-! ## The L1 (R226, R237-R239, R383) -/

/-- Writes back the dirty bytes of a core's L1 that satisfy a test: they merge at their homes (R238). -/
def l1WriteBack (s : State) (core : Nat) (p : Nat → Bool) : State :=
  let d := (coreOf s core).l1.filter (fun e => e.2.dirty && p e.1)
  match d with
  | [] => s
  | _ =>
    let s := performSends s (fun x => x.core == core && d.any (fun e => sameLine (.mem e.1) x.loc))
    let s := d.foldl (fun s e => writeHome s e.2.counted (.mem e.1) [e.2.val]) s
    setCore s core (fun c => { c with l1 := c.l1.map (fun e => if p e.1 then (e.1, { e.2 with dirty := false }) else e) })

/-- Drops the clean bytes of a core's L1 that satisfy a test. -/
def l1Invalidate (s : State) (core : Nat) (p : Nat → Bool) : State :=
  if (coreOf s core).l1.any (fun e => !e.2.dirty && p e.1) then
    setCore s core (fun c => { c with l1 := c.l1.filter (fun e => e.2.dirty || !p e.1) })
  else s

/-- A `.die`, `.dev` or `.sys` release of a core: every dirty byte is written back, and every send of the core is
performed (R237). -/
def releaseCore (s : State) (core : Nat) : State :=
  l1WriteBack (performSends s (fun x => x.core == core)) core (fun _ => true)

/-- A `.die`, `.dev` or `.sys` acquire of a core: only bytes written locally stay (R237). -/
def acquireCore (s : State) (core : Nat) : State := l1Invalidate s core (fun _ => true)

/-- Drops what a core's L1 holds of the addresses that satisfy a test, after writing its dirty bytes back. -/
def l1Drop (s : State) (core : Nat) (p : Nat → Bool) : State :=
  let s := l1WriteBack s core p
  setCore s core (fun c => { c with l1 := c.l1.filter (fun e => !p e.1) })

/-- Lines of another world leave before an access of world `w` takes their place (R383). -/
def l1Evict (s : State) (core : Nat) (w pa : Nat) : State :=
  if (coreOf s core).l1.any (fun e => lineNo e.1 == lineNo pa && e.2.world != w) then
    l1Drop s core (fun a => lineNo a == lineNo pa)
  else s

/-- Lines that the L1 of a core holds: those of data, and the cairn lines (R226). -/
def l1Lines (c : Core) : List Nat := linesOf c.l1 lineNo

/-- Lines that fit the L1 banks of a core (R218, R226). -/
def l1Max (c : Core) : Nat := c.lc * 256

/-- The `v`-th line of a core's L1 leaves: a cairn line, or a line of data. -/
def l1Leave (s : State) (core : Nat) (v : Nat) : State :=
  let c := coreOf s core
  if v < c.cairn.length then setCore s core (fun c => { c with cairn := c.cairn.eraseIdx v })
  else l1Drop s core (fun a => lineNo a == nth (l1Lines c) (v - c.cairn.length) 0)

/-- Room for one more line in a core's L1: where its banks are full, one line leaves, which a free value names (R226:
replacement is not architected). -/
def l1Room (s : State) (core : Nat) : State :=
  let c := coreOf s core
  let n := (l1Lines c).length + c.cairn.length
  if n < l1Max c || n = 0 then s
  else
    let v := freeVal s
    l1Leave v.2 core (v.1 % n)

/-- The line of an address has its place in a core's L1, for world `w`. -/
def l1Place (s : State) (core : Nat) (w pa : Nat) : State :=
  let s := l1Evict s core w pa
  if (l1Lines (coreOf s core)).contains (lineNo pa) then s else l1Room s core

/-- Is every byte of `[pa, pa + n)` held for world `w`? -/
def l1Hit (c : Core) (w pa : Nat) : Nat → Bool
  | 0 => true
  | n + 1 => (match Tbl.find? c.l1 pa with | some e => e.world == w | none => false) && l1Hit c w (pa + 1) n

/-- The bytes of a sector from `pa` as the home has them now; those written locally stay (R236, R238). -/
def fillBytes (m : List Host.Cell) (w : Nat) : Tbl L1Byte → Nat → Nat → Tbl L1Byte
  | t, _, 0 => t
  | t, pa, n + 1 =>
    fillBytes m w (match Tbl.find? t pa with
      | some e => if e.dirty then t else Tbl.put t pa { val := cellGet m pa, dirty := false, world := w }
      | none => Tbl.put t pa { val := cellGet m pa, dirty := false, world := w }) (pa + 1) n

/-- Fills one sector from the home, unless the L1 holds all of it for world `w`. -/
def l1FillSector (core : Nat) (charge : Bool) (w : Nat) (s : State) (sec : Nat) : State :=
  let lo := secBase sec
  if l1Hit (coreOf s core) w lo 48 then s
  else
    let s := forceLine s core (.mem lo)
    let s := l1Place s core w lo
    let s := l2Touch s charge lo 48 false
    setCore s core (fun c => { c with l1 := fillBytes s.mem w c.l1 lo 48 })

/-- Fills the sectors of `[pa, pa + n)` from the home. -/
def l1Fill (s : State) (core : Nat) (charge : Bool) (w pa n : Nat) : State :=
  (sectorsOf pa n).foldl (l1FillSector core charge w) s

/-- A read performed in the L1. A byte whose line has left again while the rest was filled is the home's. -/
def l1Read (s : State) (core : Nat) (charge : Bool) (w pa n : Nat) : List Byte × State :=
  let s := if l1Hit (coreOf s core) w pa n then s else l1Fill s core charge w pa n
  ((List.range n).map (fun i => match Tbl.find? (coreOf s core).l1 (pa + i) with
    | some e => e.val
    | none => cellGet s.mem (pa + i)), s)

def dirtyBytes (charge : Bool) (w : Nat) : Tbl L1Byte → Nat → List Byte → Tbl L1Byte
  | t, _, [] => t
  | t, pa, b :: bs => dirtyBytes charge w (Tbl.put t pa ⟨b, true, w, charge⟩) (pa + 1) bs

/-- A write performed in the L1. -/
def l1Write (s : State) (core : Nat) (charge : Bool) (w pa : Nat) (bs : List Byte) : State :=
  let s := l1Place s core w pa
  setCore s core (fun c => { c with l1 := dirtyBytes charge w c.l1 pa bs })

/-- A strong store also updates the bytes of it that the L1 holds (R239). -/
def updBytes : Tbl L1Byte → Nat → List Byte → Tbl L1Byte
  | t, _, [] => t
  | t, pa, b :: bs => updBytes (Tbl.upd? t pa (fun e => { e with val := b, dirty := false })) (pa + 1) bs

/-- The 48-byte sectors, and the line, of an access. -/
def inSectors (pa n a : Nat) : Bool := decide (secOf pa ≤ secOf a) && decide (secOf a ≤ secOf (pa + n - 1))
def inLine (pa a : Nat) : Bool := decide (lineNo a = lineNo pa)

/-- The clean bytes that an L1 holds of the addresses that satisfy a test take the value that the home has now. -/
def l1Refresh (s : State) (core : Nat) (p : Nat → Bool) : State :=
  if (coreOf s core).l1.any (fun e => !e.2.dirty && p e.1) then
    setCore s core (fun c => { c with l1 := c.l1.map (fun e =>
      if !e.2.dirty && p e.1 then (e.1, { e.2 with val := cellGet s.mem e.1 }) else e) })
  else s

/-! ## Access to a location by a core -/

/-- Who accesses: core, quarter's world, unit and strand, and whether metering counts it. -/
structure Who where
  core : Nat
  world : Nat
  uid : Nat
  k : Nat
  charge : Bool
  /-- the lane, instruction and generic address that a record of UNCORR names (R259) -/
  lane : Nat := 0
  pc : DWord := 0
  addr : Nat := 0
deriving DecidableEq, Repr

def scratchGet (s : State) (uid o n : Nat) : List Byte :=
  match unit? s uid with
  | some w => getBytes w.scratch o n
  | none => List.replicate n 0
def scratchPut (s : State) (uid o : Nat) (bs : List Byte) : State :=
  setUnit s uid (fun w => { w with scratch := putBytes w.scratch o bs })

/-- A weak or `.core` read (R239): in the L1, at the scratchpad, or at the port. -/
def weakRead (s : State) (x : Who) (loc : Loc) (n : Nat) : List Byte × State :=
  match loc with
  | .mem pa => l1Read s x.core x.charge x.world pa n
  | .scratch o => (scratchGet s x.uid o n, s)
  | _ =>
    let s := forceLine s x.core loc
    (readHome s loc n, s)

/-- A weak or `.core` write (R239). -/
def weakWrite (s : State) (x : Who) (loc : Loc) (bs : List Byte) : State :=
  match loc with
  | .mem pa => l1Write s x.core x.charge x.world pa bs
  | .scratch o => scratchPut s x.uid o bs
  | _ => writeHome (forceLine s x.core loc) x.charge loc bs

/-- A read performed at the home, after the core's own dirty bytes of its sectors (R239). The clean bytes that the L1 holds
of them take what was read, so that no later read of the core goes back behind it (R235; DEDUCED, log 134). -/
def strongRead (s : State) (x : Who) (loc : Loc) (n : Nat) : List Byte × State :=
  match loc with
  | .mem pa =>
    let s := forceLine s x.core loc
    let s := l1WriteBack (l1Evict s x.core x.world pa) x.core (inSectors pa n)
    let s := l1Refresh (l2Touch s x.charge pa n false) x.core (inSectors pa n)
    (getBytes s.mem pa n, s)
  | _ => weakRead s x loc n

/-- Performs the sends that must reach their homes before a strong write of a thread at a location does (R235, R242). -/
def forceBefore (s : State) (x : Who) (loc : Loc) : State :=
  performSends s (fun y => (y.core == x.core && sameLine y.loc loc) || y.before ⟨x.core, x.uid, x.k, loc, [], 0, 0, 0, true⟩)

/-- A strong store: the core's dirty bytes of its sectors go first; the store is sent (R239, R242) or, when it is
a release, performed at once. -/
def strongWrite (s : State) (x : Who) (loc : Loc) (bs : List Byte) (now : Bool) : State :=
  match loc with
  | .scratch o => scratchPut s x.uid o bs
  | .mem pa =>
    let s := l1WriteBack (l1Evict s x.core x.world pa) x.core (inSectors pa bs.length)
    let s := setCore s x.core (fun c => { c with l1 := updBytes c.l1 pa bs })
    if now then writeHome (forceBefore s x loc) x.charge loc bs
    else { s with sends := s.sends ++ [⟨x.core, x.uid, x.k, loc, bs, x.lane, x.pc, x.addr, x.charge⟩] }
  | _ =>
    if now then writeHome (forceBefore s x loc) x.charge loc bs
    else { s with sends := s.sends ++ [⟨x.core, x.uid, x.k, loc, bs, x.lane, x.pc, x.addr, x.charge⟩] }

/-- An indivisible read-modify-write at its home (R268, R269): the whole line of the core's L1 is written back and
invalidated first. `f` gives the new bytes, or none when nothing is written. -/
def rmw (s : State) (x : Who) (loc : Loc) (n : Nat) (f : List Byte → Option (List Byte)) : List Byte × State :=
  match loc with
  | .scratch o =>
    let old := scratchGet s x.uid o n
    (old, match f old with | some bs => scratchPut s x.uid o bs | none => s)
  | _ =>
    let s := forceBefore s x loc
    let s := match loc with
      | .mem pa => l1Invalidate (l1WriteBack s x.core (inLine pa)) x.core (inLine pa)
      | _ => s
    let old := readHome s loc n
    let s := touchHome s x.charge loc n false
    (old, match f old with | some bs => writeHome s x.charge loc bs | none => s)

end Sys2Proof.Machine
end

