-- ==== Sys2Proof/Machine/Names.lean ====
section
/-! DEFINITION. Cairn memory as a store of named lines: names (R276-R278), the directory, interning (R279, R280),
reference counts, freeing and reclaim (R281, R282), and domain selection (R275, R445). -/

namespace Sys2Proof.Machine

open Sys2Proof

/-! ## Domains -/

/-- Where a domain is held: partition and number. -/
structure DomKey where
  part : Nat
  dom : Nat
deriving DecidableEq, Repr

def domain? (s : State) (k : DomKey) : Option Domain := Tbl.find? (partOf s k.part).domains k.dom
def setDomain (s : State) (k : DomKey) (f : Domain → Domain) : State :=
  setPart s k.part (fun p => { p with domains := Tbl.upd? p.domains k.dom f })

/-- The domain that an entry of a partition's domain table names (R275). -/
def tableEntry (s : State) (part entry : Nat) : Option DomKey :=
  let k : DomKey := match Tbl.find? (partOf s part).links entry with
    | some (p, d) => ⟨p, d⟩
    | none => ⟨part, entry⟩
  (domain? s k).map (fun _ => k)

/-- A selected domain and its rights. -/
structure DomUse where
  key : DomKey
  intern : Bool
  swap : Bool
deriving DecidableEq, Repr

/-- The domain that a selector names for a launch; none when it is unbound (R275, R445). -/
def selectDomain (s : State) (l : Launch) (dsel : Nat) : Option DomUse :=
  if isPf l.fn then
    let v := (partOf s l.part).pfCairn.toNat
    if fld v 8 1 = 1 then (tableEntry s l.part (fld v 0 8)).map (fun k => ⟨k, true, true⟩) else none
  else
    let v := (nth (fnOf s l.fn).cairnBind dsel 0).toNat
    if fld v 8 1 = 1 then
      (tableEntry s l.part (fld v 0 8)).map (fun k => ⟨k, fld v 9 1 == 1, fld v 10 1 == 1⟩)
    else none

/-! ## Names (R276-R278) -/

def nameKind (n : QWord) : Nat := n.toNat % 16
def nameOf (h o k : Nat) : QWord := BitVec.ofNat 128 (h * 256 + o * 16 + k)
/-- The channel group, of `k`, that is a name's home (R274). -/
def homeGroup (n : QWord) (k : Nat) : Nat := if k = 0 then 0 else fld n.toNat 8 32 % k
/-- HASH of content under a domain key. -/
def nameHash (key : BitVec 256) (kind : Nat) (line : List Byte) : Nat :=
  ofBytes ((blakeKeyed key (BitVec.ofNat 8 kind :: line)).take 15)

def zeroLine : List Byte := List.replicate 192 0
/-- Child `c` of a node's line (R278). -/
def childOf (line : List Byte) (c : Nat) : QWord := BitVec.ofNat 128 (ofBytes (slice line (16 * c) 16))
def childrenOf (line : List Byte) : List QWord := (List.range 12).map (childOf line)

def entry? (s : State) (k : DomKey) (n : QWord) : Option CEntry := (domain? s k).bind (fun d => Tbl.find? d.dir n.toNat)
/-- R282. -/
def known (s : State) (k : DomKey) (n : QWord) : Bool := n == 0 || (entry? s k n).isSome
/-- The line of a known name (R277). -/
def lineFor (s : State) (k : DomKey) (n : QWord) : List Byte :=
  if n = 0 then zeroLine else match entry? s k n with | some e => e.line | none => zeroLine

/-- The name in a root slot (R272). -/
def slotName (s : State) (k : DomKey) (i : Nat) : QWord :=
  match domain? s k with
  | some d => Tbl.getD d.roots i 0
  | none => 0

/-! ## Metering of cairn traffic (R404) -/

/-- Sectors of the region read and written by one operation: how a directory is searched is not given, so their numbers
are free values (log 31). -/
def cairnTraffic (s : State) (charge : Bool) (k : DomKey) : State :=
  if charge then
    let a := freeVal s
    let b := freeVal a.2
    chargeEnergy (meterAdd (meterAdd b.2 k.part 2 (48 * a.1)) k.part 3 (48 * b.1)) k.part energyCairn
  else s

/-! ## Counts (R281) -/

def satCount : Nat := 2 ^ 32 - 1

/-- +1 on a name; Z and a saturated entry stay. -/
def addRef (s : State) (k : DomKey) (n : QWord) : State :=
  if n = 0 then s
  else setDomain s k (fun d => { d with dir := Tbl.upd? d.dir n.toNat (fun e =>
    { e with count := if e.count = satCount then e.count else e.count + 1 }) })

/-- Cores of a partition: two for each of its slices' clusters (R14, R370). -/
def partCores (s : State) (p : Nat) : List Nat := (partSlices (partOf s p)).flatMap (fun sl => [2 * sl, 2 * sl + 1])

/-- The nodes of a partition that wait for reclaim: their lines stay live until then (R281, R459). -/
def queuedNodes (s : State) (p : Nat) : List RNode :=
  (s.reclaim.flatMap (·.2)).filter (fun x => x.part == p) ++ (partOf s p).domains.flatMap (·.2.overflow)

/-- The root entry of channel group `g` after the directory or the free lines of the group have changed (R274). -/
def noteShard (s : State) (k : DomKey) (g : Nat) : State :=
  setDomain s k (fun d =>
    let n := nth d.free g 0 + (d.freed.filter (fun x => x.group == g)).length
    { d with shards := setNth d.shards g { nth d.shards g {} with
        freeHead := if n = 0 then 0xFFFFFFFF else Config.freeHead k.part k.dom g n % 0xFFFFFFFF
        live := (d.dir.filter (fun e => e.2.group == g)).length
                  + ((queuedNodes s k.part).filter (fun x => x.dom == k.dom && x.group == g)).length } })

/-- Root entry `d` of a channel group of a partition, as its metadata block holds it (R274; log 152). -/
def rootEntry (s : State) (k : DomKey) (g : Nat) : Nat :=
  match domain? s k with
  | none => 0xFFFFFFFF * 2 ^ 64
  | some d =>
    let h := nth d.shards g {}
    h.base % 2 ^ 32 + (h.lines % 2 ^ 24) * 2 ^ 32 + (h.freeHead % 2 ^ 32) * 2 ^ 64 + (h.live % 2 ^ 24) * 2 ^ 96 + 2 ^ 127

/-- A data line becomes free; it is not reused before every core has invalidated (R281). -/
def freeLine (s : State) (k : DomKey) (group : Nat) : State :=
  let cs := partCores s k.part
  noteShard (setDomain s k (fun d => { d with freed := d.freed ++ [⟨group, cs⟩] })) k group

/-- A node whose count reached 0 joins its home slice's queue, or the domain's overflow. -/
def queueNode (s : State) (by' : Option Nat) (k : DomKey) (n : QWord) (e : CEntry) : State :=
  let g := partSpan (partOf s k.part)
  let sl := g.1 + homeGroup n g.2
  let (i, s) := fresh s
  let x : RNode := ⟨k.part, k.dom, n, e.line, e.group, i, by'⟩
  if (Tbl.getD s.reclaim sl []).length < 256 then { s with reclaim := Tbl.upd s.reclaim sl [] (fun q => q ++ [x]) }
  else setDomain s k (fun d => { d with overflow := d.overflow ++ [x] })

/-- The overflowed nodes of a partition whose home is a slice. -/
def overflowOf (s : State) (p sl : Nat) : List RNode :=
  let g := partSpan (partOf s p)
  (partOf s p).domains.flatMap (fun d => d.2.overflow.filter (fun x => g.1 + homeGroup x.name g.2 == sl))

/-- The first queued of some nodes. -/
def firstNode : List RNode → Option RNode
  | [] => none
  | x :: r => match firstNode r with
    | some y => some (if y.seq < x.seq then y else x)
    | none => some x

/-- Overflowed nodes, the first queued first, take the places free in a slice's queue (R281). -/
def refillReclaim (p sl : Nat) : Nat → State → State
  | 0, s => s
  | n + 1, s =>
    match if (Tbl.getD s.reclaim sl []).length < 256 then firstNode (overflowOf s p sl) else none with
    | none => s
    | some x =>
      let s := setDomain s ⟨p, x.dom⟩ (fun d => { d with overflow := d.overflow.filter (fun y => y.seq != x.seq) })
      refillReclaim p sl n { s with reclaim := Tbl.upd s.reclaim sl [] (fun q => q ++ [x]) }

/-- −1 on a name: at 0 the entry goes, a leaf's line is freed, a node is queued for the unit that dropped it. -/
def dropRefBy (by' : Option Nat) (s : State) (k : DomKey) (n : QWord) : State :=
  match if n = 0 then none else entry? s k n with
  | none => s
  | some e =>
    if e.count = satCount then s
    else if 1 < e.count then
      setDomain s k (fun d => { d with dir := Tbl.upd? d.dir n.toNat (fun e => { e with count := e.count - 1 }) })
    else
      let s := setDomain s k (fun d => { d with dir := Tbl.del d.dir n.toNat })
      if nameKind n = 0 then freeLine s k e.group else noteShard (queueNode s by' k n e) k e.group

/-- The unit that acts. -/
def actingUnit (s : State) : Option Nat := match s.actor with | .strand u _ => some u | _ => none

/-- −1 on a name by the unit that acts. -/
def dropRef (s : State) (k : DomKey) (n : QWord) : State := dropRefBy (actingUnit s) s k n

/-! ## Interning (R279, R280) -/

/-- How an interning ends. -/
inductive Interned where
  | name (n : QWord) (s : State)
  /-- CAIRN_FULL with its REASON (R419) -/
  | full (reason : Nat) (s : State)
  /-- every free data line still awaits reuse -/
  | wait

def rOrdinals : Nat := 1
def rBudget : Nat := 2

/-- The group from which a new line takes a free data line: its home, else the next that has one. -/
def lineGroup (free : List Nat) (home : Nat) : Option Nat :=
  let k := free.length
  ((List.range k).map (fun i => (home + i) % k)).find? (fun g => decide (0 < nth free g 0))

/-- Is the ordinal taken? Z holds (0, 0, 0) for ever (R277). -/
def ordinalTaken (d : Domain) (h o k : Nat) : Bool :=
  Tbl.has d.dir (nameOf h o k).toNat || (h == 0 && o == 0 && k == 0)

/-- Creates the entry of new content, with count 1; a node's children gain one each. -/
def createEntry (s : State) (k : DomKey) (n : QWord) (kind : Nat) (line : List Byte) (g : Nat) : State :=
  let s := setDomain s k (fun d =>
    { d with dir := Tbl.put d.dir n.toNat ⟨line, 1, g, Config.entryFlags n.toNat⟩, free := setNth d.free g (nth d.free g 0 - 1) })
  let s := noteShard s k g
  if kind = 0 then s else (childrenOf line).foldl (fun s c => addRef s k c) s

/-- An interning has compared a live entry whose content differed (R280). -/
def countCollision (s : State) (k : DomKey) (differed : Bool) : State :=
  if differed then setDomain s k (fun d => { d with collisions := min (2 ^ 64 - 1) (d.collisions + 1) }) else s

/-- Interns content of a kind (R279, R280; DEDUCED, log 59). -/
def intern (s : State) (k : DomKey) (kind : Nat) (line : List Byte) : Interned :=
  match domain? s k with
  | none => .full rBudget s
  | some d =>
    if line = zeroLine then .name 0 s
    else
      let h := nameHash d.key kind line
      let lives := (List.range 16).filter (fun o => Tbl.has d.dir (nameOf h o kind).toNat)
      match lives.find? (fun o => lineFor s k (nameOf h o kind) == line) with
      | some o => .name (nameOf h o kind) (addRef (countCollision s k (lives.any (fun p => decide (p < o)))) k (nameOf h o kind))
      | none =>
        let s' := countCollision s k (!lives.isEmpty)
        match (List.range 16).find? (fun o => !ordinalTaken d h o kind) with
        | none => .full rOrdinals s'
        | some o =>
          if d.budget ≤ d.dir.length then .full rBudget s'
          else
            let n := nameOf h o kind
            match lineGroup d.free (homeGroup n d.free.length) with
            | none => .wait
            | some g => .name n (createEntry s' k n kind line g)

/-! ## Walking (R278, R288) -/

/-- The name of leaf `i` below `n`, of height `h`; none when a name on the way is unknown. -/
def walkTree (s : State) (k : DomKey) (i : Nat) : Nat → QWord → Option QWord
  | 0, n => if known s k n then some n else none
  | h + 1, n =>
    if n = 0 then some 0
    else if known s k n then walkTree s k i h (childOf (lineFor s k n) (i / 12 ^ h % 12))
    else none

/-- `nmwalk` (R288). -/
def walkName (s : State) (k : DomKey) (root : QWord) (i : Nat) : Option QWord :=
  let h := nameKind root
  if h = 15 then none
  else if 12 ^ h ≤ i then some 0
  else walkTree s k i h root

/-- The 192 bytes of leaf `i`: zeros beyond the tree (R278, R292). -/
def leafLine (s : State) (k : DomKey) (root : QWord) (i : Nat) : List Byte :=
  match walkName s k root i with
  | some n => lineFor s k n
  | none => zeroLine

/-- Does a core hold the line of a name for a world? A lookup hits only a line of its own world (R383). -/
def holdsName (s : State) (core w : Nat) (k : DomKey) (n : QWord) : Bool := n == 0 || (coreOf s core).cairn.contains (w, k.part, k.dom, n)

/-- The core holds the line of a name, in its L1, until it invalidates (R226, R281). -/
def cacheName (s : State) (core w : Nat) (k : DomKey) (n : QWord) : State :=
  if holdsName s core w k n then s
  else
    let s := setCore s core (fun c => { c with cairn := c.cairn.filter (fun e => e.2 != (k.part, k.dom, n)) })
    setCore (l1Room s core) core (fun c => { c with cairn := c.cairn ++ [(w, k.part, k.dom, n)] })

/-! ## Uncorrectable errors (R259, R284) -/

/-- The channel groups of the home of a name and of its line. -/
def nameGroups (s : State) (k : DomKey) (n : QWord) : List Nat :=
  if n = 0 then []
  else homeGroup n (partSpan (partOf s k.part)).2 :: (match entry? s k n with | some e => [e.group] | none => [])

/-- The names met on the way to leaf `i` below `n`, of height `h`. -/
def walkNames (s : State) (k : DomKey) (i : Nat) : Nat → QWord → List QWord
  | 0, n => [n]
  | h + 1, n => if n = 0 then [] else n :: walkNames s k i h (childOf (lineFor s k n) (i / 12 ^ h % 12))

/-- Does a sector of the region that holds a domain read as uncorrectable? -/
def regionBad (s : State) (k : DomKey) : Bool :=
  match (partOf s k.part).region with
  | none => false
  | some r => s.badSectors.any (fun c =>
      match pageOfPa s (secBase c) with
      | some (p, page) => p == k.part && decide (r.first ≤ page) && decide (page < r.first + regionPages r)
      | none => false)

/-- The channel group of a slot of a domain's root table: a free value (DESIGN CHOICE, log 153). -/
def slotHome (s : State) (k : DomKey) (i : Nat) : List Nat := [Config.slotGroup k.part k.dom i % (partSpan (partOf s k.part)).2]

/-- The cols that an access from a die to the lines of channel group `g` of a partition crosses, on its way and back (R10). -/
def cairnCols (s : State) (die part g : Nat) : List Nat :=
  let home := dieOfCluster ((partSpan (partOf s part)).1 + g)
  routeCols die home ++ routeCols home die

/-- Does an access from a die to the domain's lines in these channel groups meet an uncorrectable error: a col on the way is down, or
a sector of it is bad? Which sectors the directory and the lines take is not given: a free value says whether one of them is a
bad sector of the region (DESIGN CHOICE, log 153). -/
def cairnUncorr (s : State) (die : Nat) (k : DomKey) (gs : List Nat) : Bool × State :=
  if gs.isEmpty then (false, s)
  else if s.links.any (fun e => !e.2.up) && gs.any (fun g => !(cairnCols s die k.part g).all (linkUp s)) then (true, s)
  else if regionBad s k then let v := freeVal s; (v.1 % 2 == 1, v.2)
  else (false, s)

end Sys2Proof.Machine
end

