-- ==== Sys2Proof/Machine/Xlat.lean ====
section
/-! DEFINITION. Generic addresses (R219, R220), two-stage translation (R358-R363, R378) and the PF's partition
pages (R445). -/

namespace Sys2Proof.Machine

open Sys2Proof

/-- What an access needs of a page (R361). -/
structure Rights where
  r : Bool := false
  w : Bool := false
  x : Bool := false
deriving DecidableEq, Repr

def Rights.read : Rights := { r := true }
def Rights.write : Rights := { w := true }
def Rights.rmw : Rights := { r := true, w := true }
def Rights.fetch : Rights := { x := true }
/-- ACCESS of a page request (R366). -/
def Rights.code (n : Rights) : Nat := (if n.r then 1 else 0) + (if n.w then 2 else 0) + (if n.x then 4 else 0)

/-- Why a translation gives no location: PROT with its REASON (R419), or a miss that posts a request (R366). -/
inductive XErr where
  | prot (reason : Nat)
  | scratch
  | miss (stage2 : Bool) (cause : Nat) (table : Bool) (page : Nat)
deriving DecidableEq, Repr

/-! ## Table entries (R359) -/

def entryV (e : Nat) : Bool := e % 2 == 1
def entryKind (e : Nat) : Nat := fld e 1 2
def entryBit (e i : Nat) : Bool := fld e i 1 == 1
/-- DEDUCED, log 92. -/
def rsvOk (e : Nat) : Bool := fld e 6 2 == 0 && fld e 61 3 == 0
def entryAddr (e : Nat) : Nat := fld e 8 53 * 256

def largeBytes : Nat := 6144 * pageBytes

/-- The answer of a stage-2 walk for one page. -/
inductive S2 where
  | leaf (l : Leaf) (r w x : Bool)
  | evicted
  | miss
deriving DecidableEq, Repr

def entryPerm (e : Nat) : Bool × Bool × Bool := (entryBit e 3, entryBit e 4, entryBit e 5)

/-- A HOST leaf, page `i2` of it (R359, R363, R449). -/
def hostLeaf (e i2 : Nat) : Leaf :=
  if entryBit e 60 then .peer (fld e 52 8) (fld e 45 7) (fld e 8 37 + i2)
  else .host (fld e 8 52 * pageBytes + i2 * pageBytes)

/-- The stage-2 entry at level 1 or 2 as a leaf: `i2` selects the page of a large page. A page is aligned within its channel group
(R224; DEDUCED, log 92). -/
def s2Leaf (e i2 level : Nat) : S2 :=
  let p := entryPerm e
  let off := if level = 1 then i2 * pageBytes else 0
  let size := if level = 1 then largeBytes else pageBytes
  if !entryV e || !rsvOk e then .miss
  else
    match entryKind e with
    | 1 =>
      if fld e 40 21 = 0 && entryAddr e % 2 ^ 32 % size = 0 then .leaf (.page (entryAddr e + off)) p.1 p.2.1 p.2.2 else .miss
    | 2 => .leaf (hostLeaf e (if level = 1 then i2 else 0)) p.1 p.2.1 p.2.2
    | 3 => if level = 2 then .evicted else .miss
    | _ => .miss

/-- A stage-2 TABLE entry's next table. -/
def s2Table (e : Nat) : Option Nat :=
  if entryV e && rsvOk e && entryKind e == 0 && fld e 40 21 == 0 && entryAddr e % 2 ^ 32 % pageBytes == 0 then
    some (entryAddr e)
  else none

/-- A table entry in memory. -/
def memEntry (s : State) (a : Nat) : Nat := ofBytes (getBytes s.mem a 8)

/-- The level-0, level-1 and level-2 indices of a page number (R358). -/
def idx0 (vpn : Nat) : Nat := vpn / (6144 * 6144)
def idx1 (vpn : Nat) : Nat := vpn / 6144 % 6144
def idx2 (vpn : Nat) : Nat := vpn % 6144

/-- An entry that a walk reads: its address, and its value where a walk cache may keep it, a valid one (R362). -/
abbrev WalkRead := Nat × Option Nat

/-- A leaf entry as read. -/
def leafRead (a e : Nat) : S2 → WalkRead
  | .leaf _ _ _ _ => (a, some e)
  | _ => (a, none)

/-- Stage 2 (R358-R360) with the entries that `rd` gives: the answer and the entries read. -/
def walk2 (rd : Nat → Nat) (root page : Nat) : S2 × List WalkRead :=
  let a0 := root + 8 * idx0 page
  let e0 := rd a0
  match s2Table e0 with
  | none => (.miss, [(a0, none)])
  | some t1 =>
    let a1 := t1 + 8 * idx1 page
    let e1 := rd a1
    match s2Table e1 with
    | none =>
      let l := s2Leaf e1 (idx2 page) 1
      (l, [(a0, some e0), leafRead a1 e1 l])
    | some t2 =>
      let a2 := t2 + 8 * idx2 page
      let e2 := rd a2
      let l := s2Leaf e2 0 2
      (l, [(a0, some e0), (a1, some e1), leafRead a2 e2 l])

/-- The last entry read was a miss, which no cache keeps (R362). -/
def missLast (l : List WalkRead) : List WalkRead :=
  match l.getLast? with
  | some r => l.dropLast ++ [(r.1, none)]
  | none => []

/-- Is the byte at `off` of a page no memory: SLICE 12 to 15, or a page beyond the last one of its channel group (R224)? -/
def noPage (pa off : Nat) : Bool :=
  (sliceOfPa pa).isNone || (sliceOfPa (pa + off)).isNone || pa % 2 ^ 32 % pageBytes != 0 ||
    (decide (pagesPerGroup ≤ pa % 2 ^ 32 / pageBytes) && decide (2 ^ 32 ≤ pa % 2 ^ 32 + off))

/-- Where the IPA of a stage-1 table lies, for a walk (R360). -/
def tablePa (rd : Nat → Nat) (ret : List Nat) (root page : Nat) : Except XErr Nat × List WalkRead :=
  let r := walk2 rd root page
  match r.1 with
  | .leaf (.page pa) _ _ _ => (if ret.contains pa then .error (.prot 4) else if noPage pa (pageBytes - 1) then .error (.prot 7) else .ok pa, r.2)
  | .leaf _ _ _ _ => (.error (.miss true 0 true (page * pageBytes)), missLast r.2)
  | .evicted => (.error (.miss true 1 true (page * pageBytes)), r.2)
  | .miss => (.error (.miss true 0 true (page * pageBytes)), r.2)

/-- A stage-1 entry: the next table's IPA page, or the leaf's IPA page and permissions. -/
inductive S1 where
  | table (page : Nat)
  | leaf (page : Nat) (r w x : Bool)
  | miss
deriving DecidableEq, Repr

def s1Entry (e i2 level : Nat) : S1 :=
  let p := entryPerm e
  if !entryV e || !rsvOk e || fld e 53 8 != 0 then .miss
  else if entryKind e = 0 && level != 2 && entryAddr e % pageBytes = 0 then .table (entryAddr e / pageBytes)
  else if entryKind e = 1 && level = 2 && entryAddr e % pageBytes = 0 then
    .leaf (entryAddr e / pageBytes) p.1 p.2.1 p.2.2
  else if entryKind e = 1 && level = 1 && entryAddr e % largeBytes = 0 then
    .leaf (entryAddr e / pageBytes + i2) p.1 p.2.1 p.2.2
  else .miss

/-- Stage 1 below one table (levels left: `n`): the IPA page, permissions, and the IPA pages of the tables on the way. -/
def walk1 (rd : Nat → Nat) (ret : List Nat) (root2 vpn : Nat) : Nat → Nat → List Nat → List WalkRead →
    Except XErr (Nat × Bool × Bool × Bool × List Nat) × List WalkRead
  | 0, _, _, seen => (.error (.miss false 0 false (vpn * pageBytes)), seen)
  | n + 1, page, via, seen =>
    let t := tablePa rd ret root2 page
    match t.1 with
    | .error e => (.error e, seen ++ t.2)
    | .ok pa =>
      let level := 2 - n
      let i := if level = 0 then idx0 vpn else if level = 1 then idx1 vpn else idx2 vpn
      let a := pa + 8 * i
      let e := rd a
      let seen := seen ++ t.2
      match s1Entry e (idx2 vpn) level with
      | .miss => (.error (.miss false 0 false (vpn * pageBytes)), seen ++ [(a, none)])
      | .leaf ipa r w x => (.ok (ipa, r, w, x, via ++ [page]), seen ++ [(a, some e)])
      | .table p => walk1 rd ret root2 vpn n p (via ++ [page]) (seen ++ [(a, some e)])

/-- A whole walk of a VF's page (R360): the cached form, with the entries read. The stage-1 permission is tested
when the stage-1 leaf is found (log 11). -/
def walkVf (s : State) (rd : Nat → Nat) (vf vpn : Nat) (need : Rights) : Except XErr Xlat × List WalkRead :=
  let f := fnOf s vf
  let root2 := f.s2root.toNat
  let w1 := walk1 rd s.retired root2 vpn 3 (f.s1root.toNat % 2 ^ 53 / pageBytes) [] []
  match w1.1 with
  | .error e => (.error e, w1.2)
  | .ok (ipa, r, w, x, via) =>
    if (need.r && !r) || (need.w && !w) || (need.x && !x) then (.error (.prot 2), w1.2)
    else
      let r2 := walk2 rd root2 ipa
      match r2.1 with
      | .miss => (.error (.miss true 0 false (ipa * pageBytes)), w1.2 ++ r2.2)
      | .evicted => (.error (.miss true 1 false (ipa * pageBytes)), w1.2 ++ r2.2)
      | .leaf l a b c =>
        let ret := match l with | .page pa => s.retired.contains pa | _ => false
        (.ok ⟨l, ipa, r, w, x, a, b, c, ret, via⟩, w1.2 ++ r2.2)

/-- Permissions, retirement and removed ranges of a translated page (R361, R378, R221, R224). -/
def checkXlat (s : State) (x : Xlat) (need : Rights) (off n : Nat) : Except XErr Loc :=
  if (need.r && !x.r1) || (need.w && !x.w1) || (need.x && !x.x1) then .error (.prot 2)
  else if (need.r && !x.r2) || (need.w && !x.w2) || (need.x && !x.x2) then .error (.prot 3)
  else if x.retired then .error (.prot 4)
  else
    match x.leaf with
    | .page pa =>
      if noPage pa off then .error (.prot 7)
      else if removedPa s (pa + off) n then .error (.prot 5)
      else .ok (.mem (pa + off))
    | .host io => .ok (.host (io + off))
    | .peer i v p => .ok (.peer i v (p * pageBytes + off))

def tlbKey (fn vpn : Nat) : Nat := fn * 2 ^ 40 + vpn

/-- A table entry that the walk cache of a core, or of its die, holds for a function (R362). -/
def cachedEntry (s : State) (core fn a : Nat) : Option Nat :=
  match Tbl.find? (coreOf s core).walks (tlbKey fn a) with
  | some e => some e
  | none => Tbl.find? (dieOf s (dieOfCore core)).walks (tlbKey fn a)

/-- A table entry as a walk for a core reads it. -/
def walkEntry (s : State) (core fn a : Nat) : Nat :=
  match cachedEntry s core fn a with
  | some e => e
  | none => memEntry s a

/-- A walk has read an entry: from its L2 home where no walk cache held it, and the caches keep it if it was valid. -/
def noteRead (core fn : Nat) (charge : Bool) (s : State) (r : WalkRead) : State :=
  let s := if (cachedEntry s core fn r.1).isSome then s else l2Touch s charge r.1 8 false
  match r.2 with
  | none => s
  | some e =>
    let k := tlbKey fn r.1
    setDie (setCore s core (fun c => { c with walks := Tbl.put c.walks k e })) (dieOfCore core)
      (fun d => { d with walks := Tbl.put d.walks k e })

/-- The TLBs of a core and of its die hold a translation. -/
def keepXlat (s : State) (core fn vpn : Nat) (x : Xlat) : State :=
  let k := tlbKey fn vpn
  setDie (setCore s core (fun c => { c with tlb := Tbl.put c.tlb k x })) (dieOfCore core) (fun d => { d with tlb := Tbl.put d.tlb k x })

/-- Translates the address of `n` bytes of one page for a function on a core, filling the TLBs and walk caches (R358, R362). -/
def translate (s : State) (core fn part va n : Nat) (need : Rights) (charge : Bool) : Except XErr Loc × State :=
  let vpn := va / pageBytes
  let off := va % pageBytes
  if isPf fn then
    let p := partOf s part
    if pagesPerGroup * (partSpan p).2 ≤ vpn then (.error (.prot 7), s)
    else
      let pa := pageToPa p vpn + off
      if removedPa s pa n then (.error (.prot 5), s)
      else if s.retired.contains (pa - off) then (.error (.prot 4), s)
      else (.ok (.mem pa), s)
  else
    match Tbl.find? (coreOf s core).tlb (tlbKey fn vpn), Tbl.find? (dieOf s (dieOfCore core)).tlb (tlbKey fn vpn) with
    | some x, _ => (checkXlat s x need off n, s)
    | none, some x =>
      let s := keepXlat s core fn vpn x
      (checkXlat s x need off n, s)
    | none, none =>
      let r := walkVf s (walkEntry s core fn) fn vpn need
      let s := r.2.foldl (noteRead core fn charge) s
      match r.1 with
      | .error e => (.error e, s)
      | .ok x =>
        let s := keepXlat s core fn vpn x
        (checkXlat s x need off n, s)

/-! ## Windows (R219) -/

inductive Win where
  | global (va : Nat)
  | scratch (o : Nat)
  | priv (o : Nat)
  | none
deriving DecidableEq, Repr

/-- The window of an access of `n` bytes: every byte lies in it. -/
def window (a n : Nat) : Win :=
  if a + n ≤ 2 ^ 53 then .global a
  else if 2 ^ 54 ≤ a && a + n ≤ 2 ^ 54 + 2 ^ 32 then .scratch (a - 2 ^ 54)
  else if 2 ^ 54 + 2 ^ 40 ≤ a && a + n ≤ 2 ^ 54 + 2 ^ 41 then .priv (a - 2 ^ 54 - 2 ^ 40)
  else .none

/-- The global address of a private offset (R220). One at or above 2⁵³ is translated all the same, with a level-0 index
above 6,143 (DESIGN CHOICE, log 144). -/
def privAlias (l : Lpb) (item o : Nat) : Nat := l.privbase + item * l.priv + o

/-- A window decode for one lane (R257 step 2): a global address, or a scratchpad offset. -/
def decodeAddr (l : Lpb) (item a n : Nat) : Except XErr (Nat ⊕ Nat) :=
  match window a n with
  | .global va => .ok (.inl va)
  | .scratch o => if o + n ≤ l.scratch then .ok (.inr o) else .error .scratch
  | .priv o => if o + n ≤ l.priv then .ok (.inl (privAlias l item o)) else .error (.prot 1)
  | .none => .error (.prot 1)

end Sys2Proof.Machine
end

