-- ==== Sys2Proof/Machine/Life.lean ====
section
/-! DEFINITION. The life of launches, graphs, phases and jobs: event queues (R446), fault records and the fault
policy, that is, taking an exception (R418-R420), edges and tasks (R308, R309), run-queue arrivals (R303, R304),
cancel (R314) and completion records (R402, R403). -/

namespace Sys2Proof.Machine

open Sys2Proof

/-! ## Event queues (R446) -/

def raiseMsix (s : State) (fn v : Nat) : State :=
  setFn s fn (fun f => { f with msix := setNth f.msix v (nth f.msix v 0 + 1) })

/-- Has the queue room for one more record (R420)? -/
def eventRoom (s : State) (fn : Nat) : Bool := decide ((fnOf s fn).events.length < 64)

/-- Posts a record. Beyond 64 the list holds the producers that wait, in order (R298, log 12). A record of code 0x80 or
above carries, beside its CODE, AUX and time, the fields of R418 that its event has (log 157). -/
def postEvent (s : State) (fn : Nat) (e : Event) : State :=
  let first := (fnOf s fn).events.isEmpty
  let s := setFn s fn (fun f => { f with events := f.events ++ [{ e with time := s.time }] })
  if first then raiseMsix s fn 0 else s

/-- Codes of the events that are no faults (R446). -/
def evJobEnd : Nat := 0x80
def evJobFull : Nat := 0x81
def evStraySignal : Nat := 0x82
def evStrayReply : Nat := 0x83
def evOverrun : Nat := 0x84
def evBadDec : Nat := 0x85
def evSaveFull : Nat := 0x86
def evUsageDone : Nat := 0x87
def evPartDone : Nat := 0x88
def evCairnDone : Nat := 0x89
def evLinkCode : Nat := 0x8A
def evDropped : Nat := 0x8B

/-- Fault codes (R418). -/
def fIllegal : Nat := 0x01
def fUnmapped : Nat := 0x02
def fWindow : Nat := 0x03
def fBudget : Nat := 0x04
def fIcall : Nat := 0x05
def fAlign : Nat := 0x06
def fXlate1 : Nat := 0x07
def fXlate2 : Nat := 0x08
def fProt : Nat := 0x09
def fHostpage : Nat := 0x0A
def fVersion : Nat := 0x0B
def fUncorr : Nat := 0x0C
def fCairnFull : Nat := 0x0D
def fCairnName : Nat := 0x0E
def fBarOver : Nat := 0x0F
def fScratch : Nat := 0x10
def fTrap : Nat := 0x11
def fBreak : Nat := 0x12
def fConv : Nat := 0x13
def fPriv : Nat := 0x14
def fTd : Nat := 0x15
def fLaunch : Nat := 0x16

/-! ## Jobs and records -/

def jobKey (r : JobRef) : Nat := 16 * r.fn + r.entry
def job? (s : State) (r : JobRef) : Option Job := Tbl.find? s.jobs (jobKey r)
def setJob (s : State) (r : JobRef) (f : Job → Job) : State := { s with jobs := Tbl.upd? s.jobs (jobKey r) f }
def jobTagOf (s : State) (r : JobRef) : Nat := match job? s r with | some j => j.tag | none => 0

def Status.code : Status → Nat
  | .waiting => 0 | .running => 1 | .complete => 2 | .cancelled => 3 | .refused => 4 | .faulted => 5
def Status.final : Status → Bool
  | .waiting | .running => false
  | _ => true

/-- The 128 bits of a completion record (R402). -/
def recBits (r : Rec) : Nat :=
  r.done % 2 ^ 32 + (r.total % 2 ^ 32) * 2 ^ 32 + r.status.code * 2 ^ 64 + (r.handle % 2 ^ 16) * 2 ^ 80
    + (r.jobtag % 2 ^ 32) * 2 ^ 96

/-! ## Graphs (R301, R309, R314) -/

def blankGraph : Graph := ⟨0, 0, [], false, {}, []⟩
def blankGLaunch : GLaunch := { addr := 0 }

def graphLaunch (g : Graph) (i : Nat) : GLaunch := nth g.launches i blankGLaunch
def setGraphLaunch (g : Graph) (i : Nat) (f : GLaunch → GLaunch) : Graph :=
  { g with launches := setNth g.launches i (f (graphLaunch g i)) }

/-- Ends launch `i` of a graph; when it did not complete, the launches its unfired edges name can no longer start
and are cancelled with it (R314). `ef`: its EDGE = 1 edges have fired. -/
def cascade : Nat → Graph → Nat → Status → Bool → Graph
  | 0, g, _, _, _ => g
  | n + 1, g, i, st, ef =>
    if (graphLaunch g i).ended.isSome || decide (g.launches.length ≤ i) then g
    else
      let deps := (graphLaunch g i).deps
      let g := setGraphLaunch g i (fun l => { l with ended := some st, ready := none })
      let g := { g with recd := { g.recd with done := g.recd.done + 1 } }
      if st = .complete then g
      else (deps.filter (fun d => !d.task && !(d.early && ef))).foldl (fun g d => cascade n g d.index .cancelled false) g

/-- A graph whose every launch has ended takes its final status (R403). -/
def settleGraph (g : Graph) : Graph :=
  if g.expanded && g.recd.done == g.recd.total && !g.recd.status.final then
    { g with recd := { g.recd with
        status := if g.launches.all (fun l => l.ended == some .complete) then .complete else .cancelled } }
  else g

/-- A job with graph `gi` changed: a graph that ends is counted in its phase (R403). -/
def withGraph (j : Job) (gi : Nat) (f : Graph → Graph) : Job :=
  let g := nth j.graphs gi blankGraph
  let g' := settleGraph (f g)
  let j := { j with graphs := setNth j.graphs gi g' }
  if g'.recd.status.final && !g.recd.status.final then
    { j with phaseRec := { j.phaseRec with done := j.phaseRec.done + 1 } }
  else j

/-- The record of a launch, until its handle is reused (R403). -/
def launchRec? (s : State) (lid : Nat) : Option Rec :=
  match launch? s lid with
  | some l => some l.recd
  | none => Tbl.find? s.ended lid

/-! ## Jobs end (R301, R403) -/

def jobLive (s : State) (r : JobRef) : Bool := s.launches.any (fun e => e.2.job == r)

/-- The job ends: its final record is kept and posted (R403). -/
def endJob (s : State) (r : JobRef) (st : Status) : State :=
  match job? s r with
  | none => s
  | some j =>
    let rec' := { j.recd with status := st }
    let s := { s with jobs := Tbl.del s.jobs (jobKey r)
                      endedJobs := Tbl.put s.endedJobs (jobKey r) (rec', j.phaseRec, j.graphs.map (·.recd)) }
    postEvent s (queueOf r.fn)
      { code := evJobEnd, vf := if r.fn < 128 then r.fn else 0, jobtag := j.tag, aux := toBytes 16 (recBits rec') }

/-- The phase closes, once each of its graphs has ended: its status, and DONE of the job (R301, R403). -/
def closePhase (j : Job) : Job :=
  if !j.phaseOpen || decide (j.phaseRec.done < j.phaseRec.total) then j
  else
    let st : Status := if j.graphs.all (fun g => g.recd.status == .complete) then .complete else .cancelled
    { j with phaseRec := { j.phaseRec with status := st }, phaseOpen := false, phase := j.phase + 1, waits := []
             recd := { j.recd with done := j.recd.done + 1 } }

/-- A job whose last phase has completed, or which failed, ends once none of its launches lives; the phase in which a job was
cancelled closes with it (R314). -/
def checkJobEnd (s : State) (r : JobRef) : State :=
  match job? s r with
  | none => s
  | some j =>
    if jobLive s r then s
    else
      match j.failed with
      | some st => endJob (setJob s r closePhase) r st
      | none => if j.started && !j.phaseOpen && decide (j.nphase ≤ j.phase) then endJob s r .complete else s

/-! ## Run-queue arrivals and reeve events (R303, R304, R332) -/

def pushReeve (s : State) (cl : Nat) (e : REvt) : State :=
  setCluster s cl (fun c =>
    let v := c.reeve
    { c with reeve := if v.queue.length < 64 then { v with queue := v.queue ++ [e] }
                      else { v with waiting := v.waiting ++ [e] } })

/-- Where the place `n` of an old queue lies in a new one: before the first entry behind it that is still there, else
behind everything that stood ahead of it (R346). -/
def movedPlace (old new : List RqEntry) (n : Nat) : Nat :=
  match (old.drop n).findSome? (fun e => new.findIdx? (fun x => x.eid == e.eid)) with
  | some i => i
  | none =>
    match (old.take n).reverse.findSome? (fun e => new.findIdx? (fun x => x.eid == e.eid)) with
    | some i => i + 1
    | none => 0

/-- A cluster with a changed run queue: the place that round robin remembers follows. -/
def withRq (c : Cluster) (q : List RqEntry) : Cluster :=
  { c with rq := q
           reeve := { c.reeve with lastPick := c.reeve.lastPick.map (fun e =>
             (e.1, match q.findIdx? (fun x => x.eid == e.1) with
               | some i => i
               | none => movedPlace c.rq q e.2)) } }

def setRq (s : State) (cl : Nat) (f : List RqEntry → List RqEntry) : State :=
  setCluster s cl (fun c => withRq c (f c.rq))

/-- Adds an entry to a cluster's run queue and offers it to ENQ; a PF entry and an entry of a concurrent launch are
not offered (R304, R305, R445). -/
def enqueue (s : State) (cl lid : Nat) (k : RqKind) (offer : Bool) : State :=
  let (eid, s) := fresh s
  let s := setCluster s cl (fun c => { c with rq := c.rq ++ [{ eid := eid, lid := lid, kind := k, queued := s.time }] })
  if offer && !isPf (fnOfLid lid) then pushReeve s cl (.enq eid (-1)) else s

/-- Does every run queue keep its bounds (R298)? An event that would pass them waits, and a strand holds. -/
def rqFits (s : State) : Bool :=
  s.clusters.all (fun c => decide (c.2.rq.length ≤ 512) && c.2.rq.all (fun e => isPf (fnOfLid e.lid) ||
    decide ((c.2.rq.filter (fun x => fnOfLid x.lid == fnOfLid e.lid)).length ≤ 128)))

/-- The state after an event, or before it while a run queue has no room for what it queues (R298). -/
def whenRqFits (s s' : State) : State := if rqFits s' then s' else s

/-! ## Tasks (R308) -/

def TaskSt.code : TaskSt → Nat
  | .free => 0 | .waiting => 1 | .queued => 2 | .running => 3 | .done => 4

/-- The 128 bits of a task-table entry, as context images and host dumps hold it (R307). -/
def taskBits (e : TaskEntry) : Nat :=
  e.count % 2 ^ 16 + e.st.code * 2 ^ 16 + (e.lid % 2 ^ 16) * 2 ^ 32
    + ((e.succ.zipIdx).map (fun f => (f.1 % 2 ^ 16) * 2 ^ (48 + 16 * f.2))).foldl (· + ·) 0

/-- The valid successors of a task: bit 15 of a SUCC field, and the task it names (R306). -/
def validSucc (e : TaskEntry) : List Nat := e.succ.filterMap (fun f => if f < 32768 then none else some (f % 4096))

def taskKey (vf t : Nat) : Nat := 4096 * vf + t

/-- One decrement of a task; the cluster is where a TASK entry would be queued (R304; DEDUCED, log 69). -/
def taskDecrement (s : State) (fn t cl : Nat) : State :=
  let stray := postEvent s (queueOf fn) { code := evStraySignal, vf := if fn < 128 then fn else 0, aux := toBytes 4 t }
  match Tbl.find? s.tasks (taskKey fn t) with
  | none => stray
  | some e =>
    if e.st = .waiting then
      let c := e.count - 1
      if c = 0 then
        let s := { s with tasks := Tbl.put s.tasks (taskKey fn t) { e with count := 0, st := .queued } }
        match launch? s e.lid with
        | some l => if l.ending.isSome then s else enqueue s cl e.lid (.task (t - l.lpb.taskbase) t) (l.lpb.progress != 0)
        | none => s
      else { s with tasks := Tbl.put s.tasks (taskKey fn t) { e with count := c } }
    else stray

/-! ## Edges (R309) -/

/-- Fires the edges of one kind of a launch. -/
def fireEdges (s : State) (l : Launch) (early : Bool) : State :=
  (l.deps.filter (fun d => d.early == early)).foldl (fun s d =>
    if d.task then taskDecrement s l.fn d.index l.home
    else
      match l.graph with
      | none => s
      | some (gi, _) =>
        let (n, s) := fresh s
        setJob s l.job (fun j => withGraph j gi (fun g => setGraphLaunch g d.index (fun t =>
          let k := t.indeg - 1
          { t with indeg := k, ready := if k = 0 && t.ended.isNone && t.indeg != 0 then some n else t.ready })))) s

def unitsTotal (p : Lpb) : Nat := p.ux * p.uy * p.uz

/-- Adds one to the trigger count; at the total, the EDGE = 1 edges fire once. -/
def countTrigger (s : State) (lid : Nat) : State :=
  match launch? s lid with
  | none => s
  | some l =>
    let n := l.triggers + 1
    let fire := decide (unitsTotal l.lpb ≤ n) && !l.earlyFired && l.ending.isNone
    let s := setLaunch s lid (fun l => { l with triggers := n, earlyFired := l.earlyFired || fire })
    if fire then fireEdges s l true else s

/-! ## A launch ends (R314, R403) -/

def residentUnits (s : State) (lid : Nat) : List (Nat × WUnit) := s.units.filter (fun e => e.2.lid == lid)

/-- Ends a launch with its final status: record, edges, graph, descriptors, tasks, DROPPED (R308, R309, R351, R420). -/
def finishLaunch (s : State) (lid : Nat) (st : Status) : State :=
  match launch? s lid with
  | none => s
  | some l =>
    let s := if st = .complete then
        let s := if l.earlyFired then s else fireEdges s l true
        fireEdges s l false
      else s
    let l := { l with earlyFired := l.earlyFired || decide (st = Status.complete) }
    let s := { s with launches := Tbl.del s.launches lid
                      ended := Tbl.put s.ended lid { l.recd with status := st }
                      tasks := s.tasks.filter (fun e => e.2.lid != lid)
                      cores := s.cores.map (fun e => (e.1, { e.2 with td := e.2.td.filter (fun d => d.2.lid != lid) })) }
    let s := if l.dropped = 0 then s else
      postEvent s (queueOf l.fn) { code := evDropped, vf := if l.fn < 128 then l.fn else 0, launch := l.handle,
                                   jobtag := jobTagOf s l.job, aux := toBytes 4 l.handle ++ toBytes 4 l.dropped }
    let s := match l.graph with
      | none => s
      | some (gi, i) => setJob s l.job (fun j => withGraph j gi (fun g => cascade 257 g i st l.earlyFired))
    checkJobEnd s l.job

def isBwait : Instr → Option Bool
  | .bwait _ seq _ => some seq
  | _ => none

/-- A strand of a cancelled unit that cannot issue ends at once (R314): it has no runnable path, or waits for a page
reply, an allocation, a token or its spilled registers. -/
def strandStuck (t : Strand) : Bool :=
  t.isSpilled || t.token.isSome || t.pends.any (fun p => !p.parked.isEmpty)
    || t.paths.all (fun p => p.st != .run)

/-- The strand's lanes, registers and outstanding work are discarded (R201, R271, R314); the records that it owes are still posted (R420). -/
def endStrand (t : Strand) : Strand :=
  { t with paths := [], regs := [], spilled := [], isSpilled := false, stalls := [], pends := [], token := none
           convs := t.convs.map (fun k => { k with mask := 0, signed := 0, st := .idle, op := none })
           completed := true, ending := false }

/-- The lanes that a strand holds in `bwait` end at once (R401); its other lanes end at its next issue. -/
def endBwaits (t : Strand) : Strand :=
  let gone := t.paths.foldl (fun m p => if p.st == .bwait then m ||| p.lanes else m) 0
  { t with paths := t.paths.filter (fun p => p.st != .bwait)
           pends := t.pends.filter (fun d => (isBwait d.instr).isNone || d.lanes &&& gone == 0)
           convs := t.convs.map (fun k => { k with mask := k.mask &&& ~~~gone, signed := k.signed &&& ~~~gone }) }

def cancelUnit (w : WUnit) : WUnit :=
  { w with cancelled := true, spans := []
           strands := w.strands.map (fun e => (e.1, if !w.begun || strandStuck e.2 then endStrand e.2 else endBwaits e.2)) }

/-- Queued `mma`s and unapplied drains of a cancelled unit are discarded; the running `mma` and updates that have begun complete (R216). -/
def dropMatrix (s : State) (uid : Nat) : State :=
  match unit? s uid with
  | none => s
  | some w => setCore s w.core (fun c => { c with quarters := c.quarters.map (fun q =>
      { q with ctxs := q.ctxs.map (fun x => { x with queue := x.queue.filter (fun m => m.uid != uid) })
               drains := q.drains.filter (fun d => d.uid != uid || !d.early.isEmpty) }) })

/-- Frees the ranges of copies, in cores and in images (R321, R328). -/
def freeRanges (s : State) (ids : List Nat) : State :=
  let keep (rs : List SbRange) : List SbRange := rs.filter (fun r => !ids.contains r.copy)
  { s with cores := Tbl.mapV s.cores (fun _ c => { c with ranges := keep c.ranges })
           images := Tbl.mapV s.images (fun _ im => { im with ranges := keep im.ranges }) }

/-- The reference of an `nmcopy` ends with it (R281). -/
def dropRoot (s : State) (y : Copy) : State :=
  match y.root with
  | some (p, d, n) => dropRefBy (some y.uid) s ⟨p, d⟩ n
  | none => s

/-- An image is discarded: its copies with their ranges and roots (R426). -/
def dropImage (s : State) (im : Image) : State :=
  freeRanges (im.copies.foldl dropRoot s) (im.copies.map (·.id))

/-- Does an image hold the pool of a launch (R428, R440)? It lies in no span table then, and nothing is fetched from it. -/
def poolSaved (s : State) (lid : Nat) : Bool := s.images.any (fun e => e.2.pools.contains lid)

/-- The running tenant of a cluster: of the VFs with units resident on it, the one that took it last (R332, R333, R338; DEDUCED, log 166). -/
def runningTenant (s : State) (cl : Nat) : Option Nat :=
  (clusterOf s cl).tenants.find? (fun f => s.units.any (fun e => e.2.core / 2 == cl && fnOfLid e.2.lid == f))

/-- The home cluster of a launch span. -/
def spanHome (s : State) (sp : Span) : Nat := match launch? s sp.lid with | some l => l.home | none => 0

/-- Launch spans go back to their home tables. -/
def putLaunchSpans (s : State) (l : List Span) : State :=
  l.foldl (fun s sp => setCluster s (spanHome s sp) (fun c => { c with table := Tbl.put c.table (Tbl.lowestFree c.table 0 64) sp })) s

/-- What discarded images held of other launches' spans goes to another image of the VF, or back to the tables. -/
def rehomeSpans (s : State) (fn : Nat) (sps : List Span) (pools : List Nat) : State :=
  if sps.isEmpty && pools.isEmpty then s
  else
    match s.images.find? (fun e => e.2.fn == fn) with
    | some (k, im) => { s with images := Tbl.put s.images k { im with launchSpans := im.launchSpans ++ sps, pools := im.pools ++ pools } }
    | none => putLaunchSpans s sps

/-- Unstarted work of a launch, and its saved units, are discarded (R314, R426). -/
def discardUnstarted (s : State) (lid : Nat) : State :=
  let gone := s.images.filter (fun e => e.2.unit.lid == lid)
  let sps := (gone.flatMap (fun e => e.2.launchSpans)).filter (fun sp => sp.lid != lid)
  let pools := (gone.flatMap (fun e => e.2.pools)).filter (fun n => n != lid)
  let s := (s.images.filter (fun e => e.2.unit.lid == lid)).foldl (fun s e => dropImage s e.2) s
  let s := { s with
    clusters := s.clusters.map (fun e =>
      (e.1, { withRq e.2 (e.2.rq.filter (fun x => x.lid != lid)) with table := e.2.table.filter (fun x => x.2.lid != lid) }))
    cores := s.cores.map (fun e => (e.1, { e.2 with items := e.2.items.filter (fun x => x.span.lid != lid) }))
    images := Tbl.mapV (s.images.filter (fun e => e.2.unit.lid != lid)) (fun _ im =>
      { im with launchSpans := im.launchSpans.filter (fun sp => sp.lid != lid), pools := im.pools.filter (fun n => n != lid) }) }
  let s := rehomeSpans s (fnOfLid lid) sps pools
  setLaunch s lid (fun l => { l with pool := [], concWait := false, inTable := false })

/-- `cancel.launch` (R314): ends at once when no unit is resident, else when the last one has been released. -/
def cancelLaunch (s : State) (lid : Nat) (st : Status) : State :=
  match launch? s lid with
  | none => s
  | some l =>
    if l.ending.isSome then s
    else
      let s := discardUnstarted s lid
      let s := (residentUnits s lid).foldl (fun s e => dropMatrix s e.1) s
      let s := { s with units := s.units.map (fun e => (e.1, if e.2.lid == lid then cancelUnit e.2 else e.2)) }
      if (residentUnits s lid).isEmpty then finishLaunch s lid st
      else setLaunch s lid (fun l => { l with ending := some st })

/-- Launches of a job that satisfy a test are cancelled. -/
def cancelLaunches (s : State) (p : Launch → Bool) : State :=
  ((s.launches.filter (fun e => p e.2)).map (·.1)).foldl (fun s lid => cancelLaunch s lid .cancelled) s

/-- Every launch of a graph not yet accepted is cancelled; a graph not yet expanded ends whole. -/
def cancelPending (g : Graph) : Graph :=
  if g.expanded then
    (List.range g.launches.length).foldl (fun g i =>
      if (graphLaunch g i).handle.isNone then cascade 257 g i .cancelled false else g) g
  else if g.recd.status.final then g
  else { g with expanded := true, recd := { g.recd with done := g.recd.total, status := .cancelled } }

/-- `cancel.graph` (R314): the block reads of what it cancels wait no more (R477). -/
def cancelGraph (s : State) (r : JobRef) (gi : Nat) : State :=
  let s := setJob s r (fun j =>
    let j := withGraph j gi cancelPending
    { j with waits := j.waits.filter (fun w => w.reader.1 != gi + 1) })
  cancelLaunches s (fun l => l.job == r && (l.graph.map (·.1)) == some gi)

/-- `cancel.phase` (R314). -/
def cancelPhase (s : State) (r : JobRef) : State :=
  let n := match job? s r with | some j => j.graphs.length | none => 0
  (List.range n).foldl (fun s gi => cancelGraph s r gi) s

/-- `cancel.job`, and a job ended by the fault policy (R314, R420). -/
def cancelJob (s : State) (r : JobRef) (st : Status) : State :=
  let s := setJob s r (fun j => { j with failed := match j.failed with | none => some st | some x => some x
                                         waits := [] })
  let s := cancelPhase s r
  let s := cancelLaunches s (fun l => l.job == r)
  checkJobEnd s r

/-! ## Taking a fault: the record and the policy (R419, R420) -/

/-- The record of a fault, with what the launch gives it (DESIGN CHOICE, log 57). -/
def faultRecord (s : State) (lid code reason : Nat) : Event :=
  match launch? s lid with
  | some l => { code := code, reason := reason, vf := if l.fn < 128 then l.fn else 0, launch := l.handle
                jobtag := jobTagOf s l.job }
  | none => { code := code, reason := reason }

/-- Posts a record of a launch: at most 16, the 16th marked, later ones counted (R420; DEDUCED, log 125). -/
def postRecord (s : State) (lid : Nat) (e : Event) : State :=
  match launch? s lid with
  | none => s
  | some l =>
    let s := if isPf l.fn then s else setFn s l.fn (fun f => { f with faults := f.faults + 1 })
    if l.records < 16 then
      let s := postEvent s (queueOf l.fn) (if l.records = 15 then { e with flags := e.flags + 4 } else e)
      setLaunch s lid (fun l => { l with records := l.records + 1, faults := l.faults + 1 })
    else setLaunch s lid (fun l => { l with dropped := l.dropped + 1, faults := l.faults + 1 })

/-- The fault policy (R420). -/
def faultPolicy (s : State) (lid : Nat) : State :=
  match launch? s lid with
  | none => s
  | some l =>
    let s := cancelLaunch s lid .faulted
    if l.lpb.fpolicy then cancelJob s l.job .faulted else s

/-- Taking a fault: the record is posted, then the policy acts. -/
def raiseFault (s : State) (lid : Nat) (e : Event) : State := faultPolicy (postRecord s lid e) lid

/-- A queue with room, for a record that would be posted. -/
def recordRoom (s : State) (lid : Nat) : Bool :=
  match launch? s lid with
  | some l => decide (16 ≤ l.records) || eventRoom s (queueOf l.fn)
  | none => true

/-! ## Progress of records (R403) -/

/-- The launch has issued its first instruction: it, its graph, phase and job are RUNNING. -/
def markRunning (s : State) (lid : Nat) : State :=
  match launch? s lid with
  | none => s
  | some l =>
    if l.recd.status = .waiting then
      let s := setLaunch s lid (fun l => { l with recd := { l.recd with status := .running } })
      let run (r : Rec) : Rec := if r.status = .waiting then { r with status := .running } else r
      setJob s l.job (fun j =>
        let j := { j with recd := run j.recd }
        match l.graph with
        | none => j
        | some (gi, _) =>
          { j with phaseRec := run j.phaseRec
                   graphs := setNth j.graphs gi (let g := nth j.graphs gi blankGraph; { g with recd := run g.recd }) })
    else s

/-- One unit of a launch has completed: trigger count, DONE, the launch's end (R309, R403). `triggered`: the unit has
counted already. -/
def countUnit (s : State) (lid : Nat) (triggered : Bool) : State :=
  let s := if triggered then s else countTrigger s lid
  match launch? s lid with
  | none => s
  | some l =>
    let r := { l.recd with done := l.recd.done + 1 }
    let s := setLaunch s lid (fun l => { l with recd := r })
    if r.done = r.total && l.ending.isNone then finishLaunch s lid .complete else s

end Sys2Proof.Machine
end

