-- ==== Sys2Proof/Machine/Grid.lean ====
section
/-! DEFINITION. Traversal and numbering of units and items (R29-R31). -/

namespace Sys2Proof.Machine

open Sys2Proof

/-- Curve index of a point of a w×w square, `n` = LOGW: Hilbert as R29 computes it, from s = 2^(n−1) down. -/
def hilbertIdx (w : Nat) : Nat → Nat → Nat → Nat → Nat
  | 0, _, _, d => d
  | n + 1, x, y, d =>
    let s := 2 ^ n
    let rx := x / s % 2
    let ry := y / s % 2
    let d := d + s * s * ((3 * rx) ^^^ ry)
    if ry = 0 then
      if rx = 1 then hilbertIdx w n (w - 1 - y) (w - 1 - x) d else hilbertIdx w n y x d
    else hilbertIdx w n x y d

/-- Morton index: bit i of x at 2i, of y at 2i + 1. -/
def mortonIdx : Nat → Nat → Nat → Nat
  | 0, _, _ => 0
  | n + 1, x, y => x % 2 + 2 * (y % 2) + 4 * mortonIdx n (x / 2) (y / 2)

def curveIdx (order logw x y : Nat) : Nat :=
  if order = 2 then mortonIdx logw x y else hilbertIdx (2 ^ logw) logw x y 0

/-- Position within a band of width `wb` whose square is w×w (R29). -/
def bandPos (l : Lpb) (wb x' y : Nat) : Nat :=
  let w := 2 ^ l.logw
  match l.order with
  | 0 => y * wb + x'
  | 1 => x' * l.uy + y
  | _ =>
    let q := y / w
    let me := curveIdx l.order l.logw x' (y % w)
    let lower := (List.range (w * w)).filter (fun i =>
      let x2 := i % w
      let y2 := i / w
      decide (x2 < wb) && decide (q * w + y2 < l.uy) && decide (curveIdx l.order l.logw x2 y2 < me))
    q * w * wb + lower.length

/-- Linear index of the unit at (x, y, z) (R29). -/
def unitIndex (l : Lpb) (x y z : Nat) : Nat :=
  let w := 2 ^ l.logw
  let b := x / w
  z * l.ux * l.uy + b * w * l.uy + bandPos l (min w (l.ux - b * w)) (x - b * w) y

/-- Point of a curve index within a w×w square, `n` = LOGW: the inverse of the index. -/
def mortonPt : Nat → Nat → Nat × Nat
  | 0, _ => (0, 0)
  | n + 1, d =>
    let r := mortonPt n (d / 4)
    (d % 2 + 2 * r.1, d / 2 % 2 + 2 * r.2)

/-- From the top two bits of the index down: the quadrant, then the turned point of the smaller square. -/
def hilbertPt : Nat → Nat → Nat × Nat
  | 0, _ => (0, 0)
  | n + 1, d =>
    let s := 2 ^ n
    let t := d / (s * s) % 4
    let r := hilbertPt n (d % (s * s))
    let rx := t / 2
    let ry := (t % 2) ^^^ rx
    let r := if ry = 0 then (if rx = 1 then (s - 1 - r.2, s - 1 - r.1) else (r.2, r.1)) else r
    (r.1 + s * rx, r.2 + s * ry)

def curvePt (order logw d : Nat) : Nat × Nat := if order = 2 then mortonPt logw d else hilbertPt logw d

/-- The `r`-th point of the curve that passes a test, among the next `fuel` indexes from `d`. -/
def nthPoint (order logw : Nat) (ok : Nat × Nat → Bool) : Nat → Nat → Nat → Nat × Nat
  | 0, _, _ => (0, 0)
  | fuel + 1, d, r =>
    let p := curvePt order logw d
    if ok p then (if r = 0 then p else nthPoint order logw ok fuel (d + 1) (r - 1))
    else nthPoint order logw ok fuel (d + 1) r

/-- Grid coordinates of unit u: the inverse of R29. -/
def unitCoords (l : Lpb) (u : Nat) : Nat × Nat × Nat :=
  let w := 2 ^ l.logw
  let z := u / (l.ux * l.uy)
  let r := u % (l.ux * l.uy)
  let b := r / (w * l.uy)
  let p := r - b * (w * l.uy)
  let wb := min w (l.ux - b * w)
  let xy : Nat × Nat :=
    match l.order with
    | 0 => (p % wb, p / wb)
    | 1 => (p / l.uy, p % l.uy)
    | _ =>
      let q := p / (w * wb)
      let pt := nthPoint l.order l.logw (fun t => decide (t.1 < wb) && decide (q * w + t.2 < l.uy)) (w * w) 0 (p - q * (w * wb))
      (pt.1, q * w + pt.2)
  (b * w + xy.1, xy.2, z)

/-- Items of a unit, and of a launch (R30, R42). -/
def unitSize (l : Lpb) : Nat := l.sx * l.sy * l.sz
def itemCount (l : Lpb) : Nat := l.ux * l.uy * l.uz * unitSize l

/-- (lx, ly, lz) of a local number (R30). -/
def localCoords (l : Lpb) (i : Nat) : Nat × Nat × Nat := (i % l.sx, i / l.sx % l.sy, i / (l.sx * l.sy))

/-- Number of strands of a unit (R24). -/
def strandCount (l : Lpb) : Nat := (unitSize l + 31) / 32

end Sys2Proof.Machine
end

