-- ==== Sys2Proof/Machine/Float.lean ====
section
/-! DEFINITION. Number formats and the one rounding function (07_number_formats.md R106-R123). Values are
exact: a sign, a natural significand and a power of two, with a mark that says a quotient, a root or a special
function lies strictly above the significand by less than one unit. -/

namespace Sys2Proof.Machine

/-- A floating-point format of R106: exponent and fraction widths, bias, and whether it has infinities. -/
structure Fmt where
  eb : Nat
  fb : Nat
  bias : Nat
  hasInf : Bool
deriving DecidableEq, Repr

def fmtF32 : Fmt := ⟨8, 23, 127, true⟩
def fmtF16 : Fmt := ⟨5, 10, 15, true⟩
def fmtBF16 : Fmt := ⟨8, 7, 127, true⟩
def fmtE4M3 : Fmt := ⟨4, 3, 7, false⟩
def fmtE5M2 : Fmt := ⟨5, 2, 15, true⟩

/-- The format of one element of a float type. -/
def fmtOf : Ty → Fmt
  | .f16 | .f16x2 => fmtF16
  | .bf16 | .bf16x2 => fmtBF16
  | .e4m3 => fmtE4M3
  | .e5m2 => fmtE5M2
  | _ => fmtF32

def Fmt.bits (f : Fmt) : Nat := 1 + f.eb + f.fb
/-- Exponent of the subnormal grid. -/
def Fmt.emin (f : Fmt) : Int := 1 - (f.bias : Int) - f.fb
/-- The canonical NaN of R106. -/
def Fmt.nan (f : Fmt) : Nat :=
  if f.hasInf then (2 ^ f.eb - 1) * 2 ^ f.fb + 2 ^ (f.fb - 1) else 2 ^ (f.eb + f.fb) - 1
/-- Largest finite magnitude as an encoding without its sign. -/
def Fmt.maxEnc (f : Fmt) : Nat :=
  if f.hasInf then (2 ^ f.eb - 1) * 2 ^ f.fb - 1 else 2 ^ (f.eb + f.fb) - 2
def Fmt.inf (f : Fmt) : Nat := (2 ^ f.eb - 1) * 2 ^ f.fb
def Fmt.sign (f : Fmt) (neg : Bool) : Nat := if neg then 2 ^ (f.eb + f.fb) else 0

/-- An exact value. `fin neg m e true` lies strictly between m·2^e and (m+1)·2^e in magnitude. -/
inductive Ext where
  | nan
  | inf (neg : Bool)
  | fin (neg : Bool) (m : Nat) (e : Int) (above : Bool)
deriving DecidableEq, Repr

/-- The value of an encoding; the exponent of a finite value is that of its spacing (R106, R119). -/
def decodeF (f : Fmt) (x : Nat) : Ext :=
  let neg := fld x (f.eb + f.fb) 1 = 1
  let e := fld x f.fb f.eb
  let m := fld x 0 f.fb
  if f.hasInf && e = 2 ^ f.eb - 1 then if m = 0 then .inf neg else .nan
  else if !f.hasInf && e = 2 ^ f.eb - 1 && m = 2 ^ f.fb - 1 then .nan
  else if e = 0 then .fin neg m f.emin false
  else .fin neg (2 ^ f.fb + m) (f.emin + e - 1) false

/-- What stochastic rounding reads (R119): the advanced state, lane plus eight times the element, and for a
conversion the exponent of the source's spacing. -/
structure Rs where
  s : Word
  rot : Nat
  src : Option Int
deriving DecidableEq, Repr

def rotl32 (s : Word) (n : Nat) : Nat := (s.rotateLeft (n % 32)).toNat

/-- One advance of `%seed` (R118). -/
def seedStep (s : Word) : Word :=
  let a := s ^^^ (s <<< 13)
  let b := a ^^^ (a >>> 17)
  b ^^^ (b <<< 5)

/-- The grid magnitude (a count of spacings 2^ge) chosen by the mode for m·2^e (R114, R119). -/
def roundMag (neg : Bool) (m : Nat) (e : Int) (above : Bool) (ge : Int) (r : Rnd) (rs : Rs) : Nat :=
  -- 34 extra bits, so that the discarded part has at least 33
  let up := (e - ge + 34).toNat
  let m1 := m <<< up
  let d := (ge - (e - up)).toNat          -- discarded bits, ≥ 34
  let t := m1 >>> d
  let rem := m1 % 2 ^ d
  if rem = 0 && !above then t
  else
    let step := match r with
      | .rne => decide (2 ^ d < 2 * rem) || (2 * rem == 2 ^ d && (above || t % 2 == 1))
      | .rtz => false
      | .rdn => neg
      | .rup => !neg
      | .rs =>
        let k : Nat := match rs.src with
          | some u => min 32 (ge - u).toNat
          | none => 32
        let dd := rem >>> (d - k)
        let q := rotl32 rs.s rs.rot % 2 ^ k
        decide (2 ^ k ≤ dd + q)
    if step then t + 1 else t

/-- `round(x, fmt, mode)` into a float format, as an encoding (R114-R116). -/
def roundF (f : Fmt) (r : Rnd) (rs : Rs) : Ext → Nat
  | .nan => f.nan
  | .inf neg => if f.hasInf then f.sign neg + f.inf else f.nan
  | .fin neg 0 _ false => f.sign neg
  | .fin neg m e above =>
    let top : Int := e + log2 m
    let ge : Int := if top - f.fb < f.emin then f.emin else top - f.fb
    let n := roundMag neg m e above ge r rs
    let enc := (ge - f.emin).toNat * 2 ^ f.fb + n
    if enc ≤ f.maxEnc then f.sign neg + enc
    else if !f.hasInf then f.sign neg + f.maxEnc
    else
      let toInf := match r with
        | .rne => true
        | .rtz => false
        | .rdn => neg
        | .rup => !neg
        | .rs => true
      f.sign neg + (if toInf then f.inf else f.maxEnc)

/-- `round` to an integer, exact, before saturation; NaN gives 0 by the caller (R117). -/
def roundInt (r : Rnd) (rs : Rs) (neg : Bool) (m : Nat) (e : Int) (above : Bool) : Int :=
  let n : Int := roundMag neg m e above 0 r rs
  if neg then -n else n

def Ext.neg : Ext → Ext
  | .nan => .nan
  | .inf n => .inf (!n)
  | .fin n m e a => .fin (!n) m e a

def Ext.isNeg : Ext → Bool
  | .nan => false
  | .inf n => n
  | .fin n _ _ _ => n

def Ext.isZero : Ext → Bool
  | .fin _ 0 _ false => true
  | _ => false

def Ext.isNaN : Ext → Bool
  | .nan => true
  | _ => false

def signedMag (neg : Bool) (m : Nat) : Int := if neg then -(m : Int) else m

/-- Exact sum; the sign of an exact zero follows R108. -/
def addX (r : Rnd) : Ext → Ext → Ext
  | .nan, _ => .nan
  | _, .nan => .nan
  | .inf a, .inf b => if a = b then .inf a else .nan
  | .inf a, _ => .inf a
  | _, .inf b => .inf b
  | .fin n1 m1 e1 _, .fin n2 m2 e2 _ =>
    let e := if e1 ≤ e2 then e1 else e2
    let x := signedMag n1 (m1 <<< (e1 - e).toNat) + signedMag n2 (m2 <<< (e2 - e).toNat)
    if x = 0 then
      if m1 = 0 && m2 = 0 && n1 == n2 then .fin n1 0 e false
      else .fin (r == .rdn) 0 e false
    else .fin (decide (x < 0)) x.natAbs e false

/-- Exact product (R160). -/
def mulX : Ext → Ext → Ext
  | .nan, _ => .nan
  | _, .nan => .nan
  | .inf a, .inf b => .inf (a != b)
  | .inf a, .fin n m _ _ => if m = 0 then .nan else .inf (a != n)
  | .fin n m _ _, .inf a => if m = 0 then .nan else .inf (a != n)
  | .fin n1 m1 e1 _, .fin n2 m2 e2 _ => .fin (n1 != n2) (m1 * m2) (e1 + e2) false

/-- Quotient to at least 128 significant bits, with the mark above when inexact. -/
def divX : Ext → Ext → Ext
  | .nan, _ => .nan
  | _, .nan => .nan
  | .inf _, .inf _ => .nan
  | .inf a, .fin n _ _ _ => .inf (a != n)
  | .fin n _ e _, .inf a => .fin (a != n) 0 e false
  | .fin n1 m1 e1 _, .fin n2 m2 e2 _ =>
    if m2 = 0 then if m1 = 0 then .nan else .inf (n1 != n2)
    else if m1 = 0 then .fin (n1 != n2) 0 0 false
    else
      let sh := 192 + log2 m2
      let x := m1 <<< sh
      .fin (n1 != n2) (x / m2) (e1 - e2 - sh) (x % m2 != 0)

/-- One Newton step per unit of fuel: the integer square root. -/
def isqrtAux (n : Nat) : Nat → Nat → Nat
  | 0, x => x
  | f + 1, x =>
    let y := (x + n / x) / 2
    if y < x then isqrtAux n f y else x

/-- `⌊√n⌋`. -/
def isqrt (n : Nat) : Nat := if n = 0 then 0 else isqrtAux n 2000 (2 ^ (log2 n / 2 + 1))

/-- Square root to about 160 significant bits (R160). -/
def sqrtX : Ext → Ext
  | .nan => .nan
  | .inf neg => if neg then .nan else .inf false
  | .fin neg m e _ =>
    if m = 0 then .fin neg 0 e false
    else if neg then .nan
    else
      let sh := if (e % 2 = 0) then 320 else 321
      let x := m <<< sh
      let r := isqrt x
      .fin false r ((e - sh) / 2) (r * r != x)

/-- Order of two finite or infinite values as −1, 0, 1, with −0 equal to +0 (R146). -/
def cmpX (a b : Ext) : Int :=
  let key (x : Ext) : Int × Nat × Int := match x with
    | .nan => (0, 0, 0)
    | .inf n => (if n then -2 else 2, 0, 0)
    | .fin n m e _ => (if m = 0 then 0 else if n then -1 else 1, m, e)
  let ka := key a
  let kb := key b
  if ka.1 < kb.1 then -1 else if kb.1 < ka.1 then 1
  else if ka.1 = 0 || ka.1 = 2 || ka.1 = -2 then 0
  else
    let e := minI ka.2.2 kb.2.2
    let x := signedMag (ka.1 < 0) (ka.2.1 <<< (ka.2.2 - e).toNat)
    let y := signedMag (kb.1 < 0) (kb.2.1 <<< (kb.2.2 - e).toNat)
    if x < y then -1 else if y < x then 1 else 0

/-- The exact value of an integer. -/
def extOfInt (x : Int) : Ext := .fin (decide (x < 0)) x.natAbs 0 false

/-- The exact value times 2^n. -/
def scaleX (n : Int) : Ext → Ext
  | .fin neg m e a => .fin neg m (e + n) a
  | x => x

/-! Special functions (R123): fixed point with 384 fraction bits, ample for a correct rounding into FP32. -/

def fxP : Nat := 384
def fxOne : Nat := 2 ^ fxP
def fxMul (a b : Nat) : Nat := (a * b) >>> fxP
def fxDiv (a b : Nat) : Nat := (a <<< fxP) / b

/-- Σ xⁿ/n! from the given term on. -/
def fxExpAux (x : Nat) : Nat → Nat → Nat → Nat
  | 0, _, _ => 0
  | f + 1, n, t => t + fxExpAux x f (n + 1) (fxMul t x / (n + 1))

/-- e^x for 0 ≤ x < 1. -/
def fxExp (x : Nat) : Nat := fxExpAux x 90 0 fxOne

/-- Σ z^(2k+1)/(2k+1). -/
def fxAtanhAux (z2 : Nat) : Nat → Nat → Nat → Nat
  | 0, _, _ => 0
  | f + 1, k, t => t / (2 * k + 1) + fxAtanhAux z2 f (k + 1) (fxMul t z2)

def fxAtanh (z : Nat) : Nat := fxAtanhAux (fxMul z z) 130 0 z

/-- ln 2 = 2·artanh(1/3). -/
def fxLn2 : Nat := 2 * fxAtanh (fxOne / 3)

/-- Σ (−1)^k z^(2k+1)/(2k+1) for z = 1/q. -/
def fxAtanInvAux (q2 : Nat) : Nat → Nat → Nat → Int
  | 0, _, _ => 0
  | f + 1, k, t => signedMag (k % 2 == 1) (t / (2 * k + 1)) + fxAtanInvAux q2 f (k + 1) (t / q2)

def fxAtanInv (q : Nat) : Int := fxAtanInvAux (q * q) 100 0 (fxOne / q)

/-- π by Machin's formula. -/
def fxPi : Nat := (16 * fxAtanInv 5 - 4 * fxAtanInv 239).toNat

/-- sin (odd start) or cos (even start) series from the term `t` of index `n`. -/
def fxTrigAux (x2 : Nat) : Nat → Nat → Nat → Int
  | 0, _, _ => 0
  | f + 1, n, t => (t : Int) - fxTrigAux x2 f (n + 2) (fxMul t x2 / ((n + 1) * (n + 2)))

def fxSin (x : Nat) : Nat := (fxTrigAux (fxMul x x) 60 1 x).toNat
def fxCos (x : Nat) : Nat := (fxTrigAux (fxMul x x) 60 0 fxOne).toNat

/-- m·2^e as fixed point, rounded down. -/
def toFx (m : Nat) (e : Int) : Nat :=
  let s := e + fxP
  if 0 ≤ s then m <<< s.toNat else m >>> (-s).toNat

/-- An inexact result: the fixed-point value less its last 24 bits, marked above. -/
def ofFx (neg : Bool) (x : Nat) (e : Int) : Ext := .fin neg (x >>> 24) (e - fxP + 24) true

def exactOne (neg : Bool) : Ext := .fin neg 1 0 false

/-- 2^x. -/
def exp2X : Ext → Ext
  | .nan => .nan
  | .inf n => if n then .fin false 0 0 false else .inf false
  | .fin neg m e _ =>
    if m = 0 then exactOne false
    else if 0 ≤ e + log2 m - 11 then
      -- |x| ≥ 2^11: beyond every format; ±2^∓5000 rounds as the exact value does
      if neg then .fin false 1 (-5000) true else .fin false 1 5000 true
    else
      let d := (-e).toNat
      let x : Int := signedMag neg (m <<< e.toNat)
      let n := x / ((2 ^ d : Nat) : Int)
      let fr := (x % ((2 ^ d : Nat) : Int)).toNat
      if fr = 0 then .fin false 1 n false
      else ofFx false (fxExp (fxMul (toFx fr (-(d : Int))) fxLn2)) n

/-- log₂ x. -/
def log2X : Ext → Ext
  | .nan => .nan
  | .inf n => if n then .nan else .inf false
  | .fin neg m e _ =>
    if m = 0 then .inf true
    else if neg then .nan
    else
      let l := log2 m
      if m = 2 ^ l then
        let n := e + l
        if n = 0 then .fin false 0 0 false else extOfInt n
      else
        -- m·2^e = f·2^n with f in (3/4, 3/2)
        let up := decide (3 * 2 ^ l < 2 * m)
        let n : Int := if up then e + l + 1 else e + l
        let f := toFx m (e - n)
        let diff : Int := (f : Int) - (fxOne : Nat)
        let z := fxDiv diff.natAbs (f + fxOne)
        let lg := fxDiv (2 * fxAtanh z) fxLn2
        let v : Int := n * ((fxOne : Nat) : Int) + signedMag (decide (diff < 0)) lg
        ofFx (decide (v < 0)) v.natAbs 0

/-- sin πx and cos πx for x = m·2^e: the quadrant argument reduced exactly to y in [0, 1/2). -/
def trigPi (wantSin : Bool) : Ext → Ext
  | .nan => .nan
  | .inf _ => .nan
  | .fin neg m e _ =>
    if m = 0 then if wantSin then .fin neg 0 0 false else exactOne false
    else
      let d := (-e).toNat
      let x := m <<< e.toNat                      -- |x| = x / 2^d
      let h := x * 2                              -- in halves: h / 2^d
      let n := h / 2 ^ d                          -- number of halves
      let fr := h % 2 ^ d                         -- remaining part, in halves / 2^d
      let q := n % 4
      let sneg := wantSin && neg
      if fr = 0 then
        match wantSin, q with
        | true, 0 => .fin neg 0 0 false
        | true, 2 => .fin neg 0 0 false
        | true, 1 => exactOne sneg
        | true, _ => exactOne (!sneg)
        | false, 0 => exactOne false
        | false, 2 => exactOne true
        | false, _ => .fin false 0 0 false
      else
        -- angle within the quadrant: θ = π/2 · fr/2^d
        let th := fxMul (toFx fr (-(d : Int) - 1)) fxPi
        let useSin := (wantSin && q % 2 == 0) || (!wantSin && q % 2 == 1)
        let v := if useSin then fxSin th else fxCos th
        let flip := if wantSin then q ≥ 2 else q == 1 || q == 2
        ofFx (sneg != flip) v 0

/-- e^(−y) for y = m·2^e > 0, as a value below one. -/
def expNegFx (m : Nat) (e : Int) : Nat :=
  -- e^(−y) = 2^(−y/ln 2)
  let y := fxDiv (toFx m e) fxLn2
  let n := y / fxOne
  let fr := y % fxOne
  let p := fxExp (fxMul (fxOne - fr) fxLn2)       -- 2^(1 − fr)
  p >>> (n + 1)

/-- tanh x. -/
def tanhX : Ext → Ext
  | .nan => .nan
  | .inf n => exactOne n
  | .fin neg m e _ =>
    if m = 0 then .fin neg 0 0 false
    else if 6 ≤ e + log2 m then .fin neg (2 ^ 200 - 1) (-200) true
    else
      let t := expNegFx m (e + 1)
      ofFx neg (fxDiv (fxOne - t) (fxOne + t)) 0

/-- 1/(1 + e^(−x)). -/
def sigmX : Ext → Ext
  | .nan => .nan
  | .inf n => if n then .fin false 0 0 false else exactOne false
  | .fin neg m e _ =>
    if m = 0 then .fin false 1 (-1) false
    else if 8 ≤ e + log2 m then
      if neg then .fin false 1 (-300) true else .fin false (2 ^ 200 - 1) (-200) true
    else
      let t := expNegFx m e
      if neg then ofFx false (fxDiv t (fxOne + t)) 0 else ofFx false (fxDiv fxOne (fxOne + t)) 0

/-- 1/x. -/
def rcpX (x : Ext) : Ext := divX (exactOne false) x

/-- 1/√x. -/
def rsqX : Ext → Ext
  | .nan => .nan
  | .inf n => if n then .nan else .fin false 0 0 false
  | .fin neg m e _ =>
    if m = 0 then .inf neg
    else if neg then .nan
    else
      let l := log2 m
      if m = 2 ^ l && (e + l) % 2 = 0 then .fin false 1 (-((e + l) / 2)) false
      else
        -- 1/√(m·2^e) = √(2^k / m)·2^(−(k+e)/2) with k + e even
        let k := 2 * l + (if e % 2 = 0 then 400 else 401)
        let q := 2 ^ k / m
        .fin false (isqrt q) (-((k + e) / 2)) true

end Sys2Proof.Machine
end

