-- ==== Sys2Proof/Machine/Flags.lean ====
section
/-! DEFINITION. Every truth value an instruction computes: the conditions of `icmp`, `acmp` and `fcmp` (R145, R146,
R185), the carry of `iaddc` (R135), the classes of `pclass` (R149) and the predicate combinations (R147). The
machine has no other flags. -/

namespace Sys2Proof.Machine

/-- The value of an integer type held in raw bits (R109, R110). -/
def valI (t : Ty) (x : Nat) : Int := if t.signed then sext t.bits x else ((x % 2 ^ t.bits : Nat) : Int)

/-- `icmp` and `acmp` conditions (R144, R180). -/
def condI (q : Cond) (a b : Int) : Bool :=
  match q with
  | .eq => decide (a = b)
  | .ne => decide (a ≠ b)
  | .lt => decide (a < b)
  | .le => decide (a ≤ b)
  | .gt => decide (b < a)
  | .ge => decide (b ≤ a)

/-- `icmp` of two raw values (R145). -/
def icmpFlag (t : Ty) (q : Cond) (a b : Nat) : Bool := condI q (valI t a) (valI t b)

/-- `fcmp` (R146). -/
def fcmpFlag (t : Ty) (q : FCond) (a b : Nat) : Bool :=
  let x := decodeF (fmtOf t) a
  let y := decodeF (fmtOf t) b
  if x.isNaN || y.isNaN then q == .ne || q == .nan
  else
    let c := cmpX x y
    match q with
    | .eq => c == 0
    | .ne => c != 0
    | .lt => decide (c < 0)
    | .le => decide (c ≤ 0)
    | .gt => decide (0 < c)
    | .ge => decide (0 ≤ c)
    | .num => true
    | .nan => false

/-- The carry out of `iaddc` (R135). -/
def carryFlag (t : Ty) (a b : Nat) (cin : Bool) : Bool :=
  decide (2 ^ t.bits ≤ a % 2 ^ t.bits + b % 2 ^ t.bits + (if cin then 1 else 0))

/-- The class number of a value (R149). -/
def classOf (f : Fmt) (x : Nat) : Nat :=
  match decodeF f x with
  | .nan => 8
  | .inf neg => if neg then 0 else 7
  | .fin neg m _ _ =>
    if m = 0 then if neg then 3 else 4
    else if m < 2 ^ f.fb then if neg then 2 else 5
    else if neg then 1 else 6

/-- `pclass` (R149). -/
def pclassFlag (t : Ty) (a mask : Nat) : Bool := bitOf mask (classOf (fmtOf t) a)
where bitOf (x i : Nat) : Bool := x / 2 ^ i % 2 == 1

end Sys2Proof.Machine
end

