-- ==== Sys2Proof/Machine/LaneInt.lean ====
section
/-! DEFINITION. What the integer, logic, select and cross-lane instructions compute, lane by lane, from the raw
bits of their operands (R134-R143, R147, R148, R152-R155). -/

namespace Sys2Proof.Machine

def minT (t : Ty) : Int := if t.signed then -((2 ^ (t.bits - 1) : Nat) : Int) else 0
def maxT (t : Ty) : Int := if t.signed then ((2 ^ (t.bits - 1) : Nat) : Int) - 1 else ((2 ^ t.bits : Nat) : Int) - 1

/-- A result placed in a word or group (R110): narrow signed values are sign-extended to 32 bits. -/
def placeI (t : Ty) (x : Int) : Nat :=
  if t.signed && decide (t.bits < 32) then wrap 32 (sext t.bits (wrap t.bits x)) else wrap t.bits x

/-- Wrap, or clamp under `.sat` (R129). -/
def finI (t : Ty) (sat : Bool) (x : Int) : Nat := placeI t (if sat then clampI (minT t) (maxT t) x else x)

def fIadd (t : Ty) (sat : Bool) (a b : Nat) : Nat := finI t sat (valI t a + valI t b)
def fIsub (t : Ty) (sat : Bool) (a b : Nat) : Nat := finI t sat (valI t a - valI t b)
def fImul (t : Ty) (sat : Bool) (a b : Nat) : Nat := finI t sat (valI t a * valI t b)
def fImad (t : Ty) (sat : Bool) (a b c : Nat) : Nat := finI t sat (valI t a * valI t b + valI t c)
def fImulh (t : Ty) (a b : Nat) : Nat := placeI t (valI t a * valI t b / ((2 ^ t.bits : Nat) : Int))
def fImin (t : Ty) (a b : Nat) : Nat := placeI t (minI (valI t a) (valI t b))
def fImax (t : Ty) (a b : Nat) : Nat := placeI t (maxI (valI t a) (valI t b))
def fIabs (t : Ty) (sat : Bool) (a : Nat) : Nat := finI t sat ((valI t a).natAbs : Int)
def fIneg (t : Ty) (sat : Bool) (a : Nat) : Nat := finI t sat (-(valI t a))
def fIclamp (t : Ty) (a b c : Nat) : Nat := placeI t (minI (maxI (valI t a) (valI t b)) (valI t c))
def fIsad (t : Ty) (a b c : Nat) : Nat := placeI t (((valI t a - valI t b).natAbs : Int) + valI t c)
def fIaddc (t : Ty) (a b : Nat) (cin : Bool) : Nat :=
  (a % 2 ^ t.bits + b % 2 ^ t.bits + (if cin then 1 else 0)) % 2 ^ t.bits

/-- Quotient and remainder, both toward zero, with the corners of R136. -/
def fIdiv (t : Ty) (x y : Nat) : Nat :=
  let a := valI t x
  let b := valI t y
  if b = 0 then placeI t (if t.signed then (if 0 ≤ a then maxT t else minT t) else maxT t)
  else placeI t (Int.tdiv a b)
def fIrem (t : Ty) (x y : Nat) : Nat :=
  let a := valI t x
  let b := valI t y
  if b = 0 then placeI t a else placeI t (Int.tmod a b)

/-- `idot4` (R137). -/
def fIdot4 (t : Ty) (sa sb sat : Bool) (a b c : Nat) : Nat :=
  let byteOf (s : Bool) (x i : Nat) : Int := if s then sext 8 (fld x (8 * i) 8) else (fld x (8 * i) 8 : Nat)
  let term (i : Nat) : Int := byteOf sa a i * byteOf sb b i
  finI t sat (valI t c + term 0 + term 1 + term 2 + term 3)

/-! Logic and bits, N = 32 or 64 (R140-R143). -/

def fNot (t : Ty) (a : Nat) : Nat := 2 ^ t.bits - 1 - a % 2 ^ t.bits
def fAnd (a b : Nat) : Nat := a &&& b
def fOr (a b : Nat) : Nat := a ||| b
def fXor (a b : Nat) : Nat := a ^^^ b
def fAndn (t : Ty) (a b : Nat) : Nat := a &&& fNot t b
def fShl (t : Ty) (clamp : Bool) (a c : Nat) : Nat :=
  if clamp && decide (t.bits ≤ c) then 0 else (a <<< (c % t.bits)) % 2 ^ t.bits
def fShr (t : Ty) (clamp : Bool) (a c : Nat) : Nat :=
  if clamp && decide (t.bits ≤ c) then 0 else a >>> (c % t.bits)
def fSar (t : Ty) (clamp : Bool) (a c : Nat) : Nat :=
  let x := sext t.bits a
  if clamp && decide (t.bits ≤ c) then wrap t.bits (if x < 0 then -1 else 0)
  else wrap t.bits (x / ((2 ^ (c % t.bits) : Nat) : Int))
def fRotl (t : Ty) (a c : Nat) : Nat :=
  let n := c % t.bits
  (a <<< n ||| a >>> (t.bits - n)) % 2 ^ t.bits
def fPopc (t : Ty) (a : Nat) : Nat := popcount t.bits a
def fClz (t : Ty) (a : Nat) : Nat := if a = 0 then t.bits else t.bits - 1 - log2 a
/-- The low `n` bits of `x` in reverse order. -/
def revBits : Nat → Nat → Nat
  | 0, _ => 0
  | n + 1, x => (x % 2) * 2 ^ n + revBits n (x / 2)
def fBrev (t : Ty) (a : Nat) : Nat := revBits t.bits a
def fBfe (t : Ty) (a fd : Nat) : Nat :=
  let n := t.bits
  let pos := fld fd 0 8
  let len := if fld fd 8 8 < n then fld fd 8 8 else n
  if len = 0 then 0
  else
    -- bits beyond N−1 read as the fill of the type
    let x : Int := if t.signed then sext n a else (a : Int)
    let f := wrap len (x / ((2 ^ pos : Nat) : Int))
    if t.signed then wrap n (sext len f) else f
def fBfi (t : Ty) (a b fd : Nat) : Nat :=
  let n := t.bits
  let pos := fld fd 0 8
  let len := if fld fd 8 8 < n then fld fd 8 8 else n
  let w := if pos + len ≤ n then len else n - pos
  if n ≤ pos then a else setFld a pos w b
def fBmix (t : Ty) (f : BmixFn) (a b c : Nat) : Nat :=
  match f with
  | .maj => (a &&& b) ||| (a &&& c) ||| (b &&& c)
  | .xor3 => a ^^^ b ^^^ c
  | .and3 => a &&& b &&& c
  | .or3 => a ||| b ||| c
  | .mux => (a &&& b) ||| (fNot t a &&& c)
  | .andor => (a &&& b) ||| c
  | .andxor => (a &&& b) ^^^ c
  | .orand => (a ||| b) &&& c
/-- `bsel` over the eight bytes of (B:A) (R143). -/
def fBsel (m : BselMode) (a b c : Nat) : Nat :=
  let pair := a % 2 ^ 32 + (b % 2 ^ 32) * 2 ^ 32
  match m with
  | .pick =>
    let pick (i : Nat) : Nat :=
      let s := fld c (4 * i) 4
      if s ≤ 7 then
        let v := fld pair (8 * s) 8
        if fld c (16 + i) 1 = 1 then (if 128 ≤ v then 255 else 0) else v
      else 0
    pick 0 + pick 1 * 256 + pick 2 * 65536 + pick 3 * 16777216
  | .funnel => fld pair (8 * (c % 8)) 32
  | .rev => fld a 24 8 + fld a 16 8 * 256 + fld a 8 8 * 65536 + fld a 0 8 * 16777216

/-! Cross-lane, over the set T (R150-R155). -/

/-- The source lane of `lxch` (R152). -/
def xchLane (m : XchMode) (l b : Nat) : Int :=
  match m with
  | .abs => b
  | .back => (l : Int) - b
  | .fwd => (l : Int) + b
  | .mir => ((l ^^^ b : Nat) : Int)
  | .rot => (((l + b) % 32 : Nat) : Int)

/-- A of the source lane when it lies in T, else the lane's own A (R152, R153). -/
def fromLane (t : LaneMask) (a : Nat → Nat) (l : Nat) (s : Int) : Nat :=
  if 0 ≤ s && s ≤ 31 && lane t s.toNat then a s.toNat else a l

def fLxch (t : LaneMask) (m : XchMode) (a b : Nat → Nat) (l : Nat) : Nat := fromLane t a l (xchLane m l (b l))
def fLbcast (t : LaneMask) (a b : Nat → Nat) (l : Nat) : Nat := fromLane t a l (b (lowest t))

def bitsum (f : Nat → Bool) (ls : List Nat) : Nat := ls.foldl (fun acc i => if f i then acc + 2 ^ i else acc) 0

def fLmatch (t : LaneMask) (a : Nat → Nat) (l : Nat) : Nat := bitsum (fun m => a m == a l) (lanesOf t)

/-- The integer reductions of R154; `.add.sat` clamps the exact sum once. -/
def redInt (t : Ty) (op : Nat) (xs : List Nat) : Nat :=
  match xs with
  | [] => 0
  | x :: rest =>
    match op with
    | 0 => placeI t ((xs.map (valI t)).foldl (· + ·) 0)
    | 1 => finI t true ((xs.map (valI t)).foldl (· + ·) 0)
    | 2 => rest.foldl (fImin t) (placeI t (valI t x))
    | 3 => rest.foldl (fImax t) (placeI t (valI t x))
    | 4 => rest.foldl fAnd x
    | 5 => rest.foldl fOr x
    | _ => rest.foldl fXor x

/-- `pagg` over T (R148). -/
def paggBool (m : PaggMode) (t : LaneMask) (p : Nat → Bool) : Bool :=
  let ls := lanesOf t
  match m with
  | .every => ls.all p
  | .some => ls.any p
  | _ => ls.all p || !ls.any p
def paggWord (m : PaggMode) (t : LaneMask) (p : Nat → Bool) : Nat :=
  let ls := lanesOf t
  match m with
  | .mask => bitsum p ls
  | _ => (ls.filter p).length

end Sys2Proof.Machine
end

