-- ==== Sys2Proof/Machine/LaneFloat.lean ====
section
/-! DEFINITION. What the floating-point, conversion and quantising instructions compute, lane by lane (R121-R123,
R160-R176), on top of the exact values and the rounding function. -/

namespace Sys2Proof.Machine

/-- Stochastic context of element `j` of lane `l` (R119): k = 32. -/
def rsOf (s : Word) (l j : Nat) : Rs := ⟨s, l + 8 * j, none⟩
/-- The same for a conversion whose source has the given value (R119). -/
def rsConv (s : Word) (l j : Nat) (x : Ext) : Rs :=
  ⟨s, l + 8 * j, match x with | .fin _ _ e _ => some e | _ => some 0⟩

/-- One element of an operand of type `t`. -/
def elem (t : Ty) (x j : Nat) : Nat := if t.isPacked then fld x (16 * j) 16 else x % 2 ^ t.bits

/-- Applies an element function to every element of a type (R157). -/
def perElem (t : Ty) (f : Nat → Nat) : Nat := if t.isPacked then f 0 + f 1 * 65536 else f 0

def dec (t : Ty) (x : Nat) : Ext := decodeF (fmtOf t) x

def elAdd (t : Ty) (r : Rnd) (rs : Rs) (a b : Nat) : Nat := roundF (fmtOf t) r rs (addX r (dec t a) (dec t b))
def elSub (t : Ty) (r : Rnd) (rs : Rs) (a b : Nat) : Nat := roundF (fmtOf t) r rs (addX r (dec t a) (dec t b).neg)
def elMul (t : Ty) (r : Rnd) (rs : Rs) (a b : Nat) : Nat := roundF (fmtOf t) r rs (mulX (dec t a) (dec t b))
def elFma (t : Ty) (r : Rnd) (rs : Rs) (a b c : Nat) : Nat :=
  roundF (fmtOf t) r rs (addX r (mulX (dec t a) (dec t b)) (dec t c))
def elDiv (t : Ty) (r : Rnd) (rs : Rs) (a b : Nat) : Nat := roundF (fmtOf t) r rs (divX (dec t a) (dec t b))
def elSqrt (t : Ty) (r : Rnd) (rs : Rs) (a : Nat) : Nat := roundF (fmtOf t) r rs (sqrtX (dec t a))

/-- `a` orders below `b`, with −0 below +0 (R161). -/
def ltMin (x y : Ext) : Bool :=
  let c := cmpX x y
  decide (c < 0) || (c == 0 && x.isNeg && !y.isNeg)

def elMin (t : Ty) (a b : Nat) : Nat :=
  let x := dec t a
  let y := dec t b
  if x.isNaN && y.isNaN then (fmtOf t).nan
  else if x.isNaN then b
  else if y.isNaN then a
  else if ltMin y x then b else a
def elMax (t : Ty) (a b : Nat) : Nat :=
  let x := dec t a
  let y := dec t b
  if x.isNaN && y.isNaN then (fmtOf t).nan
  else if x.isNaN then b
  else if y.isNaN then a
  else if ltMin x y then b else a
def elClamp (t : Ty) (a b c : Nat) : Nat := elMin t (elMax t a b) c

/-- `frnd` (R162): an integer grid; a zero keeps the sign. Its stochastic rounding is that of a conversion (R119). -/
def elRnd (t : Ty) (r : Rnd) (rs : Rs) (a : Nat) : Nat :=
  match dec t a with
  | .nan => (fmtOf t).nan
  | .inf _ => a
  | .fin neg m e ab =>
    if m = 0 then a
    else roundF (fmtOf t) .rtz rs (.fin neg (roundInt r { rs with src := some e } neg m e ab).natAbs 0 false)

def elScale (t : Ty) (r : Rnd) (rs : Rs) (a : Nat) (n : Int) : Nat :=
  match dec t a with
  | .nan => (fmtOf t).nan
  | .inf _ => a
  | .fin neg m e ab => if m = 0 then a else roundF (fmtOf t) r rs (.fin neg m (e + n) ab)

/-- The exact sum of three values, one zero sign (R164). -/
def add3X (r : Rnd) (x y z : Ext) : Ext :=
  match x, y, z with
  | .fin n1 m1 _ _, .fin n2 m2 _ _, .fin n3 m3 e3 _ =>
    if m1 = 0 && m2 = 0 && m3 = 0 then
      if n1 == n2 && n2 == n3 then .fin n1 0 e3 false else .fin (r == .rdn) 0 e3 false
    else
      match addX r x y with
      | .fin _ 0 _ _ => if m3 = 0 then .fin (r == .rdn) 0 e3 false else z
      | s => addX r s z
  | _, _, _ => addX r (addX r x y) z

def fFdot2 (t : Ty) (r : Rnd) (rs : Rs) (a b c : Nat) : Nat :=
  let p0 := mulX (dec t (elem t a 0)) (dec t (elem t b 0))
  let p1 := mulX (dec t (elem t a 1)) (dec t (elem t b 1))
  roundF fmtF32 r rs (add3X r p0 p1 (decodeF fmtF32 c))

/-! The special functions of group 5, rounded by RNE (R123, R165, R166). -/

def elSpecial (t : Ty) (f : Ext → Ext) (a : Nat) : Nat := roundF (fmtOf t) .rne ⟨0, 0, none⟩ (f (dec t a))

/-! Conversions (R168, R169). -/

/-- Rounded and saturated to an integer type (R117). -/
def toIntT (t : Ty) (r : Rnd) (rs : Rs) (x : Ext) : Nat :=
  match x with
  | .nan => 0
  | .inf neg => placeI t (if neg then minT t else maxT t)
  | .fin neg m e ab => placeI t (clampI (minT t) (maxT t) (roundInt r rs neg m e ab))

def cvtToInt (t : Ty) (r : Rnd) (s : Word) (l a : Nat) : Nat :=
  let x := decodeF fmtF32 a
  toIntT t r (rsConv s l 0 x) x
def cvtToF (f : Fmt) (r : Rnd) (s : Word) (l j a : Nat) : Nat :=
  let x := decodeF fmtF32 a
  roundF f r (rsConv s l j x) x
def cvtFromInt (t : Ty) (r : Rnd) (s : Word) (l a : Nat) : Nat :=
  let x := extOfInt (valI t a)
  roundF fmtF32 r (rsConv s l 0 x) x
/-- Exact widening to FP32. -/
def cvtWiden (t : Ty) (a : Nat) : Nat := roundF fmtF32 .rne ⟨0, 0, none⟩ (dec t (a % 2 ^ t.bits))
/-- Saturating narrowing between integer types. -/
def cvtNarrow (dst src : Ty) (a : Nat) : Nat := finI dst true (valI src a)

/-- `cvt` by its code (R168). -/
def fCvt (code : Nat) (r : Rnd) (s : Word) (l a b : Nat) : Nat :=
  match code with
  | 0 => cvtToF fmtF16 r s l 0 a
  | 1 => cvtToF fmtBF16 r s l 0 a
  | 2 => cvtToF fmtE4M3 r s l 0 a
  | 3 => cvtToF fmtE5M2 r s l 0 a
  | 4 => cvtWiden .f16 a
  | 5 => cvtWiden .bf16 a
  | 6 => cvtWiden .e4m3 a
  | 7 => cvtWiden .e5m2 a
  | 8 => cvtToInt .s32 r s l a
  | 9 => cvtToInt .n32 r s l a
  | 10 => cvtToInt .s64 r s l a
  | 11 => cvtToInt .n64 r s l a
  | 12 => cvtFromInt .s32 r s l a
  | 13 => cvtFromInt .n32 r s l a
  | 14 => cvtFromInt .s64 r s l a
  | 15 => cvtFromInt .n64 r s l a
  | 16 => cvtToInt .s8 r s l a
  | 17 => cvtToInt .n8 r s l a
  | 18 => cvtToInt .s16 r s l a
  | 19 => cvtToInt .n16 r s l a
  | 20 => cvtNarrow .s8 .s32 a
  | 21 => cvtNarrow .n8 .s32 a
  | 22 => cvtNarrow .s16 .s32 a
  | 23 => cvtNarrow .n16 .s32 a
  | 24 => cvtNarrow .s32 .s64 a
  | 25 => cvtNarrow .n32 .n64 a
  | 26 => cvtToF fmtF16 r s l 0 a + cvtToF fmtF16 r s l 1 b * 65536
  | 27 => cvtToF fmtBF16 r s l 0 a + cvtToF fmtBF16 r s l 1 b * 65536
  | 28 => wrap 64 (sext 32 a)
  | _ => a % 2 ^ 32

/-- `qnt`: the exact quotient rounded once into the target (R170). -/
def fQnt (t : Ty) (r : Rnd) (s : Word) (l a b : Nat) : Nat :=
  let q := divX (decodeF fmtF32 a) (decodeF fmtF32 b)
  if t.isFloat then roundF (fmtOf t) r (rsOf s l 0) q else toIntT t r (rsOf s l 0) q

/-- `dqnt`: the exact product rounded once to FP32 (R171). -/
def fDqnt (t : Ty) (r : Rnd) (s : Word) (l a b : Nat) : Nat :=
  let x := if t.isFloat then dec t (a % 2 ^ t.bits) else extOfInt (valI t a)
  roundF fmtF32 r (rsOf s l 0) (mulX x (decodeF fmtF32 b))

/-! Block floating point (R111, R112, R172, R173, R175, R176). -/

def bfpM (t : Ty) : Nat := t.bits

/-- The block exponent of `bfpack` over the lanes of T; none for a NaN block. -/
def bfpExp (xs : List Ext) : Option Nat :=
  if xs.any (fun x => match x with | .fin _ _ _ _ => false | _ => true) then none
  else
    let tops := xs.filterMap (fun x => match x with | .fin _ m e _ => if m = 0 then none else some (e + log2 m) | _ => none)
    match tops with
    | [] => some 0
    | p :: ps => some (clampI 0 254 (ps.foldl maxI p + 127)).toNat

/-- One element on the grid of exponent `e`, saturated (R117). -/
def bfpElem (m e : Nat) (r : Rnd) (rs : Rs) (x : Ext) : Int :=
  match x with
  | .fin neg mm ee ab =>
    let n : Int := roundMag neg mm ee ab ((e : Int) - 125 - m) r rs
    clampI (-((2 ^ (m - 1) : Nat) : Int)) (((2 ^ (m - 1) : Nat) : Int) - 1) (if neg then -n else n)
  | _ => 0

def fBfpack (t : Ty) (r : Rnd) (s : Word) (tm : LaneMask) (a : Nat → Nat) (l : Nat) : Nat :=
  match bfpExp ((lanesOf tm).map (fun j => decodeF fmtF32 (a j))) with
  | none => 0xFF00
  | some e =>
    let x := decodeF fmtF32 (a l)
    let mj := bfpElem (bfpM t) e r (rsConv s l 0 x) x
    wrap 8 mj + e * 256

def bfpValue (m e : Nat) (mant : Int) : Ext :=
  if e = 255 then .nan else scaleX ((e : Int) - 125 - m) (extOfInt mant)

/-- The value of `bfunpack` (R173), exact in `.f32` but for -2^128, the least element under e = 0xFE: there the manual states no `.f32`
result, and it is a free value (DESIGN CHOICE, log 164). -/
def fBfunpack (t : Ty) (a e : Nat) : Nat :=
  if e = 254 && a % 2 ^ bfpM t == 2 ^ (bfpM t - 1) then (Sys2Proof.Config.bfunpackLow (bfpM t)).toNat
  else roundF fmtF32 .rne ⟨0, 0, none⟩ (bfpValue (bfpM t) e (sext (bfpM t) a))

/-- The 32·m-bit string of a block (R175). -/
def bfpString (t : Ty) (tm : LaneMask) (a : Nat → Nat) : Nat :=
  (lanesOf tm).foldl (fun acc j => acc + (a j % 2 ^ bfpM t) * 2 ^ (bfpM t * j)) 0

def fPack (t : Ty) (tm : LaneMask) (a b c : Nat → Nat) (l : Nat) : Nat :=
  match t with
  | .b16 => fld (a l) 0 16 + fld (b l) 0 16 * 65536
  | .b8 => fld (a l) 0 8 + fld (b l) 0 8 * 256 + fld (c l) 0 16 * 65536
  | _ => if l < bfpM t then fld (bfpString t tm a) (32 * l) 32 else 0

def fUnpack (t : Ty) (tm : LaneMask) (a b : Nat → Nat) (l : Nat) : Nat :=
  match t with
  | .s8 => wrap 32 (sext 8 (fld (a l) (8 * (b l % 4)) 8))
  | .n8 => fld (a l) (8 * (b l % 4)) 8
  | .s16 => wrap 32 (sext 16 (fld (a l) (16 * (b l % 2)) 16))
  | .n16 => fld (a l) (16 * (b l % 2)) 16
  | _ =>
    let m := bfpM t
    let str := (lanesOf tm).foldl (fun acc w => if w < m then acc + (a w % 2 ^ 32) * 2 ^ (32 * w) else acc) 0
    wrap 32 (sext m (fld str (m * l) m))

/-! Float reductions and scans (R121, R122, R154). -/

/-- Rounding mode and kind of a float reduction code (R154): `none` is min or max. -/
def lredMode (op : Nat) : Option Rnd :=
  match op with
  | 0 => some .rne | 1 => some .rtz | 2 => some .rdn | 3 => some .rup | 4 => some .rs | _ => none

/-- One combination, with `l` the lane that stochastic rounding uses. -/
def lredComb (t : Ty) (op : Nat) (s : Word) (l : Nat) (a b : Option Nat) : Option Nat :=
  match a, b with
  | none, y => y
  | x, none => x
  | some x, some y =>
    some (perElem t (fun j =>
      match lredMode op with
      | some r => elAdd t r (rsOf s l j) (elem t x j) (elem t y j)
      | none => if op = 5 then elMin t (elem t x j) (elem t y j) else elMax t (elem t x j) (elem t y j)))

/-- One level of the tree: node i from nodes 2i and 2i+1; `w` is the number of lanes a node of it covers. -/
def treeLevel (t : Ty) (op : Nat) (s : Word) (w : Nat) : Nat → List (Option Nat) → List (Option Nat)
  | i, x :: y :: rest => lredComb t op s (w * i) x y :: treeLevel t op s w (i + 1) rest
  | _, _ => []

/-- The levels t0 … t5 of the tree. -/
def treeLevels (t : Ty) (op : Nat) (s : Word) (leaves : List (Option Nat)) : List (List (Option Nat)) :=
  let t1 := treeLevel t op s 2 0 leaves
  let t2 := treeLevel t op s 4 0 t1
  let t3 := treeLevel t op s 8 0 t2
  let t4 := treeLevel t op s 16 0 t3
  let t5 := treeLevel t op s 32 0 t4
  [leaves, t1, t2, t3, t4, t5]

/-- The elements of the lanes of T: of a narrow type, the low bits of the register (R110). -/
def leavesOf (t : Ty) (tm : LaneMask) (a : Nat → Nat) : List (Option Nat) :=
  lanes32.map (fun i => if lane tm i then some (a i % 2 ^ t.bits) else none)

def fLredF (t : Ty) (op : Nat) (s : Word) (tm : LaneMask) (a : Nat → Nat) : Nat :=
  ((nth (nth (treeLevels t op s (leavesOf t tm a)) 5 []) 0 none)).getD 0

/-- The aligned blocks that tile [0, n): folded from the largest down (R122). -/
def scanFold (t : Ty) (op : Nat) (s : Word) (lv : List (List (Option Nat))) (j : Nat) : Nat → Nat → Option Nat → Option Nat
  | 0, _, acc => acc
  | k + 1, start, acc =>
    -- level k covers 2^k lanes
    if (j + 1 - start) / 2 ^ k = 0 then scanFold t op s lv j k start acc
    else scanFold t op s lv j k (start + 2 ^ k) (lredComb t op s j acc (nth (nth lv k []) (start / 2 ^ k) none))

def fLscanF (t : Ty) (op : Nat) (s : Word) (tm : LaneMask) (a : Nat → Nat) (j : Nat) : Nat :=
  (scanFold t op s (treeLevels t op s (leavesOf t tm a)) j 6 0 none).getD 0

/-- Integer reduction over T, and the prefix at or below lane `j`. -/
def fLredI (t : Ty) (op : Nat) (tm : LaneMask) (a : Nat → Nat) : Nat := redInt t op ((lanesOf tm).map a)
def fLscanI (t : Ty) (op : Nat) (tm : LaneMask) (a : Nat → Nat) (j : Nat) : Nat :=
  redInt t op (((lanesOf tm).filter (· ≤ j)).map a)

end Sys2Proof.Machine
end

