-- ==== Sys2Proof/Machine/Operands.lean ====
section
/-! DEFINITION. How a strand reads every operand form (R67, R69-R72, R127, R181, R254) and writes every register
form (R95, R97, R182). -/

namespace Sys2Proof.Machine

open Sys2Proof

/-- What an instruction of a strand sees when it issues: its unit, strand, path (by position), launch and the set T
of lanes that take part (R65). -/
structure Ctx where
  uid : Nat
  k : Nat
  w : WUnit
  st : Strand
  pi : Nat
  p : Path
  l : Launch
  tm : LaneMask
  clock : Nat
deriving DecidableEq, Repr

def Ctx.lanes (x : Ctx) : List Nat := lanesOf x.tm
def Ctx.low (x : Ctx) : Nat := lowest x.tm
def Ctx.who (x : Ctx) (s : State) : Who :=
  { core := x.w.core, world := nth (coreOf s x.w.core).wCur x.st.quarter 0, uid := x.uid, k := x.k, charge := !isPf x.l.fn }

/-! ## Vector registers (R93-R97) -/

def zeroWords : List Word := List.replicate 32 0

def vreg (t : Strand) (n : Nat) : VReg := Tbl.getD t.regs n ⟨0, zeroWords, 0⟩
def word (t : Strand) (n l : Nat) : Word := nth (vreg t n).words l 0

/-- The group of `w` registers from `n` in lane `l`, low word lowest (R70). -/
def group (t : Strand) (n l : Nat) : Nat → Nat
  | 0 => 0
  | w + 1 => (word t n l).toNat + 2 ^ 32 * group t (n + 1) l w

/-- Is the whole group mapped in lane `l`? -/
def mappedGroup (t : Strand) (n l : Nat) : Nat → Bool
  | 0 => true
  | w + 1 => lane (vreg t n).mask l && mappedGroup t (n + 1) l w

/-- Writes one register in the lanes of a mask (R95). -/
def writeReg (t : Strand) (n : Nat) (m : LaneMask) (f : Nat → Word) : Strand :=
  if m = 0 then t
  else
    let r := vreg t n
    let r' : VReg := ⟨r.mask ||| m, (List.range 32).map (fun l => if lane m l then f l else nth r.words l 0), r.bank⟩
    { t with regs := Tbl.put t.regs n r' }

/-- Writes a group of `w` registers with raw bits. -/
def writeGroup (t : Strand) (n : Nat) (m : LaneMask) (f : Nat → Nat) : Nat → Strand
  | 0 => t
  | w + 1 => writeGroup (writeReg t n m (fun l => BitVec.ofNat 32 (f l))) (n + 1) m (fun l => f l / 2 ^ 32) w

/-- Clears mask bits; a name whose mask becomes zero is unmapped (R97). -/
def freeReg (t : Strand) (n : Nat) (m : LaneMask) : Strand :=
  match Tbl.find? t.regs n with
  | none => t
  | some r =>
    let k := r.mask &&& ~~~m
    { t with regs := if k = 0 then Tbl.del t.regs n else Tbl.put t.regs n { r with mask := k } }

def freeGroup (t : Strand) (n : Nat) (m : LaneMask) : Nat → Strand
  | 0 => t
  | w + 1 => freeGroup (freeReg t n m) (n + 1) m w

/-! ## Affine registers (R5, R181, R182) -/

/-- Value of a descriptor in lane `l`: 64-bit wrapping. -/
def affLane (a : Aff) (l : Nat) : Nat := wrap 64 ((a.base.toNat : Int) + sext 32 a.stride.toNat * (l : Int))

/-- A descriptor re-based by `n` items (R48, R53). -/
def rebase (a : Aff) (n : Int) : Aff :=
  { a with base := BitVec.ofNat 64 (wrap 64 ((a.base.toNat : Int) + sext 32 a.stride.toNat * n)) }

def affReg (p : Path) (n : Nat) : Aff := nth p.aff n {}

/-- An affine register with a part replaced (R182). -/
def affWrite (a : Aff) (part : APart) (r : Aff) : Aff :=
  match part with
  | .pair => r
  | .base => { a with base := r.base }
  | .stride => { a with stride := BitVec.ofNat 32 r.base.toNat }

/-! ## Special registers (R31, R68, R69) -/

def itemOf (t : Strand) (l : Nat) : Nat := nth t.items l 0

/-- Value of a special register in lane `l`, as a natural. -/
def special (x : Ctx) (r : SReg) (l : Nat) : Nat :=
  let loc := localCoords x.l.lpb (32 * x.k + l)
  let u := unitCoords x.l.lpb x.w.u
  match r with
  | .lane => l
  | .strand => x.k
  | .item => itemOf x.st l
  | .unit => x.w.u
  | .ux => u.1
  | .uy => u.2.1
  | .uz => u.2.2
  | .ix => loc.1
  | .iy => loc.2.1
  | .iz => loc.2.2
  | .quarter => x.st.quarter
  | .core => x.w.core
  | .cluster => x.w.core / 2
  | .die => dieOfCore x.w.core
  | .clock => x.clock % 2 ^ 64
  | .seed => x.st.seed.toNat

/-! ## Inline constants (R72) -/

def inlinePatterns : List Nat :=
  [0x00000000, 0x3F800000, 0x40000000, 0x40400000, 0x40800000, 0x40A00000, 0x40C00000, 0x40E00000,
   0x41000000, 0x41100000, 0x41200000, 0x41300000, 0x41400000, 0x41500000, 0x41600000, 0x41700000] ++
  [0xBF800000, 0xC0000000, 0xC0400000, 0xC0800000, 0xC0A00000, 0xC0C00000, 0xC0E00000, 0xC1000000,
   0xC1100000, 0xC1200000, 0xC1300000, 0xC1400000, 0xC1500000, 0xC1600000, 0xC1700000, 0xC1800000] ++
  [0x3B800000, 0x3C000000, 0x3C800000, 0x3D000000, 0x3D800000, 0x3E000000, 0x3E800000, 0x3F000000,
   0x3F800000, 0x40000000, 0x40800000, 0x41000000, 0x41800000, 0x42000000, 0x42800000, 0x43000000] ++
  [0x3EAAAAAB, 0x3E4CCCCD, 0x3E2AAAAB, 0x3E124925, 0x3DE38E39, 0x3DCCCCCD, 0x3DAAAAAB, 0x3C010204,
   0x3B808081, 0x3B124925, 0x37924925, 0x3F317218, 0x3FB8AA3B, 0x40490FDB, 0x3EA2F983, 0x402DF854]

/-- An entry read as an integer operand of 32·w bits: 0–31 sign-extended, 32–63 zero-extended. -/
def inlineInt (e w : Nat) : Nat :=
  if e ≤ 15 then e
  else if e ≤ 31 then wrap (32 * w) (15 - (e : Int))
  else nth inlinePatterns e 0

/-- An entry read by a float type: rounded once to a narrower type, in both halves of a packed one. -/
def inlineFlt (t : Ty) (e : Nat) : Nat :=
  let p := nth inlinePatterns e 0
  if t = .f32 then p
  else
    let v := roundF (fmtOf t) .rne ⟨0, 0, none⟩ (decodeF fmtF32 p)
    if t.isPacked then v + v * 65536 else v

/-! ## Sources (R127, R181, R254) -/

/-- Raw bits of a data source in lane `l`. -/
def readSrc (x : Ctx) (r : Rd) (o : Opnd) (l : Nat) : Nat :=
  let w := r.words
  let low (v : Nat) : Nat := v % 2 ^ (32 * w)
  match o with
  | .vec n => group x.st n.val l w
  | .aff n .pair => low (affLane (affReg x.p n.val) l)
  | .aff n .base => low (affReg x.p n.val).base.toNat
  | .aff n .stride => low (wrap 64 (sext 32 (affReg x.p n.val).stride.toNat))
  | .inline e =>
    match r with
    | .int w _ => inlineInt e.val w
    | .flt t => inlineFlt t e.val
  | .special s => low (special x s l)
  | .lit v =>
    match r with
    | .int w true => wrap (32 * w) (sext 32 v.toNat)
    | _ => v.toNat
  | _ => 0

/-- A predicate source in lane `l`: null is false, p7 true (R127, R67). -/
def readPred (x : Ctx) (o : Opnd) (l : Nat) : Bool :=
  match o with
  | .pred n => if n.val = 7 then true else lane (nth x.st.preds n.val 0) l
  | _ => false

/-- The item that lane 0 of a path would hold if its items went on below its lowest lane (R53, R181). -/
def firstItem (t : Strand) (p : Path) : DWord := BitVec.ofNat 64 (wrap 64 ((itemOf t (lowest p.lanes) : Int) - lowest p.lanes))

/-- An affine source as a pair (R181). -/
def readPair (x : Ctx) (o : Opnd) : Aff :=
  match o with
  | .aff n .pair => affReg x.p n.val
  | .aff n .base => ⟨(affReg x.p n.val).base, 0⟩
  | .aff n .stride => ⟨BitVec.ofNat 64 (wrap 64 (sext 32 (affReg x.p n.val).stride.toNat)), 0⟩
  | .inline e => ⟨BitVec.ofNat 64 (inlineInt e.val 2), 0⟩
  | .lit v => ⟨BitVec.ofNat 64 (wrap 64 (sext 32 v.toNat)), 0⟩
  | .special .lane => ⟨0, 1⟩
  | .special .item => if x.st.refilled then ⟨BitVec.ofNat 64 (itemOf x.st x.low), 0⟩ else ⟨firstItem x.st x.p, 1⟩
  | .special r => ⟨BitVec.ofNat 64 (special x r x.low), 0⟩
  | _ => {}

/-- The address of a memory operand in lane `l` (R254). -/
def readAddr (x : Ctx) (a b c : Opnd) (l : Nat) : Nat :=
  let base := readSrc x (.int 2 false) a l
  let sh := match c with | .inline e => e.val | _ => 0
  match b with
  | .lit v => wrap 64 ((base : Int) + sext 32 v.toNat)
  | .vec n => wrap 64 ((base : Int) + sext 32 (word x.st n.val l).toNat * ((2 ^ sh : Nat) : Int))
  | _ => base

/-- A predicate mask with the lanes of `m` replaced; p7 discards (R67). -/
def writePred (t : Strand) (n : Nat) (m : LaneMask) (f : Nat → Bool) : Strand :=
  if n = 7 then t
  else { t with preds := setNth t.preds n ((nth t.preds n 0 &&& ~~~m) ||| (m &&& maskOf f)) }

end Sys2Proof.Machine
end

