-- ==== Sys2Proof/Machine/Ops.lean ====
section
/-! DEFINITION. The named operations of a strand: paths (R39, R40, R178), lookahead windows and the scoreboard
(R78, R79), register holdings (R98-R101), page requests (R365, R366), taking a fault and parking with a token
(R418-R422), and THE GATE every Ramson instruction passes (R65, R81, R83, R95, R96). -/

namespace Sys2Proof.Machine

open Sys2Proof

/-! ## Paths (R39, R40, R177, R178) -/

def pathLow (p : Path) : Nat := lowest p.lanes

/-- Entries in the order of their lowest lane (R177). -/
def insertPath (p : Path) : List Path → List Path
  | [] => [p]
  | q :: r => if pathLow p < pathLow q then p :: q :: r else q :: insertPath p r

def sortPaths (ps : List Path) : List Path := ps.foldr insertPath []

def ready (p : Path) : Bool := p.st == .run

/-- The first ready path after `low`, wrapping round; under NOPROG the lowest ready path (R39, R40). -/
def nextPath (ps : List Path) (low : Nat) (noprog : Bool) : Option Path :=
  let r := (ps.filter ready)
  if noprog then r.head?
  else
    match r.find? (fun p => decide (low < pathLow p)) with
    | some p => some p
    | none => r.head?

/-- Changes the current path to the next ready one after `low`; the fairness timer resets (R39). -/
def rotate (t : Strand) (low : Nat) (noprog : Bool) : Strand :=
  match nextPath t.paths low noprog with
  | some p => { t with cur := pathLow p, timer := 0 }
  | none => t

/-- The current path by position, when it is ready. -/
def curPath (t : Strand) : Option (Nat × Path) :=
  match (t.paths.zipIdx).find? (fun e => pathLow e.1 == t.cur && ready e.1) with
  | some (p, i) => some (i, p)
  | none => none

def setPath (t : Strand) (i : Nat) (f : Path → Path) : Strand :=
  match t.paths[i]? with
  | some p => { t with paths := setNth t.paths i (f p) }
  | none => t

/-- Every entry that holds a lane of `m`. -/
def mapPaths (t : Strand) (m : LaneMask) (f : Path → Path) : Strand :=
  { t with paths := t.paths.map (fun p => if p.lanes &&& m = 0 then p else f p) }

/-- Splits path `i` by the PC each of its lanes goes to (R178): one entry per distinct PC, in the order of `pcs`. -/
def splitPath (t : Strand) (i : Nat) (pcs : List (DWord × LaneMask)) : Strand :=
  match t.paths[i]? with
  | none => t
  | some p =>
    let new := (pcs.filter (fun e => e.2 != 0)).map (fun e => { p with pc := e.1, lanes := e.2 })
    { t with paths := sortPaths (t.paths.eraseIdx i ++ new) }

/-- Lanes of T at one PC, the rest of the path at PC + 12 (R189); one entry when both are the same PC. -/
def sendLanes (t : Strand) (i : Nat) (p : Path) (tm : LaneMask) (target : DWord) : Strand :=
  let seq := p.pc + 12
  if target = seq then setPath t i (fun p => { p with pc := seq })
  else splitPath t i [(target, p.lanes &&& tm), (seq, p.lanes &&& ~~~tm)]

/-! ## Outstanding results and windows (R78, R79, R182) -/

/-- How many instructions the window of a pending result still covers in lane `l`. -/
def winOf (d : Pend) (l : Nat) : Nat := nth d.win l 0

/-- Does a pending result cover register `n` in lane `l`? -/
def coversVec (d : Pend) (n l : Nat) : Bool :=
  lane d.lanes l && !lane d.done l &&
    d.outs.any (fun o => match o with | .vec m ws => decide (m ≤ n) && decide (n < m + ws.length) | _ => false)

/-- Does it cover affine register `n` of a path with the given lanes? -/
def coversAff (d : Pend) (n : Nat) (m : LaneMask) : Bool :=
  d.outs.any (fun o => match o with | .aff k _ _ ls => k == n && (ls &&& m) != 0 | _ => false)

/-- The longest window left in the lanes of a mask. -/
def winMax (d : Pend) (m : LaneMask) : Nat := (lanesOf (d.lanes &&& m)).foldl (fun a l => max a (winOf d l)) 0

def words32 (n : Nat) (v : Nat → Nat) : List Word := (List.range n).map (fun i => BitVec.ofNat 32 (v i))

/-- Raw results `v` of lanes as an `Out` of `w` registers. -/
def outVec (n w : Nat) (m : LaneMask) (v : Nat → Nat) : Out :=
  let vals := (List.range 32).map (fun l => if lane m l then v l else 0)
  .vec n ((List.range w).map (fun i => vals.map (fun x => BitVec.ofNat 32 (x / 2 ^ (32 * i)))))

/-- Writes the lanes `m` of a result into the registers. -/
def commitOut (t : Strand) (m : LaneMask) : Out → Strand
  | .vec n ws => (ws.zipIdx).foldl (fun t e => writeReg t (n + e.2) m (fun l => nth e.1 l 0)) t
  | .aff _ _ _ _ => t

/-- The affine write of a result, in every path entry that holds a lane of `m` for which it is still owed (R182). -/
def commitAff (m : LaneMask) (t : Strand) : Out → Strand
  | .vec _ _ => t
  | .aff n part v ls =>
    mapPaths t (ls &&& m) (fun p => { p with aff := setNth p.aff n (affWrite (affReg p n) part ⟨v, 0⟩) })

/-- What a result still owes once the lanes of `m` have it. -/
def owedOut (m : LaneMask) : Out → Out
  | .vec n ws => .vec n ws
  | .aff n part v ls => .aff n part v (ls &&& ~~~m)

/-- One pending result: lanes that are ready and past their window become visible; none when it is finished. -/
def settlePend (t : Strand) (d : Pend) : Strand × Option Pend :=
  let m := maskOf (fun l => lane d.lanes l && lane d.ready l && !lane d.done l && winOf d l == 0)
  let t := d.outs.foldl (fun t o => commitOut t m o) t
  let t := d.outs.foldl (commitAff m) t
  let d := { d with done := d.done ||| m, outs := d.outs.map (owedOut m) }
  if d.lanes &&& ~~~d.done = 0 then (t, none) else (t, some d)

/-- Makes every result visible whose time has come. -/
def settle (t : Strand) : Strand :=
  let r := t.pends.foldl (fun (acc : Strand × List Pend) d =>
    let q := settlePend acc.1 d
    (q.1, match q.2 with | some d => acc.2 ++ [d] | none => acc.2)) ({ t with pends := [] }, [])
  { r.1 with pends := r.2 }

/-- One more instruction has issued from the path with these lanes: every window shortens by one (R78). -/
def countWindows (t : Strand) (m : LaneMask) : Strand :=
  { t with pends := t.pends.map (fun d =>
      { d with win := (d.win.zipIdx).map (fun e => if lane m e.2 then e.1 - 1 else e.1) }) }

/-- Windows close early for the lanes of a mask (R78). -/
def closeWindows (t : Strand) (m : LaneMask) : Strand :=
  { t with pends := t.pends.map (fun d =>
      { d with win := (d.win.zipIdx).map (fun e => if lane m e.2 then 0 else e.1) }) }

/-- A window of `la` instructions in the lanes of a mask. -/
def winList (m : LaneMask) (la : Nat) : List Nat := (List.range 32).map (fun l => if lane m l then la else 0)

/-! ## Holdings (R94, R98-R101) -/

/-- Outstanding destinations of a strand that name no mapped register yet. -/
def pendNames (t : Strand) : List Nat :=
  let ns := t.pends.flatMap (fun d => d.outs.flatMap (fun o =>
    match o with | .vec n ws => (List.range ws.length).map (· + n) | _ => []))
  (ns.filter (fun n => !Tbl.has t.regs n)).eraseDups

/-- M: mapped names and names whose first value is outstanding (R98, log 13). -/
def held (t : Strand) : Nat := t.regs.length + (pendNames t).length
def holding (t : Strand) : Nat := max t.g (held t)
/-- Registers that a restore has taken for stalled allocations of the paths with these lanes (R102). -/
def grantOf (t : Strand) (m : LaneMask) : Nat :=
  ((t.stalls.filter (fun a => a.lanes &&& m != 0)).map (·.granted)).foldl (· + ·) 0
/-- What it has taken from the pool: with the registers of stalled allocations that its restore completed (R102). -/
def taken (t : Strand) : Nat := holding t + grantOf t allLanes
/-- Registers mapped in departing banks (R104). -/
def inDeparting (t : Strand) : Nat := (t.regs.filter (fun e => e.2.bank != 0)).length

/-- Physical registers of a quarter with its lent banks (R99, R104). -/
def regTotal (s : State) (c q : Nat) : Nat := 8192 + 384 * nth (coreOf s c).xq q 0
/-- Those of banks that are not departing (R104, R229). -/
def regOpen (s : State) (c q : Nat) : Nat := 8192 + 384 * min (nth (coreOf s c).xq q 0) (coreOf s c).xt

/-- Strands resident in a quarter. -/
def quarterStrands (s : State) (c q : Nat) : List (Nat × Nat × Strand) :=
  (s.units.filter (fun e => e.2.core == c)).flatMap (fun e =>
    (e.2.strands.filter (fun t => t.2.quarter == q)).map (fun t => (e.1, t.1, t.2)))

/-- Registers that units saved by a gang switch, which has not ended, held in a quarter (R431; DEDUCED, log 167). -/
def gangKept (s : State) (c q : Nat) : Nat :=
  (s.halts.flatMap (fun h => if h.gang then h.saved else [])).foldl (fun n u => match Tbl.find? s.images u with
    | some im => if im.core = c then (im.unit.strands.filter (fun t => t.2.quarter == q)).foldl (fun n t => n + taken t.2) n else n
    | none => n) 0

/-- Registers in the quarter's pool (R98): those of the banks that stay, less what is taken of them (R104) or kept for a gang. -/
def poolFree (s : State) (c q : Nat) : Nat :=
  regOpen s c q - ((quarterStrands s c q).map (fun e => taken e.2.2 - inDeparting e.2.2)).foldl (· + ·) 0 - gangKept s c q

/-- Registers a strand must take from the pool to hold `n` more names (R98). -/
def poolNeed (t : Strand) (n : Nat) : Nat := max t.g (held t + n) - holding t

/-- The allocations of the paths with these lanes have been made, with what a restore has taken for them (R101, R102). -/
def unstall (t : Strand) (m : LaneMask) : Strand := { t with stalls := t.stalls.filter (fun a => a.lanes &&& m == 0) }

/-- The allocation of the path with these lanes no longer waits on the pool; what a restore has taken for it stays its own until
the instruction issues (R102). -/
def passStall (t : Strand) (m : LaneMask) : Strand :=
  { t with stalls := t.stalls.filter (fun a => a.lanes &&& m == 0 || a.granted != 0) }

/-- The issuing path's allocation has been made: it stalls no longer (R98, R102). -/
def passed (x : Ctx) : Ctx := { x with st := passStall x.st x.p.lanes }

/-! ## Page requests (R365, R366) -/

/-- The oldest request that a miss merges with. -/
def sameReq (r : PageReq) (vf die : Nat) (stage2 : Bool) (page : Nat) : Bool :=
  r.vf == vf && r.die == die && r.stage2 == stage2 && r.page == page

/-- A tag that is not outstanding for the VF: the first from `n` on. 0xFFFF is never issued (R366). -/
def freeTag (rs : List PageReq) (vf : Nat) : Nat → Nat → Nat
  | 0, n => n
  | fuel + 1, n => if rs.any (fun r => r.vf == vf && r.tag == n) then freeTag rs vf fuel ((n + 1) % 65535) else n

/-- Requests that wait to be popped from a function's queue (R365). -/
def prqOf (s : State) (fn : Nat) : List PageReq :=
  s.reqs.filter (fun r => !r.popped && (if fn < 128 then r.vf == fn && !r.stage2 else r.stage2))

/-- Posts, or merges, the request of a miss: its tag, or none while the merge table or the queue is full. -/
def postReq (s : State) (vf die : Nat) (need : Rights) (stage2 : Bool) (cause : Nat) (table : Bool) (page : Nat) :
    Option (Nat × State) :=
  match s.reqs.find? (fun r => sameReq r vf die stage2 page) with
  | some r =>
    some (r.tag, { s with reqs := s.reqs.map (fun q =>
      if q.tag == r.tag && q.vf == vf then { q with access := q.access ||| need.code } else q) })
  | none =>
    if 128 ≤ (s.reqs.filter (fun r => r.die == die)).length then none
    else if 256 ≤ (s.reqs.filter (fun r => r.vf == vf)).length then none
    else
      let v := freeVal s
      let s := v.2
      let tag := freeTag s.reqs vf 256 (v.1 % 65535)
      let q := if stage2 then 128 else vf
      let first := (prqOf s q).isEmpty
      let s := { s with reqs := s.reqs ++ [{ tag := tag, vf := vf, die := die, stage2 := stage2, cause := cause,
                                             access := need.code, table := table, page := page
                                             part := (fnOf s vf).part }] }
      some (tag, if first then raiseMsix s q 1 else s)

/-- The tag of lanes whose request has found no room: they try again (R365). -/
def roomTag : Nat := 2 ^ 20

/-- Posts the requests of several lanes, in order: lane, tag and queue. A miss that meets a full table or queue waits; the others
are posted (R365). -/
def postReqs (s : State) (vf die : Nat) (need : Rights) : List (Nat × XErr) → Tbl (Nat × Bool) × State
  | [] => ([], s)
  | (l, .miss st c tb pg) :: rest =>
    let p := match postReq s vf die need st c tb pg with
      | some (tag, s) => ((tag, st), s)
      | none => ((roomTag, false), s)
    let r := postReqs p.2 vf die need rest
    (Tbl.put r.1 l p.1, r.2)
  | _ :: rest => postReqs s vf die need rest

/-! ## What a meaning answers -/

/-- The current path after an instruction (R39, R178, R190). -/
inductive Cur where
  /-- the entry that holds the path's lowest lane -/
  | keep
  /-- the entry that holds the given lane; the timer resets -/
  | toLane (lane : Nat)
  /-- the next ready path after the old one -/
  | next
deriving DecidableEq, Repr

/-- An instruction that issues: the state and the strand after it, whether it moved the PC itself, what stays
outstanding, and what happens after the strand is back in place. -/
structure Go where
  s : State
  t : Strand
  moved : Bool := false
  pend : Option Pend := none
  cur : Cur := .keep
  close : Bool := false
  after : State → State := id

inductive Res where
  /-- a resource hold: no effect; the path waits (R39) -/
  | hold
  /-- as `hold`, with changes that stand -/
  | holdWith (s : State) (t : Strand)
  /-- lanes wait on page requests before anything is performed; the instruction issues again (R258) -/
  | park (s : State) (tags : Tbl (Nat × Bool))
  /-- lanes wait on page requests, with changes that stand (R311, R319) -/
  | parkWith (s : State) (t : Strand)
  | fault (f : FaultInfo)
  | go (g : Go)

/-! ## Taking a fault in a strand (R83, R419, R420) -/

/-- The record of a fault of a strand. -/
def strandRecord (s : State) (x : Ctx) (f : FaultInfo) : Event :=
  { faultRecord s x.w.lid f.code f.reason with
    flags := (if f.precise then 1 else 0) + (if f.addrs.isEmpty then 0 else 2)
    pc := x.p.pc.toNat, unit := x.w.u, strand := x.k, quarter := x.st.quarter
    faulted := f.lanes, done := f.done, addrs := f.addrs, aux := f.aux, aux2 := f.aux2 }

/-- The path of the context waits. -/
def holdPath (s : State) (x : Ctx) (t : Strand) (st : PathSt) : State :=
  let t := setPath t x.pi (fun p => { p with st := st })
  setStrand s x.uid x.k (fun _ => rotate t (pathLow x.p) x.l.lpb.noprog)

/-- Drains of a strand that have not been applied. -/
def drainsOf (s : State) (core uid k : Nat) : List Drain :=
  ((coreOf s core).quarters.flatMap (·.drains)).filter (fun d => d.uid == uid && d.k == k)

/-- Has the strand an `mma` in a queue, or running (R210)? -/
def mmasOpen (s : State) (core uid k : Nat) : Bool :=
  (coreOf s core).quarters.any (fun q =>
    q.ctxs.any (fun c => c.queue.any (fun m => m.uid == uid && m.k == k)) ||
      (match q.running with | some r => r.m.uid == uid && r.m.k == k | none => false))

/-- Is an earlier instruction of the strand not complete: a result outstanding, a drain, an `mma`? A `bwait` that holds another
path is passed over, and so are a path parked at a `kwait` and an `mma` that not every lane has signed (DESIGN CHOICE, log 136); an
instruction that is to issue again has not issued. -/
def earlierWork (s : State) (core uid k : Nat) (t : Strand) : Bool :=
  t.pends.any (fun d => (isBwait d.instr).isNone && !(d.reissue && d.parked.isEmpty) && d.lanes &&& ~~~d.ready != 0) ||
    !(drainsOf s core uid k).isEmpty || mmasOpen s core uid k

/-- Codes of faults raised precisely (R83, R200, R207, R319, R418). -/
def preciseCode (code : Nat) : Bool :=
  code ∈ [fIllegal, fUnmapped, fWindow, fBudget, fIcall, fAlign, fProt, fScratch, fPriv, fBreak, fTd]

/-- Taking a fault. A precise one waits until every earlier instruction of the strand has completed (R83). Then windows of the
strand close, the path is parked, the record is posted and the policy acts. While the event queue is full the strand stays where
it stands (R420). -/
def takeFault (s : State) (x : Ctx) (f : FaultInfo) : State :=
  if preciseCode f.code && earlierWork s x.w.core x.uid x.k x.st then holdPath s x x.st .hold
  else if recordRoom s x.w.lid then
    let st := { x.st with pends := x.st.pends.filter (fun d => !(d.reissue && d.pc == x.p.pc && d.lanes &&& x.p.lanes != 0)) }
    let t := unstall (settle (closeWindows st allLanes)) x.p.lanes
    let t := mapPaths t x.p.lanes (fun p => { p with st := .fault })
    raiseFault (setStrand s x.uid x.k (fun _ => t)) x.w.lid (strandRecord s x f)
  else setStrand s x.uid x.k (fun t => setPath t x.pi (fun p => { p with st := .hold }))

/-- Tokens outstanding (R422). -/
def tokensOut (s : State) : List Nat :=
  s.units.flatMap (fun w => w.2.strands.filterMap (fun t => t.2.token.map (·.num))) ++
    s.images.flatMap (fun i => i.2.unit.strands.filterMap (fun t => t.2.token.map (·.num)))

/-- A nonzero token that is not outstanding: the first from `n` on. -/
def freeToken (ts : List Nat) : Nat → Nat → Nat
  | 0, n => n
  | fuel + 1, n => if ts.contains n then freeToken ts fuel (n % (2 ^ 32 - 1) + 1) else n

/-- Parking with a token: a trap, a break or a step (R422). The strand `t` stands where it will resume. -/
def takeToken (s : State) (x : Ctx) (t : Strand) (kind : TokenKind) (code reason : Nat) (m : LaneMask) (pc : DWord)
    (aux : List Byte) : State :=
  let v := freeVal s
  let s := v.2
  let tok := freeToken (tokensOut s) 65536 (v.1 % (2 ^ 32 - 1) + 1)
  let t := { t with token := some ⟨tok, kind, m, pc⟩ }
  let e := { strandRecord s x { code := code, reason := reason, lanes := m, aux := aux } with token := tok, pc := pc.toNat }
  postRecord (setStrand s x.uid x.k (fun _ => t)) x.w.lid e

/-- The return from a park (R422): the parked lanes may issue again. -/
def resumeToken (t : Strand) (m : LaneMask) : Strand :=
  mapPaths { t with token := none } m (fun p => if p.st = .fault then { p with st := .run } else p)

/-! ## The gate -/

/-- Words of the vector operand of a position, 0 when it is none. -/
def vecWidth (n : Need) : Opnd → Nat
  | .vec _ => n.vec
  | _ => 0

/-- The four positions with what they accept. -/
def positions (sh : Shape) (o : Ops) : List (Need × Opnd) := [(sh.d, o.d), (sh.a, o.a), (sh.b, o.b), (sh.c, o.c)]

/-- The vector registers of a list of positions, as (first, words). -/
def vecNames (ps : List (Need × Opnd)) : List (Nat × Nat) :=
  ps.filterMap (fun e => match e.2 with | .vec n => some (n.val, e.1.vec) | _ => none)

def affNames (ps : List (Need × Opnd)) : List Nat :=
  ps.filterMap (fun e => match e.2 with | .aff n _ => some n.val | _ => none)

def regsOf (g : List (Nat × Nat)) : List Nat := g.flatMap (fun e => (List.range e.2).map (· + e.1))

def readsOf (sh : Shape) (o : Ops) : List (Need × Opnd) := (positions sh o).filter (fun e => !e.1.wr)
def writesOf (sh : Shape) (o : Ops) : List (Need × Opnd) := (positions sh o).filter (fun e => e.1.wr)

/-- The groups that last-read bits free (R75). -/
def lastReads (c : Ctl) (sh : Shape) (o : Ops) : List (Nat × Nat) :=
  vecNames ((if c.lra then [(sh.a, o.a)] else []) ++ (if c.lrb then [(sh.b, o.b)] else []) ++
            (if c.lrc then [(sh.c, o.c)] else []))

/-- A register named at or above the path's limit (R70). -/
def overBudget (sh : Shape) (o : Ops) (limit : Nat) : Bool :=
  (vecNames (positions sh o)).any (fun e => decide (limit < e.1 + e.2))

/-- The set T of an issuing path (R65). -/
def takesPart (t : Strand) (p : Path) (c : Ctl) : LaneMask :=
  let g : LaneMask := if c.gpred.val = 7 then allLanes else nth t.preds c.gpred.val 0
  p.lanes &&& (if c.gneg then ~~~g else g)

/-- The lanes whose registers an instruction reads: all of T, or its lowest lane. -/
def readLanes (sh : Shape) (tm : LaneMask) : List Nat := if sh.once then (lanesOf tm).take 1 else lanesOf tm

/-- The affine registers that MOD names: coordinates of copies and of matrix instructions (R205, R316). -/
def modAff : Instr → List Nat
  | .cpin _ n _ _ _ | .cpout _ n _ _ _ | .cpmc _ n _ _ | .mma _ _ n _ | .mld _ n _ | .mdrain _ _ n _ => [n.val]
  | _ => []

/-- A `kwait` compares the affine registers of the lanes that it releases (R179, R195). -/
def comparesAff : Instr → Bool
  | .kwait _ _ => true
  | _ => false

/-- Has a result for an affine register of a path with the given lanes not returned? -/
def affOpen (d : Pend) (m : LaneMask) : Bool :=
  d.lanes &&& m &&& ~~~d.ready != 0 && d.outs.any (fun o => match o with | .aff _ _ _ ls => (ls &&& m) != 0 | _ => false)

/-- Must the instruction wait on the scoreboard (R79)? What a last read frees in the lanes of T counts as read there; a `kwait`
waits for the affine results of its path, so that no merge meets one (R182; DEDUCED, log 137). -/
def scoreboard (x : Ctx) (i : Instr) (sh : Shape) (o : Ops) : Bool :=
  let rd := regsOf (vecNames (readsOf sh o))
  let wr := regsOf (vecNames (writesOf sh o))
  let fr := match fieldsOf i with | some (c, _) => regsOf (lastReads c sh o) | none => []
  let ar := affNames (positions sh o) ++ modAff i
  x.st.pends.any (fun d =>
    rd.any (fun n => (readLanes sh x.tm).any (fun l => coversVec d n l && winOf d l == 0)) ||
    (wr ++ fr).any (fun n => x.lanes.any (fun l => coversVec d n l && winOf d l == 0)) ||
    ar.any (fun n => coversAff d n x.p.lanes && winMax d x.p.lanes == 0) ||
    (comparesAff i && affOpen d x.p.lanes))

/-- Does the instruction write, or last-read, a covered destination inside a window (R79)? -/
def inWindow (x : Ctx) (c : Ctl) (sh : Shape) (o : Ops) : Bool :=
  let wr := regsOf (vecNames (writesOf sh o) ++ lastReads c sh o)
  let aw := affNames (writesOf sh o)
  x.st.pends.any (fun d =>
    wr.any (fun n => x.lanes.any (fun l => coversVec d n l && decide (0 < winOf d l))) ||
    aw.any (fun n => coversAff d n x.p.lanes && decide (0 < winMax d x.p.lanes)))

/-- The lanes that would read an unmapped name (R96). -/
def unmappedLanes (x : Ctx) (sh : Shape) (o : Ops) : LaneMask :=
  let g := vecNames (readsOf sh o)
  maskOf (fun l => (readLanes sh x.tm).contains l && g.any (fun e => !mappedGroup x.st e.1 l e.2))

/-- Names the instruction would map for the first time (R95). -/
def newNames (x : Ctx) (sh : Shape) (o : Ops) : Nat :=
  ((regsOf (vecNames (writesOf sh o))).filter (fun n => !Tbl.has x.st.regs n && !(pendNames x.st).contains n)).length

/-- Statistics of a launch on a core in the current quantum (R338). -/
def countStat (s : State) (core lid : Nat) (f : Stat → Stat) : State :=
  setCluster s (core / 2) (fun c =>
    if c.stats.any (fun x => x.lid == lid && x.core == core) then
      { c with stats := c.stats.map (fun x => if x.lid == lid && x.core == core then f x else x) }
    else { c with stats := c.stats ++ [f ⟨lid, core, 0, 0, 0⟩] })

/-- Time that one strand instruction occupies its datapath, in half ns of nominal time: one lane cycle a pass, at the
cluster's lane clock (R18, R415, log 35). -/
def issueTime (s : State) (core : Nat) : Nat :=
  let c := clusterOf s (core / 2)
  2 ^ c.pass * 2 ^ (2 - c.laneCur)

/-- The sectors that an instruction brought into the L2s are its launch's misses (R338, log 35). -/
def countMisses (s0 s : State) (core lid : Nat) : State :=
  let n := s.l2.length - s0.l2.length
  if n = 0 then s else countStat s core lid (fun q => { q with misses := q.misses + n })

/-- A unit that issues has begun (R37, R38). -/
def beginUnit (s : State) (uid : Nat) : State :=
  setUnit s uid (fun w => { w with begun := true, issued := true, watch := 0, heldSince := none, blockSent := false
                                   beganAt := if w.begun then w.beganAt else s.time, used := w.used + issueTime s w.core })

/-- A strand has issued in a quarter, given as 4·core + quarter (R199). -/
def noteIssuer (s : State) (q uid k : Nat) : State := { s with lastIssue := Tbl.put s.lastIssue q (uid, k) }

/-- The unit has issued (R37, R38, R403): begun, counted, its launch running, its energy charged; its strand is the one that
issued last in its quarter (R199). -/
def markIssue (s : State) (x : Ctx) (i : Instr) : State :=
  let s := noteIssuer (beginUnit s x.uid) (4 * x.w.core + x.st.quarter) x.uid x.k
  let s := markRunning s x.w.lid
  let s := countStat s x.w.core x.w.lid (fun q => { q with instrs := q.instrs + 1, used := q.used + issueTime s x.w.core })
  if isPf x.l.fn then s else chargeEnergy s x.l.part ((opcode i).getD 0)

/-- The lowest entry that holds a lane of `m`. -/
def entryOf (t : Strand) (m : LaneMask) : Option Path := t.paths.find? (fun p => p.lanes &&& m != 0)

/-- The current path that an instruction leaves, before the turn passes on (R39, R178, R190). -/
def pickCur (t : Strand) (old : Path) (cur : Cur) (noprog : Bool) : Strand :=
  let others := t.paths.any (fun p => ready p && (p.lanes &&& old.lanes) == 0)
  match cur with
  | .toLane l =>
    match entryOf t (maskOf (· == l)) with
    | some p => { t with cur := pathLow p, timer := 0 }
    | none => t
  | .keep =>
    match entryOf t old.lanes with
    | some p => { t with cur := pathLow p, timer := if others then t.timer + 1 else t.timer }
    | none => t
  | .next => rotate t (pathLow old) noprog

/-- The current path after an issue (R39, R40). -/
def chooseCur (t : Strand) (old : Path) (cur : Cur) (yieldBit noprog : Bool) : Strand :=
  let t := pickCur t old cur noprog
  if (curPath t).isNone then rotate t (pathLow old) noprog
  else if yieldBit && !noprog && cur != .next && t.paths.any (fun p => ready p && pathLow p != t.cur) then
    rotate t t.cur noprog
  else t

/-- Is the strand's VF in single-step mode (R422)? -/
def stepping (s : State) (l : Launch) : Bool := !isPf l.fn && (fnOf s l.fn).debugWord.getLsbD 1

/-- A strand after an instruction has issued: last reads, windows, visible results, PC, current path. -/
def finish (x : Ctx) (c : Ctl) (sh : Shape) (o : Ops) (g : Go) : Strand :=
  let written := regsOf (vecNames (writesOf sh o))
  let frees := (regsOf (lastReads c sh o)).filter (fun n => !written.contains n)
  let t := frees.foldl (fun t n => freeReg t n x.tm) g.t
  let t := countWindows t x.p.lanes
  let t := if g.close then closeWindows t x.p.lanes else t
  let t := match g.pend with | some d => { t with pends := t.pends ++ [d] } | none => t
  let t := settle t
  let t := unstall t x.p.lanes
  let t := if g.moved then t else setPath t x.pi (fun p => { p with pc := x.p.pc + 12 })
  chooseCur t x.p g.cur c.yield x.l.lpb.noprog

/-- Has an issued instruction of some lanes completed for a single step (R422; DEDUCED, log 172)? Nothing of it is outstanding, and its
lanes wait at no barrier and for no convergence. -/
def stepDone (t : Strand) (e : DWord × LaneMask) : Bool :=
  t.pends.all (fun d => d.pc != e.1 || d.lanes &&& e.2 == 0 || (!d.reissue && d.parked.isEmpty && d.lanes &&& ~~~d.ready == 0))
    && t.paths.all (fun p => p.lanes &&& e.2 == 0 || p.st == .run)

/-- Puts an issued instruction into effect. In single-step mode its strand parks when the instruction has completed (R422). -/
def applyGo (s0 : State) (x : Ctx) (i : Instr) (c : Ctl) (sh : Shape) (o : Ops) (g : Go) : State :=
  let t := finish x c sh o g
  let s := countMisses s0 (markIssue (setStrand g.s x.uid x.k (fun _ => t)) x i) x.w.core x.w.lid
  let s := g.after s
  if stepping s0 x.l then
    match strand? s x.uid x.k with
    | some t =>
      if t.completed || t.token.isSome then s
      else if stepDone t (x.p.pc, x.p.lanes) then takeToken s x t .step fBreak 2 x.p.lanes x.p.pc []
      else setStrand s x.uid x.k (fun _ => { t with steps := t.steps ++ [(x.p.pc, x.p.lanes)] })
    | none => s
  else s

/-- An affine register in an image: base, stride, four zero bytes (R429, R430). -/
def affBytes (a : Aff) : List Byte := toBytes 8 a.base.toNat ++ toBytes 4 a.stride.toNat ++ toBytes 4 0

/-- A source value as a replay packet records it (R430): 128 bytes for each vector register, 16 for an affine register, 4 for a
predicate. -/
def srcValue (x : Ctx) (e : Need × Opnd) : List Byte :=
  match e.2 with
  | .vec n => (List.range e.1.vec).flatMap (fun j => match Tbl.find? x.st.regs (n.val + j) with
      | some r => (List.range 32).flatMap (fun l => toBytes 4 (nth r.words l 0).toNat)
      | none => List.replicate 128 0)
  | .aff n _ => affBytes (affReg x.p n.val)
  | .pred n => toBytes 4 (if n.val = 7 then allLanes else nth x.st.preds n.val 0).toNat
  | _ => []

/-- The source values that an instruction reads, in operand order (R430). -/
def srcValues (x : Ctx) (i : Instr) : List Byte :=
  match fieldsOf i, shape i with
  | some (_, o), some sh => (readsOf sh o).flatMap (srcValue x)
  | _, _ => []

/-- Lanes wait on page requests; the instruction issues again once none does (R258). -/
def parkPath (s : State) (x : Ctx) (i : Instr) (tags : Tbl (Nat × Bool)) : State :=
  let (n, s) := fresh s
  let m := maskOf (fun l => Tbl.has tags l)
  let d : Pend := { id := n, pc := x.p.pc, instr := i, lanes := m, win := [], outs := [], ready := 0, todo := m,
                    parked := tags, reissue := true, srcs := srcValues x i, seed := x.st.seed }
  setStrand s x.uid x.k (fun _ =>
    setPath { x.st with pends := x.st.pends ++ [d] } x.pi (fun p => { p with st := .fault }))

/-- What a strand sees when it issues from its current path. -/
def ctxOf (s : State) (uid k : Nat) (c : Ctl) : Option Ctx :=
  match unit? s uid with
  | none => none
  | some w =>
    match Tbl.find? w.strands k, launch? s w.lid with
    | some t, some l =>
      match curPath t with
      | some (pi, p) => some ⟨uid, k, w, t, pi, p, l, takesPart t p c, s.clock⟩
      | none => none
    | _, _ => none

/-- Registers that the pool has for the issuing path: those free, and those that a restore of its strand has taken for the
allocation it stalled on (R98, R102). -/
def poolFor (s : State) (x : Ctx) : Nat := poolFree s x.w.core x.st.quarter + grantOf x.st x.p.lanes

/-- The outcome of an instruction's own checks and effect, put into place (R83: WINDOW comes last). -/
def resolve (s : State) (x : Ctx) (i : Instr) (c : Ctl) (sh : Shape) (o : Ops) (r : Res) : State :=
  let window : FaultInfo := { code := fWindow, lanes := x.tm }
  match r with
  | .fault f => takeFault s x f
  | .hold => holdPath s x x.st .hold
  | .holdWith s' t => if inWindow x c sh o then takeFault s x window else holdPath s' x t .hold
  | .parkWith s' t =>
    if inWindow x c sh o then takeFault s x window
    else setStrand s' x.uid x.k (fun _ => setPath t x.pi (fun p => { p with st := .fault }))
  | .park s' tags => if inWindow x c sh o then takeFault s x window else parkPath s' x i tags
  | .go g => if inWindow x c sh o then takeFault s x window else applyGo s x i c sh o g

def idleConv : Conv := { rows := List.replicate 32 0 }

def convOf (t : Strand) (k : Nat) : Conv := nth t.convs k idleConv

/-- The lanes of T whose unmapped names the gate raises: an `mma` tests its convergence register before it reads its index
(R206), and a `pf` skips a lane that fails a check (R263). -/
def mustRead : Instr → LaneMask
  | .mma _ _ _ _ | .pf _ _ _ => 0
  | _ => allLanes

/-- A matrix instruction in a unit without matrix contexts (R203). -/
def needsCtx : Instr → Bool
  | .mma _ _ _ _ | .mzero _ _ | .mld _ _ _ | .mdrain _ _ _ _ | .mmov _ _ _ | .mput _ _ _ => true
  | _ => false

/-- The count operand n of `fent`, `grow`, `shrink`, `trap` and `brk`: an inline integer or a literal; null is 0. -/
def countOf (o : Opnd) : Nat := match o with | .inline e => e.val | .lit v => v.toNat | _ => 0

/-- The range of `nmcopy` (R283): first leaf and count. -/
def copyRange (x : Ctx) (o : Opnd) : Nat × Nat :=
  let v := (readPair x o).base.toNat
  (fld v 0 32, fld v 32 32)

/-- ILLEGAL of a count that a register gives, raised whatever the guard (R83, R292); a range whose value is outstanding is tested once
it has returned. -/
def badRange (x : Ctx) : Instr → Bool
  | .nmcopy _ _ _ o =>
    let n := (copyRange x o.c).2
    !(match o.c with | .aff a _ => x.st.pends.any (fun d => coversAff d a.val x.p.lanes && winMax d x.p.lanes == 0) | _ => false)
      && (n == 0 || decide (65536 < n))
  | _ => false

/-- ILLEGAL at issue: a matrix instruction without contexts, a count out of range. -/
def illegalNow (x : Ctx) (i : Instr) : Bool := (needsCtx i && x.l.lpb.mctx == 0) || badRange x i

/-- BUDGET of `fent`, `grow` and `shrink` (R100, R192), raised whatever the guard (R83, log 22). -/
def countOver (x : Ctx) : Instr → Bool
  | .fent _ o => decide (x.l.lpb.vregs < countOf o.b)
  | .grow _ o | .shrink _ o => decide (x.p.limit < countOf o.b)
  | _ => false

/-- `brk` acts whatever the guard (R200). -/
def unguarded : Instr → Bool
  | .brk _ _ => true
  | _ => false

/-- A strand whose path stalls on an allocation of `n` registers (R98): each path's allocation has its own clock (R101). -/
def stalled (s : State) (x : Ctx) (n : Nat) : Strand :=
  let mine := x.st.stalls.find? (fun a => a.lanes &&& x.p.lanes != 0)
  { x.st with stalls := x.st.stalls.filter (fun a => a.lanes &&& x.p.lanes == 0) ++
      [{ lanes := x.p.lanes, need := n, since := match mine with | some a => a.since | none => s.clock
         granted := match mine with | some a => a.granted | none => 0 }] }

/-- `stalled` for an instruction that takes its registers itself (`grow`): the gate has let its allocation pass, so its clock is that of the
stall in the state (R100, R101). -/
def stalledAgain (s : State) (x : Ctx) (n : Nat) : Strand :=
  let was := match strand? s x.uid x.k with | some t => t.stalls | none => x.st.stalls
  stalled s { x with st := { x.st with stalls := was } } n

/-- The instructions at which a lookahead window closes early (R78). -/
def closes : Instr → Bool
  | .exit _ _ | .itemdone _ _ | .refill _ _ | .call _ _ | .calli _ _ | .ret _ _ | .kwait _ _ | .bwait _ _ _ | .trap _ _ => true
  | _ => false

/-- The gate of an instruction of a strand (R83): ILLEGAL of a matrix instruction without contexts (R203) or of a count (R292), PRIV,
BUDGET, then, when a lane takes part, allocation (R95, R98), the scoreboard (R79), UNMAPPED (R96), and the instruction's own checks and effect. -/
def gate (s : State) (x : Ctx) (i : Instr) (c : Ctl) (sh : Shape) (o : Ops) (body : Ctx → State → Res) : State :=
  if illegalNow x i then takeFault s x { code := fIllegal, lanes := x.p.lanes }
  else if sh.priv && !x.l.priv then takeFault s x { code := fPriv, lanes := x.p.lanes }
  else if overBudget sh o x.p.limit || countOver x i then takeFault s x { code := fBudget, lanes := x.p.lanes }
  else if stepping s x.l && !recordRoom s x.w.lid then holdPath s x x.st .hold
  else if unguarded i then resolve s x i c sh o (body x s)
  else if x.tm = 0 then applyGo s x i c sh o { s := s, t := x.st, close := closes i }
  else
    let need := poolNeed x.st (newNames x sh o)
    if poolFor s x < need then holdPath s x (stalled s x need) .hold
    else
      let x := passed x
      let u := unmappedLanes x sh o &&& mustRead i
      if scoreboard x i sh o then holdPath s x x.st .hold
      else if u ≠ 0 then takeFault s x { code := fUnmapped, lanes := u }
      else resolve s x i c sh o (body x s)

/-- An instruction issued by the acting strand. -/
def issueStrand (i : Instr) (s : State) (uid k : Nat) (body : Ctx → State → Res) : State :=
  match fieldsOf i, shape i with
  | some (c, o), some sh =>
    match ctxOf s uid k c with
    | some x => gate s x i c sh o body
    | none => s
  | _, _ => s

/-! ## Common shapes of a meaning -/

/-- Is an instruction long-latency (R77)? -/
def longLatency (i : Instr) : Bool := match shape i with | some sh => sh.la | none => false

/-- A result written to D in the lanes of T: at once, or, from a long-latency instruction, outstanding until it returns, with its
window (R79, R95, R132, R158). -/
def giveVec (x : Ctx) (s : State) (t : Strand) (i : Instr) (c : Ctl) (d : Opnd) (w : Nat) (v : Nat → Nat) : Res :=
  match d with
  | .vec n =>
    if !longLatency i then .go { s := s, t := writeGroup t n.val x.tm v w }
    else
      let (id, s) := fresh s
      .go { s := s, t := t
            pend := some { id := id, pc := x.p.pc, instr := i, lanes := x.tm, win := winList x.tm c.la.val
                           outs := [outVec n.val w x.tm v], ready := 0, srcs := srcValues x i, seed := x.st.seed } }
  | _ => .go { s := s, t := t }

/-- A predicate result (R128). -/
def givePred (x : Ctx) (s : State) (d : Opnd) (f : Nat → Bool) : Res :=
  match d with
  | .pred n => .go { s := s, t := writePred x.st n.val x.tm f }
  | _ => .go { s := s, t := x.st }

/-- An affine result, written once for the issuing path (R182). -/
def giveAff (x : Ctx) (s : State) (d : Opnd) (r : Aff) : Res :=
  match d with
  | .aff n part =>
    .go { s := s, t := setPath x.st x.pi (fun p => { p with aff := setNth p.aff n.val (affWrite (affReg p n.val) part r) }) }
  | _ => .go { s := s, t := x.st }

/-- The advance of `%seed` (R118). -/
def seedNext (v : Word) : Word := seedStep v

/-- The strand with its seed advanced when the mode is RS, and the seed an instruction rounds with (R118). -/
def withSeed (t : Strand) (r : Rnd) : Strand := if r = .rs then { t with seed := seedNext t.seed } else t

/-! ## Lane by lane: a vector result of `w` words from one, two or three sources -/

def lanes1 (i : Instr) (c : Ctl) (o : Ops) (w : Nat) (ra : Rd) (f : Nat → Nat) (x : Ctx) (s : State) : Res :=
  giveVec x s x.st i c o.d w (fun l => f (readSrc x ra o.a l))

def lanes2 (i : Instr) (c : Ctl) (o : Ops) (w : Nat) (ra rb : Rd) (f : Nat → Nat → Nat) (x : Ctx) (s : State) : Res :=
  giveVec x s x.st i c o.d w (fun l => f (readSrc x ra o.a l) (readSrc x rb o.b l))

def lanes3 (i : Instr) (c : Ctl) (o : Ops) (w : Nat) (ra rb rc : Rd) (f : Nat → Nat → Nat → Nat) (x : Ctx) (s : State) :
    Res :=
  giveVec x s x.st i c o.d w (fun l => f (readSrc x ra o.a l) (readSrc x rb o.b l) (readSrc x rc o.c l))

/-- The context after the advance of `%seed` that mode RS makes before any lane uses it (R118, log 20). -/
def seeded (x : Ctx) (r : Rnd) : Ctx := { x with st := withSeed x.st r }

/-- A float result of `w` words; `f` takes the seed and the lane. -/
def flanes1 (i : Instr) (c : Ctl) (o : Ops) (r : Rnd) (w : Nat) (ra : Rd) (f : Word → Nat → Nat → Nat) (x : Ctx)
    (s : State) : Res :=
  let y := seeded x r
  giveVec y s y.st i c o.d w (fun l => f y.st.seed l (readSrc y ra o.a l))

def flanes2 (i : Instr) (c : Ctl) (o : Ops) (r : Rnd) (w : Nat) (ra rb : Rd) (f : Word → Nat → Nat → Nat → Nat) (x : Ctx)
    (s : State) : Res :=
  let y := seeded x r
  giveVec y s y.st i c o.d w (fun l => f y.st.seed l (readSrc y ra o.a l) (readSrc y rb o.b l))

def flanes3 (i : Instr) (c : Ctl) (o : Ops) (r : Rnd) (w : Nat) (ra rb rc : Rd)
    (f : Word → Nat → Nat → Nat → Nat → Nat) (x : Ctx) (s : State) : Res :=
  let y := seeded x r
  giveVec y s y.st i c o.d w (fun l => f y.st.seed l (readSrc y ra o.a l) (readSrc y rb o.b l) (readSrc y rc o.c l))

end Sys2Proof.Machine
end

