-- ==== Sys2Proof/Machine/Spans.lean ====
section
/-! DEFINITION. Spans (R42-R62): what a span reads, splits and rejoins, the unit cut, the strand cut, and the gate of
an instruction issued by a span. -/

namespace Sys2Proof.Machine

open Sys2Proof

/-- Where a span lives: a cluster's table or a unit. -/
inductive Place where
  | table (cl : Nat)
  | unit (uid : Nat)
deriving DecidableEq, Repr

def spansAt (s : State) : Place → Tbl Span
  | .table cl => (clusterOf s cl).table
  | .unit u => match unit? s u with | some w => w.spans | none => []

def setSpans (s : State) (pl : Place) (f : Tbl Span → Tbl Span) : State :=
  match pl with
  | .table cl => setCluster s cl (fun c => { c with table := f c.table })
  | .unit u => setUnit s u (fun w => { w with spans := f w.spans })

/-! ## Pieces and rejoin (R48, R50, R55) -/

/-- The piece of a span in [lo, hi), of unit u. -/
def clip (sp : Span) (lo hi u : Nat) : Span :=
  let lo' := max sp.lo lo
  { sp with lo := lo', hi := min sp.hi hi, unit := u
            aff := sp.aff.map (fun a => rebase a ((lo' : Int) - sp.lo)), loc := sp.loc + (lo' - sp.lo) }

/-- May the lower span `a` and the upper span `b` become one (R55)? R55 names no lookahead window: spans whose open windows differ
stay apart, so that no window ends early or late (DESIGN CHOICE, log 135). -/
def canRejoin (a b : Span) : Bool :=
  a.lid == b.lid && a.hi == b.lo && a.pc == b.pc && a.unit == b.unit && a.preds == b.preds && a.convs == b.convs
    && a.wins == b.wins && a.owed == b.owed && a.loc + (a.hi - a.lo) == b.loc
    && b.aff == a.aff.map (fun r => rebase r ((a.hi : Int) - a.lo))

def joined (a b : Span) : Span := { a with hi := b.hi }

/-- Adds a piece to a table: it rejoins with a neighbour where the conditions hold (R55). -/
def insertSpan (t : Tbl Span) (sp : Span) : Tbl Span :=
  let up := t.find? (fun e => canRejoin sp e.2)
  let (sp, t) := match up with
    | some e => (joined sp e.2, Tbl.del t e.1)
    | none => (sp, t)
  match t.find? (fun e => canRejoin e.2 sp) with
  | some e => Tbl.put t e.1 (joined e.2 sp)
  | none => Tbl.put t (Tbl.lowestFree t 0 64) sp

/-- Entries of a cluster's table in use, the frozen pools of refill launches among them (R43, R59). -/
def tableUsed (s : State) (cl : Nat) : Nat :=
  (clusterOf s cl).table.length +
    ((s.launches.filter (fun e => e.2.home == cl && e.2.lpb.refill && !poolSaved s e.1)).map (fun e => e.2.pool.length)).foldl (· + ·) 0

/-! ## Completion of many units at once -/

/-- `n` units of a launch have completed without admission (R51). -/
def countUnits (s : State) (lid : Nat) : Nat → State
  | 0 => s
  | n + 1 =>
    match launch? s lid with
    | none => s
    | some l =>
      let s := setLaunch s lid (fun l => { l with triggers := l.triggers + n, recd := { l.recd with done := l.recd.done + n } })
      if l.ending.isSome then s else countUnit s lid false

/-! ## The unit cut (R50, R303, R304) -/

/-- The partition's clusters from the launch's home, in dealing order (DEDUCED, log 46). -/
def dealClusters (s : State) (l : Launch) : List Nat :=
  let cs := partSlices (partOf s l.part)
  let h := (cs.findIdx? (· == l.home)).getD 0
  cs.drop h ++ cs.take h

/-- The cluster that the dealing gives unit `u`: blocks of 8 units (R304). -/
def dealOf (s : State) (l : Launch) (u : Nat) : Nat :=
  let cs := dealClusters s l
  nth cs (u / 8 % cs.length) l.home

/-- The unit after `u` in the same cluster's share of a dealing over `k` clusters. -/
def nextDealt (k u : Nat) : Nat := if (u + 1) % 8 ≠ 0 then u + 1 else u + 1 + 8 * (k - 1)

/-- How many of the units [a, b) the dealing gives to position `j` of `k` clusters, and the first of them. -/
def dealtCount (k j b : Nat) : Nat :=
  -- units below b whose block number is j modulo k
  let full := b / (8 * k)
  let r := b % (8 * k)
  8 * full + (if r ≤ 8 * j then 0 else min 8 (r - 8 * j))
def dealtFirst (k j a : Nat) : Nat :=
  let r := a % (8 * k)
  let base := a - r
  if r < 8 * j then base + 8 * j
  else if r < 8 * j + 8 then a
  else base + 8 * k + 8 * j

/-- Run-queue entries a unit cut makes: (cluster, kind), RANGE entries first (R303). -/
def cutEntries (s : State) (l : Launch) (spans : List Span) : List (Nat × RqKind) :=
  let sz := unitSize l.lpb
  let cs := dealClusters s l
  let k := cs.length
  let ranges := spans.flatMap (fun sp =>
    let a := (sp.lo + sz - 1) / sz
    let b := sp.hi / sz
    if a < b then
      (cs.zipIdx).filterMap (fun e =>
        let n := dealtCount k e.2 b - dealtCount k e.2 a
        if n = 0 then none else some (e.1, RqKind.range (dealtFirst k e.2 a) n sp))
    else [])
  let partial' := (spans.flatMap (fun sp =>
    let a := (sp.lo + sz - 1) / sz
    let b := sp.hi / sz
    (if sp.lo % sz ≠ 0 then [sp.lo / sz] else []) ++ (if sp.hi % sz ≠ 0 && decide (a ≤ b) then [sp.hi / sz] else []))).eraseDups
  let units := partial'.map (fun u =>
    (dealOf s l u, RqKind.unit u ((spans.filter (fun sp => decide (sp.lo < (u + 1) * sz) && decide (u * sz < sp.hi))).map
      (fun sp => clip sp (u * sz) ((u + 1) * sz) u))))
  ranges ++ units

/-- How many units hold a live item. -/
def liveUnits (l : Launch) (spans : List Span) : Nat :=
  let sz := unitSize l.lpb
  -- spans are disjoint and in order: count the units each touches that the one before does not
  (spans.foldl (fun (acc : Nat × Nat) sp =>
    if sp.lo < sp.hi then
      let a := max acc.2 (sp.lo / sz)
      let b := (sp.hi - 1) / sz + 1
      (acc.1 + (b - a), max acc.2 b)
    else acc) (0, 0)).1

def sortSpans (l : List Span) : List Span :=
  l.foldr (fun x acc => acc.takeWhile (fun y => decide (y.lo < x.lo)) ++ x :: acc.dropWhile (fun y => decide (y.lo < x.lo))) []

/-- Room in the run queues for a cut's entries (R298, R303). -/
def rqRoom (s : State) (fn : Nat) (es : List (Nat × RqKind)) : Bool :=
  es.all (fun e =>
    let q := (clusterOf s e.1).rq
    let n := (es.filter (fun x => x.1 == e.1)).length
    decide (q.length + n ≤ 512) &&
      (isPf fn || decide ((q.filter (fun x => fnOfLid x.lid == fn)).length + n ≤ 128)))

/-- Is an entry of a span table runnable (R44)? None of a launch that is being cut, or of a halted VF, issues (R50, R440). -/
def spanRunnable (s : State) (sp : Span) : Bool :=
  sp.st == .run && (match launch? s sp.lid with
    | some l => !l.cutting && (isPf l.fn || !(fnOf s l.fn).halted)
    | none => false)

/-- The first runnable entry of a span table after the one that issued last (R44). -/
def nextSpan (s : State) (cl : Nat) : Option Nat :=
  let c := clusterOf s cl
  let run := (c.table.filter (fun e => spanRunnable s e.2)).map (·.1)
  match run.find? (fun i => decide (c.cursor < i)) with
  | some i => some i
  | none => run.head?

/-- The unit cut of a whole launch (R50, R51, R59): while it waits for outstanding `ldu`s or for run-queue room, no span of the launch
issues. -/
def unitCut (s : State) (lid : Nat) : State :=
  match launch? s lid with
  | none => s
  | some l =>
    let s0 := s
    let spans := sortSpans ((((clusterOf s l.home).table.filter (fun e => e.2.lid == lid))).map (·.2))
    let wait := fun (s : State) => setLaunch s lid (fun l => { l with cutting := true })
    if !l.inTable then s
    else if spans.any (fun sp => sp.wins.any SWin.waits) then wait s
    else
      let leave := fun (s : State) =>
        setLaunch (setCluster s l.home (fun c => { c with table := c.table.filter (fun e => e.2.lid != lid) })) lid
          (fun l => { l with inTable := false, cutting := false })
      if l.lpb.progress = 0 then
        let s := setLaunch (leave s) lid (fun l => { l with pool := spans, concWait := true })
        let s' := if l.lpb.refill then s else countUnits s lid (unitsTotal l.lpb - liveUnits l spans)
        if rqFits s' then s' else wait s0
      else if l.lpb.refill then
        let cs := dealClusters s l
        let es := cs.zipIdx.filterMap (fun e =>
          let n := dealtCount cs.length e.2 (unitsTotal l.lpb)
          match spans with
          | sp :: _ => if n = 0 then none else some (e.1, RqKind.range (dealtFirst cs.length e.2 0) n sp)
          | [] => none)
        if rqRoom s l.fn es then
          let s := setLaunch (leave s) lid (fun l => { l with pool := spans })
          es.foldl (fun s e => enqueue s e.1 lid e.2 true) s
        else wait s
      else
        let es := cutEntries s l spans
        if rqRoom s l.fn es then
          let s := leave s
          let s := es.foldl (fun s e => enqueue s e.1 lid e.2 true) s
          let s' := countUnits s lid (unitsTotal l.lpb - liveUnits l spans)
          if rqFits s' then s' else wait s0
        else wait s

/-! ## The strand cut (R53) -/

def spanConvs : List Conv := List.replicate 8 idleConv

def noCtl : Ctl := ⟨false, 7, 0, false, false, false, false⟩
def noOps : Ops := ⟨.null, .null, .null, .null⟩

/-- A predicate of a span for one item (R42). -/
def predAt (p : SPred) (item : Nat) : Bool :=
  match p.kind with
  | 0 => false
  | 1 => true
  | 2 => decide (item < p.c)
  | _ => decide (p.c ≤ item)

/-- Lanes of strand k that hold live items of a unit span. -/
def spanLanes (sp : Span) (k : Nat) : LaneMask :=
  maskOf (fun l => decide (sp.loc ≤ 32 * k + l) && decide (32 * k + l < sp.loc + (sp.hi - sp.lo)))

/-- The item that local `i` holds or held (R30, R60). -/
def localItem (l : Launch) (w : WUnit) (i : Nat) : Option Nat :=
  if l.lpb.refill then
    (w.runs.find? (fun r => decide (r.1 ≤ i) && decide (i < r.1 + r.2.2))).map (fun r => r.2.1 + (i - r.1))
  else if i < unitSize l.lpb then some (w.u * unitSize l.lpb + i) else none

/-- A window of a span in the lanes of a strand: its value has returned; a stale `ldu` is performed by the strand (R45, R426; DEDUCED,
log 75). -/
def winPend (m : LaneMask) (pc : DWord) (v : SWin) : Pend :=
  let d : Pend :=
    { id := 0, pc := pc, instr := .nop noCtl noOps, lanes := m, win := winList m v.left, outs := [.aff v.n v.part v.data m], ready := m }
  match v.stale, v.instr with
  | true, some i =>
    let one := maskOf (fun l => (lanesOf m).head? == some l)
    { d with id := 2 ^ 64 + v.n, pc := v.pc, instr := i, ready := 0, todo := one, took := one, addr := List.replicate 32 v.va, srcs := v.srcs }
  | _, _ => d

/-- Strand k of a unit as the strand cut makes it. -/
def cutStrand (l : Launch) (w : WUnit) (t : Strand) : Strand :=
  let k := t.k
  let spans := (w.spans.map (·.2)).filter (fun sp => spanLanes sp k != 0)
  let paths := spans.map (fun sp => ({
    pc := sp.pc, lanes := spanLanes sp k, limit := l.lpb.vregs
    aff := sp.aff.map (fun a => rebase a ((32 * k : Int) - sp.loc)) } : Path))
  let items := (List.range 32).map (fun i => (localItem l w (32 * k + i)).getD 0)
  let f := w.u * unitSize l.lpb + 32 * k
  let s0 := (localItem l w (32 * k)).getD f
  let spanOf (i : Nat) : Option Span := spans.find? (fun sp => lane (spanLanes sp k) i)
  let preds := (List.range 7).map (fun n => maskOf (fun i =>
    match spanOf i with | some sp => predAt (nth sp.preds n {}) (nth items i 0) | none => false))
  let pends := spans.flatMap (fun sp => sp.wins.map (winPend (spanLanes sp k) sp.pc))
  let paths := sortPaths paths
  { t with paths := paths, items := items, preds := preds, pends := pends
           hasItem := maskOf (fun i => (localItem l w (32 * k + i)).isSome)
           convs := match spans with | sp :: _ => sp.convs | [] => spanConvs
           seed := BitVec.ofNat 32 (s0 % (2 ^ 32 - 1) + 1)
           cur := match paths with | p :: _ => pathLow p | [] => 0
           completed := paths.isEmpty }

/-- The strand cut of a unit; while it waits for outstanding `ldu`s of its spans, none of them issues (log 14). -/
def strandCut (s : State) (uid : Nat) : State :=
  match unit? s uid with
  | none => s
  | some w =>
    match launch? s w.lid with
    | none => s
    | some l =>
      if w.spans.any (fun e => e.2.wins.any SWin.waits) then setUnit s uid (fun w => { w with cutting := true })
      else setUnit s uid (fun w =>
        { w with strands := w.strands.map (fun e => (e.1, cutStrand l w e.2)), spans := [], cutting := false })

/-! ## Reading in a span (R45, R46, R181) -/

/-- A span at the moment it issues: where it lives, its slot, the launch, and its unit if it has one. -/
structure SpanCtx where
  pl : Place
  slot : Nat
  sp : Span
  l : Launch
  w : Option WUnit
  lid : Nat
  /-- the opcode of its instruction, by which the energy table charges it (R417) -/
  kind : Nat := 0
deriving DecidableEq, Repr

/-- The span with the instruction that it issues. -/
def SpanCtx.issues (x : SpanCtx) (i : Instr) : SpanCtx := { x with kind := (opcode i).getD 0 }

/-- A special register: affine or uniform where this level reads it, none where it cuts (R46). -/
def spanSpecial (x : SpanCtx) (r : SReg) : Option Aff :=
  let uni (n : Nat) : Option Aff := some ⟨BitVec.ofNat 64 n, 0⟩
  match r with
  | .item => some ⟨BitVec.ofNat 64 x.sp.lo, 1⟩
  | .unit => x.w.bind (fun w => uni w.u)
  | .ux => x.w.bind (fun w => uni (unitCoords x.l.lpb w.u).1)
  | .uy => x.w.bind (fun w => uni (unitCoords x.l.lpb w.u).2.1)
  | .uz => x.w.bind (fun w => uni (unitCoords x.l.lpb w.u).2.2)
  | .core => x.w.bind (fun w => uni w.core)
  | .cluster => x.w.bind (fun w => uni (w.core / 2))
  | .die => x.w.bind (fun w => uni (dieOfCore w.core))
  | _ => none

def spanAff (sp : Span) (n : Nat) : Aff := nth sp.aff n {}

/-- An affine source of a span instruction (R181, R45); none where it cuts. -/
def spanPair (x : SpanCtx) (o : Opnd) : Option Aff :=
  match o with
  | .aff n .pair => some (spanAff x.sp n.val)
  | .aff n .base => some ⟨(spanAff x.sp n.val).base, 0⟩
  | .aff n .stride => some ⟨BitVec.ofNat 64 (wrap 64 (sext 32 (spanAff x.sp n.val).stride.toNat)), 0⟩
  | .inline e => some ⟨BitVec.ofNat 64 (inlineInt e.val 2), 0⟩
  | .lit v => some ⟨BitVec.ofNat 64 (wrap 64 (sext 32 v.toNat)), 0⟩
  | .special r => spanSpecial x r
  | _ => none

/-- The guard of a span where it is uniform (R45). -/
def spanGuard (sp : Span) (c : Ctl) : Option Bool :=
  if c.gpred.val = 7 then some (!c.gneg)
  else
    let p := nth sp.preds c.gpred.val {}
    let v : Option Bool :=
      match p.kind with
      | 0 => some false
      | 1 => some true
      | 2 => if p.c ≤ sp.lo then some false else if sp.hi ≤ p.c then some true else none
      | _ => if p.c ≤ sp.lo then some true else if sp.hi ≤ p.c then some false else none
    v.map (fun b => b != c.gneg)

/-- A window that covers an affine register (R79). -/
def spanCovers (sp : Span) (n : Nat) : Bool := sp.wins.any (fun w => w.n == n)

/-- After one instruction: windows shorten, returned values become visible, and a span whose window has closed on a
value still outstanding waits (R58, R78). -/
def spanSettle (sp : Span) : Span :=
  let ws := sp.wins.map (fun w => { w with left := w.left - 1 })
  let done := ws.filter (fun w => w.returned && w.left == 0)
  let sp := done.foldl (fun sp w => { sp with aff := setNth sp.aff w.n (affWrite (spanAff sp w.n) w.part ⟨w.data, 0⟩) }) sp
  let ws := ws.filter (fun w => !(w.returned && w.left == 0))
  { sp with wins := ws, st := if ws.any (fun w => w.left == 0) then .ldu else sp.st }

/-- Every window of a span closes (R78): it waits while a value is outstanding. -/
def spanClose (sp : Span) : Span := spanSettle { sp with wins := sp.wins.map (fun w => { w with left := 1 }) }

/-- A span that issues makes its unit begun and its launch running (R52, R403); its energy is charged (R417). -/
def markSpan (s : State) (x : SpanCtx) : State :=
  let s := match x.pl with
    | .unit u => beginUnit s u
    | .table _ => s
  let s := markRunning s x.lid
  if isPf x.l.fn then s else chargeEnergy s x.l.part x.kind

/-- The span after an instruction, back in its place. -/
def putSpan (s : State) (x : SpanCtx) (sp : Span) : State :=
  markSpan (setSpans s x.pl (fun t => Tbl.put t x.slot (spanSettle sp))) x

/-- The span advances past an instruction. -/
def spanNext (s : State) (x : SpanCtx) (sp : Span) : State := putSpan s x { sp with pc := x.sp.pc + 12 }

/-- A cut point (R49). -/
def spanCut (s : State) (x : SpanCtx) : State :=
  match x.pl with
  | .table _ => unitCut s x.lid
  | .unit u => strandCut s u

def spanCtx (s : State) (pl : Place) (slot : Nat) : Option SpanCtx :=
  match Tbl.find? (spansAt s pl) slot with
  | none => none
  | some sp =>
    if sp.st != .run then none
    else
      match launch? s sp.lid with
      | none => none
      | some l => some ⟨pl, slot, sp, l, match pl with | .unit u => unit? s u | .table _ => none, sp.lid, 0⟩

/-- An S instruction that writes an affine register (R45, R182, R186): the conditions on its operands come before its guard. -/
def spanWrite (s : State) (x : SpanCtx) (c : Ctl) (d : Opnd) (r : Option Aff) : State :=
  match spanGuard x.sp c, d, r with
  | some false, .aff _ _, some _ => spanNext s x x.sp
  | some true, .aff n part, some r =>
    if spanCovers x.sp n.val then spanCut s x
    else spanNext s x { x.sp with aff := setNth x.sp.aff n.val (affWrite (spanAff x.sp n.val) part r) }
  | _, _, _ => spanCut s x

/-! ## Who issues -/

/-- An instruction that only a strand executes: in a span it is a cut point (R45, R49). -/
def ramson (i : Instr) (body : Ctx → State → Res) (s : State) : Host.Outcome State Fault Refusal :=
  match s.actor with
  | .strand uid k => .next (issueStrand i s uid k body)
  | .span cl slot => .next (match spanCtx s (.table cl) slot with | some x => spanCut s x | none => s)
  | .unitSpan u slot => .next (match spanCtx s (.unit u) slot with | some x => spanCut s x | none => s)
  | _ => .fault .noIssuer

/-- An instruction that a span may execute too. -/
def ramsonS (i : Instr) (body : Ctx → State → Res) (span : State → SpanCtx → State) (s : State) :
    Host.Outcome State Fault Refusal :=
  match s.actor with
  | .strand uid k => .next (issueStrand i s uid k body)
  | .span cl slot => .next (match spanCtx s (.table cl) slot with | some x => span s (x.issues i) | none => s)
  | .unitSpan u slot => .next (match spanCtx s (.unit u) slot with | some x => span s (x.issues i) | none => s)
  | _ => .fault .noIssuer

end Sys2Proof.Machine
end

