-- ==== Sys2Proof/Machine/Affine.lean ====
section
/-! DEFINITION. Group 7: affine instructions (R180-R187), in strands and in spans. -/

namespace Sys2Proof.Machine

open Sys2Proof

def addAff (x y : Aff) : Aff := ⟨x.base + y.base, x.stride + y.stride⟩
def subAff (x y : Aff) : Aff := ⟨x.base - y.base, x.stride - y.stride⟩
def low32 (x : DWord) : Word := BitVec.ofNat 32 x.toNat

/-- The results of R183. -/
def affAset (x y : Aff) : Aff := ⟨x.base, low32 y.base⟩
def affAmul (x y : Aff) : Aff := ⟨x.base * y.base, x.stride * low32 y.base⟩
def affAshl (x y : Aff) : Aff :=
  let n := y.base.toNat % 64
  ⟨x.base <<< n, BitVec.ofNat 32 (x.stride.toNat * 2 ^ n)⟩
def affAand (x y : Aff) : Aff := ⟨x.base &&& y.base, x.stride &&& low32 y.base⟩
def affAaddr (s : Nat) (x y : Aff) : Aff :=
  ⟨x.base + BitVec.ofNat 64 (2 ^ s * y.base.toNat), x.stride + BitVec.ofNat 32 (2 ^ s * y.stride.toNat)⟩

/-- An affine instruction with one or two sources, in a strand (R182, R183). -/
def affStrand (f : Aff → Aff → Aff) (o : Ops) (x : Ctx) (s : State) : Res :=
  giveAff x s o.d (f (readPair x o.a) (readPair x o.b))

/-- The same in a span (R45): a source that this level cannot read is a cut point. -/
def affSpan2 (f : Aff → Aff → Aff) (c : Ctl) (o : Ops) (s : State) (x : SpanCtx) : State :=
  spanWrite s x c o.d ((spanPair x o.a).bind (fun a => (spanPair x o.b).map (f a)))

/-- `aset` (R183). -/
def execAset (c : Ctl) (o : Ops) (s : State) : Host.Outcome State Fault Refusal :=
  ramsonS (.aset c o)
    (affStrand affAset o)
    (affSpan2 affAset c o) s

/-- `aadd` (R183). -/
def execAadd (c : Ctl) (o : Ops) (s : State) : Host.Outcome State Fault Refusal :=
  ramsonS (.aadd c o)
    (affStrand addAff o)
    (affSpan2 addAff c o) s

/-- `asub` (R183). -/
def execAsub (c : Ctl) (o : Ops) (s : State) : Host.Outcome State Fault Refusal :=
  ramsonS (.asub c o)
    (affStrand subAff o)
    (affSpan2 subAff c o) s

/-- `amul` (R183). -/
def execAmul (c : Ctl) (o : Ops) (s : State) : Host.Outcome State Fault Refusal :=
  ramsonS (.amul c o)
    (affStrand affAmul o)
    (affSpan2 affAmul c o) s

/-- `ashl` (R183). -/
def execAshl (c : Ctl) (o : Ops) (s : State) : Host.Outcome State Fault Refusal :=
  ramsonS (.ashl c o)
    (affStrand affAshl o)
    (affSpan2 affAshl c o) s

/-- `aand` (R183). -/
def execAand (c : Ctl) (o : Ops) (s : State) : Host.Outcome State Fault Refusal :=
  ramsonS (.aand c o)
    (affStrand affAand o)
    (affSpan2 affAand c o) s

/-- `amov` (R183). -/
def execAmov (c : Ctl) (o : Ops) (s : State) : Host.Outcome State Fault Refusal :=
  ramsonS (.amov c o)
    (fun x s => giveAff x s o.d (readPair x o.a))
    (fun s x => spanWrite s x c o.d (spanPair x o.a)) s

/-- `avec` (R184). -/
def execAvec (c : Ctl) (t : Ty) (o : Ops) (s : State) : Host.Outcome State Fault Refusal :=
  ramson (.avec c t o)
    (fun x s => giveVec x s x.st (.avec c t o) c o.d t.words (fun l => affLane (readPair x o.a) l)) s

/-- The value `auni` reads in the lowest lane of T (R184). -/
def auniValue (t : Ty) (v : Nat) : Nat :=
  match t with
  | .s32 => wrap 64 (sext 32 v)
  | _ => v % 2 ^ t.bits

/-- `auni` (R184). -/
def execAuni (c : Ctl) (t : Ty) (o : Ops) (s : State) : Host.Outcome State Fault Refusal :=
  ramson (.auni c t o)
    (fun x s => giveAff x s o.d ⟨BitVec.ofNat 64 (auniValue t (readSrc x (rdI t) o.a x.low)), 0⟩) s

/-! `acmp` over a range (R47). -/

/-- Whole numbers around the root of `s·j = t`, where the sign of `s·j − t` may change. -/
def rootsOf (s t : Int) : List Int := if s = 0 then [] else [t / s - 1, t / s, t / s + 1]

/-- Offsets j at which the truth of a comparison of two wrapping affine values may change: where either value wraps,
and where their difference crosses a multiple of 2^64. -/
def breaks (sgn : Bool) (x y : Aff) : List Int :=
  let b (a : Aff) : Int := (a.base.toNat : Int)
  let st (a : Aff) : Int := sext 32 a.stride.toNat
  let off : Int := if sgn then 2 ^ 63 else 0
  let ks : List Int := [-4, -3, -2, -1, 0, 1, 2, 3, 4]
  ks.flatMap (fun k =>
    rootsOf (st x) (k * 2 ^ 64 + off - b x) ++ rootsOf (st y) (k * 2 ^ 64 + off - b y)
      ++ rootsOf (st x - st y) (k * 2 ^ 64 - b x + b y))

def insertInt (a : Int) : List Int → List Int
  | [] => [a]
  | b :: r => if a < b then a :: b :: r else if a = b then b :: r else b :: insertInt a r

/-- The starts of the pieces of [0, n) on which the comparison is constant, with its value. -/
def pieces (t : Ty) (q : Cond) (x y : Aff) (n : Nat) : List (Nat × Bool) :=
  let js := ((breaks t.signed x y).filter (fun j => decide (0 < j) && decide (j < (n : Int)))).foldl (fun l j => insertInt j l) [0]
  js.map (fun j => (j.toNat, icmpFlag t q (affLane x j.toNat) (affLane y j.toNat)))

/-- Pieces with equal neighbours joined: of each run of equal pieces the first. -/
def joinPieces : List (Nat × Bool) → List (Nat × Bool)
  | [] => []
  | a :: r =>
    match joinPieces r with
    | b :: r' => if a.2 == b.2 then a :: r' else a :: b :: r'
    | [] => [a]

/-- The predicate that an `acmp` over [lo, hi) writes; none where the set is of another kind (DEDUCED, log 47). -/
def spanSet (t : Ty) (q : Cond) (x y : Aff) (lo hi : Nat) : Option SPred :=
  match joinPieces (pieces t q x y (hi - lo)) with
  | [(_, b)] => some ⟨if b then 1 else 0, 0⟩
  | [(_, true), (j, false)] => some ⟨2, lo + j⟩
  | [(_, false), (j, true)] => some ⟨3, lo + j⟩
  | _ => none

/-- `acmp` in a span (R45-R47): the predicate is written where the guard holds over the whole span. -/
def acmpSpan (c : Ctl) (t : Ty) (cond : Cond) (o : Ops) (s : State) (x : SpanCtx) : State :=
  match spanPair x o.a, spanPair x o.b, spanGuard x.sp c with
  | some _, some _, some false => spanNext s x x.sp
  | some a, some b, some true =>
    match spanSet t cond a b x.sp.lo x.sp.hi, o.d with
    | some p, .pred n =>
      spanNext s x (if n.val = 7 then x.sp else { x.sp with preds := setNth x.sp.preds n.val p })
    | some _, _ => spanNext s x x.sp
    | none, _ => spanCut s x
  | _, _, _ => spanCut s x

/-- `acmp` (R185, R47). -/
def execAcmp (c : Ctl) (t : Ty) (cond : Cond) (o : Ops) (s : State) : Host.Outcome State Fault Refusal :=
  ramsonS (.acmp c t cond o)
    (fun x s => givePred x s o.d (fun l =>
      icmpFlag t cond (affLane (readPair x o.a) l) (affLane (readPair x o.b) l)))
    (acmpSpan c t cond o) s

/-- `aaddr` (R183). -/
def execAaddr (c : Ctl) (s4 : Fin 5) (o : Ops) (s : State) : Host.Outcome State Fault Refusal :=
  ramsonS (.aaddr c s4 o)
    (affStrand (affAaddr s4.val) o)
    (affSpan2 (affAaddr s4.val) c o) s

end Sys2Proof.Machine
end

