-- ==== Sys2Proof/Machine/Access.lean ====
section
/-! DEFINITION. The memory access of a strand, lane by lane: orders and scopes (R230, R237, R239, R240, R256, R265),
the checks of R257, what is performed and what waits (R258, R271), barrier words and their waiters (R389-R399), and
the replay of lanes when a page request is answered (R258, R367). -/

namespace Sys2Proof.Machine

open Sys2Proof

/-! ## Orders and scopes -/

/-- Order and reach of an access: strong or weak, its acquire and release halves, scope `.core`, promotion. -/
structure Acc where
  strong : Bool := false
  acq : Bool := false
  rel : Bool := false
  core : Bool := false
  promote : Bool := false
deriving DecidableEq, Repr

/-- Access codes of `ld` (R256). -/
def ldAcc (code : Nat) : Acc :=
  if code = 0 then {}
  else if code ≤ 4 then { strong := true, core := code == 2 }
  else if code ≤ 8 then { strong := true, acq := true, core := code == 6 }
  else { strong := true, acq := true, promote := true }

/-- Access codes of `st` (R256). -/
def stAcc (code : Nat) : Acc :=
  if code = 0 then {}
  else if code ≤ 4 then { strong := true, core := code == 2 }
  else { strong := true, rel := true, core := code == 6 }

/-- The access constant of group 10 (R265). -/
def constAcc (o : Opnd) : Acc :=
  let e := match o with | .inline e => e.val | _ => 0
  if e = 16 then { strong := true, acq := true, promote := true }
  else if e = 17 then { strong := true, acq := true, rel := true, promote := true }
  else { strong := true, acq := e / 4 % 2 == 1, rel := decide (8 ≤ e), core := e % 4 == 1 }

/-- What one lane of a memory instruction does at its location. -/
inductive MKind where
  | load (a : Acc) (t : Ty)
  | store (a : Acc) (n : Nat)
  | rmw (a : Acc) (f : AtomFn) (t : Ty)
  | cas (a : Acc) (n : Nat)
deriving DecidableEq, Repr

def MKind.size : MKind → Nat
  | .load _ t => t.bits / 8
  | .store _ n => n
  | .rmw _ _ t => t.bits / 8
  | .cas _ n => n
def MKind.reads : MKind → Bool
  | .store _ _ => false
  | _ => true
def MKind.writes : MKind → Bool
  | .load _ _ => false
  | _ => true
def MKind.acc : MKind → Acc
  | .load a _ => a
  | .store a _ => a
  | .rmw a _ _ => a
  | .cas a _ => a
/-- R361. -/
def MKind.rights : MKind → Rights
  | .load _ _ => .read
  | .store _ _ => .write
  | .rmw _ _ _ => .rmw
  | .cas _ _ => .rmw
/-- May it be sent to host memory as a PCIe AtomicOp, or is it no read-modify-write (R269)? -/
def MKind.hostOk : MKind → Bool
  | .rmw _ f t => f == .exch || (f == .add && !t.isFloat)
  | _ => true

/-- The kind of access of each memory instruction. -/
def memKind : Instr → Option MKind
  | .ld _ acc t _ => some (.load (ldAcc acc.val) t)
  | .st _ acc t _ => some (.store (stAcc acc.val) (t.bits / 8))
  | .ldu _ t _ => some (.load {} t)
  | .atom _ f t o => some (.rmw (constAcc o.c) f t)
  | .red _ f t o => some (.rmw (constAcc o.c) f t)
  | .atomcas _ t o => some (.cas (constAcc o.c) (t.bits / 8))
  | _ => none

/-- The new value of an atomic function (R264). -/
def atomNew (f : AtomFn) (t : Ty) (old v : Nat) : Nat :=
  match f with
  | .add => if t.isFloat then perElem t (fun j => elAdd t .rne ⟨0, 0, none⟩ (elem t old j) (elem t v j))
            else (old + v) % 2 ^ t.bits
  | .min => if t.isFloat then elMin t old v else fImin t old v
  | .max => if t.isFloat then elMax t old v else fImax t old v
  | .and => old &&& v
  | .or => old ||| v
  | .xor => old ^^^ v
  | .exch => v % 2 ^ t.bits

/-! ## Barriers (R389-R392) -/

/-- A barrier object by its fields (R389). -/
structure Bar where
  expect : Nat
  pend : Nat
  bytes : Int
  seq : Nat
deriving DecidableEq, Repr

def readBar (s : State) (uid off : Nat) : Bar :=
  let v := ofBytes (scratchGet s uid off 16)
  ⟨fld v 0 16, fld v 16 16, sext 32 (fld v 32 32), fld v 64 16⟩

def barBits (b : Bar) : Nat :=
  b.expect % 65536 + (b.pend % 65536) * 2 ^ 16 + wrap 32 b.bytes * 2 ^ 32 + (b.seq % 65536) * 2 ^ 64

def settleBar (b : Bar) : Bar :=
  if b.pend = 0 && b.bytes == 0 then { b with seq := (b.seq + 1) % 65536, pend := b.expect } else b

/-- Reasons of BAR_OVER (R392). -/
def barArrivals : Nat := 1
def barBytes : Nat := 2
def barUninit : Nat := 3
def barCount : Nat := 4

/-- One arrival that adds `n` expected bytes (R390). -/
def arrival (n : Nat) (b : Bar) : Except Nat Bar :=
  if b.expect = 0 then .error barUninit
  else if b.pend = 0 then .error barArrivals
  else if 2 ^ 31 ≤ b.bytes + n then .error barBytes
  else .ok (settleBar { b with bytes := b.bytes + n, pend := b.pend - 1 })

/-- `m` destination bytes have landed (R390). -/
def landing (m : Nat) (b : Bar) : Except Nat Bar :=
  if b.expect = 0 then .error barUninit
  else if b.bytes - m < -(2 ^ 31) then .error barBytes
  else .ok (settleBar { b with bytes := b.bytes - m })

/-! ## Waiters (R393, R399) -/

/-- Has a lane waiting with operand `n` observed its phase? `seq`: by number, else by parity. -/
def observed (seq : Bool) (n : Nat) (b : Bar) : Bool :=
  if seq then
    let d := (b.seq + 65536 - n % 65536) % 65536
    decide (1 ≤ d) && decide (d ≤ 32768)
  else b.seq % 2 != n % 2

def dataNat (d : List (List Word)) (l : Nat) : Nat :=
  ((nth d l []).zipIdx).foldl (fun a e => a + e.1.toNat * 2 ^ (32 * e.2)) 0

/-- A unit, resident or saved. -/
def anyUnit? (s : State) (uid : Nat) : Option WUnit :=
  match unit? s uid with
  | some w => some w
  | none => (Tbl.find? s.images uid).map (·.unit)

/-- Changes a strand of a unit, resident or saved. -/
def setAnyStrand (s : State) (uid k : Nat) (f : Strand → Strand) : State :=
  match unit? s uid with
  | some _ => setStrand s uid k f
  | none => { s with images := Tbl.upd? s.images uid (fun im =>
      { im with unit := { im.unit with strands := Tbl.upd? im.unit.strands k f } }) }

/-- The record of a fault of an instruction met after it has issued: nothing of the strand stands in a context. -/
def laterRecord (s : State) (uid k : Nat) (pc : DWord) (f : FaultInfo) : Event :=
  match anyUnit? s uid with
  | none => { code := f.code }
  | some w =>
    { faultRecord s w.lid f.code f.reason with
      flags := (if f.precise then 1 else 0) + (if f.addrs.isEmpty then 0 else 2)
      pc := pc.toNat, unit := w.u, strand := k
      quarter := match Tbl.find? w.strands k with | some t => t.quarter | none => 0
      faulted := f.lanes, done := f.done, addrs := f.addrs, aux := f.aux, aux2 := f.aux2 }

/-- Takes such a fault: the lanes' paths are parked, the record is posted and the policy acts. While the event queue is full the strand
stays where it stands and owes the record (R420). A copy of a saved unit may still meet one (R329). -/
def laterFault (s : State) (uid k : Nat) (pc : DWord) (f : FaultInfo) : State :=
  match anyUnit? s uid with
  | none => s
  | some w =>
    let e := laterRecord s uid k pc f
    let s := setAnyStrand s uid k (fun t => settle (closeWindows (mapPaths t f.lanes (fun p => { p with st := .fault })) allLanes))
    if recordRoom s w.lid then raiseFault s w.lid e
    else setAnyStrand s uid k (fun t => { t with owed := t.owed ++ [(pc, f)] })

/-- The oldest record that a strand owes is posted once the queue has room, and the policy acts (R420). -/
def raiseOwed (s : State) (uid k : Nat) : State :=
  match unit? s uid, strand? s uid k with
  | some w, some t =>
    match t.owed with
    | [] => s
    | (pc, f) :: rest =>
      if recordRoom s w.lid then
        raiseFault (setStrand s uid k (fun t => { t with owed := rest })) w.lid (laterRecord s uid k pc f)
      else s
  | _, _ => s

/-- One strand's held `bwait`s test their barriers again: lanes that observe are marked; a path all of whose lanes
have observed goes on; an uninitialised barrier raises BAR_OVER (DEDUCED, log 56). -/
def testStrand (s : State) (uid k : Nat) (t : Strand) : State :=
  t.pends.foldl (fun s d =>
    match isBwait d.instr with
    | none => s
    | some seq =>
      let waiting := lanesOf (d.lanes &&& ~~~d.done)
      let bad := waiting.filter (fun l => (readBar s uid (nth d.addr l 0)).expect == 0)
      match bad with
      | l :: _ =>
        let lid := match unit? s uid with | some w => w.lid | none => 0
        let drop := fun (st : PathSt) => setStrand s uid k (fun t =>
          mapPaths { t with pends := t.pends.filter (fun q => q.id != d.id) } d.lanes (fun p => { p with st := st }))
        if recordRoom s lid then
          laterFault (drop .fault) uid k d.pc
            { code := fBarOver, reason := barUninit, lanes := maskOf (fun l => bad.contains l), done := d.done
              aux := toBytes 4 (nth d.addr l 0), aux2 := scratchGet s uid (nth d.addr l 0) 16 }
        else drop .hold
      | [] =>
        let now := maskOf (fun l => waiting.contains l && observed seq (dataNat d.data l) (readBar s uid (nth d.addr l 0)))
        let done := d.done ||| now
        if d.lanes &&& ~~~done = 0 then
          setStrand s uid k (fun t =>
            mapPaths { t with pends := t.pends.filter (fun q => q.id != d.id) } d.lanes
              (fun p => if p.st = .bwait then { p with st := .run, pc := p.pc + 12 } else p))
        else
          setStrand s uid k (fun t => { t with pends := t.pends.map (fun q => if q.id == d.id then { q with done := done } else q) })) s

/-- Every held `bwait` of a unit tests again (R399). -/
def testWaiters (s : State) (uid : Nat) : State :=
  match unit? s uid with
  | none => s
  | some w => w.strands.foldl (fun s e =>
      if e.2.paths.any (fun p => p.st == .bwait) then testStrand s uid e.1 e.2 else s) s

/-- Writes scratchpad bytes; waiters test their barriers (R395). -/
def scratchWrite (s : State) (uid off : Nat) (bs : List Byte) : State := testWaiters (scratchPut s uid off bs) uid

/-- One step of a barrier: its reason when it fails, else the state with the whole object written (R390). -/
def barStep (s : State) (uid off : Nat) (f : Bar → Except Nat Bar) : Except Nat State :=
  match f (readBar s uid off) with
  | .error r => .error r
  | .ok b => .ok (scratchWrite s uid off (toBytes 16 (barBits b)))

/-! ## Cache actions of an order (R237, R240) -/

/-- Cores of the partition that hold a resident unit of a job. -/
def jobCores (s : State) (r : JobRef) : List Nat :=
  ((s.units.filter (fun e => match launch? s e.2.lid with | some l => l.job == r | none => false)).map (·.2.core)).eraseDups

/-- Promotion: every such core writes back (R240). -/
def promoteJob (s : State) (r : JobRef) : State :=
  (jobCores s r).foldl (fun s c => releaseCore s c) s

def isScratch : Loc → Bool
  | .scratch _ => true
  | _ => false

/-- Does an access at a location act beyond the core (R231, R237)? -/
def Acc.wide (a : Acc) (loc : Loc) : Bool := a.strong && !a.core && !isScratch loc

def beforeAccess (s : State) (w : Who) (job : JobRef) (a : Acc) (loc : Loc) : State :=
  let s := if a.promote && a.wide loc then promoteJob s job else s
  if a.rel && a.wide loc then releaseCore s w.core else s

def afterAccess (s : State) (w : Who) (a : Acc) (loc : Loc) : State :=
  if a.acq && a.wide loc then acquireCore s w.core else s

/-- Performs one lane's access: the value for its destination and the state (DEDUCED, log 48). -/
def performMem (s : State) (w : Who) (job : JobRef) (k : MKind) (loc : Loc) (v : Nat) : Nat × State :=
  let s := beforeAccess s w job k.acc loc
  let r : Nat × State :=
    match k with
    | .load a t =>
      let q := if a.wide loc then strongRead s w loc k.size else weakRead s w loc k.size
      (placeI t (valI t (ofBytes q.1)), q.2)
    | .store a n =>
      (0, if isScratch loc then scratchPut s w.uid (lineOff loc) (toBytes n v)
          else if a.wide loc then strongWrite s w loc (toBytes n v) a.rel else weakWrite s w loc (toBytes n v))
    | .rmw _ f t =>
      let q := rmw s w loc k.size (fun old => some (toBytes k.size (atomNew f t (ofBytes old) v)))
      (ofBytes q.1, q.2)
    | .cas _ n =>
      let q := rmw s w loc n (fun old =>
        if ofBytes old = v % 2 ^ (8 * n) then some (toBytes n (v / 2 ^ (8 * n))) else none)
      (ofBytes q.1, q.2)
  let s := match k with
    | .load _ _ => r.2
    | _ => if isScratch loc then testWaiters r.2 w.uid else r.2
  (r.1, afterAccess s w k.acc loc)
where lineOff : Loc → Nat
  | .scratch o => o
  | _ => 0

/-! ## Loads that wait for their home (R242) -/

/-- Sets the value of lane `l` in an outstanding vector result. -/
def setOutLane (l v : Nat) : Out → Out
  | .vec n ws => .vec n ((ws.zipIdx).map (fun e => setNth e.1 l (BitVec.ofNat 32 (v / 2 ^ (32 * e.2)))))
  | .aff n part _ ls => .aff n part (BitVec.ofNat 64 v) ls

/-- The value of `ldu` at 64 bits (R261). -/
def lduValue (t : Ty) (v : Nat) : Nat := match t with | .s32 => wrap 64 (sext 32 v) | _ => v

/-- The value that an instruction writes for what it has read in a lane. -/
def readValue (i : Instr) (v : Nat) : Nat := match i with | .ldu _ t _ => lduValue t v | _ => v

def setPend (t : Strand) (id : Nat) (f : Pend → Pend) : Strand :=
  { t with pends := t.pends.map (fun d => if d.id == id then f d else d) }

/-- Who a strand's access counts for. -/
def whoOf (s : State) (uid k : Nat) : Who :=
  match unit? s uid with
  | none => { core := 0, world := 0, uid := uid, k := k, charge := false }
  | some w =>
    let q := match Tbl.find? w.strands k with | some t => t.quarter | none => 0
    { core := w.core, world := nth (coreOf s w.core).wCur q 0, uid := uid, k := k, charge := !isPf (fnOfLid w.lid) }

def jobOf (s : State) (lid : Nat) : JobRef := match launch? s lid with | some l => l.job | none => ⟨0, 0⟩

/-- Does a lane's access leave the core, and meet an uncorrectable error (R259)? -/
def meetsUncorr (s : State) (w : Who) (mk : MKind) (loc : Loc) : Bool :=
  let stays := match mk, loc with
    | _, .scratch _ => true
    | .load a n, .mem pa => !a.wide loc && l1Hit (coreOf s w.core) w.world pa (MKind.load a n).size
    | .store a _, .mem _ => !a.wide loc
    | _, _ => false
  !stays && !reachable s (dieOfCore w.core) (portOfUnit s w.uid) loc mk.size mk.reads mk.writes

/-- Performs the waiting lanes of one load that satisfy a test; a lane that meets an uncorrectable error reads nothing (R259). -/
def performTodo (s : State) (uid k : Nat) (p : Loc → Bool) (d : Pend) : State :=
  match memKind d.instr with
  | none => s
  | some mk =>
    ((d.locs.filter (fun e => lane d.todo e.1 && p e.2))).foldl (fun s e =>
      let w := whoOf s uid k
      let one := maskOf (· == e.1)
      if meetsUncorr s w mk e.2 then
        setStrand s uid k (fun t => setPend t d.id (fun q => { q with bad := q.bad ||| one, todo := q.todo &&& ~~~one }))
      else
        let r := performMem s w ⟨0, 0⟩ mk e.2 0
        let lid := match unit? s uid with | some u => u.lid | none => 0
        setStrand (countMisses s r.2 w.core lid) uid k (fun t => setPend t d.id (fun q =>
          { q with outs := q.outs.map (setOutLane e.1 r.1), todo := q.todo &&& ~~~one }))) s

/-- Performs the waiting loads of a strand, among those chosen by `q`, at the locations that satisfy a test. -/
def forceSome (s : State) (uid k : Nat) (q : Pend → Bool) (p : Loc → Bool) : State :=
  match strand? s uid k with
  | none => s
  | some t => (t.pends.filter (fun d => d.todo != 0 && q d)).foldl (fun s d => performTodo s uid k p d) s

/-- Performs the waiting loads of a strand at the locations that satisfy a test. -/
def forceLoads (s : State) (uid k : Nat) (p : Loc → Bool) : State := forceSome s uid k (fun _ => true) p

/-- A relaxed strong load of a home that is not on the core's own die is sent, and performed later. -/
def sendsLoad (w : Who) (k : MKind) (loc : Loc) : Bool :=
  match k, loc with
  | .load a _, .mem pa => a.strong && !a.core && !a.acq && decide (pa / 2 ^ 36 ≠ dieOfCore w.core)
  | .load a _, .host _ => a.strong && !a.core && !a.acq
  | .load a _, .peer _ _ _ => a.strong && !a.core && !a.acq
  | _, _ => false

/-! ## Checks of R257 -/

def xCode : XErr → Nat
  | .prot _ => fProt
  | .scratch => fScratch
  | .miss st c _ _ => if c = 1 then fHostpage else if st then fXlate2 else fXlate1
def xReason : XErr → Nat
  | .prot r => r
  | _ => 0

/-- The lane addresses of a record: each lane of a mask at its own place (R419). -/
def addrList (m : LaneMask) (addr : Nat → Nat) : List Nat :=
  (List.range 32).map (fun l => if lane m l then addr l else 0)

/-- A fault of some lanes: every one is listed with its address (R257). Where lanes of one step fail with different codes, the code
of the lowest one is raised (log 21). -/
def laneFault (addr : Nat → Nat) (bad : List (Nat × XErr)) : FaultInfo :=
  match bad with
  | [] => { code := fProt, lanes := 0 }
  | (_, e) :: _ =>
    let m := maskOf (fun l => bad.any (fun q => q.1 == l))
    { code := xCode e, reason := xReason e, lanes := m, addrs := addrList m addr }

/-- Step 2: the window of every lane. -/
def windowLanes (x : Ctx) (addr : Nat → Nat) (n : Nat) : Except FaultInfo (List (Nat × (Nat ⊕ Nat))) :=
  let rs := x.lanes.map (fun l => (l, decodeAddr x.l.lpb (itemOf x.st l) (addr l) n))
  let bad := rs.filterMap (fun e => match e.2 with | .error q => some (e.1, q) | .ok _ => none)
  if bad.isEmpty then .ok (rs.filterMap (fun e => match e.2 with | .ok q => some (e.1, q) | .error _ => none))
  else .error (laneFault addr bad)

/-- Step 3: alignment. -/
def alignLanes (x : Ctx) (addr : Nat → Nat) (n : Nat) : LaneMask := maskOf (fun l => lane x.tm l && addr l % n != 0)

/-- Step 4: the location of the `n` bytes of every lane, or why it has none. -/
def translateLanes (s : State) (x : Ctx) (n : Nat) (need : Rights) : List (Nat × (Nat ⊕ Nat)) → List (Nat × Except XErr Loc) × State
  | [] => ([], s)
  | (l, .inr o) :: rest =>
    let r := translateLanes s x n need rest
    ((l, .ok (.scratch o)) :: r.1, r.2)
  | (l, .inl va) :: rest =>
    let t := translate s x.w.core x.l.fn x.l.part va n need (!isPf x.l.fn)
    let r := translateLanes t.2 x n need rest
    ((l, t.1) :: r.1, r.2)

def protOf (hostOk : Bool) : Except XErr Loc → Option XErr
  | .error (.prot r) => some (.prot r)
  | .error .scratch => some .scratch
  | .error (.miss _ _ _ _) => none
  | .ok (.host _) => if hostOk then none else some (.prot 7)
  | .ok _ => none

/-- Steps 2 to 4: a fault, or every lane's location or miss. -/
def checkLanes (s : State) (x : Ctx) (addr : Nat → Nat) (n align : Nat) (need : Rights) (hostOk : Bool) :
    Except FaultInfo (List (Nat × Except XErr Loc)) × State :=
  match windowLanes x addr n with
  | .error f => (.error f, s)
  | .ok ws =>
    let a := alignLanes x addr align
    if a ≠ 0 then (.error { code := fAlign, lanes := a, addrs := addrList a addr }, s)
    else
      let t := translateLanes s x n need ws
      let bad := t.1.filterMap (fun e => (protOf hostOk e.2).map (fun q => (e.1, q)))
      if bad.isEmpty then (.ok t.1, t.2) else (.error (laneFault addr bad), t.2)

def okLanes (ls : List (Nat × Except XErr Loc)) : List (Nat × Loc) :=
  ls.filterMap (fun e => match e.2 with | .ok q => some (e.1, q) | .error _ => none)
def missLanes (ls : List (Nat × Except XErr Loc)) : List (Nat × XErr) :=
  ls.filterMap (fun e => match e.2 with | .error q => some (e.1, q) | .ok _ => none)

/-! ## Holds of an access (R214, R247) -/

/-- Do `[a, a + n)` and `[b, b + m)` meet, at one home? -/
def locsMeet (a : Loc) (n : Nat) (b : Loc) (m : Nat) : Bool :=
  match a, b with
  | .mem p, .mem q => decide (p < q + m) && decide (q < p + n)
  | .host p, .host q => decide (p < q + m) && decide (q < p + n)
  | .scratch p, .scratch q => decide (p < q + m) && decide (q < p + n)
  | .peer i v p, .peer j u q => i == j && v == u && decide (p < q + m) && decide (q < p + n)
  | _, _ => false

/-- Bytes of an element of a drain's destination. -/
def elemSize (t : Ty) : Nat := t.bits / 8

/-- An unapplied drain of the strand that the access overlaps, or whose place is unknown because a lane missed
(DEDUCED, log 55). -/
def drainHolds (s : State) (x : Ctx) (locs : List (Nat × Loc)) (n : Nat) (missed : Bool) : Bool :=
  (drainsOf s x.w.core x.uid x.k).any (fun d =>
    missed || locs.any (fun e => d.dst.any (fun q => locsMeet e.2 n q.2 (elemSize d.td.fmt))))

/-- Every entered copy, those of saved units among them. -/
def allCopies (s : State) : List Copy := s.cores.flatMap (fun c => c.2.copies) ++ s.images.flatMap (fun i => i.2.copies)

/-- A scratchpad byte of a copy that has not landed in the unit (R247, R321). -/
def landPending (s : State) (uid off n : Nat) : Bool :=
  (allCopies s).any (fun y => y.parts.any (fun p =>
    p.1 == uid && p.2.any (fun b => !b.landed && (match b.dst with
      | some (.scratch o) => decide (off ≤ o) && decide (o < off + n)
      | _ => false))))

/-- Is the range recorded in the core's scoreboard, and not yet landed? -/
def rangeHolds (s : State) (x : Ctx) (off n : Nat) : Bool :=
  (coreOf s x.w.core).ranges.any (fun r => r.uid == x.uid && decide (r.first < off + n) && decide (off ≤ r.last))
    && landPending s x.uid off n

def rangesHold (s : State) (x : Ctx) (locs : List (Nat × Loc)) (n : Nat) : Bool :=
  locs.any (fun e => match e.2 with | .scratch o => rangeHolds s x o n | _ => false)

/-! ## Issuing a memory instruction -/

/-- What performing lanes leaves: results by lane, lanes sent on, the state, and the lane that met UNCORR. -/
structure LanesDone where
  vals : Tbl Nat := []
  locs : Tbl Loc := []
  s : State
  stop : Option Nat := none

/-- Performs lanes in order, up to one that meets an uncorrectable error. -/
def performLanes (s : State) (w : Who) (job : JobRef) (mk : MKind) (addr data : Nat → Nat) : List (Nat × Loc) → LanesDone
  | [] => { s := s }
  | (l, loc) :: rest =>
    if meetsUncorr s w mk loc then { s := s, stop := some l }
    else
      let w := { w with lane := l, addr := addr l }
      let s := forceLoads s w.uid w.k (fun q => sameLine q loc || mk.acc.acq || mk.acc.rel)
      if sendsLoad w mk loc then
        let r := performLanes s w job mk addr data rest
        { r with locs := Tbl.put r.locs l loc }
      else
        let p := performMem s w job mk loc (data l)
        let r := performLanes p.2 w job mk addr data rest
        { r with vals := Tbl.put r.vals l p.1 }

/-- UNCORR of a lane (R259). -/
def uncorrOf (addr : Nat → Nat) (l : Nat) (done : LaneMask) : FaultInfo :=
  { code := fUncorr, lanes := maskOf (· == l), done := done, addrs := addrList (maskOf (· == l)) addr, precise := false }

/-- The lanes that an UNCORR met at issue names: that of an `ldu` is raised for the whole instruction (R261). -/
def uncorrLanes (x : Ctx) (i : Instr) (m : LaneMask) : LaneMask := match i with | .ldu c _ _ => takesPart x.st x.p c ||| m | _ => m

/-- Does the instruction wait for a value once every lane is performed? `st` and `red` return nothing. -/
def returns : Instr → Bool
  | .st _ _ _ _ | .red _ _ _ _ => false
  | _ => true

/-- Issues `ld`, `st`, `atom`, `atomcas`, `red` or `ldu`: the checks of R257, then every lane that translated is
performed in ascending order and every lane that missed is parked on its request (R258). `outs` makes the covered
destinations from the results; `dw` is the number of data words a lane brings. -/
def memIssue (i : Instr) (la : Nat) (mk : MKind) (addr data : Nat → Nat) (dw : Nat) (outs : (Nat → Nat) → List Out)
    (x : Ctx) (s : State) : Res :=
  let n := mk.size
  match checkLanes s x addr n n mk.rights mk.hostOk with
  | (.error f, _) => .fault f
  | (.ok ls, s1) =>
    let oks := okLanes ls
    let misses := missLanes ls
    if rangesHold s x oks n || drainHolds s x oks n (!misses.isEmpty) ||
        (mk.acc.rel && !(drainsOf s x.w.core x.uid x.k).isEmpty) then .hold
    else
      let (parked, s2) := postReqs s1 x.l.fn (dieOfCore x.w.core) mk.rights misses
      let r := performLanes s2 { x.who s with pc := x.p.pc } x.l.job mk addr data oks
      let (id, s3) := fresh r.s
      let t := (strand? s3 x.uid x.k).getD x.st
      let slotGen := Tbl.getD (coreOf s3 x.w.core).gens (x.st.quarter * 256 + x.st.slot) 0
      let d : Pend :=
        { id := id, pc := x.p.pc, instr := i, lanes := x.tm, win := winList x.tm la
          outs := outs (fun l => Tbl.getD r.vals l 0), ready := 0, took := x.tm
          todo := maskOf (fun l => lane x.tm l && !Tbl.has r.vals l)
          parked := parked, addr := addrList x.tm addr
          data := (List.range 32).map (fun l => if lane x.tm l then words32 dw (fun j => data l / 2 ^ (32 * j)) else [])
          locs := r.locs, gen := slotGen, srcs := srcValues x i, seed := x.st.seed }
      let keep : Bool := !parked.isEmpty || returns i
      match r.stop with
      | none => .go { s := s3, t := t, pend := if keep then some d else none }
      | some l =>
        let f := uncorrOf addr l (maskOf (fun i => Tbl.has r.vals i))
        let f := { f with lanes := uncorrLanes x i f.lanes }
        if recordRoom s x.w.lid then
          .go { s := s3, t := t, pend := if keep then some d else none, after := fun s => laterFault s x.uid x.k x.p.pc f }
        else .hold

/-! ## Replay (R258, R367) -/

/-- The lanes that a fault of an outstanding instruction names: an `ldu`'s are raised for the whole instruction (R261). -/
def faultLanes (d : Pend) (m : LaneMask) : LaneMask := match d.instr with | .ldu _ _ _ => d.took ||| m | _ => m

/-- The lanes of an outstanding instruction that have been performed; an `ldu` is performed as a whole (R261). -/
def doneLanes (d : Pend) : LaneMask :=
  match d.instr with | .ldu _ _ _ => if d.todo = 0 then d.took else 0 | _ => d.took &&& ~~~d.todo

/-- The lanes whose value may return: performed, met by no error, parked on nothing (R258, R259). -/
def returnable (d : Pend) : LaneMask :=
  match d.instr with
  | .ldu _ _ _ => if d.todo = 0 && d.bad = 0 && d.parked.isEmpty then d.lanes else 0
  | _ => d.lanes &&& ~~~d.todo &&& ~~~d.bad &&& ~~~(maskOf (fun l => Tbl.has d.parked l))

/-- After a fault an outstanding instruction performs nothing more: its parked lanes end with it (R258). -/
def stopParked (t : Strand) (id : Nat) : Strand :=
  setPend { t with pends := t.pends.filter (fun d => !(d.reissue && d.id == id)) } id (fun d => { d with parked := [] })

/-- An outstanding memory instruction after lanes `m` were taken again: the values of those performed, the places of those sent,
and the lanes still parked. -/
def replayed (d : Pend) (m : LaneMask) (q : LanesDone) (parked : Tbl (Nat × Bool)) : Pend :=
  { d with outs := q.vals.foldl (fun os e => os.map (setOutLane e.1 (readValue d.instr e.2))) d.outs
           parked := parked, locs := q.locs.foldl (fun acc e => Tbl.put acc e.1 e.2) d.locs
           todo := (d.todo ||| m) &&& ~~~(maskOf (fun i => Tbl.has q.vals i)) }

/-- The faults of replayed lanes: UNCORR of the lane that met it, and then PROT of lanes taken before it, or of every lane taken
(R258, R259; DEDUCED, log 140). DONE marks the lanes performed. -/
def replayFaults (s : State) (uid k : Nat) (d : Pend) (addr : Nat → Nat) (stop : Option Nat) (bad : List (Nat × XErr)) : State :=
  let done := doneLanes d
  let prot (s : State) (bad : List (Nat × XErr)) : State :=
    if bad.isEmpty then s
    else
      let f := laneFault addr bad
      laterFault (setStrand s uid k (fun t => stopParked t d.id)) uid k d.pc { f with lanes := faultLanes d f.lanes, done := done }
  match stop with
  | none => prot s bad
  | some i =>
    let f := uncorrOf addr i done
    prot (laterFault s uid k d.pc { f with lanes := faultLanes d f.lanes }) (bad.filter (fun e => decide (e.1 < i)))

/-- Lanes of an outstanding memory instruction are checked again from step 4, in ascending order, and performed or parked
again; `left` are the lanes still parked on other requests (R258). -/
def replayLanes (s : State) (uid k : Nat) (d : Pend) (m : LaneMask) (left : Tbl (Nat × Bool)) : State :=
  match unit? s uid, memKind d.instr, strand? s uid k with
  | some w, some mk, some t =>
    match launch? s w.lid with
    | none => s
    | some l =>
      let x : Ctx := ⟨uid, k, w, t, 0, ⟨d.pc, m, .run, 0, [], []⟩, l, m, s.clock⟩
      let addr := fun i => nth d.addr i 0
      let ws := match windowLanes x addr mk.size with | .ok ws => ws | .error _ => []
      let r := translateLanes s x mk.size mk.rights ws
      let bad := r.1.filterMap (fun e => (protOf mk.hostOk e.2).map (fun q => (e.1, q)))
      let oks := (okLanes r.1).filter (fun e => !bad.any (fun b => b.1 == e.1))
      let misses := (missLanes r.1).filter (fun e => !bad.any (fun b => b.1 == e.1))
      let (tags, s2) := postReqs r.2 l.fn (dieOfCore w.core) mk.rights misses
      let parked := tags.foldl (fun acc e => Tbl.put acc e.1 e.2) left
      let q := performLanes s2 { whoOf s uid k with pc := d.pc } l.job mk addr (fun i => dataNat d.data i) oks
      let d2 := replayed d m q parked
      let s3 := setStrand (countMisses s q.s w.core w.lid) uid k (fun t =>
        if parked.isEmpty && !returns d.instr then { t with pends := t.pends.filter (fun y => y.id != d.id) }
        else setPend t d.id (fun y => replayed y m q parked))
      replayFaults s3 uid k d2 addr q.stop bad
  | _, _, _ => s

/-- A parked instruction that is to issue again goes on once none of its lanes waits (R258): it keeps its record only if it has
done something, or has read descriptors (R311, R319, R356). -/
def releaseParked (s : State) (uid k : Nat) (d : Pend) (left : Tbl (Nat × Bool)) : State :=
  setStrand s uid k (fun t =>
    let t := setPend t d.id (fun q => { q with parked := left })
    if left.isEmpty then
      let t := if d.done = 0 && d.tds.isEmpty then { t with pends := t.pends.filter (fun q => q.id != d.id) } else t
      mapPaths t d.lanes (fun p => if p.st = .fault then { p with st := .run } else p)
    else t)

/-- Every lane that waits on a tag raises the request's fault (R367). -/
def failPend (s : State) (uid k : Nat) (d : Pend) (tag : Nat) (pfq : Bool) (code : Nat) : State :=
  let back := d.parked.filter (fun e => e.2 == (tag, pfq))
  if back.isEmpty then s
  else
    let m := maskOf (fun i => back.any (fun e => e.1 == i))
    let done := if d.reissue then d.done else doneLanes d
    laterFault (setStrand s uid k (fun t => stopParked t d.id)) uid k d.pc
      { code := code, lanes := faultLanes d m, done := done, precise := d.reissue && d.done == 0
        addrs := if d.addr.isEmpty then [] else addrList m (fun i => nth d.addr i 0), aux := toBytes 4 (tag % 65536) }

/-! ## Instructions that wait with something done (R258, R311, R319, R356) -/

/-- What an instruction had done before it waited: its lanes performed, their results, the descriptors it has read. -/
def progressOf (x : Ctx) (i : Instr) : Option Pend :=
  x.st.pends.find? (fun d => d.reissue && d.instr == i && d.pc == x.p.pc && (d.lanes &&& x.p.lanes) != 0)

/-- A strand without that record. -/
def dropProgress (t : Strand) (x : Ctx) (i : Instr) : Strand :=
  { t with pends := t.pends.filter (fun d =>
      !(d.reissue && d.instr == i && d.pc == x.p.pc && (d.lanes &&& x.p.lanes) != 0)) }

/-- The path waits, on requests or on a resource; the strand keeps what is done, and the instruction issues again. -/
def keepWaiting (s : State) (x : Ctx) (i : Instr) (f : Pend → Pend) : Res :=
  let (id, s) := fresh s
  let t := dropProgress ((strand? s x.uid x.k).getD x.st) x i
  let d : Pend := f { id := id, pc := x.p.pc, instr := i, lanes := x.tm, win := [], outs := [], ready := 0, reissue := true
                      srcs := srcValues x i, seed := x.st.seed }
  let t := { t with pends := t.pends ++ [d] }
  if d.parked.isEmpty then .holdWith s t else .parkWith s t

/-- The descriptors of an instruction: those read when it first issued, while it waits (R356). -/
def keptTds (x : Ctx) (i : Instr) : List Tdesc := match progressOf x i with | some d => d.tds | none => []

/-- The resident strands of a VF with lanes that wait on a tag, each with the instruction. -/
def waitersOf (s : State) (vf tag : Nat) (pfq : Bool) : List (Nat × Nat × Pend) :=
  (s.units.filter (fun e => fnOfLid e.2.lid == vf)).flatMap (fun e =>
    e.2.strands.flatMap (fun t =>
      (t.2.pends.filter (fun d => d.parked.any (fun p => p.2 == (tag, pfq)))).map (fun d => (e.1, t.1, d))))

/-! ## Whole instructions that probe before they act (R206, R211, R215, R319, R353) -/

/-- A failed probe of a whole instruction: a fault of every lane of T, or every lane parks on one request. While none can be posted
the miss waits as a resource hold (R365). -/
def failWhole (s : State) (x : Ctx) (need : Rights) (e : XErr) (addrs : List Nat) : Res :=
  match e with
  | .miss st c tb pg =>
    match postReq s x.l.fn (dieOfCore x.w.core) need st c tb pg with
    | none => .hold
    | some (tag, s) => .park s (x.lanes.map (fun l => (l, (tag, st))))
  | _ => .fault { code := xCode e, reason := xReason e, lanes := x.tm, addrs := addrs }

/-- The same of an instruction that keeps the descriptors it has read (R356). -/
def failKeeping (s : State) (x : Ctx) (i : Instr) (tds : List Tdesc) (need : Rights) (e : XErr) : Res :=
  match failWhole s x need e [] with
  | .park s tags => keepWaiting s x i (fun d => { d with parked := tags, tds := tds })
  | r => r

/-- Does a weak read of located bytes meet an uncorrectable error: outside the L1, a sector that cannot be reached (R259)? -/
def readUncorr (s : State) (x : Ctx) (loc : Loc) (n : Nat) : Bool :=
  let die := dieOfCore x.w.core
  let h := portOfFn s x.l.fn
  match loc with
  | .scratch _ => false
  | .mem pa => (sectorsOf pa n).any (fun sec =>
      let lo := max pa (secBase sec)
      !l1Hit (coreOf s x.w.core) (x.who s).world lo (min (pa + n) (secBase sec + 48) - lo) && !reachable s die h (.mem lo) 1)
  | _ => !reachable s die h loc n

/-- The parts of `[a, a + n)` by page: (address, bytes). -/
def pagePieces (a n : Nat) : List (Nat × Nat) :=
  if n = 0 then []
  else (List.range ((a + n - 1) / pageBytes - a / pageBytes + 1)).map (fun i =>
    let lo := max a ((a / pageBytes + i) * pageBytes)
    let hi := min (a + n) ((a / pageBytes + i + 1) * pageBytes)
    (lo, hi - lo))

/-- The locations of `[a, a + n)`, page by page, or the first failure. -/
def locPieces (s : State) (core fn part : Nat) (need : Rights) : List (Nat × Nat) →
    Except (Nat × XErr) (List (Loc × Nat)) × State
  | [] => (.ok [], s)
  | (a, n) :: rest =>
    let t := translate s core fn part a n need (!isPf fn)
    match t.1 with
    | .error e => (.error (a, e), t.2)
    | .ok loc =>
      let r := locPieces t.2 core fn part need rest
      (r.1.map (fun ls => (loc, n) :: ls), r.2)

/-- A weak read of located pieces. -/
def readPieces (s : State) (w : Who) : List (Loc × Nat) → List Byte × State
  | [] => ([], s)
  | (loc, n) :: rest =>
    let r := weakRead s w loc n
    let q := readPieces r.2 w rest
    (r.1 ++ q.1, q.2)

/-- A fetch through a core's L1: every 192-byte line that it touches is read whole (R64). -/
def fetchPieces (s : State) (w : Who) (ls : List (Loc × Nat)) : List Byte × State :=
  readPieces (ls.foldl (fun s e => match e.1 with
    | .mem pa => l1Fill s w.core w.charge w.world (lineBase pa) 192
    | _ => s) s) w ls

end Sys2Proof.Machine
end

