-- ==== Sys2Proof/Machine/Memory.lean ====
section
/-! DEFINITION. Group 9: `ld`, `st`, `ldu`, `pvaddr` and `pf` (R253-R263), and the span form of `ldu` (R45, R58). -/

namespace Sys2Proof.Machine

open Sys2Proof

/-- The covered destination of a result of `w` words (R79); none for a null destination. -/
def vecOuts (d : Opnd) (w : Nat) (m : LaneMask) (v : Nat → Nat) : List Out :=
  match d with
  | .vec n => [outVec n.val w m v]
  | _ => []

/-- `ld` (R260). -/
def execLd (c : Ctl) (acc : Fin 10) (t : Ty) (o : Ops) (s : State) : Host.Outcome State Fault Refusal :=
  ramson (.ld c acc t o) (fun x s =>
    memIssue (.ld c acc t o) c.la.val (.load (ldAcc acc.val) t) (readAddr x o.a o.b o.c) (fun _ => 0) 0
      (vecOuts o.d t.words x.tm) x s) s

/-- `st` (R260): a null D stores zeros. -/
def execSt (c : Ctl) (acc : Fin 9) (t : Ty) (o : Ops) (s : State) : Host.Outcome State Fault Refusal :=
  ramson (.st c acc t o) (fun x s =>
    memIssue (.st c acc t o) c.la.val (.store (stAcc acc.val) (t.bits / 8)) (readAddr x o.a o.b o.c)
      (readSrc x (.int t.words false) o.d) t.words (fun _ => []) x s) s

/-! ## `ldu` (R261) -/

def lduOffset (b : Opnd) : Int := match b with | .lit v => sext 32 v.toNat | _ => 0

/-- The value of an `ldu` is outstanding for every lane of the path; each names the one address read. -/
def lduPend (x : Ctx) (c : Ctl) (a : Nat) (d : Pend) : Pend :=
  { d with lanes := x.p.lanes, took := x.tm, win := winList x.p.lanes c.la.val, addr := List.replicate 32 a }

/-- `ldu` in a strand: one read, at the address of the lowest lane of T, written for the whole path. -/
def lduStrand (c : Ctl) (t : Ty) (o : Ops) (x : Ctx) (s : State) : Res :=
  let one : LaneMask := maskOf (· == x.low)
  let addr := fun l => wrap 64 ((affLane (readPair x o.a) l : Int) + lduOffset o.b)
  let outs := fun (v : Nat → Nat) =>
    match o.d with
    | .aff n part => [Out.aff n.val part (BitVec.ofNat 64 (lduValue t (v x.low))) x.p.lanes]
    | _ => []
  match memIssue (.ldu c t o) c.la.val (.load {} t) addr (fun _ => 0) 0 outs { x with tm := one } s with
  | .fault f => .fault { f with lanes := x.tm }
  | .go g => .go { g with pend := g.pend.map (lduPend x c (addr x.low)) }
  | r => r

/-- The quarter whose affine unit runs the unit spans of a unit: that of its strand 0 (R44); where strand 0 holds no live item and is
not created (R51), that of its lowest strand (DESIGN CHOICE, log 160). -/
def spanQuarter (w : WUnit) : Nat := match w.strands with | (_, t) :: _ => t.quarter | [] => 0

/-- Who a unit span's access counts for (R44). -/
def spanWho (s : State) (x : SpanCtx) (uid : Nat) (w : WUnit) : Who :=
  { core := w.core, world := nth (coreOf s w.core).wCur (spanQuarter w) 0, uid := uid, k := 0, charge := !isPf x.l.fn }

/-- The windows that an `ldu` of a span may read (R45): the global one, and in a unit span the scratchpad. -/
def lduWindow (x : SpanCtx) (n a : Nat) : Bool :=
  match x.pl, window a n with
  | _, .global _ => true
  | .unit _, .scratch _ => true
  | _, _ => false

/-- The read of a span's `ldu`: a launch span has no core, and reads at the home through the translations of its
cluster's first core; none where a strand would fault or miss (R45). -/
def lduRead (s : State) (x : SpanCtx) (ty : Ty) (a : Nat) : Option (Nat × State) :=
  let n := ty.bits / 8
  if a % n ≠ 0 then none
  else
    match x.pl with
    | .table cl =>
      match window a n with
      | .global va =>
        let t := translate s (2 * cl) x.l.fn x.l.part va n .read (!isPf x.l.fn)
        match t.1 with
        | .ok loc =>
          if reachable t.2 (dieOfCluster cl) (portOfFn t.2 x.l.fn) loc n then
            some (ofBytes (readHome t.2 loc n), touchHome t.2 (!isPf x.l.fn) loc n false)
          else none
        | .error _ => none
      | _ => none
    | .unit u =>
      match x.w, window a n with
      | some w, .global va =>
        let t := translate s w.core x.l.fn x.l.part va n .read (!isPf x.l.fn)
        match t.1 with
        | .ok loc =>
          if meetsUncorr t.2 (spanWho s x u w) (.load {} ty) loc then none
          else let r := weakRead t.2 (spanWho s x u w) loc n; some (ofBytes r.1, r.2)
        | .error _ => none
      | some _, .scratch off => if off + n ≤ x.l.lpb.scratch then some (ofBytes (scratchGet s u off n), s) else none
      | _, _ => none

/-- A scratchpad byte of the access has a copy under way (R247). -/
def lduHeld (s : State) (x : SpanCtx) (n a : Nat) : Bool :=
  match x.pl, window a n with
  | .unit u, .scratch off => landPending s u off n
  | _, _ => false

/-- `ldu` in a span (R45, R58): weak, uniform; the value stays outstanding until it returns. -/
def lduSpan (c : Ctl) (t : Ty) (o : Ops) (s : State) (x : SpanCtx) : State :=
  match spanGuard x.sp c, spanPair x o.a, o.d with
  | some g, some b, .aff n part =>
    let a := wrap 64 ((b.base.toNat : Int) + lduOffset o.b)
    if b.stride ≠ 0 || !lduWindow x (t.bits / 8) a then spanCut s x
    else if !g then spanNext s x x.sp
    else if spanCovers x.sp n.val then spanCut s x
    else if lduHeld s x (t.bits / 8) a then s
    else
      match lduRead s x t a with
      | none => spanCut s x
      | some (v, s) =>
        let sp := spanSettle { x.sp with pc := x.sp.pc + 12 }
        let w : SWin := ⟨n.val, part, BitVec.ofNat 64 (lduValue t v), false, c.la.val, a, t, x.sp.pc, some (.ldu c t o),
          match o.a with | .aff m _ => affBytes (spanAff x.sp m.val) | _ => [], false⟩
        let sp := { sp with wins := sp.wins ++ [w], st := if c.la.val = 0 then .ldu else sp.st }
        markSpan (setSpans s x.pl (fun tb => Tbl.put tb x.slot sp)) x
  | _, _, _ => spanCut s x

/-- `ldu` (R261). -/
def execLdu (c : Ctl) (t : Ty) (o : Ops) (s : State) : Host.Outcome State Fault Refusal :=
  ramsonS (.ldu c t o) (lduStrand c t o) (lduSpan c t o) s

/-! ## `pvaddr` and `pf` -/

/-- The alias of a formed address (R262). -/
def pvAlias (l : Lpb) (item a : Nat) : Except XErr Nat :=
  match window a 1 with
  | .global va => .ok va
  | .priv off => if off < l.priv then .ok (privAlias l item off) else .error (.prot 1)
  | _ => .error (.prot 1)

/-- `pvaddr` (R262). -/
def execPvaddr (c : Ctl) (o : Ops) (s : State) : Host.Outcome State Fault Refusal :=
  ramson (.pvaddr c o) (fun x s =>
    let addr := readAddr x o.a o.b o.c
    let r := fun l => pvAlias x.l.lpb (itemOf x.st l) (addr l)
    let bad := x.lanes.filterMap (fun l => match r l with | .error e => some (l, e) | .ok _ => none)
    if bad.isEmpty then
      giveVec x s x.st (.pvaddr c o) c o.d 2 (fun l => match r l with | .ok v => v % 2 ^ 64 | .error _ => 0)
    else .fault (laneFault addr bad)) s

/-- Prefetches one lane: a translation that fails, a scratchpad or host location, a line that cannot be read do nothing (R263). -/
def prefetchLane (x : Ctx) (l2 : Bool) (s : State) (l a : Nat) : State :=
  match decodeAddr x.l.lpb (itemOf x.st l) a 1 with
  | .ok (.inl va) =>
    let t := translate s x.w.core x.l.fn x.l.part va 1 .read (!isPf x.l.fn)
    match t.1 with
    | .ok (.mem pa) =>
      let w := x.who s
      if !reachable t.2 (dieOfCore x.w.core) (portOfFn t.2 x.l.fn) (.mem (lineBase pa)) 192 then t.2
      else if l2 then l2Touch t.2 w.charge (lineBase pa) 192 false
      else l1Fill t.2 w.core w.charge w.world (lineBase pa) 192
    | _ => t.2
  | _ => s

/-- `pf` (R263): a lane that names an unmapped register is skipped. -/
def execPf (c : Ctl) (l2 : Bool) (o : Ops) (s : State) : Host.Outcome State Fault Refusal :=
  ramson (.pf c l2 o) (fun x s =>
    let skip := match shape (.pf c l2 o) with | some sh => unmappedLanes x sh o | none => 0
    .go { s := (x.lanes.filter (fun l => !lane skip l)).foldl (fun s l => prefetchLane x l2 s l (readAddr x o.a o.b o.c l)) s, t := x.st }) s

end Sys2Proof.Machine
end

