-- ==== Sys2Proof/Machine/Atomic.lean ====
section
/-! DEFINITION. Group 10: `atom`, `atomcas`, `red` and `fence` (R264-R270). -/

namespace Sys2Proof.Machine

open Sys2Proof

/-- `atom` (R264, R267). -/
def execAtom (c : Ctl) (f : AtomFn) (t : Ty) (o : Ops) (s : State) : Host.Outcome State Fault Refusal :=
  ramson (.atom c f t o) (fun x s =>
    memIssue (.atom c f t o) c.la.val (.rmw (constAcc o.c) f t) (fun l => readSrc x (.int 2 false) o.a l)
      (readSrc x (rdAtom t) o.b) t.words (vecOuts o.d t.words x.tm) x s) s

/-- `atomcas` (R266, R267): compare in the low half of the group, the new value in the high half. -/
def execAtomcas (c : Ctl) (t : Ty) (o : Ops) (s : State) : Host.Outcome State Fault Refusal :=
  ramson (.atomcas c t o) (fun x s =>
    memIssue (.atomcas c t o) c.la.val (.cas (constAcc o.c) (t.bits / 8)) (fun l => readSrc x (.int 2 false) o.a l)
      (readSrc x (.int (2 * t.words) false) o.b) (2 * t.words) (vecOuts o.d t.words x.tm) x s) s

/-- `red` (R267): returns nothing. -/
def execRed (c : Ctl) (f : AtomFn) (t : Ty) (o : Ops) (s : State) : Host.Outcome State Fault Refusal :=
  ramson (.red c f t o) (fun x s =>
    memIssue (.red c f t o) c.la.val (.rmw (constAcc o.c) f t) (fun l => readSrc x (.int 2 false) o.a l)
      (readSrc x (rdAtom t) o.b) t.words (fun _ => []) x s) s

/-- The L1 actions of a fence of one thread (R237, R270): its release half, then its acquire half. -/
def fenceAct (s : State) (w : Who) (a : Acc) : State :=
  let s := if a.rel && !a.core then releaseCore s w.core else s
  if a.acq && !a.core then acquireCore s w.core else s

/-- `fence` (R270); a release half waits for the strand's drains (R214). -/
def execFence (c : Ctl) (o : Ops) (s : State) : Host.Outcome State Fault Refusal :=
  ramson (.fence c o) (fun x s =>
    let a := constAcc o.c
    if a.rel && !(drainsOf s x.w.core x.uid x.k).isEmpty then .hold
    else
      let s := fenceAct (forceLoads s x.uid x.k (fun _ => true)) (x.who s) a
      .go { s := s, t := (strand? s x.uid x.k).getD x.st }) s

end Sys2Proof.Machine
end

