-- ==== Sys2Proof/Machine/Tensor.lean ====
section
/-! DEFINITION. Tensor descriptors: validity (R350), element and scale addresses (R349), elements and scales as exact
values (R111-R113), and the entries of a core's table (R351). -/

namespace Sys2Proof.Machine

open Sys2Proof

def Tdesc.unscaled (d : Tdesc) : Bool := d.sdir == 0 || d.unsc

/-- Bytes of an element that is not block floating point (R349). -/
def Tdesc.esz (d : Tdesc) : Nat := d.fmt.bits / 8

/-- The 256 bits of a descriptor read from memory, none when its type code is not one of R348. -/
def tdescOf (v : Nat) : Option Tdesc :=
  (tyOf (fld v 248 5)).map (fun t =>
    { base := BitVec.ofNat 64 v, sbase := BitVec.ofNat 64 (v / 2 ^ 64), rows := fld v 128 32, cols := fld v 160 32
      pitch := fld v 192 32, spitch := fld v 224 24, fmt := t, sdir := fld v 253 2, unsc := fld v 255 1 == 1 })

/-- The 256 bits of a descriptor (R348). -/
def tdescBits (d : Tdesc) : Nat :=
  d.base.toNat + d.sbase.toNat * 2 ^ 64 + (d.rows % 2 ^ 32) * 2 ^ 128 + (d.cols % 2 ^ 32) * 2 ^ 160 + (d.pitch % 2 ^ 32) * 2 ^ 192
    + (d.spitch % 2 ^ 24) * 2 ^ 224 + tyCode d.fmt * 2 ^ 248 + (d.sdir % 4) * 2 ^ 253 + (if d.unsc then 2 ^ 255 else 0)

def tdFormats : List Ty :=
  [.s8, .b8, .b16, .b32, .f32, .f16, .bf16, .e4m3, .e5m2, .bfp2, .bfp3, .bfp4, .bfp5, .bfp6, .bfp7, .bfp8]

/-- Storage rows and the bytes of one; scale rows and the bytes of one (R349, R350). -/
def Tdesc.storage (d : Tdesc) : Nat × Nat :=
  if d.fmt.isBfp then
    if d.sdir = 2 then (d.rows / 32, d.cols * (4 * d.fmt.bits)) else (d.rows, d.cols / 32 * (4 * d.fmt.bits))
  else (d.rows, d.esz * d.cols)
def Tdesc.scales (d : Tdesc) : Nat × Nat := if d.sdir = 1 then (d.rows, d.cols / 32) else (d.rows / 32, d.cols)

/-- First byte and bytes of a run of rows. -/
def extent (base rows pitch width : Nat) : Nat × Nat := (base, if rows = 0 then 0 else (rows - 1) * pitch + width)

inductive Space where
  | global | scratch
deriving DecidableEq, Repr

/-- The window, global or scratchpad, that holds every byte of a range. -/
def spaceOfRange (r : Nat × Nat) : Option Space :=
  match window r.1 r.2 with
  | .global _ => some .global
  | .scratch _ => some .scratch
  | _ => none

def Tdesc.space (d : Tdesc) : Option Space :=
  spaceOfRange (extent d.base.toNat d.storage.1 d.pitch d.storage.2)

/-- R350. -/
def Tdesc.valid (d : Tdesc) : Bool :=
  tdFormats.contains d.fmt && d.sdir != 3 && decide (1 ≤ d.rows) && decide (1 ≤ d.cols)
    && (!d.fmt.isBfp || d.sdir == 1 || d.sdir == 2)
    && (!(d.fmt ∈ [Ty.f32, .b8, .b16, .b32]) || d.sdir == 0)
    && (d.sdir != 1 || d.cols % 32 == 0) && (d.sdir != 2 || d.rows % 32 == 0)
    && d.base.toNat % 16 == 0 && d.pitch % 16 == 0
    && decide (d.storage.2 ≤ d.pitch)
    && (d.unscaled || decide (d.scales.2 ≤ d.spitch))
    && d.space.isSome
    && (d.unscaled || spaceOfRange (extent d.sbase.toNat d.scales.1 d.spitch d.scales.2) == d.space)

/-- The descriptor that a strand of a launch may use under an identifier (R351). -/
def tdUse (s : State) (core lid n : Nat) : Option Tdesc :=
  match Tbl.find? (coreOf s core).td n with
  | some e => if e.valid && e.lid == lid then some e.d else none
  | none => none

/-- Address of element (r, c), and for block floating point the element's place in its block string (R349). -/
def Tdesc.addr (d : Tdesc) (r c : Nat) : Nat × Nat :=
  let b := d.base.toNat
  if d.fmt.isBfp then
    if d.sdir = 2 then (b + r / 32 * d.pitch + 4 * d.fmt.bits * c, r % 32)
    else (b + r * d.pitch + 4 * d.fmt.bits * (c / 32), c % 32)
  else (b + r * d.pitch + d.esz * c, 0)

/-- Address of the scale byte of element (r, c) (R349). -/
def Tdesc.saddr (d : Tdesc) (r c : Nat) : Nat :=
  if d.sdir = 1 then d.sbase.toNat + r * d.spitch + c / 32 else d.sbase.toNat + r / 32 * d.spitch + c

/-- The raw bits of element (r, c), through a read of `n` bytes at an address. -/
def Tdesc.raw (d : Tdesc) (rd : Nat → Nat → List Byte) (r c : Nat) : Nat :=
  let a := d.addr r c
  if d.fmt.isBfp then
    let bit := d.fmt.bits * a.2
    fld (ofBytes (rd (a.1 + bit / 8) (if bit % 8 + d.fmt.bits ≤ 8 then 1 else 2))) (bit % 8) d.fmt.bits
  else ofBytes (rd a.1 d.esz)

/-- The scale byte of element (r, c); 1.0 when the tensor is unscaled (R113, R348). -/
def Tdesc.scaleRaw (d : Tdesc) (rd : Nat → Nat → List Byte) (r c : Nat) : Nat :=
  if d.unscaled then (if d.fmt.isBfp then 0x7F else 0x38) else ofBytes (rd (d.saddr r c) 1)

/-- The exact value of an element by format, with its block's exponent byte (R111, R112): a BFP element is its
integer M, and NaN in a NaN block. -/
def elemValue (t : Ty) (raw scale : Nat) : Ext :=
  if t.isBfp then (if scale = 255 then .nan else extOfInt (sext t.bits raw))
  else if t.isFloat then dec t raw
  else extOfInt (valI t raw)

/-- The exact value of a scale byte: 2^(e − 125 − m), or an E4M3 value (R111, R113). -/
def scaleValue (t : Ty) (scale : Nat) : Ext :=
  if t.isBfp then (if scale = 255 then .nan else scaleX ((scale : Int) - 125 - t.bits) (extOfInt 1))
  else decodeF fmtE4M3 scale

/-- Offset in the unit's scratchpad of an address of the scratchpad window. -/
def scratchOff (a : Nat) : Nat := a - 2 ^ 54

/-- Does `[a, a + n)` lie inside the allocation? -/
def inScratch (l : Lpb) (a n : Nat) : Bool := decide (2 ^ 54 ≤ a) && decide (a + n ≤ 2 ^ 54 + l.scratch)

end Sys2Proof.Machine
end

