-- ==== Sys2Proof/Machine/Matrix.lean ====
section
/-! DEFINITION. Group 13 and the matrix unit: tiles, signing and issue of `mma` (R202-R207), its start and completion
(R208-R210), tile moves (R211), `mdrain` (R212-R215). -/

namespace Sys2Proof.Machine

open Sys2Proof

/-! ## Contexts and tiles (R202, R203) -/

/-- Position of strand k among the unit's created strands (R33). -/
def strandIndex (w : WUnit) (k : Nat) : Nat := (w.strands.findIdx? (fun e => e.1 == k)).getD 0

/-- The context of a strand in its quarter (R203). -/
def mctxOf (w : WUnit) (k q : Nat) : Nat :=
  let cs := Tbl.getD w.ctx q []
  nth cs (strandIndex w k / 4 % cs.length) 0

def setCtx (s : State) (core q n : Nat) (f : MCtx → MCtx) : State :=
  setQuarter s core q (fun r => { r with ctxs := setNth r.ctxs n (f (nth r.ctxs n {})) })

def tileGet (t : Tbl Word) (tile i j : Nat) : Word := Tbl.getD t (2048 * tile + 64 * i + j) 0
/-- Writes an element; +0 is not listed. -/
def tilePut (t : Tbl Word) (tile i j : Nat) (v : Word) : Tbl Word :=
  if v = 0 then Tbl.del t (2048 * tile + 64 * i + j) else Tbl.put t (2048 * tile + 64 * i + j) v
def tileClear (t : Tbl Word) (tile : Nat) : Tbl Word :=
  t.filter (fun e => decide (e.1 < 2048 * tile) || decide (2048 * tile + 2048 ≤ e.1))
def tileOnly (t : Tbl Word) (tile : Nat) : Tbl Word :=
  (t.filter (fun e => decide (2048 * tile ≤ e.1) && decide (e.1 < 2048 * tile + 2048))).map (fun e => (e.1 - 2048 * tile, e.2))

def accNum (o : Opnd) : Nat := match o with | .acc n => n.val | _ => 0
def tdNum (o : Opnd) : Nat := match o with | .td n => n.val | _ => 0

/-! ## Holds on a tile (R209, R213) -/

def mmaPending (s : State) (core q c tile : Nat) : Bool :=
  let r := quarterOf s core q
  (nth r.ctxs c {}).queue.any (fun m => m.tile == tile) ||
    (match r.running with | some m => m.ctx == c && m.m.tile == tile | none => false)

def snapPending (s : State) (core q c tile : Nat) : Bool :=
  (quarterOf s core q).drains.any (fun d => d.ctx == c && d.tile == tile && d.snapshot.isNone)

/-- A signed `mma` of the strand on the tile, not yet issued; `but` is the register of the asking `mma` itself. -/
def signPending (t : Strand) (tile : Nat) (but : Option Nat) : Bool :=
  (t.convs.zipIdx).any (fun e => e.1.st == .matrix && some e.2 != but &&
    (match e.1.op with | some p => p.tile == tile | none => false))

/-- Must a reader of the tile wait? (DEDUCED, log 49) -/
def tileBusy (s : State) (x : Ctx) (tile : Nat) : Bool :=
  let q := x.st.quarter
  mmaPending s x.w.core q (mctxOf x.w x.k q) tile || signPending x.st tile none
/-- Must a writer? -/
def tileLocked (s : State) (x : Ctx) (tile : Nat) : Bool :=
  tileBusy s x tile || snapPending s x.w.core x.st.quarter (mctxOf x.w x.k x.st.quarter) tile

/-! ## `mma`: operands at issue (R207) -/

def family (t : Ty) : Nat :=
  match t with
  | .e4m3 | .e5m2 => 1
  | .s8 => 2
  | .f16 | .bf16 => 3
  | _ => if t.isBfp then 4 else 0

/-- Ranges of scratchpad that the operands read: (address, bytes). -/
def mmaRanges (a b : Tdesc) (rows : List Nat) (koff noff : Nat) : List (Nat × Nat) :=
  let wa := if a.fmt.isBfp then 12 * a.fmt.bits else 96 * a.esz
  let ra := rows.flatMap (fun r =>
    [((a.addr r koff).1, wa)] ++ (if a.unscaled then [] else [(a.saddr r koff, 3)]))
  let rb :=
    if b.fmt.isBfp then (List.range 3).map (fun i => ((b.addr (koff + 32 * i) noff).1, 64 * (4 * b.fmt.bits)))
    else (List.range 96).map (fun i => ((b.addr (koff + i) noff).1, 64 * b.esz))
  let sb := if b.unscaled then [] else (List.range 3).map (fun i => (b.saddr (koff + 32 * i) noff, 64))
  ra ++ rb ++ sb

/-- The conditions of R207: the code of the fault, or the two descriptors. -/
def mmaCheck (s : State) (core lid : Nat) (l : Lpb) (p : MmaOp) (signed : LaneMask) (rows : List Word) :
    Except Nat (Tdesc × Tdesc) :=
  match tdUse s core lid p.tdA, tdUse s core lid p.tdB with
  | some a, some b =>
    let rs := (lanesOf signed).map (fun i => (nth rows i 0).toNat)
    if a.space != some .scratch || b.space != some .scratch then .error fTd
    else if family a.fmt = 0 || family a.fmt != family b.fmt then .error fTd
    else if !(a.sdir == 1 || (a.sdir == 0 && !a.fmt.isBfp)) || !(b.sdir == 2 || (b.sdir == 0 && !b.fmt.isBfp)) then .error fTd
    else if p.koff % 32 != 0 || a.cols < p.koff + 96 || b.rows < p.koff + 96 then .error fTd
    else if p.noff < 0 || (b.cols : Int) < p.noff + 64 then .error fTd
    else if rs.any (fun r => decide (a.rows ≤ r)) then .error fTd
    else if (mmaRanges a b rs p.koff p.noff.toNat).any (fun e => !inScratch l e.1 e.2) then .error fScratch
    else .ok (a, b)
  | _, _ => .error fTd

def liveLanes (t : Strand) : LaneMask := t.paths.foldl (fun m p => m ||| p.lanes) 0

/-- Has every lane still expected signed? -/
def fullySigned (t : Strand) (v : Conv) : Bool := v.mask &&& liveLanes t &&& ~~~v.signed == 0

def queueFull (s : State) (core q c : Nat) : Bool := decide (4 ≤ (nth (quarterOf s core q).ctxs c {}).queue.length)

def clearConv (t : Strand) (k : Nat) : Strand :=
  { t with convs := setNth t.convs k { convOf t k with mask := 0, signed := 0, st := .idle, op := none } }

/-- Appends an `mma` to its context's queue (R206). -/
def appendMma (s : State) (w : WUnit) (uid k q : Nat) (p : MmaOp) (v : Conv) (a b : Tdesc) : State :=
  setCtx s w.core q (mctxOf w k q) (fun c => { c with queue := c.queue ++
    [⟨uid, k, p.tile, v.signed, v.rows, p.koff, p.noff, a, b, []⟩] })

/-- Issues the fully signed `mma`s of a strand that found no room when they were signed, or whose last missing lane
has exited (R206). -/
def tryMatrix (s : State) (uid k : Nat) : State :=
  (List.range 8).foldl (fun s n =>
    match unit? s uid with
    | none => s
    | some w =>
      match Tbl.find? w.strands k, launch? s w.lid with
      | some t, some l =>
        let v := convOf t n
        match v.op with
        | some p =>
          if v.st != .matrix || !fullySigned t v || w.cancelled then s
          else
            match mmaCheck s w.core w.lid l.lpb p v.signed v.rows with
            | .error code =>
              if recordRoom s w.lid then
                laterFault (setStrand s uid k (fun t => clearConv t n)) uid k v.pc { code := code, lanes := v.signed }
              else s
            | .ok (a, b) =>
              if queueFull s w.core t.quarter (mctxOf w k t.quarter) then s
              else setStrand (appendMma s w uid k t.quarter p v a b) uid k (fun t => clearConv t n)
        | none => s
      | _, _ => s) s

/-- The two offsets of a coordinate register (R205). -/
def coords (x : Ctx) (n : Nat) : Nat × Int :=
  let a := affReg x.p n
  (a.base.toNat % 2 ^ 32, sext 32 a.stride.toNat)

/-- The operation that an `mma` names (R206). -/
def mmaOpOf (x : Ctx) (coord : Nat) (o : Ops) : MmaOp :=
  let off := coords x coord
  ⟨accNum o.d, off.1, off.2, tdNum o.b, tdNum o.c⟩

/-- The convergence register once the lanes of T that it expects have signed (R206; DEDUCED, log 51). -/
def mmaSigned (x : Ctx) (k : Nat) (p : MmaOp) (o : Ops) : Conv :=
  let v := convOf x.st k
  let v1 := if v.st = .matrix then v
    else { v with mask := if v.st = .idle then liveLanes x.st else v.mask, st := .matrix, pc := x.p.pc
                  rows := List.replicate 32 0 }
  let m := x.tm &&& v1.mask
  { v1 with signed := v1.signed ||| m, op := some p
            rows := (v1.rows.zipIdx).map (fun e =>
              if lane m e.2 then BitVec.ofNat 32 (readSrc x rd32 o.a e.2) else e.1) }

/-- The lanes of T whose row the signing would read from an unmapped name (R96, R206). -/
def mmaUnmapped (x : Ctx) (i : Instr) (v : Conv) : LaneMask :=
  match fieldsOf i, shape i with
  | some (_, o), some sh => unmappedLanes x sh o &&& (if v.st = .idle then allLanes else v.mask)
  | _, _ => 0

/-- `mma` (R206): the lanes of T sign; the last expected one issues it. -/
def execMma (c : Ctl) (k : Fin 8) (coord : Fin 32) (o : Ops) (s : State) : Host.Outcome State Fault Refusal :=
  ramson (.mma c k coord o) (fun x s =>
    let v := convOf x.st k.val
    let q := x.st.quarter
    let n := mctxOf x.w x.k q
    let tile := accNum o.d
    if v.st = .waiting || (v.st = .matrix && v.pc != x.p.pc) then .fault { code := fConv, lanes := x.tm }
    else if mmaUnmapped x (.mma c k coord o) v ≠ 0 then .fault { code := fUnmapped, lanes := mmaUnmapped x (.mma c k coord o) v }
    else if mmaPending s x.w.core q n tile || signPending x.st tile (some k.val) || snapPending s x.w.core q n tile then .hold
    else
      let p := mmaOpOf x coord.val o
      let v2 := mmaSigned x k.val p o
      let t := { x.st with convs := setNth x.st.convs k.val v2 }
      if fullySigned x.st v2 then
        match mmaCheck s x.w.core x.w.lid x.l.lpb p v2.signed v2.rows with
        | .error code => .fault { code := code, lanes := x.tm }
        | .ok (a, b) =>
          if queueFull s x.w.core q n then
            .go { s := s, t := setPath t x.pi (fun e => { e with pc := x.p.pc + 12, st := .hold }), moved := true }
          else .go { s := appendMma s x.w x.uid x.k q p v2 a b, t := clearConv t k.val }
      else .go { s := s, t := t }) s

/-! ## Start and completion of an `mma` (R208, R210) -/

/-- Lane cycles of an operand format (R124). -/
def mmaCycles (t : Ty) : Nat :=
  match t with
  | .f16 | .bf16 => 64
  | .bfp5 | .bfp6 => 24
  | .bfp3 | .bfp4 => 16
  | .bfp2 => 8
  | _ => 32

/-- Bytes of the scratchpad as a gather reads them: words that it has read before keep their value (R209). -/
def gatherRd (s : State) (m : Mma) (a n : Nat) : List Byte :=
  let o := scratchOff a
  let now := scratchGet s m.uid o n
  if m.early.isEmpty then now
  else (now.zipIdx).map (fun e => match Tbl.find? m.early ((o + e.2) / 4) with
    | some w => nth (toBytes 4 w.toNat) ((o + e.2) % 4) 0
    | none => e.1)

/-- The operand latch: rows of A with their scales, and the tile of B with its scales (R208). -/
def gather (s : State) (m : Mma) : Latch :=
  let rd := gatherRd s m
  let n := m.noff.toNat
  { rows := (lanesOf m.signed).map (fun i =>
      let r := (nth m.rows i 0).toNat
      (i, (List.range 96).map (fun t => m.a.raw rd r (m.koff + t)),
          (List.range 3).map (fun b => m.a.scaleRaw rd r (m.koff + 32 * b))))
    bElems := (List.range (96 * 64)).map (fun e => m.b.raw rd (m.koff + e / 64) (n + e % 64))
    bScales := (List.range (3 * 64)).map (fun e => m.b.scaleRaw rd (m.koff + 32 * (e / 64)) (n + e % 64)) }

/-- The context that the matrix unit takes next (R210). -/
def nextCtx (r : Quarter) : Option Nat :=
  let other := if r.lastCtx = 0 then 1 else 0
  if !(nth r.ctxs other {}).queue.isEmpty then some other
  else if !(nth r.ctxs r.lastCtx {}).queue.isEmpty then some r.lastCtx
  else none

/-- Does a cluster hold a matrix power token (R416)? -/
def holdsToken (s : State) (core : Nat) : Bool := (dieOf s (dieOfCore core)).tokens.contains (core / 2 % 12)

/-- The gather of the `n`-th queued `mma` of a context reads one word of the scratchpad before the `mma` starts, so that each word that is
written between its issue and its gather may be old or new (R209). -/
def gatherEarly (s : State) (core q c n w : Nat) : State :=
  match (nth (quarterOf s core q).ctxs c {}).queue[n]? with
  | none => s
  | some m =>
    if Tbl.has m.early w then s
    else
      let m := { m with early := Tbl.put m.early w (BitVec.ofNat 32 (ofBytes (scratchGet s m.uid (4 * w) 4))) }
      setCtx s core q c (fun x => { x with queue := setNth x.queue n m })

/-- MMA_START (R210): the oldest queued `mma` of the next context starts and what its gather has not read yet is gathered. -/
def execEvMmaStart (core : Fin 384) (q : Fin 4) (s : State) : Host.Outcome State Fault Refusal :=
  let r := quarterOf s core.val q.val
  match r.running, nextCtx r with
  | none, some c =>
    match (nth r.ctxs c {}).queue with
    | m :: rest =>
      let n := max (mmaCycles m.a.fmt) (mmaCycles m.b.fmt)
      let more := decide (r.burst ≠ 0) && decide (r.burst + n ≤ 512)
      if snapPending s core.val q.val c m.tile || !(more || holdsToken s core.val) then .next s
      else
        let s := setCtx s core.val q.val c (fun x => { x with queue := rest })
        .next (setQuarter s core.val q.val (fun x =>
          { x with running := some ⟨c, m, gather s m⟩, lastCtx := c, burst := if more then r.burst + n else n }))
    | [] => .next s
  | _, _ => .next s

/-- One element of D after the three blocks, from its row of A and the latch of B (R208). -/
def mmaElem (ra sa bE bS : List Ext) (j : Nat) (old : Word) : Word :=
  let x := (List.range 3).foldl (fun x k =>
    let prods := (List.range 32).map (fun t => mulX (nth ra (32 * k + t) .nan) (nth bE (64 * (32 * k + t) + j) .nan))
    let sum := match prods with | p :: ps => ps.foldl (addX .rne) p | [] => .nan
    let p := mulX (mulX sum (nth sa k .nan)) (nth bS (64 * k + j) .nan)
    roundF fmtF32 .rne ⟨0, 0, none⟩ (addX .rne (decodeF fmtF32 x) p)) old.toNat
  BitVec.ofNat 32 x

/-- The tile after an `mma`. -/
def mmaTile (m : Mma) (g : Latch) (t : Tbl Word) : Tbl Word :=
  let bs : Nat → Nat := fun e => nth g.bScales (64 * (e / 2048) + e % 64) 0
  let bE := (g.bElems.zipIdx).map (fun e => elemValue m.b.fmt e.1 (bs e.2))
  let bS := g.bScales.map (scaleValue m.b.fmt)
  g.rows.foldl (fun t r =>
    let ra := (r.2.1.zipIdx).map (fun e => elemValue m.a.fmt e.1 (nth r.2.2 (e.2 / 32) 0))
    let sa := r.2.2.map (scaleValue m.a.fmt)
    (List.range 64).foldl (fun t j => tilePut t m.tile r.1 j (mmaElem ra sa bE bS j (tileGet t m.tile r.1 j))) t) t

/-- Metering counter 1 (R404): the lane cycles of an `mma`, counted when it ends; none for a PF job (R445). -/
def countMatrix (s : State) (m : Mma) : State :=
  match unit? s m.uid with
  | none => s
  | some w =>
    match launch? s w.lid with
    | none => s
    | some l => if isPf l.fn then s else meterAdd s l.part 1 (max (mmaCycles m.a.fmt) (mmaCycles m.b.fmt))

/-- The running `mma` of a quarter, if any, writes its tile; a burst ends when the unit falls idle. -/
def completeMma (s : State) (core q : Nat) : State :=
  match (quarterOf s core q).running with
  | none => s
  | some g =>
    let s := setCtx (countMatrix s g.m) core q g.ctx (fun x => { x with tiles := mmaTile g.m g.latch x.tiles })
    setQuarter s core q (fun x => { x with running := none, burst := if (nextCtx x).isNone then 0 else x.burst })

/-- MMA_COMPLETE (R208, R210). -/
def execEvMmaComplete (core : Fin 384) (q : Fin 4) (s : State) : Host.Outcome State Fault Refusal :=
  .next (completeMma s core.val q.val)

/-! ## `mzero`, `mld`, `mmov`, `mput` (R211) -/

/-- `mzero` (R211). -/
def execMzero (c : Ctl) (o : Ops) (s : State) : Host.Outcome State Fault Refusal :=
  ramson (.mzero c o) (fun x s =>
    if tileLocked s x (accNum o.d) then .hold
    else .go { s := setCtx s x.w.core x.st.quarter (mctxOf x.w x.k x.st.quarter) (fun q =>
                 { q with tiles := tileClear q.tiles (accNum o.d) }), t := x.st }) s

/-- The part of a 32 × 64 tile at (roff, coff) inside a tensor: rows and columns of the tile, half open. -/
def tileBox (d : Tdesc) (roff : Nat) (coff : Int) : (Nat × Nat) × (Nat × Nat) :=
  let hi (n : Nat) (off : Int) (lim : Nat) : Nat := (minI (n : Int) ((lim : Int) - off)).toNat
  ((0, hi 32 roff d.rows), ((maxI 0 (-coff)).toNat, hi 64 coff d.cols))

/-- The byte ranges of a tile's rows in a tensor: (row of the tile, address, bytes). -/
def boxRows (d : Tdesc) (roff : Nat) (coff : Int) : List (Nat × Nat × Nat) :=
  let b := tileBox d roff coff
  if b.2.2 ≤ b.2.1 then []
  else (List.range b.1.2).map (fun i => (i, (d.addr (roff + i) (coff + b.2.1).toNat).1, d.esz * (b.2.2 - b.2.1)))

/-- Locations of byte ranges of a tensor, range by range: (address, bytes, location). -/
def locRanges (s : State) (x : Ctx) (d : Tdesc) (need : Rights) (rs : List (Nat × Nat)) :
    Except (Nat × XErr) (List (Nat × Nat × Loc)) × State :=
  if d.space = some .scratch then
    match rs.find? (fun r => !inScratch x.l.lpb r.1 r.2) with
    | some r => (.error (r.1, .scratch), s)
    | none => (.ok (rs.map (fun r => (r.1, r.2, Loc.scratch (scratchOff r.1)))), s)
  else
    let ps := rs.flatMap (fun r => pagePieces r.1 r.2)
    let r := locPieces s x.w.core x.l.fn x.l.part need ps
    (r.1.map (fun ls => (ps.zip ls).map (fun e => (e.1.1, e.1.2, e.2.1))), r.2)

/-- The location of address `a` among located ranges. -/
def locAt (ls : List (Nat × Nat × Loc)) (a : Nat) : Option Loc :=
  (ls.find? (fun e => decide (e.1 ≤ a) && decide (a < e.1 + e.2.1))).map (fun e => Loc.plus e.2.2 (a - e.1))

/-- Weak reads of located ranges, in order. -/
def readRanges (s : State) (w : Who) : List (Nat × Nat × Loc) → List (Nat × List Byte) × State
  | [] => ([], s)
  | (a, n, loc) :: rest =>
    let r := weakRead s w loc n
    let q := readRanges r.2 w rest
    ((a, r.1) :: q.1, q.2)

def byteAt (bs : List (Nat × List Byte)) (a : Nat) : Byte :=
  match bs.find? (fun e => decide (e.1 ≤ a) && decide (a < e.1 + e.2.length)) with
  | some e => nth e.2 (a - e.1) 0
  | none => 0

/-- The descriptor of a tile move: the one it read when it first issued, or the entry now (R356). -/
def tileTd (x : Ctx) (s : State) (i : Instr) (n : Nat) : Option Tdesc :=
  match keptTds x i with
  | [d] => some d
  | _ => tdUse s x.w.core x.w.lid n

/-- The tile that `mld` leaves, from the bytes of its locations (R211): elements outside the tensor are +0 (DEDUCED, log 52). -/
def mldTile (s : State) (x : Ctx) (d : Tdesc) (off : Nat × Int) (ls : List (Nat × Nat × Loc)) (tile : Nat) : State :=
  let r := readRanges (forceLoads s x.uid x.k (fun q => ls.any (fun e => sameLine q e.2.2))) (x.who s) ls
  let b := tileBox d off.1 off.2
  let val := fun i j =>
    if decide (i < b.1.2) && decide (b.2.1 ≤ j) && decide (j < b.2.2) then
      let a := (d.addr (off.1 + i) (off.2 + j).toNat).1
      cvtWiden d.fmt (ofBytes ((List.range d.esz).map (fun k => byteAt r.1 (a + k))))
    else 0
  setCtx r.2 x.w.core x.st.quarter (mctxOf x.w x.k x.st.quarter) (fun q =>
    { q with tiles := (List.range 2048).foldl (fun t e =>
        tilePut t tile (e / 64) (e % 64) (BitVec.ofNat 32 (val (e / 64) (e % 64)))) (tileClear q.tiles tile) })

/-- `mld` (R211). -/
def execMld (c : Ctl) (coord : Fin 32) (o : Ops) (s : State) : Host.Outcome State Fault Refusal :=
  ramson (.mld c coord o) (fun x s =>
    let tile := accNum o.d
    match tileTd x s (.mld c coord o) (tdNum o.a) with
    | none => .fault { code := fTd, lanes := x.tm }
    | some d =>
      if !(d.fmt ∈ [Ty.f32, .f16, .bf16]) then .fault { code := fTd, lanes := x.tm }
      else
        let off := coords x coord.val
        match locRanges s x d .read ((boxRows d off.1 off.2).map (·.2)) with
        | (.error (_, e), s1) => failKeeping s1 x (.mld c coord o) [d] .read e
        | (.ok ls, s1) =>
          if tileLocked s x tile || ls.any (fun e => drainHolds s x [(0, e.2.2)] e.2.1 false) then .hold
          else if ls.any (fun e => readUncorr s x e.2.2 e.2.1) then .fault { code := fUncorr, lanes := x.tm, precise := false }
          else
            let s3 := mldTile s1 x d off ls tile
            .go { s := s3, t := dropProgress ((strand? s3 x.uid x.k).getD x.st) x (.mld c coord o) }) s

def colOf (o : Opnd) : Nat := match o with | .inline e => e.val | .lit v => v.toNat | _ => 0

/-- `mmov` (R211): waits for a pending `mma` alone. -/
def execMmov (c : Ctl) (t : Ty) (o : Ops) (s : State) : Host.Outcome State Fault Refusal :=
  ramson (.mmov c t o) (fun x s =>
    let tile := accNum o.a
    if tileBusy s x tile then .hold
    else
      let q := nth (quarterOf s x.w.core x.st.quarter).ctxs (mctxOf x.w x.k x.st.quarter) {}
      giveVec x s x.st (.mmov c t o) c o.d t.words (fun l =>
        (List.range t.words).foldl (fun a j => a + (tileGet q.tiles tile l (colOf o.b + j)).toNat * 2 ^ (32 * j)) 0)) s

/-- The tile with the register groups of the lanes of T written from the column on. -/
def putLanes (x : Ctx) (o : Ops) (w tile : Nat) (tiles : Tbl Word) : Tbl Word :=
  x.lanes.foldl (fun t l => (List.range w).foldl (fun t j =>
    tilePut t tile l (colOf o.b + j) (BitVec.ofNat 32 (readSrc x (.int w false) o.a l / 2 ^ (32 * j)))) t) tiles

/-- `mput` (R211). -/
def execMput (c : Ctl) (t : Ty) (o : Ops) (s : State) : Host.Outcome State Fault Refusal :=
  ramson (.mput c t o) (fun x s =>
    let tile := accNum o.d
    if tileLocked s x tile then .hold
    else
      .go { s := setCtx s x.w.core x.st.quarter (mctxOf x.w x.k x.st.quarter) (fun q =>
              { q with tiles := putLanes x o t.words tile q.tiles }), t := x.st }) s

/-! ## `mdrain` (R212-R215) -/

def drainFormats : List Ty := [.f32, .f16, .bf16, .e4m3, .e5m2]

/-- The barrier address of `mdrain`: its offset, or the fault of R215 (DEDUCED, log 50). -/
def drainBar (x : Ctx) (o : Opnd) : Except Nat (Option Nat) :=
  match o with
  | .null => .ok none
  | _ =>
    let a := (readPair x o).base.toNat
    if !inScratch x.l.lpb a 16 then .error fScratch
    else if a % 16 ≠ 0 then .error fAlign
    else .ok (some (scratchOff a))

/-- The drain that an `mdrain` leaves to be applied: its tile, scales, mode, seed, barrier, and the location of each element
inside the tensor (R212, R213). -/
def drainOf (x : Ctx) (r : Rnd) (o : Ops) (d : Tdesc) (off : Nat × Int) (ls : List (Nat × Nat × Loc)) (bar : Option Nat)
    (id : Nat) : Drain :=
  let sc := (readPair x o.b).base.toNat
  let b := tileBox d off.1 off.2
  { id := id, uid := x.uid, k := x.k, pc := x.p.pc, ctx := mctxOf x.w x.k x.st.quarter, tile := accNum o.a, td := d
    roff := off.1, coff := off.2, sA := BitVec.ofNat 32 sc, sB := BitVec.ofNat 32 (sc / 2 ^ 32)
    rnd := r, seed := (seeded x r).st.seed, bar := bar
    dst := (boxRows d off.1 off.2).flatMap (fun e => (List.range (b.2.2 - b.2.1)).filterMap (fun j =>
      (locAt ls (e.2.1 + d.esz * j)).map (fun loc => (64 * e.1 + b.2.1 + j, loc)))) }

/-- `mdrain` at issue (R212): the checks of R215, a snapshot buffer, and the drain that waits to be applied. -/
def execMdrain (c : Ctl) (r : Rnd) (coord : Fin 32) (o : Ops) (s : State) : Host.Outcome State Fault Refusal :=
  ramson (.mdrain c r coord o) (fun x s =>
    match tileTd x s (.mdrain c r coord o) (tdNum o.d) with
    | none => .fault { code := fTd, lanes := x.tm }
    | some d =>
      if !(d.fmt ∈ drainFormats) then .fault { code := fTd, lanes := x.tm }
      else
        let off := coords x coord.val
        match locRanges s x d .rmw ((boxRows d off.1 off.2).map (·.2)), drainBar x o.c with
        | (.error (_, .scratch), _), _ => .fault { code := fScratch, lanes := x.tm }
        | _, .error code => .fault { code := code, lanes := x.tm }
        | (.error (_, e), s1), _ => failKeeping s1 x (.mdrain c r coord o) [d] .rmw e
        | (.ok ls, s1), .ok bar =>
          let q := x.st.quarter
          if tileBusy s x (accNum o.a) || decide (2 ≤ (quarterOf s x.w.core q).drains.length) then .hold
          else
            let (id, s2) := fresh s1
            .go { s := setQuarter s2 x.w.core q (fun z => { z with drains := z.drains ++ [drainOf x r o d off ls bar id] })
                  t := dropProgress (seeded x r).st x (.mdrain c r coord o) }) s

def setDrain (s : State) (core q id : Nat) (f : Drain → Drain) : State :=
  setQuarter s core q (fun r => { r with drains := r.drains.map (fun d => if d.id == id then f d else d) })

/-- MDRAIN_SNAPSHOT: the tile is copied and is free again (R212, R213). -/
def execEvMdrainSnapshot (core : Fin 384) (q : Fin 4) (id : Nat) (s : State) : Host.Outcome State Fault Refusal :=
  .next (setDrain s core.val q.val id (fun d =>
    match d.snapshot with
    | some _ => d
    | none => { d with snapshot := some (tileOnly (nth (quarterOf s core.val q.val).ctxs d.ctx {}).tiles d.tile) }))

/-- The new bits of one destination element (R212). -/
def drainElem (d : Drain) (snap : Tbl Word) (e old : Nat) : Nat :=
  let v := mulX (mulX (decodeF fmtF32 (Tbl.getD snap e 0).toNat) (decodeF fmtF32 d.sA.toNat)) (decodeF fmtF32 d.sB.toNat)
  roundF (fmtOf d.td.fmt) d.rnd (rsOf d.seed (e / 64) (e % 64)) (addX d.rnd (dec d.td.fmt old) v)

/-- Lines of a core's L1 that a global location overlaps are written back and invalidated (R212). -/
def flushLine (s : State) (core : Nat) (loc : Loc) : State :=
  match loc with
  | .mem pa => l1Invalidate (l1WriteBack s core (inLine pa)) core (inLine pa)
  | _ => s

/-- The bits of an element of the destination, read where it lies; the state after what a read of the issuing core does. -/
def drainRead (s : State) (w : Who) (d : Drain) (loc : Loc) : Nat × State :=
  let n := elemSize d.td.fmt
  match loc with
  | .scratch o => (ofBytes (scratchGet s w.uid o n), s)
  | _ =>
    let s := flushLine (forceLine s w.core loc) w.core loc
    (ofBytes (readHome s loc n), touchHome s w.charge loc n false)

/-- A read, unless it has been made, and a write of one element where it lies. -/
def drainWrite (s : State) (w : Who) (d : Drain) (snap : Tbl Word) (e : Nat) (loc : Loc) : State :=
  let n := elemSize d.td.fmt
  let r := drainRead s w d loc
  let bs := toBytes n (drainElem d snap e ((Tbl.find? d.early e).getD r.1))
  match loc with
  | .scratch o => scratchPut r.2 w.uid o bs
  | _ => writeHome r.2 w.charge loc bs

/-- An earlier drain of the strand has not been applied. -/
def drainBehind (s : State) (d : Drain) : Bool :=
  s.cores.any (fun c => c.2.quarters.any (fun q => q.drains.any (fun x => x.uid == d.uid && x.k == d.k && decide (x.id < d.id))))

/-- Another drain has begun its update of an element that this one changes: whole updates follow one another (R214). One that arrives at a
barrier, a release of its strand, follows every earlier drain of the strand (R212, R214, R243). -/
def drainWaits (s : State) (d : Drain) : Bool :=
  (d.bar.isSome && drainBehind s d) || s.cores.any (fun c => c.2.quarters.any (fun q => q.drains.any (fun x => x.id != d.id && !x.early.isEmpty &&
    x.dst.any (fun a => d.dst.any (fun b =>
      (!isScratch a.2 || x.uid == d.uid) && locsMeet a.2 (elemSize x.td.fmt) b.2 (elemSize d.td.fmt))))))

/-- What comes before the update: the strand's loads that were issued earlier and wait, at the lines it changes, and all of them when
it arrives at a barrier, which is a release (R212, R214, R237). -/
def drainForce (s : State) (d : Drain) : State :=
  forceSome s d.uid d.k (fun p => decide (p.id < d.id)) (fun l => d.bar.isSome || d.dst.any (fun e => sameLine l e.2))

/-- A drain reads the aligned 4-byte word of one of its elements before it writes: against every other access its read and its
write are two (R214). -/
def drainEarly (s : State) (core q id e : Nat) : State :=
  match (quarterOf s core q).drains.find? (fun d => d.id == id) with
  | none => s
  | some d =>
    match if drainWaits s d || d.snapshot.isNone then none else d.dst.find? (fun x => x.1 == e) with
    | none => s
    | some x =>
      let w := whoOf s d.uid d.k
      (d.dst.filter (fun y => wordOf y.2 == wordOf x.2 && !Tbl.has d.early y.1)).foldl (fun s y =>
        let r := drainRead s w d y.2
        setDrain r.2 core q d.id (fun d => { d with early := Tbl.put d.early y.1 r.1 })) (drainForce s d)

/-- The whole update of a drain, then its arrival (R212, R214): the state as it was while either must wait. The record of UNCORR names
the drain by its serial number in AUX bytes 0 to 3 (DESIGN CHOICE, log 141). -/
def applyDrain (s : State) (core q id : Nat) : State :=
  match (quarterOf s core q).drains.find? (fun d => d.id == id) with
  | none => s
  | some d =>
    match if drainWaits s d then none else d.snapshot, unit? s d.uid with
    | some snap, some w =>
      let who := whoOf s d.uid d.k
      let drop (s : State) : State := setQuarter s core q (fun r => { r with drains := r.drains.filter (fun x => x.id != id) })
      if d.dst.any (fun e => !reachable s (dieOfCore core) (portOfUnit s d.uid) e.2 (elemSize d.td.fmt) true true) then
        if recordRoom s w.lid then
          laterFault (drop s) d.uid d.k d.pc { code := fUncorr, lanes := 0, precise := false, aux := toBytes 4 d.id }
        else s
      else
        let s1 := d.dst.foldl (fun s e => drainWrite s who d snap e.1 e.2) (drainForce s d)
        let s1 := drop (if d.dst.any (fun e => isScratch e.2) then testWaiters s1 d.uid else s1)
        match d.bar with
        | none => s1
        | some off =>
          match barStep s1 d.uid off (arrival 0) with
          | .ok s2 => s2
          | .error r =>
            if recordRoom s w.lid then
              laterFault s1 d.uid d.k d.pc { code := fBarOver, reason := r, lanes := 0, precise := false
                                             aux := toBytes 4 off, aux2 := scratchGet s1 d.uid off 16 }
            else s
    | _, _ => s

/-- MDRAIN_APPLY: the whole update, then the arrival (R212, R214). Not possible before the snapshot, nor while a
fault of the arrival would find the event queue full. -/
def execEvMdrainApply (core : Fin 384) (q : Fin 4) (id : Nat) (s : State) : Host.Outcome State Fault Refusal :=
  .next (applyDrain s core.val q.val id)

/-- Drains of a unit whose update has begun complete (R216). -/
def finishDrains (s : State) (core uid : Nat) : State :=
  (List.range 4).foldl (fun s q =>
    ((quarterOf s core q).drains.filter (fun d => d.uid == uid && !d.early.isEmpty)).foldl (fun s d => applyDrain s core q d.id) s) s

end Sys2Proof.Machine
end

