-- ==== Sys2Proof/Machine/Control.lean ====
section
/-! DEFINITION. Group 8: control, calls, convergence, the ends of items, traps, `grow` and `shrink` (R100, R188-R200),
with the span forms of `bra`, `exit`, `kwait` and `nop` (R45, R48, R55, R58). -/

namespace Sys2Proof.Machine

open Sys2Proof

/-! ## Fetch (R64) -/

/-- Twelve bytes of code at a global address; PROT for a PC in another window. The line is read through the core's L1 when the word
issues, so that of the values a racing write lets a fetch obtain it obtains the one that the core's own reads see then (DESIGN CHOICE,
log 138). R64 gives a fetch the faults of translation and protection alone: one that meets an uncorrectable sector or a down link reads
the bytes as they stand (DESIGN CHOICE, log 158). -/
def fetchAt (s : State) (core fn part : Nat) (w : Who) (pc : Nat) : Except XErr (List Byte) × State :=
  match window pc 12 with
  | .global _ =>
    let r := locPieces s core fn part .fetch (pagePieces pc 12)
    match r.1 with
    | .error e => (.error e.2, r.2)
    | .ok ls => let q := fetchPieces r.2 w ls; (.ok q.1, q.2)
  | _ => (.error (.prot 1), s)

/-! ## Branches and calls -/

/-- PC + 12·offset (R64), modulo 2^64: a target that wraps is no multiple of 12, and its fetch raises PROT, for `bra` raises no ALIGN
(R189; DESIGN CHOICE, log 159). -/
def branchTarget (pc : DWord) (o : Opnd) : DWord :=
  match o with
  | .lit v => BitVec.ofNat 64 (wrap 64 ((pc.toNat : Int) + 12 * sext 32 v.toNat))
  | _ => pc

/-- The lower piece of a split keeps the entry `slot`, unless it rejoins with the span below it (R48, R55). -/
def keepSpan (t : Tbl Span) (slot : Nat) (low : Span) : Tbl Span :=
  let t := Tbl.del t slot
  match t.find? (fun e => canRejoin e.2 low) with
  | some e => Tbl.put t e.1 (joined e.2 low)
  | none => Tbl.put t slot low

/-- One span at the target and one past the branch (R48), each checked against its neighbours (R55). -/
def braSplit (s : State) (x : SpanCtx) (target : DWord) (lowTaken : Bool) (c : Nat) : State :=
  let seq := x.sp.pc + 12
  let low := spanSettle { clip x.sp x.sp.lo c x.sp.unit with pc := if lowTaken then target else seq }
  let high := spanSettle { clip x.sp c x.sp.hi x.sp.unit with pc := if lowTaken then seq else target }
  markSpan (setSpans s x.pl (fun t => insertSpan (keepSpan t x.slot low) high)) x

/-- A split that finds no entry (R56): a cut point, and at a launch span a strand cut of each unit that gets a piece of it. -/
def refusedSplit (s : State) (x : SpanCtx) : State :=
  match x.pl with
  | .table _ => spanCut (setSpans s x.pl (fun t => Tbl.put t x.slot { x.sp with owed := true })) x
  | .unit _ => spanCut s x

/-- Is there an entry for the upper piece (R48)? -/
def splitRoom (s : State) (x : SpanCtx) : Bool :=
  match x.pl with
  | .table cl =>
    decide (tableUsed s cl < 64) && decide (((clusterOf s cl).table.filter (fun e => e.2.lid == x.lid)).length < 16)
  | .unit _ => decide ((spansAt s x.pl).length < 4)

def braSpan (c : Ctl) (o : Ops) (s : State) (x : SpanCtx) : State :=
  let target := branchTarget x.sp.pc o.b
  match spanGuard x.sp c with
  | some false => spanNext s x x.sp
  | some true => putSpan s x { x.sp with pc := target }
  | none =>
    let p := nth x.sp.preds c.gpred.val {}
    if splitRoom s x then braSplit s x target ((p.kind == 2) != c.gneg) p.c else refusedSplit s x

/-- `bra` (R189). -/
def execBra (c : Ctl) (o : Ops) (s : State) : Host.Outcome State Fault Refusal :=
  ramsonS (.bra c o)
    (fun x s => .go { s := s, t := sendLanes x.st x.pi x.p x.tm (branchTarget x.p.pc o.b), moved := true })
    (braSpan c o) s

/-- The distinct targets of the lanes of T, ascending, with their lanes. -/
def targetsOf (x : Ctx) (addr : Nat → Nat) : List (Nat × LaneMask) :=
  let ts := x.lanes.foldl (fun l i => Tbl.put l (addr i) (())) ([] : Tbl Unit)
  ts.map (fun e => (e.1, maskOf (fun l => lane x.tm l && addr l == e.1)))

/-- The strand after lanes of T have gone to their targets, the rest to PC + 12 (R178, R190, R191): without a frame to push, lanes whose
target is PC + 12 share its entry. -/
def fanOut (x : Ctx) (ts : List (Nat × LaneMask)) (push : Bool) : Strand :=
  let seq := x.p.pc + 12
  let rest := x.p.lanes &&& ~~~x.tm
  let joins := !push && ts.any (fun e => BitVec.ofNat 64 e.1 == seq)
  let new := ts.map (fun e =>
    let pc : DWord := BitVec.ofNat 64 e.1
    if push then { x.p with pc := pc, lanes := e.2, stack := (seq, x.p.limit) :: x.p.stack }
    else { x.p with pc := pc, lanes := if pc = seq then e.2 ||| rest else e.2 })
  let more := if rest = 0 || joins then [] else [{ x.p with pc := seq, lanes := rest }]
  { x.st with paths := sortPaths (x.st.paths.eraseIdx x.pi ++ new ++ more) }

/-- The current path after a fan-out: the lowest address, or by R40 under NOPROG. -/
def fanCur (x : Ctx) (ts : List (Nat × LaneMask)) : Cur :=
  if x.l.lpb.noprog then .next
  else match ts with | (_, m) :: _ => .toLane (lowest m) | [] => .keep

/-- `brx` (R190). -/
def execBrx (c : Ctl) (o : Ops) (s : State) : Host.Outcome State Fault Refusal :=
  ramson (.brx c o) (fun x s =>
    let addr := readSrc x (.int 2 false) o.a
    let bad := alignLanes x addr 12
    if bad ≠ 0 then .fault { code := fAlign, lanes := bad, addrs := addrList bad addr }
    else
      let ts := targetsOf x addr
      .go { s := s, t := fanOut x ts false, moved := true, cur := fanCur x ts }) s

/-- The words at the targets of a call, in order, until a fault (R191); `all` are the targets, for the record of ICALL. -/
def callChecks (x : Ctx) (indirect : Bool) (all : List Byte) : State → List (Nat × LaneMask) → Except Res State
  | s, [] => .ok s
  | s, (a, m) :: rest =>
    let addrs := addrList m (fun _ => a)
    if 64 ≤ x.p.stack.length then .error (.fault { code := fBudget, lanes := m, addrs := addrs })
    else if a % 12 ≠ 0 then .error (.fault { code := fAlign, lanes := m, addrs := addrs })
    else
      match fetchAt s x.w.core x.l.fn x.l.part (x.who s) a with
      | (.error e, s) =>
        .error (match failWhole s x .fetch e addrs with | .fault f => .fault { f with lanes := m } | r => r)
      | (.ok bs, s) =>
        match decode bs with
        | .ok (.fent _ o) =>
          if x.l.lpb.vregs < countOf o.b then .error (.fault { code := fBudget, lanes := m, addrs := addrs })
          else callChecks x indirect all s rest
        | _ =>
          if indirect then
            .error (.fault { code := fIcall, lanes := m, addrs := addrs, aux2 := all })
          else callChecks x indirect all s rest

/-- A call to the given targets (R191): every check first, then the lanes move. -/
def callTo (x : Ctx) (s : State) (indirect : Bool) (ts : List (Nat × LaneMask)) : Res :=
  match callChecks x indirect ((ts.flatMap (fun e => toBytes 8 e.1)).take 64) s ts with
  | .error r => r
  | .ok s => .go { s := s, t := fanOut x ts true, moved := true, cur := fanCur x ts, close := true }

/-- `call` (R191). -/
def execCall (c : Ctl) (o : Ops) (s : State) : Host.Outcome State Fault Refusal :=
  ramson (.call c o) (fun x s => callTo x s false [((branchTarget x.p.pc o.b).toNat, x.tm)]) s

/-- `calli` (R191). -/
def execCalli (c : Ctl) (o : Ops) (s : State) : Host.Outcome State Fault Refusal :=
  ramson (.calli c o) (fun x s => callTo x s true (targetsOf x (readSrc x (.int 2 false) o.a))) s

/-- `fent` (R192); its BUDGET is raised by the gate. -/
def execFent (c : Ctl) (o : Ops) (s : State) : Host.Outcome State Fault Refusal :=
  ramson (.fent c o) (fun x s => .go { s := s, t := setPath x.st x.pi (fun p => { p with limit := countOf o.b }) }) s

/-! ## Convergence registers (R193-R196) -/

/-- Two released entries that merge (R179). -/
def mergeable (a b : Path) : Bool := a.pc == b.pc && a.stack == b.stack && a.limit == b.limit && a.aff == b.aff

/-- Adds a released entry to those before it. -/
def mergeInto (p : Path) : List Path → List Path
  | [] => [p]
  | q :: r => if mergeable p q then { q with lanes := q.lanes ||| p.lanes } :: r else q :: mergeInto p r

/-- release(k) (R195). -/
def releaseConv (t : Strand) (k : Nat) : Strand :=
  let mine := fun (p : Path) => match p.st with | .parked n => n.val == k | _ => false
  let rel := (t.paths.filter mine).map (fun p => { p with st := .run, pc := p.pc + 12 })
  let merged := rel.foldl (fun acc p => mergeInto p acc) []
  clearConv { t with paths := sortPaths (t.paths.filter (fun p => !mine p) ++ merged) } k

/-- The release test of every WAITING register (R195, R197). -/
def testRelease (t : Strand) : Strand :=
  (List.range 8).foldl (fun t k =>
    let v := convOf t k
    if v.st = .waiting && fullySigned t v then releaseConv t k else t) t

/-- `ksign` (R194). -/
def execKsign (c : Ctl) (o : Ops) (s : State) : Host.Outcome State Fault Refusal :=
  ramson (.ksign c o) (fun x s =>
    match o.d with
    | .conv k =>
      let v := convOf x.st k.val
      if v.signed ≠ 0 then .fault { code := fConv, lanes := x.tm }
      else .go { s := s, t := { x.st with convs := setNth x.st.convs k.val { v with mask := x.tm, signed := 0, st := .armed, op := none } } }
    | _ => .go { s := s, t := x.st }) s

/-- `kwait` in a strand (R195). Its path's windows close before any lane is released, so that no merge meets a result that is yet to
be written (R78, R182). -/
def kwaitStrand (k : Fin 8) (x : Ctx) (s : State) : Res :=
  let t := settle (closeWindows x.st x.p.lanes)
  let x := { x with st := t, p := (t.paths[x.pi]?).getD x.p }
  let v := convOf x.st k.val
  if v.st = .matrix then .fault { code := fConv, lanes := x.tm }
  else
    let mask := if v.st = .idle then liveLanes x.st else v.mask
    let park := x.tm &&& mask
    let on := x.p.lanes &&& ~~~park
    let v := { v with mask := mask, signed := v.signed ||| park, st := .waiting }
    let new := (if park = 0 then [] else [{ x.p with lanes := park, st := .parked k }]) ++
               (if on = 0 then [] else [{ x.p with lanes := on, pc := x.p.pc + 12 }])
    let t := { x.st with paths := sortPaths (x.st.paths.eraseIdx x.pi ++ new)
                         convs := setNth x.st.convs k.val v }
    let t := if fullySigned t v then releaseConv t k.val else t
    .go { s := s, t := t, moved := true, cur := if park = 0 then .keep else .next, close := true }

/-- A span that stands past a `kwait`. -/
def pastKwait (sp : Span) : Span := { sp with pc := sp.pc + 12, st := .run }

def parkedAt (sp : Span) (e : Span) : Bool := e.st == .kwait && e.pc == sp.pc

/-- `kwait` in a span (R55): its windows close, and it waits while a value is outstanding (R78); then it rejoins with neighbours parked
at the same `kwait`, or parks. -/
def kwaitSpan (c : Ctl) (s : State) (x : SpanCtx) : State :=
  let me := spanClose x.sp
  match me.st, spanGuard x.sp c with
  | .ldu, _ => markSpan (setSpans s x.pl (fun t => Tbl.put t x.slot me)) x
  | _, some false => spanNext s x me
  | _, _ =>
    let t := spansAt s x.pl
    let low := t.find? (fun e => parkedAt me e.2 && canRejoin { e.2 with st := .run } me)
    let (slot, sp, t) := match low with
      | some e => (e.1, joined { e.2 with st := .run } me, Tbl.del t x.slot)
      | none => (x.slot, me, t)
    let up := t.find? (fun e => parkedAt sp e.2 && canRejoin sp { e.2 with st := .run })
    let (sp, t) := match up with
      | some e => (joined sp e.2, Tbl.del t e.1)
      | none => (sp, t)
    let sp := if low.isSome || up.isSome then pastKwait sp else { sp with st := .kwait }
    markSpan (setSpans s x.pl (fun _ => Tbl.put t slot sp)) x

/-- `kwait` (R195, R55). -/
def execKwait (c : Ctl) (o : Ops) (s : State) : Host.Outcome State Fault Refusal :=
  ramsonS (.kwait c o)
    (fun x s => match o.d with | .conv k => kwaitStrand k x s | _ => .go { s := s, t := x.st })
    (kwaitSpan c) s

/-! ## Ending lanes (R197, R192, R198) -/

/-- Lanes of outstanding instructions that end with the lanes. -/
def dropPends (t : Strand) (m : LaneMask) : Strand :=
  let ds := t.pends.map (fun d => { d with lanes := d.lanes &&& ~~~m, ready := d.ready &&& ~~~m, todo := d.todo &&& ~~~m })
  { t with pends := ds.filter (fun d => d.lanes != 0) }

/-- Ends the lanes of a mask (R197): registers freed, convergence masks and paths left, WAITING registers tested. -/
def exitLanes (t : Strand) (m : LaneMask) : Strand :=
  let t := (t.regs.map (·.1)).foldl (fun t n => freeReg t n m) t
  let t := dropPends t m
  let paths := (t.paths.map (fun p => { p with lanes := p.lanes &&& ~~~m })).filter (fun p => p.lanes != 0)
  let t := { t with paths := sortPaths paths, marked := t.marked &&& ~~~m
                    convs := t.convs.map (fun v => { v with mask := v.mask &&& ~~~m }) }
  { testRelease t with completed := t.paths.isEmpty }

/-- The lanes of T end; the others of the path go on. -/
def exitRes (x : Ctx) (s : State) : Res :=
  let t := setPath x.st x.pi (fun p => { p with pc := x.p.pc + 12 })
  .go { s := s, t := exitLanes t x.tm, moved := true, cur := if x.p.lanes &&& ~~~x.tm = 0 then .next else .keep
        close := true, after := fun s => tryMatrix s x.uid x.k }

/-- The last span of a launch or unit has gone (R51, R58). -/
def spansGone (s : State) (x : SpanCtx) : State :=
  match x.pl with
  | .table _ =>
    let s := setLaunch s x.lid (fun l => { l with inTable := false })
    countUnits s x.lid (unitsTotal x.l.lpb)
  | .unit u => strandCut s u

/-- `exit` in a span (R58): whatever its guard it closes the span's windows (R44, R78); it waits while a run queue has no room for what the end of the launch queues (R298). -/
def exitSpan (c : Ctl) (s : State) (x : SpanCtx) : State :=
  match spanGuard x.sp c with
  | none => spanCut s x
  | some false => spanNext s x (spanClose x.sp)
  | some true =>
    let s0 := s
    let s := markSpan (setSpans s x.pl (fun t => Tbl.del t x.slot)) x
    if (spansAt s x.pl).any (fun e => e.2.lid == x.lid) then s else whenRqFits s0 (spansGone s x)

/-- `exit` (R197, R58). -/
def execExit (c : Ctl) (o : Ops) (s : State) : Host.Outcome State Fault Refusal :=
  ramsonS (.exit c o) exitRes (exitSpan c) s

/-- `ret` (R192): the whole path pops its frame; at depth 0 the lanes of T end. -/
def execRet (c : Ctl) (o : Ops) (s : State) : Host.Outcome State Fault Refusal :=
  ramson (.ret c o) (fun x s =>
    match x.p.stack with
    | [] => exitRes x s
    | (pc, limit) :: rest =>
      .go { s := s, t := setPath x.st x.pi (fun p => { p with pc := pc, limit := limit, stack := rest }), moved := true
            close := true }) s

/-- `itemdone` (R198). -/
def execItemdone (c : Ctl) (o : Ops) (s : State) : Host.Outcome State Fault Refusal :=
  ramson (.itemdone c o) (fun x s =>
    if x.l.lpb.refill then .go { s := s, t := { x.st with marked := x.st.marked ||| x.tm }, close := true }
    else exitRes x s) s

/-! ## Refill (R41, R60, R61, R198) -/

/-- Entries of a launch in a core's item queue, in rising order of LO. -/
def takeFirst : List ItemEntry → Nat → Option (Nat × List ItemEntry)
  | es, lid =>
    let mine := es.filter (fun e => e.span.lid == lid)
    match mine with
    | [] => none
    | e :: r =>
      let low := r.foldl (fun a b => if b.span.lo < a.span.lo then b else a) e
      some (low.span.lo, (es.map (fun q => if q == low then
          { q with span := { q.span with lo := q.span.lo + 1, aff := q.span.aff.map (fun a => rebase a 1) } } else q)).filter
        (fun q => decide (q.span.lo < q.span.hi)))

/-- The next item of a launch on a core: taken, none for ever, or none yet. -/
def takeItem (s : State) (core lid : Nat) : Option Nat × State :=
  match takeFirst (coreOf s core).items lid with
  | some (i, es) => (some i, setCore s core (fun c => { c with items := es }))
  | none => (none, s)

/-- Serves marked lanes in order: the strand, the lanes that found no item for ever, and whether the rest must wait. -/
def serveLanes (core lid : Nat) : State → Strand → List Nat → LaneMask → State × Strand × LaneMask × Bool
  | s, t, [], gone => (s, t, gone, false)
  | s, t, l :: rest, gone =>
    match takeItem s core lid with
    | (some i, s) =>
      serveLanes core lid s { t with items := setNth t.items l i, marked := t.marked &&& ~~~(maskOf (· == l)) } rest gone
    | (none, s) =>
      let pool := match launch? s lid with | some q => !q.pool.isEmpty | none => false
      if pool then (s, t, gone, true) else serveLanes core lid s t rest (gone ||| maskOf (· == l))

/-- `refill` (R198, R61): marked lanes take items; with the core's entries empty and the pool not, the rest hold. -/
def execRefill (c : Ctl) (o : Ops) (s : State) : Host.Outcome State Fault Refusal :=
  ramson (.refill c o) (fun x s =>
    if !x.l.lpb.refill then .go { s := s, t := x.st, close := true }
    else
      let m := lanesOf (x.tm &&& x.st.marked)
      let r := serveLanes x.w.core x.w.lid s { x.st with refilled := true } m 0
      if r.2.2.2 then .holdWith r.1 r.2.1
      else
        let t := setPath r.2.1 x.pi (fun p => { p with pc := x.p.pc + 12 })
        let gone := r.2.2.1
        .go { s := r.1, t := if gone = 0 then t else exitLanes t gone, moved := true
              cur := if x.p.lanes &&& ~~~gone = 0 then .next else .keep, close := true
              after := fun s => tryMatrix s x.uid x.k }) s

/-! ## The rest (R199, R200, R100) -/

/-- `yield` (R199): under NOPROG only the issue slot is given up. -/
def execYield (c : Ctl) (o : Ops) (s : State) : Host.Outcome State Fault Refusal :=
  ramson (.yield c o) (fun x s =>
    let t := { x.st with yielded := true }
    if x.l.lpb.noprog then .go { s := s, t := t }
    else .go { s := s, t := setPath t x.pi (fun p => { p with pc := x.p.pc + 12 }), moved := true, cur := .next }) s

/-- `nop` (R200): in a strand and in a span it changes the PC alone. -/
def execNop (c : Ctl) (o : Ops) (s : State) : Host.Outcome State Fault Refusal :=
  ramsonS (.nop c o) (fun x s => .go { s := s, t := x.st }) (fun s x => spanNext s x x.sp) s

/-- Are earlier instructions of the strand still outstanding (R200; log 136 of a path held in `bwait`)? -/
def earlierOpen (s : State) (x : Ctx) : Bool := earlierWork s x.w.core x.uid x.k x.st

/-- The strand's path of the context is parked past its instruction, and a token is posted (R422). -/
def parkWithToken (x : Ctx) (s : State) (kind : TokenKind) (code : Nat) (m : LaneMask) (n : Nat) : Res :=
  let t := setPath x.st x.pi (fun p => { p with pc := x.p.pc + 12, st := .fault })
  .go { s := s, t := t, moved := true, close := true
        after := fun s => takeToken s x ((strand? s x.uid x.k).getD t) kind code 0 m x.p.pc (toBytes 4 n) }

/-- `trap` (R200): once every earlier instruction has completed, the strand parks with a token. -/
def execTrap (c : Ctl) (o : Ops) (s : State) : Host.Outcome State Fault Refusal :=
  ramson (.trap c o) (fun x s =>
    if earlierOpen s x || !recordRoom s x.w.lid then .hold
    else parkWithToken x s .trap fTrap x.tm (countOf o.b)) s

/-- DEBUG.BRKPARK of a launch's VF (R436). -/
def brkPark (s : State) (l : Launch) : Bool := !isPf l.fn && (fnOf s l.fn).debugWord.getLsbD 0

/-- `brk` (R200, R422), whatever the guard: it parks, or BREAK takes the fault policy, for every lane of the path (DESIGN CHOICE,
log 139). -/
def execBrk (c : Ctl) (o : Ops) (s : State) : Host.Outcome State Fault Refusal :=
  ramson (.brk c o) (fun x s =>
    if brkPark s x.l then
      if earlierOpen s x || !recordRoom s x.w.lid then .hold
      else parkWithToken x s .brk fBreak x.p.lanes (countOf o.b)
    else .fault { code := fBreak, lanes := x.p.lanes, aux := toBytes 4 (countOf o.b) }) s

/-- `grow` (R100): takes the registers it needs from the pool, or waits for them. -/
def execGrow (c : Ctl) (o : Ops) (s : State) : Host.Outcome State Fault Refusal :=
  ramson (.grow c o) (fun x s =>
    let n := countOf o.b
    let need := n - holding x.st
    if poolFor s x < need then .holdWith s (stalledAgain s x need)
    else .go { s := s, t := { x.st with g := max x.st.g n } }) s

/-- `shrink` (R100). -/
def execShrink (c : Ctl) (o : Ops) (s : State) : Host.Outcome State Fault Refusal :=
  ramson (.shrink c o) (fun x s =>
    .go { s := s, t := { x.st with g := max x.l.lpb.vfloor (min x.st.g (countOf o.b)) } }) s

end Sys2Proof.Machine
end

