-- ==== Sys2Proof/Machine/Barrier.lean ====
section
/-! DEFINITION. Group 12, operations 4 to 7: `barinit`, `arrive`, `bwait` and `barinv` (R396-R400). -/

namespace Sys2Proof.Machine

open Sys2Proof

/-- The checks of R396 over some lanes: the scratchpad offset of each, or the fault. -/
def barLanes (x : Ctx) (a : Opnd) : Except FaultInfo (Nat → Nat) :=
  let addr := readSrc x (.int 2 false) a
  let bad := x.lanes.filterMap (fun l =>
    match window (addr l) 16 with
    | .scratch o => if o + 16 ≤ x.l.lpb.scratch then none else some (l, XErr.scratch)
    | _ => some (l, XErr.prot 1))
  if bad.isEmpty then
    let m := alignLanes x addr 16
    if m = 0 then .ok (fun l => scratchOff (addr l)) else .error { code := fAlign, lanes := m, addrs := addrList m addr }
  else .error (laneFault addr bad)

/-- BAR_OVER at an instruction (R392): the lane, those performed before it, the offset and the four words
(DESIGN CHOICE, log 53). -/
def barFault (s : State) (x : Ctx) (reason l off : Nat) (done : LaneMask) : FaultInfo :=
  { code := fBarOver, reason := reason, lanes := maskOf (· == l), done := done
    aux := toBytes 4 off, aux2 := scratchGet s x.uid off 16 }

/-- Issues with the strand as the state now holds it. -/
def goNow (x : Ctx) (s : State) : Res := .go { s := s, t := (strand? s x.uid x.k).getD x.st }

/-- `barinit` (R397): a release at `.core`, then once, in the lowest lane of T. -/
def execBarinit (c : Ctl) (o : Ops) (s : State) : Host.Outcome State Fault Refusal :=
  ramson (.barinit c o) (fun x s =>
    match barLanes x o.a with
    | .error f => .fault f
    | .ok off =>
      let b := off x.low
      let n := readSrc x rd32 o.b x.low
      if rangeHolds s x b 16 || !(drainsOf s x.w.core x.uid x.k).isEmpty then .hold
      else if n = 0 ∨ 65535 < n then .fault (barFault s x barCount x.low b 0)
      else
        let s := forceLoads s x.uid x.k (fun _ => true)
        goNow x (scratchWrite s x.uid b (toBytes 16 (barBits ⟨n, n, 0, 0⟩)))) s

/-- The arrivals of `arrive`, in ascending lane order, until one fails (R398). -/
def arriveLanes (x : Ctx) (off n : Nat → Nat) : State → List Nat → LaneMask → State × Option FaultInfo
  | s, [], _ => (s, none)
  | s, l :: rest, done =>
    match barStep s x.uid (off l) (arrival (n l)) with
    | .ok s => arriveLanes x off n s rest (done ||| maskOf (· == l))
    | .error r => (s, some (barFault s x r l (off l) done))

/-- `arrive` (R398): a release of each lane at `.core`, then its arrival. Lanes below one that raises BAR_OVER stay
performed. -/
def execArrive (c : Ctl) (one xb : Bool) (o : Ops) (s : State) : Host.Outcome State Fault Refusal :=
  ramson (.arrive c one xb o) (fun x s =>
    match barLanes x o.a with
    | .error f => .fault f
    | .ok off =>
      let ls := if one then [x.low] else x.lanes
      if ls.any (fun l => rangeHolds s x (off l) 16) || !(drainsOf s x.w.core x.uid x.k).isEmpty then .hold
      else
        let n := fun l => if xb then readSrc x rd32 o.b l else 0
        let r := arriveLanes x off n (forceLoads s x.uid x.k (fun _ => true)) ls 0
        match r.2 with
        | none => goNow x r.1
        | some f =>
          if recordRoom s x.w.lid then
            .go { s := r.1, t := setPath ((strand? r.1 x.uid x.k).getD x.st) x.pi (fun p => { p with st := .fault })
                  moved := true, close := true
                  after := fun s => raiseFault s x.w.lid (strandRecord s x f) }
          else .hold) s

/-- `bwait` (R399): lanes that observe at issue are done; the path is held until the others have. -/
def execBwait (c : Ctl) (seq : Bool) (o : Ops) (s : State) : Host.Outcome State Fault Refusal :=
  ramson (.bwait c seq o) (fun x s =>
    match barLanes x o.a with
    | .error f => .fault f
    | .ok off =>
      if x.lanes.any (fun l => rangeHolds s x (off l) 16) then .hold
      else
        let n := readSrc x rd32 o.b
        let bar := fun l => readBar s x.uid (off l)
        let bad := maskOf (fun l => lane x.tm l && (bar l).expect == 0)
        let seen := maskOf (fun l => lane x.tm l && observed seq (n l) (bar l))
        if bad ≠ 0 then .fault { barFault s x barUninit (lowest bad) (off (lowest bad)) seen with lanes := bad }
        else if x.tm &&& ~~~seen = 0 then .go { s := s, t := x.st, close := true }
        else
          let (id, s) := fresh s
          let d : Pend :=
            { id := id, pc := x.p.pc, instr := .bwait c seq o, lanes := x.tm, win := winList x.tm 0, outs := [], ready := 0
              addr := addrList x.tm off
              data := (List.range 32).map (fun l => if lane x.tm l then words32 1 (fun _ => n l) else []), done := seen
              srcs := srcValues x (.bwait c seq o) }
          .go { s := s, t := setPath x.st x.pi (fun p => { p with st := .bwait }), moved := true, close := true
                pend := some d }) s

/-- Work in the unit still bound to a barrier (R400): copies whose bytes count on it here, of this unit or of another (R324), sealed
batches, drains. -/
def barBound (s : State) (x : Ctx) (off : Nat) : Bool :=
  let co := coreOf s x.w.core
  (allCopies s).any (fun y => !y.failed && y.bar == some off && y.parts.any (fun p =>
      p.1 == x.uid && (p.2.any (fun b => !b.landed) || y.parts.length == 1)))
    || co.seals.any (fun b => b.uid == x.uid && b.bar == off)
    || co.quarters.any (fun q => q.drains.any (fun d => d.uid == x.uid && d.bar == some off))

/-- `barinv` (R400). -/
def execBarinv (c : Ctl) (o : Ops) (s : State) : Host.Outcome State Fault Refusal :=
  ramson (.barinv c o) (fun x s =>
    match barLanes x o.a with
    | .error f => .fault f
    | .ok off =>
      let b := off x.low
      if barBound s x b || rangeHolds s x b 16 then .hold
      else goNow x (scratchWrite s x.uid b (List.replicate 16 0))) s

end Sys2Proof.Machine
end

