-- ==== Sys2Proof/Machine/Copy.lean ====
section
/-! DEFINITION. Group 12, operations 0 to 3: `cpin`, `cpout`, `cpmc` and `cpseal`, and the landing of copies
(R315-R328, R330). -/

namespace Sys2Proof.Machine

open Sys2Proof

/-! ## The box (R317, R318, R349) -/

/-- One run of bytes of a copy: its global address (none: outside the tensor), scratchpad address, length. -/
structure CRun where
  glob : Option Nat
  scr : Nat
  len : Nat
deriving DecidableEq, Repr

/-- A grid of `nr` × `nc` units of `u` bytes at (r, c) of a global grid of `gr` × `gc` units. -/
def gridRuns (nr nc u sb sp gb gp : Nat) (r c : Int) (gr gc : Nat) : List CRun :=
  (List.range nr).flatMap (fun i =>
    let row := sb + i * sp
    if 0 ≤ r + i && r + i < gr then
      let lo := min nc (maxI 0 (-c)).toNat
      let hi := max lo (minI (nc : Int) ((gc : Int) - c)).toNat
      let y := (r + i).toNat
      [⟨none, row, lo * u⟩, ⟨some (gb + y * gp + u * (c + lo).toNat), row + lo * u, (hi - lo) * u⟩,
       ⟨none, row + hi * u, (nc - hi) * u⟩].filter (fun e => e.len != 0)
    else [⟨none, row, nc * u⟩])

/-- The runs of a box: elements, then scale bytes (R317, R349). `d` is the scratchpad tensor, `g` the global one. -/
def boxRuns (d g : Tdesc) (r c : Int) : List CRun :=
  let m4 := 4 * d.fmt.bits
  let sb := d.base.toNat
  let gb := g.base.toNat
  let els :=
    if d.fmt.isBfp then
      if d.sdir = 2 then gridRuns (d.rows / 32) d.cols m4 sb d.pitch gb g.pitch (r / 32) c (g.rows / 32) g.cols
      else gridRuns d.rows (d.cols / 32) m4 sb d.pitch gb g.pitch r (c / 32) g.rows (g.cols / 32)
    else gridRuns d.rows d.cols d.esz sb d.pitch gb g.pitch r c g.rows g.cols
  let ss := d.sbase.toNat
  let gs := g.sbase.toNat
  let scs :=
    if d.unscaled then []
    else if d.sdir = 2 then gridRuns (d.rows / 32) d.cols 1 ss d.spitch gs g.spitch (r / 32) c (g.rows / 32) g.cols
    else gridRuns d.rows (d.cols / 32) 1 ss d.spitch gs g.spitch r (c / 32) g.rows (g.cols / 32)
  els ++ scs

/-- The origin of a lane's box (R317). -/
def boxOrigin (x : Ctx) (coord l : Nat) : Int × Int :=
  let v := affLane (affReg x.p coord) l
  (sext 32 v, sext 32 (v / 2 ^ 32))

/-- The conditions of R318 for one lane: the code of the fault. Unscaled tensors of one format with different SDIR have different
scale layouts here (DESIGN CHOICE, log 176). -/
def boxCheck (lpb : Lpb) (d g : Tdesc) (r c : Int) : Option Nat :=
  if d.space != some .scratch || g.space != some .global then some fTd
  else if d.fmt != g.fmt || d.sdir != g.sdir || d.unscaled != g.unscaled then some fTd
  else if (d.fmt.isBfp || !d.unscaled) &&
      ((d.sdir == 1 && c % 32 != 0) || (d.sdir == 2 && r % 32 != 0)) then some fTd
  else if !inScratch lpb d.base.toNat (extent 0 d.storage.1 d.pitch d.storage.2).2 then some fScratch
  else if !d.unscaled && !inScratch lpb d.sbase.toNat (extent 0 d.scales.1 d.spitch d.scales.2).2 then some fScratch
  else none

/-! ## Probing and entering (R319-R322) -/

/-- Pages of the runs, each with its location, or the first failure. -/
def probeRuns (s : State) (x : Ctx) (need : Rights) (runs : List CRun) :
    Except (Nat × XErr) (List (Nat × Nat × Loc)) × State :=
  let ps := runs.flatMap (fun e => match e.glob with | some a => pagePieces a e.len | none => [])
  let r := locPieces s x.w.core x.l.fn x.l.part need ps
  (r.1.map (fun ls => (ps.zip ls).map (fun e => (e.1.1, e.1.2, e.2.1))), r.2)

/-- The translations that probing from a core confirms: VF, VA page, and each IPA page that they rest on (R322, R438). -/
def pagesOf (s : State) (core fn : Nat) (ls : List (Nat × Nat × Loc)) : List (Nat × Nat × Nat) :=
  if isPf fn then []
  else (((ls.map (fun e => e.1 / pageBytes)).eraseDups)).flatMap (fun vpn =>
    match Tbl.find? (coreOf s core).tlb (tlbKey fn vpn) with
    | some t => (t.ipa :: t.via).map (fun ipa => (fn, vpn, ipa))
    | none => [(fn, vpn, 0)])

/-- The translations that the copy holds (R322). -/
def heldPages (s : State) (x : Ctx) (ls : List (Nat × Nat × Loc)) : List (Nat × Nat × Nat) := pagesOf s x.w.core x.l.fn ls

/-- The bytes of a copy; `into`: into the scratchpad. -/
def runBytes (ls : List (Nat × Nat × Loc)) (into : Bool) (e : CRun) : List CByte :=
  (List.range e.len).map (fun i =>
    let g := e.glob.bind (fun a => locAt ls (a + i))
    let sc := some (Loc.scratch (scratchOff e.scr + i))
    if into then { src := g, dst := sc } else { src := sc, dst := g })

def liveCopies (c : Core) : Nat := (c.copies.filter (fun y => !y.failed)).length

/-- First and last scratchpad byte of a list of bytes. -/
def scratchSpan (bs : List CByte) : Option (Nat × Nat) :=
  bs.foldl (fun acc b => match b.dst with
    | some (.scratch o) => (match acc with | none => some (o, o) | some (lo, hi) => some (min lo o, max hi o))
    | _ => acc) none

/-- Enters a copy: a queue entry, its ranges, its lane's open batch (R320, R321). -/
def enterCopy (s : State) (x : Ctx) (y : Copy) : State :=
  let s := setCore s x.w.core (fun c => { c with copies := c.copies ++ [y] })
  let s := y.parts.foldl (fun s p =>
    match scratchSpan p.2, unit? s p.1 with
    | some (lo, hi), some w => setCore s w.core (fun c => { c with ranges := c.ranges ++ [⟨y.id, p.1, lo, hi⟩] })
    | _, _ => s) s
  setStrand s x.uid x.k (fun t => { t with openBatch := Tbl.upd t.openBatch y.lane [] (fun b => b ++ [y.id]) })

/-- What one lane of a copy instruction asks for: runs, barrier, task, destination units (none: the issuing unit). -/
structure CLane where
  lane : Nat
  runs : List CRun
  bar : Option Nat
  task : Option Nat
  units : List Nat
deriving DecidableEq, Repr

/-- Step 4 over every lane: the located pages of each, the lanes that miss, or a fault. -/
def probeLanes (s : State) (x : Ctx) (need : Rights) : List CLane →
    Except FaultInfo (List (CLane × List (Nat × Nat × Loc)) × List (Nat × XErr)) × State
  | [] => (.ok ([], []), s)
  | q :: rest =>
    let r := probeRuns s x need q.runs
    let n := probeLanes r.2 x need rest
    match r.1, n.1 with
    | .error (_, .miss a b c d), .ok m => (.ok (m.1, (q.lane, .miss a b c d) :: m.2), n.2)
    | .error (a, e), .ok _ =>
      (.error { code := xCode e, reason := xReason e, lanes := maskOf (· == q.lane), addrs := addrList (maskOf (· == q.lane)) (fun _ => a) }, n.2)
    | .error (a, e), .error f =>
      (match e with
       | .miss _ _ _ _ => .error f
       | _ => .error { f with lanes := f.lanes ||| maskOf (· == q.lane), addrs := setNth f.addrs q.lane a }, n.2)
    | .ok ls, .ok m => (.ok ((q, ls) :: m.1, m.2), n.2)
    | .ok _, .error f => (.error f, n.2)

/-- Room for a copy of every lane at once (R320). -/
def copyRoom (s : State) (x : Ctx) (qs : List CLane) (into : Bool) : Bool :=
  decide (liveCopies (coreOf s x.w.core) + qs.length ≤ 64) &&
    (!into ||
      (let us := qs.flatMap (fun q => q.units)
       let cs := us.filterMap (fun u => (unit? s u).map (·.core))
       cs.all (fun c => decide ((coreOf s c).ranges.length + (cs.filter (· == c)).length ≤ 32))))

/-- Enters the copies of all lanes, in ascending order. -/
def enterAll (x : Ctx) (into : Bool) (s : State) (qs : List (CLane × List (Nat × Nat × Loc))) : State :=
  qs.foldl (fun s e =>
    let (id, s) := fresh s
    let bytes := e.1.runs.flatMap (runBytes e.2 into)
    enterCopy s x { id := id, uid := x.uid, k := x.k, lane := e.1.lane, pc := x.p.pc, lid := x.w.lid
                    parts := e.1.units.map (fun u => (u, bytes)), bar := e.1.bar, task := e.1.task
                    pages := heldPages s x e.2, locs := e.2 }) s

/-- What a copy instruction asks for: its direction, the descriptors it has read, and its lanes. -/
structure CopyAsk where
  into : Bool
  tds : List Tdesc
  lanes : List CLane
deriving DecidableEq, Repr

/-- The rights that its probing needs at the global tensor (R361). -/
def CopyAsk.need (q : CopyAsk) : Rights := if q.into then .read else .write

/-- A scratchpad source of the copy that another copy still writes: a group-12 access waits for it (R247). -/
def sourceHeld (s : State) (x : Ctx) (q : CopyAsk) : Bool :=
  !q.into && q.lanes.any (fun l => l.runs.any (fun r => rangeHolds s x (scratchOff r.scr) r.len))

/-- The rest of a copy instruction once its lanes are known: probing, room, entering. Lanes that miss wait on their requests while
the instruction keeps its descriptors (R319, R320, R356). -/
def copyIssue (x : Ctx) (s : State) (i : Instr) (q : CopyAsk) : Res :=
  match probeLanes s x q.need q.lanes with
  | (.error f, _) => .fault f
  | (.ok (ok, misses), s1) =>
    if !misses.isEmpty then
      let r := postReqs s1 x.l.fn (dieOfCore x.w.core) q.need misses
      keepWaiting r.2 x i (fun d => { d with parked := r.1, tds := q.tds })
    else if !copyRoom s x q.lanes q.into || !(drainsOf s x.w.core x.uid x.k).isEmpty || sourceHeld s x q then .hold
    else
      let s2 := enterAll x q.into (forceLoads s1 x.uid x.k (fun _ => true)) ok
      .go { s := s2, t := dropProgress ((strand? s2 x.uid x.k).getD x.st) x i }

/-- Barrier offsets of `.bytes` and of `cpseal` (R319, step 3): every lane of T. -/
def copyBar (x : Ctx) (on : Bool) (o : Opnd) : Except FaultInfo (Nat → Option Nat) :=
  if on then (barLanes x o).map (fun f l => some (f l)) else .ok (fun _ => none)

/-- Lanes whose task number is out of range (R319). -/
def taskBad (x : Ctx) (sig : Bool) (o : Opnd) : LaneMask :=
  maskOf (fun l => lane x.tm l && sig && decide (4096 ≤ readSrc x rd32 o l))

/-- The descriptors of a copy: those it read when it first issued, or the entries now (R318, R356). -/
def copyTds (x : Ctx) (s : State) (i : Instr) (sd gd : Nat) : Option (Tdesc × Tdesc) :=
  match keptTds x i, tdUse s x.w.core x.w.lid sd, tdUse s x.w.core x.w.lid gd with
  | [d, g], _, _ => some (d, g)
  | _, some d, some g => some (d, g)
  | _, _, _ => none

/-- The lanes of a copy between scratchpad tensor `sd` and global tensor `gd` (R318, R319). -/
def copyLanes (x : Ctx) (s : State) (i : Instr) (into : Bool) (coord sd gd : Nat) (bytes : Bool) (bar : Opnd) (sig : Bool)
    (task : Opnd) (units : Nat → Option (List Nat)) : Except FaultInfo CopyAsk :=
  match copyTds x s i sd gd with
  | some (d, g) =>
    let org := boxOrigin x coord
    match x.lanes.findSome? (fun l => boxCheck x.l.lpb d g (org l).1 (org l).2) with
    | some code =>
      .error { code := code
               lanes := maskOf (fun l => lane x.tm l && boxCheck x.l.lpb d g (org l).1 (org l).2 == some code) }
    | none =>
      match copyBar x bytes bar with
      | .error f => .error f
      | .ok b =>
        let tb := taskBad x sig task ||| maskOf (fun l => lane x.tm l && (units l).isNone)
        if tb ≠ 0 then .error { code := fProt, reason := 7, lanes := tb }
        else .ok { into := into, tds := [d, g], lanes := x.lanes.map (fun l =>
          { lane := l, runs := boxRuns d g (org l).1 (org l).2, bar := b l
            task := if sig then some (readSrc x rd32 task l) else none, units := (units l).getD [] }) }
  | none => .error { code := fTd, lanes := x.tm }

/-- What `cpin` asks for (R316, R317). -/
def askCpin (c : Ctl) (coord : Fin 32) (bytes sig : Bool) (o : Ops) (x : Ctx) (s : State) : Except FaultInfo CopyAsk :=
  copyLanes x s (.cpin c coord bytes sig o) true coord.val (tdNum o.d) (tdNum o.a) bytes o.b sig o.c (fun _ => some [x.uid])

/-- What `cpout` asks for. -/
def askCpout (c : Ctl) (coord : Fin 32) (bytes sig : Bool) (o : Ops) (x : Ctx) (s : State) : Except FaultInfo CopyAsk :=
  copyLanes x s (.cpout c coord bytes sig o) false coord.val (tdNum o.a) (tdNum o.d) bytes o.b sig o.c (fun _ => some [x.uid])

/-- `cpin` (R316-R322). -/
def execCpin (c : Ctl) (coord : Fin 32) (bytes sig : Bool) (o : Ops) (s : State) : Host.Outcome State Fault Refusal :=
  ramson (.cpin c coord bytes sig o) (fun x s =>
    match askCpin c coord bytes sig o x s with
    | .error f => .fault f
    | .ok q => copyIssue x s (.cpin c coord bytes sig o) q) s

/-- `cpout` (R316-R322). -/
def execCpout (c : Ctl) (coord : Fin 32) (bytes sig : Bool) (o : Ops) (s : State) : Host.Outcome State Fault Refusal :=
  ramson (.cpout c coord bytes sig o) (fun x s =>
    match askCpout c coord bytes sig o x s with
    | .error f => .fault f
    | .ok q => copyIssue x s (.cpout c coord bytes sig o) q) s

/-- The resident units of the launch that a `cpmc` operand selects; none when the mask is 0 or one is absent (R319). -/
def mcUnits (s : State) (lid v : Nat) : Option (List Nat) :=
  let us := ((List.range 32).filter (fun i => v / 2 ^ (32 + i) % 2 == 1)).map (fun i => v % 2 ^ 32 + i)
  let found := us.map (fun u => (s.units.find? (fun e => e.2.lid == lid && e.2.u == u)).map (·.1))
  if us.isEmpty || found.any (·.isNone) then none else some (found.filterMap id)

/-- What `cpmc` asks for. -/
def askCpmc (c : Ctl) (coord : Fin 32) (bytes : Bool) (o : Ops) (x : Ctx) (s : State) : Except FaultInfo CopyAsk :=
  copyLanes x s (.cpmc c coord bytes o) true coord.val (tdNum o.d) (tdNum o.a) bytes o.b false .null
    (fun l => mcUnits s x.w.lid (readSrc x (.int 2 false) o.c l))

/-- `cpmc` (R316-R322, R326). -/
def execCpmc (c : Ctl) (coord : Fin 32) (bytes : Bool) (o : Ops) (s : State) : Host.Outcome State Fault Refusal :=
  ramson (.cpmc c coord bytes o) (fun x s =>
    match askCpmc c coord bytes o x s with
    | .error f => .fault f
    | .ok q => copyIssue x s (.cpmc c coord bytes o) q) s

/-- What a waiting copy instruction asks for; none of any other instruction. -/
def copyAsk (x : Ctx) (s : State) : Instr → Option CopyAsk
  | .cpin c coord bytes sig o => (askCpin c coord bytes sig o x s).toOption
  | .cpout c coord bytes sig o => (askCpout c coord bytes sig o x s).toOption
  | .cpmc c coord bytes o => (askCpmc c coord bytes o x s).toOption
  | _ => none

/-! ## `cpseal` (R327) -/

/-- Seals one lane's open batch. -/
def sealLane (x : Ctx) (bar : Nat → Option Nat) (s : State) (l : Nat) : State :=
  match strand? s x.uid x.k with
  | none => s
  | some t =>
    let n := nth t.batchCtr l 0
    let rec' : Sealed := ⟨n, x.uid, x.k, l, (bar l).getD 0, Tbl.getD t.openBatch l [], x.p.pc⟩
    let s := setCore s x.w.core (fun c =>
      { c with seals := c.seals ++ [rec']
               copies := c.copies.map (fun y => if rec'.copies.contains y.id then { y with batch := some n } else y) })
    setStrand s x.uid x.k (fun t =>
      { t with batchCtr := setNth t.batchCtr l ((n + 1) % 65536), openBatch := Tbl.del t.openBatch l })

/-- `cpseal` (R327): lane by lane; while the core has no free record the lanes that are left wait, and those before them have sealed. -/
def execCpseal (c : Ctl) (o : Ops) (s : State) : Host.Outcome State Fault Refusal :=
  ramson (.cpseal c o) (fun x s =>
    match copyBar x true o.a with
    | .error f => .fault f
    | .ok bar =>
      let i : Instr := .cpseal c o
      let was := progressOf x i
      let old : LaneMask := match was with | some d => d.done | none => 0
      let num : Nat → Nat := fun l => match was with
        | some d => if lane old l then dataNat d.data l else nth x.st.batchCtr l 0
        | none => nth x.st.batchCtr l 0
      let todo := x.lanes.filter (fun l => !lane old l)
      let now := todo.take (64 - (coreOf s x.w.core).seals.length)
      let s1 := now.foldl (sealLane x bar) s
      if now.length = todo.length then
        giveVec x s1 (dropProgress ((strand? s1 x.uid x.k).getD x.st) x i) i c o.d 1 num
      else if now.isEmpty then .hold
      else keepWaiting s1 x i (fun d => { d with done := old ||| maskOf (fun l => now.contains l)
                                                 data := (List.range 32).map (fun l => [BitVec.ofNat 32 (num l)]) })) s

/-! ## Landing (R323-R328, R330) -/

/-- A copy that a core lands: one of its own, or one of a saved unit whose bytes for a restored unit the core reads itself (R329). -/
def copy? (s : State) (core id : Nat) : Option Copy :=
  match (coreOf s core).copies.find? (fun y => y.id == id) with
  | some y => some y
  | none => (s.images.flatMap (fun e => e.2.copies)).find? (fun y => y.id == id && y.readers.any (fun r => r.2 == core))

/-- Is the unit that issued a copy resident on the core? -/
def copyLive (s : State) (core : Nat) (y : Copy) : Bool := (coreOf s core).copies.any (fun z => z.id == y.id)

/-- Rewrites a copy, entered or in the image of a saved unit. -/
def setAnyCopy (s : State) (id : Nat) (f : Copy → Copy) : State :=
  let now (y : Copy) : Copy := if y.id == id then f y else y
  { s with cores := Tbl.mapV s.cores (fun _ c => { c with copies := c.copies.map now })
           images := Tbl.mapV s.images (fun _ im => { im with copies := im.copies.map now }) }

/-- Does one reading of a source byte serve two parts of a `cpmc` (R326)? A restored unit's core reads for itself (R329). -/
def sharesRead (y : Copy) (u v : Nat) : Bool := u == v || (!Tbl.has y.readers u && !Tbl.has y.readers v)

/-- Who reads the source of a copy for unit `u`: the issuing core, or the one that restored the unit (R329). -/
def partReader (y : Copy) (w : Who) (u : Nat) : Who :=
  match Tbl.find? y.readers u with | some c => { w with core := c } | none => w

/-- The thread that a copy reads and writes for (R244); while its unit is saved, the core that lands its bytes (R329). -/
def copyWho (s : State) (core : Nat) (y : Copy) : Who :=
  match unit? s y.uid with
  | some _ => whoOf s y.uid y.k
  | none => { core := core, world := 0, uid := y.uid, k := y.k, charge := !isPf (fnOfLid y.lid) }

/-- A byte of the part of unit `u`. -/
def copyByte? (y : Copy) (u i : Nat) : Option CByte := (y.parts.find? (fun p => p.1 == u)).bind (fun p => p.2[i]?)

/-- The dirty bytes that a core's L1 holds of a source's word are written back before a copy reads it (R236, R244). -/
def backWord (loc : Loc) (s : State) (core : Nat) : State :=
  let s := forceLine s core loc
  match loc with
  | .mem pa => l1WriteBack s core (fun a => a / 4 == pa / 4)
  | _ => s

/-- Its clean bytes take what the copy reads, so that no later read of the thread goes back behind it (R235). -/
def renewWord (loc : Loc) (s : State) (core : Nat) : State :=
  match loc with
  | .mem pa => l1Refresh s core (fun a => a / 4 == pa / 4)
  | _ => s

/-- The aligned word of a source as a reader finds it at its home: the L1s of the issuing core and of the reader give way. -/
def copyRead (s : State) (w r : Who) (loc : Loc) : State :=
  let cs := [w.core, r.core].eraseDups
  let s := cs.foldl (backWord loc) s
  let s := match loc with | .mem pa => l2Touch s w.charge (pa / 4 * 4) 4 false | _ => s
  cs.foldl (renewWord loc) s

/-- The byte at a source, once its word is read. -/
def sourceByte (s : State) (uid : Nat) : Loc → Byte
  | .scratch o => nth (scratchGet s uid o 1) 0 0
  | l => nth (readHome s l 1) 0 0

/-- A copy reads one aligned word of its source, all of its bytes at one moment, for each destination that shares the reading (R236, R244,
R326; DEDUCED, log 68). -/
def readWord (s : State) (core id u : Nat) (loc : Loc) : State :=
  match copy? s core id with
  | none => s
  | some y =>
    let w := copyWho s core y
    let s := copyRead s w (partReader y w u) loc
    let take (b : CByte) : CByte := match b.src with
      | some l => if wordOf l == wordOf loc && b.val.isNone && !b.landed then { b with val := some (sourceByte s y.uid l) } else b
      | none => b
    setAnyCopy s id (fun y =>
      { y with parts := y.parts.map (fun q => if sharesRead y u q.1 then (q.1, q.2.map take) else q) })

/-- Writes one destination byte: at the unit's banks, or at its home with the issuing core's lines flushed (R244). -/
def copyWrite (s : State) (w : Who) (uid : Nat) (dst : Option Loc) (v : Byte) : State :=
  match dst with
  | none => s
  | some (.scratch o) => scratchPut s uid o [v]
  | some loc => writeHome (flushLine (forceLine s w.core loc) w.core loc) w.charge loc [v]

/-- A landed byte of a copy costs its partition energy (R417). -/
def chargeCopy (s : State) (y : Copy) : State :=
  match launch? s y.lid with
  | some l => if isPf l.fn then s else chargeEnergy s l.part energyCopy
  | none => s

/-- Lands byte `i` of the part of unit `u`: a word that the copy has not read yet is read now (R244). -/
def landByte (s : State) (core id u i : Nat) : State :=
  match (copy? s core id).bind (fun y => (copyByte? y u i).map (fun b => (y, b))) with
  | none => s
  | some (y, b) =>
    if b.landed then s
    else
      let s := match b.val, b.src with
        | none, some l => readWord s core id u l
        | _, _ => s
      let v := match (copy? s core id).bind (fun y => copyByte? y u i) with
        | some b => b.val.getD 0
        | none => 0
      setAnyCopy (copyWrite (chargeCopy s y) (copyWho s core y) u b.dst v) id (fun y =>
        { y with parts := y.parts.map (fun q => if q.1 == u then (u, setNth q.2 i { nth q.2 i b with landed := true }) else q) })

/-- What lands with some bytes of a copy: an aligned word of its destination is written at one moment (R236). -/
def landWords (y : Copy) (bs : List (Nat × Nat)) : List (Nat × Nat) :=
  y.parts.flatMap (fun p =>
    let mine := bs.filter (fun e => e.1 == p.1)
    let words := mine.filterMap (fun e => (p.2[e.2]?).bind (fun b => b.dst.map wordOf))
    (p.2.zipIdx).filterMap (fun e =>
      if !e.1.landed && (mine.contains (p.1, e.2) || (match e.1.dst with | some d => words.contains (wordOf d) | none => false))
      then some (p.1, e.2) else none))

/-- Offset of the first byte not landed, over the parts. -/
def firstUnlanded (y : Copy) : Nat := ((y.parts.flatMap (·.2)).takeWhile (fun b => b.landed)).length

/-- The record of a fault of a copy (R328, R391): its lane, address and batch number (65,536 when open). -/
def copyFault (y : Copy) (code reason first : Nat) (aux2 : List Byte) : FaultInfo :=
  { code := code, reason := reason, lanes := maskOf (· == y.lane), precise := false
    aux := toBytes 4 (match y.batch with | some n => n | none => 65536) ++ toBytes 4 first
           ++ (match y.bar with | some b => toBytes 4 b | none => []), aux2 := aux2 }

/-- Bytes landed count on the barrier at the copy's offset in the part's unit (R324); a unit that has gone has none (R329). -/
def countLanded (s : State) (y : Copy) (u n : Nat) : State :=
  match y.bar with
  | none => s
  | some off =>
    if n = 0 || (unit? s u).isNone then s
    else
      match barStep s u off (landing n) with
      | .ok s => s
      | .error r => laterFault s y.uid y.k y.pc (copyFault y fBarOver r 0 (scratchGet s u off 16))

/-- How many bytes of a part count as landed with `bs`: bytes outside the tensor count when the copy lands (R324). -/
def landedCount (p : Nat × List CByte) (bs : List (Nat × Nat)) (last : Bool) : Nat :=
  (bs.filter (fun e => e.1 == p.1 && (match p.2[e.2]? with | some b => b.dst.isSome | none => false))).length +
    (if last then (p.2.filter (fun b => b.dst.isNone)).length else 0)

/-- Lands a list of bytes (unit, index), then counts them; `last`: the copy lands with them. -/
def landList (s : State) (core : Nat) (y : Copy) (bs : List (Nat × Nat)) (last : Bool) : State :=
  let s := bs.foldl (fun s e => landByte s core y.id e.1 e.2) s
  let s := (y.parts.map (·.1)).foldl (fun s u => testWaiters s u) s
  y.parts.foldl (fun s p => countLanded s y p.1 (landedCount p bs last)) s

/-- The links that a byte of a copy crosses to unit `u`: a tile into scratchpads takes the route to the die of each (R11, R326). -/
def byteLinks (s : State) (core : Nat) (y : Copy) (u : Nat) (b : CByte) : List Nat :=
  let die := dieOfCore (match Tbl.find? y.readers u with | some c => c | none => core)
  let h := portOfFn s (fnOfLid y.lid)
  let goal := match unit? s u with | some w => dieOfCore w.core | none => die
  (match b.src with | some l => linksVia s die h l goal | none => []) ++
    (match b.dst with | some l => linksTo s die h l | none => [])

/-- The cols that byte `i` of an `nmcopy` crosses: those to the lines on the way to its leaf (R284, R292). -/
def nmCols (s : State) (core : Nat) (y : Copy) (i : Nat) : List Nat :=
  match y.root with
  | some (p, d, n) =>
    ((walkNames s ⟨p, d⟩ (y.leaf + i / 192) (nameKind n) n).flatMap (nameGroups s ⟨p, d⟩)).flatMap (cairnCols s (dieOfCore core) p)
  | none => []

/-- The bytes of a copy not yet landed, part by part, as (unit, index). -/
def pendingBytes (y : Copy) : List (Nat × Nat) :=
  y.parts.flatMap (fun p => (p.2.zipIdx).filterMap (fun e => if e.1.landed then none else some (p.1, e.2)))

def dropCopy (s : State) (core id : Nat) : State :=
  freeRanges (setCore s core (fun c => { c with copies := c.copies.filter (fun y => y.id != id) })) [id]

/-- A copy that has landed: its range is freed, its task decremented after a release (R325), its root dropped. -/
def copyDone (s : State) (core : Nat) (y : Copy) : State :=
  let s := dropCopy s core y.id
  match y.task with
  | none => s
  | some t =>
    let w := whoOf s y.uid y.k
    taskDecrement (releaseCore s core) (fnOfLid y.lid) t (core / 2)

/-- Do bytes land in a unit that is saved? They wait for its restore (R329). -/
def landsInImage (s : State) (bs : List (Nat × Nat)) : Bool := bs.any (fun e => Tbl.has s.images e.1)

/-- May the copy's landing raise BAR_OVER while its event queue is full? Then it waits (R420). -/
def landRoom (s : State) (y : Copy) : Bool := y.bar.isNone || recordRoom s y.lid

/-! ## Sealed batches -/

def sealReady (c : Core) (i : Nat) : Option Sealed :=
  match c.seals[i]? with
  | none => none
  | some b =>
    let before := (c.seals.take i).any (fun e => e.uid == b.uid && e.k == b.k && e.lane == b.lane)
    if before || c.copies.any (fun y => b.copies.contains y.id) then none else some b

/-- BATCH_DEFERRED_ARRIVAL: the `id`-th sealed record of a core makes its one arrival (R327, R391; DESIGN CHOICE, log 58). -/
def execEvBatchDeferredArrival (core : Fin 384) (id : Nat) (s : State) : Host.Outcome State Fault Refusal :=
  let c := coreOf s core.val
  match sealReady c id with
  | none => .next s
  | some b =>
    let lid := match unit? s b.uid with | some w => w.lid | none => 0
    let s1 := setCore s core.val (fun c => { c with seals := c.seals.eraseIdx id })
    match barStep s1 b.uid b.bar (arrival 0) with
    | .ok s2 => .next s2
    | .error r =>
      if recordRoom s lid then
        .next (laterFault s1 b.uid b.k b.pc
          { code := fBarOver, reason := r, lanes := maskOf (· == b.lane), precise := false
            aux := toBytes 4 b.num ++ toBytes 4 b.bar, aux2 := scratchGet s1 b.uid b.bar 16 })
      else .next s

end Sys2Proof.Machine
end

