-- ==== Sys2Proof/Machine/Cairn.lean ====
section
/-! DEFINITION. Group 11: `nmlook`, `nmnode`, `nmread`, `nmwalk`, `nmswap`, `nmref`, `nmdrop` and `nmcopy`
(R283-R294). -/

namespace Sys2Proof.Machine

open Sys2Proof

/-! ## Checks (R284) -/

/-- The right an instruction needs (R275). -/
inductive NmRight where
  | none | intern | swap
deriving DecidableEq, Repr

/-- Step 2: the selected domain; a slot number beyond its root table in some lanes (`slot`: where slots stand). -/
def nmDomain (s : State) (x : Ctx) (dsel : Nat) (need : NmRight) (slot : Option Opnd) : Except FaultInfo DomKey :=
  match selectDomain s x.l dsel with
  | Option.none => .error { code := fProt, reason := 6, lanes := x.tm }
  | some u =>
    let ok := match need with | .none => true | .intern => u.intern | .swap => u.swap
    if !ok then .error { code := fProt, reason := 6, lanes := x.tm }
    else
      let size := match domain? s u.key with | some d => d.nslots | Option.none => 0
      let bad := match slot with
        | Option.none => 0
        | some o => maskOf (fun l => lane x.tm l && decide (size ≤ readSrc x rd32 o l))
      if bad ≠ 0 then .error { code := fProt, reason := 6, lanes := bad } else .ok u.key

/-- Steps 3 and 4 for a scratchpad base of 192 bytes: the offset of each lane. -/
def nmScratch (x : Ctx) (addr : Nat → Nat) : Except FaultInfo (Nat → Nat) :=
  let bad := x.lanes.filterMap (fun l =>
    match window (addr l) 192 with
    | .scratch o => if o + 192 ≤ x.l.lpb.scratch then none else some (l, XErr.scratch)
    | _ => some (l, XErr.prot 1))
  if bad.isEmpty then
    let m := alignLanes x addr 16
    if m = 0 then .ok (fun l => scratchOff (addr l)) else .error { code := fAlign, lanes := m, addrs := addrList m addr }
  else .error (laneFault addr bad)

/-- Do the lanes' scratchpad lines wait for copies or drains (R214, R247)? -/
def nmHeld (s : State) (x : Ctx) (off : Nat → Nat) : Bool :=
  let locs := x.lanes.map (fun l => (l, Loc.scratch (off l)))
  rangesHold s x locs 192 || drainHolds s x locs 192 false

/-! ## Lanes one at a time (R284) -/

/-- How one lane ends. -/
inductive NmLane where
  | ok (v : Nat) (s : State)
  | fault (code reason : Nat) (s : State)
  | wait

/-- One lane's access to these channel groups of a domain: UNCORR, or it goes on (R259, R284). -/
def reachCairn (x : Ctx) (k : DomKey) (gs : List Nat) (s : State) (f : State → NmLane) : NmLane :=
  match cairnUncorr s (dieOfCore x.w.core) k gs with
  | (true, s) => .fault fUncorr 0 s
  | (false, s) => f s

/-- What a run over the lanes leaves: state, results, lanes performed, and the lane that faulted. -/
structure NmRun where
  s : State
  vals : Tbl Nat := []
  done : LaneMask := 0
  stop : Option (Nat × Nat × Nat) := none
  wait : Bool := false

def nmLanes (f : State → Nat → NmLane) : NmRun → List Nat → NmRun
  | r, [] => r
  | r, l :: rest =>
    match f r.s l with
    | .ok v s => nmLanes f { r with s := s, vals := Tbl.put r.vals l v, done := r.done ||| maskOf (· == l) } rest
    | .fault code reason s => { r with s := s, stop := some (l, code, reason) }
    | .wait => { r with wait := true }

/-- Performs the lanes. One that waits for a free data line holds the whole instruction (R279, log 32). After a fault
the lanes below stay performed, with their results written. -/
def nmGo (x : Ctx) (s : State) (i : Instr) (c : Ctl) (d : Opnd) (f : State → Nat → NmLane) : Res :=
  let r := nmLanes f { s := s } x.lanes
  if r.wait then .hold
  else
    let t := (strand? r.s x.uid x.k).getD x.st
    match r.stop with
    | none => giveVec x r.s t i c d 4 (fun l => Tbl.getD r.vals l 0)
    | some (l, code, reason) =>
      if recordRoom s x.w.lid then
        let t := match d with
          | .vec n => writeGroup t n.val r.done (fun l => Tbl.getD r.vals l 0) 4
          | _ => t
        .go { s := r.s, t := setPath t x.pi (fun p => { p with st := .fault }), moved := true, close := true
              after := fun s => raiseFault s x.w.lid
                (strandRecord s x { code := code, reason := reason, lanes := maskOf (· == l), done := r.done }) }
      else .hold

/-- Reads a name operand: KIND 15 is never valid (R276). -/
def nameArg (x : Ctx) (o : Opnd) (l : Nat) : Option QWord :=
  let n : QWord := BitVec.ofNat 128 (readSrc x (.int 4 false) o l)
  if nameKind n = 15 then none else some n

/-- The name an operand gives a lane: in registers, or from the slot it numbers, read as an acquire at `.dev` (R291). -/
def nameOrSlot (x : Ctx) (k : DomKey) (root : Bool) (o : Opnd) (s : State) (l : Nat) : Option QWord × State :=
  if root then (some (slotName s k (readSrc x rd32 o l)), acquireCore s x.w.core) else (nameArg x o l, s)

/-- The home of the slot that a lane's name operand numbers (R284, R291). -/
def slotGroups (x : Ctx) (k : DomKey) (root : Bool) (o : Opnd) (s : State) (l : Nat) : List Nat :=
  if root then slotHome s k (readSrc x rd32 o l) else []

/-- Before slots are read: relaxed loads on their way are performed when an acquire follows. -/
def nmOrder (x : Ctx) (root : Bool) (s : State) : State := if root then forceLoads s x.uid x.k (fun _ => true) else s

def slotOf (root : Bool) (o : Opnd) : Option Opnd := if root then some o else none

/-! ## `nmlook`, `nmnode` (R285, R286) -/

/-- KIND of a node with these children; none when R286 forbids them. -/
def nodeKind (s : State) (k : DomKey) (line : List Byte) : Option Nat :=
  let cs := (childrenOf line).filter (fun n => n != 0)
  match cs with
  | [] => some 1
  | c :: _ =>
    if cs.all (fun n => decide (nameKind n < 14) && nameKind n == nameKind c && known s k n) then some (nameKind c + 1)
    else none

/-- The channel groups that an interning reaches: the home, and those of the lines it compares (R279). -/
def internGroups (s : State) (k : DomKey) (kind : Nat) (line : List Byte) : List Nat :=
  match domain? s k with
  | none => []
  | some d =>
    if line = zeroLine then []
    else (List.range 16).flatMap (fun o => nameGroups s k (nameOf (nameHash d.key kind line) o kind))

/-- One lane of `nmlook` or `nmnode`: a node's children are checked, and counted, at their homes (R281, R286). -/
def internLane (x : Ctx) (k : DomKey) (node : Bool) (off : Nat → Nat) (s : State) (l : Nat) : NmLane :=
  let line := scratchGet s x.uid (off l) 192
  reachCairn x k (if node then (childrenOf line).flatMap (nameGroups s k) else []) s (fun s =>
    match if node then nodeKind s k line else some 0 with
    | none => .fault fCairnName 0 s
    | some kind =>
      reachCairn x k (internGroups s k kind line) s (fun s =>
        match intern (cairnTraffic s (!isPf x.l.fn) k) k kind line with
        | .name n s => .ok n.toNat s
        | .full r s => .fault fCairnFull r s
        | .wait => .wait))

def nmIntern (i : Instr) (c : Ctl) (dsel : Fin 8) (node : Bool) (o : Ops) (x : Ctx) (s : State) : Res :=
  match nmDomain s x dsel.val .intern none with
  | .error f => .fault f
  | .ok k =>
    match nmScratch x (readAddr x o.a o.b .null) with
    | .error f => .fault f
    | .ok off => if nmHeld s x off then .hold else nmGo x s i c o.d (internLane x k node off)

/-- `nmlook` (R285). -/
def execNmlook (c : Ctl) (dsel : Fin 8) (o : Ops) (s : State) : Host.Outcome State Fault Refusal :=
  ramson (.nmlook c dsel o) (nmIntern (.nmlook c dsel o) c dsel false o) s

/-- `nmnode` (R286). -/
def execNmnode (c : Ctl) (dsel : Fin 8) (o : Ops) (s : State) : Host.Outcome State Fault Refusal :=
  ramson (.nmnode c dsel o) (nmIntern (.nmnode c dsel o) c dsel true o) s

/-! ## `nmread` (R287) -/

/-- The line of the lane's name, which the core holds or fetches, or CAIRN_NAME. -/
def readLane (x : Ctx) (k : DomKey) (root : Bool) (o : Opnd) (s : State) (l : Nat) (f : List Byte → State → NmLane) : NmLane :=
  let r := nameOrSlot x k root o s l
  match r.1 with
  | none => .fault fCairnName 0 r.2
  | some n =>
    reachCairn x k (slotGroups x k root o s l ++ if holdsName r.2 x.w.core (x.who s).world k n then [] else nameGroups r.2 k n) r.2 (fun s =>
      if known s k n then f (lineFor s k n) (cacheName (cairnTraffic s (!isPf x.l.fn) k) x.w.core (x.who s).world k n)
      else .fault fCairnName 0 s)

/-- One lane of `nmread.line`. -/
def readLineLane (x : Ctx) (k : DomKey) (root : Bool) (name : Opnd) (off : Nat → Nat) (s : State) (l : Nat) : NmLane :=
  readLane x k root name s l (fun line s => .ok 0 (scratchWrite s x.uid (off l) line))

/-- One lane of `nmread.piece`: a piece above 11 reads 16 zero bytes. -/
def readPieceLane (x : Ctx) (k : DomKey) (root : Bool) (o : Ops) (s : State) (l : Nat) : NmLane :=
  readLane x k root o.a s l (fun line s =>
    let p := readSrc x rd32 o.b l
    .ok (if 11 < p then 0 else ofBytes (slice line (16 * p) 16)) s)

/-- `nmread.line`. -/
def execNmreadLine (c : Ctl) (dsel : Fin 8) (root : Bool) (o : Ops) (s : State) : Host.Outcome State Fault Refusal :=
  ramson (.nmreadLine c dsel root o) (fun x s =>
    match nmDomain s x dsel.val .none (slotOf root o.b) with
    | .error f => .fault f
    | .ok k =>
      match nmScratch x (readAddr x o.a .null .null) with
      | .error f => .fault f
      | .ok off =>
        if nmHeld s x off then .hold
        else
          nmGo x (nmOrder x root s) (.nmreadLine c dsel root o) c .null (readLineLane x k root o.b off)) s

/-- `nmread.piece`: a piece above 11 reads 16 zero bytes, after the name is checked. -/
def execNmreadPiece (c : Ctl) (dsel : Fin 8) (root : Bool) (o : Ops) (s : State) : Host.Outcome State Fault Refusal :=
  ramson (.nmreadPiece c dsel root o) (fun x s =>
    match nmDomain s x dsel.val .none (slotOf root o.a) with
    | .error f => .fault f
    | .ok k =>
      nmGo x (nmOrder x root s) (.nmreadPiece c dsel root o) c o.d (readPieceLane x k root o)) s

/-! ## `nmwalk`, `nmswap` (R288, R289) -/

/-- One lane of `nmwalk`. -/
def walkLane (x : Ctx) (k : DomKey) (root : Bool) (o : Ops) (s : State) (l : Nat) : NmLane :=
  let r := nameOrSlot x k root o.a s l
  let i := readSrc x rd32 o.b l
  let gs := match r.1 with
    | some n => if 12 ^ nameKind n ≤ i then []
                else ((walkNames r.2 k i (nameKind n) n).filter (fun m => !holdsName r.2 x.w.core (x.who s).world k m)).flatMap (nameGroups r.2 k)
    | none => []
  reachCairn x k (slotGroups x k root o.a s l ++ gs) r.2 (fun s =>
    match r.1.bind (fun n => walkName s k n i) with
    | some n => .ok n.toNat (cacheName (cairnTraffic s (!isPf x.l.fn) k) x.w.core (x.who s).world k n)
    | none => .fault fCairnName 0 s)

/-- `nmwalk` (R288). -/
def execNmwalk (c : Ctl) (dsel : Fin 8) (root : Bool) (o : Ops) (s : State) : Host.Outcome State Fault Refusal :=
  ramson (.nmwalk c dsel root o) (fun x s =>
    match nmDomain s x dsel.val .none (slotOf root o.a) with
    | .error f => .fault f
    | .ok k =>
      nmGo x (nmOrder x root s) (.nmwalk c dsel root o) c o.d (walkLane x k root o)) s

/-- One compare and swap of a slot (R289). -/
def swapSlot (s : State) (k : DomKey) (i : Nat) (expected new : QWord) : Option (QWord × State) :=
  let old := slotName s k i
  if old = expected then
    if known s k new then
      let s := setDomain s k (fun d =>
        { d with roots := if new = 0 then Tbl.del d.roots i else Tbl.put d.roots i new })
      some (old, dropRef (addRef s k new) k old)
    else none
  else some (old, s)

/-- One lane of `nmswap`: acq_rel at `.dev`. -/
def swapLane (x : Ctx) (k : DomKey) (o : Ops) (s : State) (l : Nat) : NmLane :=
  match nameArg x o.b l, nameArg x o.c l with
  | some e, some n =>
    let i := readSrc x rd32 o.a l
    reachCairn x k (slotHome s k i ++ nameGroups s k n ++ nameGroups s k (slotName s k i)) s (fun s =>
      let s := releaseCore s x.w.core
      match swapSlot (cairnTraffic s (!isPf x.l.fn) k) k i e n with
      | some (old, s) => .ok old.toNat (acquireCore s x.w.core)
      | none => .fault fCairnName 0 s)
  | _, _ => .fault fCairnName 0 s

/-- `nmswap` (R289). -/
def execNmswap (c : Ctl) (dsel : Fin 8) (o : Ops) (s : State) : Host.Outcome State Fault Refusal :=
  ramson (.nmswap c dsel o) (fun x s =>
    match nmDomain s x dsel.val .swap (some o.a) with
    | .error f => .fault f
    | .ok k =>
      if !(drainsOf s x.w.core x.uid x.k).isEmpty then .hold
      else
        nmGo x (nmOrder x true s) (.nmswap c dsel o) c o.d (swapLane x k o)) s

/-! ## `nmref`, `nmdrop` (R290, R291) -/

/-- One lane of `nmref`. -/
def refLane (x : Ctx) (k : DomKey) (root : Bool) (o : Ops) (s : State) (l : Nat) : NmLane :=
  let r := nameOrSlot x k root o.a s l
  match r.1 with
  | some n =>
    reachCairn x k (slotGroups x k root o.a s l ++ nameGroups r.2 k n) r.2 (fun s =>
      if known s k n then .ok n.toNat (addRef (cairnTraffic s (!isPf x.l.fn) k) k n) else .fault fCairnName 0 s)
  | none => .fault fCairnName 0 r.2

/-- One lane of `nmdrop`. -/
def dropLane (x : Ctx) (k : DomKey) (o : Ops) (s : State) (l : Nat) : NmLane :=
  match nameArg x o.a l with
  | some n =>
    reachCairn x k (nameGroups s k n) s (fun s =>
      if known s k n then .ok 0 (dropRef (cairnTraffic s (!isPf x.l.fn) k) k n) else .fault fCairnName 0 s)
  | none => .fault fCairnName 0 s

/-- `nmref`: with ROOT the name taken is written to D. -/
def execNmref (c : Ctl) (dsel : Fin 8) (root : Bool) (o : Ops) (s : State) : Host.Outcome State Fault Refusal :=
  ramson (.nmref c dsel root o) (fun x s =>
    match nmDomain s x dsel.val .none (slotOf root o.a) with
    | .error f => .fault f
    | .ok k =>
      nmGo x (nmOrder x root s) (.nmref c dsel root o) c (if root then o.d else .null) (refLane x k root o)) s

/-- `nmdrop`. -/
def execNmdrop (c : Ctl) (dsel : Fin 8) (o : Ops) (s : State) : Host.Outcome State Fault Refusal :=
  ramson (.nmdrop c dsel o) (fun x s =>
    match nmDomain s x dsel.val .none none with
    | .error f => .fault f
    | .ok k =>
      nmGo x s (.nmdrop c dsel o) c .null (dropLane x k o)) s

/-! ## `nmcopy` (R292) -/

/-- Steps 3 and 4 for the destination of one lane. -/
def nmDest (x : Ctx) (n a : Nat) : Except (Nat × XErr) (Nat ⊕ Nat) :=
  match window a n with
  | .global va => if va % 192 = 0 then .ok (.inl va) else .error (fAlign, .prot 1)
  | .scratch o =>
    if x.l.lpb.scratch < o + n then .error (fScratch, .scratch)
    else if o % 16 = 0 then .ok (.inr o) else .error (fAlign, .prot 1)
  | _ => .error (fProt, .prot 1)

/-- The first failing step over the lanes: windows before alignment. -/
def nmDests (x : Ctx) (n : Nat) (addr : Nat → Nat) : Except FaultInfo (List (Nat × (Nat ⊕ Nat))) :=
  let rs := x.lanes.map (fun l => (l, nmDest x n (addr l)))
  let bad := rs.filterMap (fun e => match e.2 with | .error q => some (e.1, q) | .ok _ => none)
  let win := bad.filterMap (fun e => if e.2.1 = fAlign then none else some (e.1, e.2.2))
  if bad.isEmpty then .ok (rs.filterMap (fun e => match e.2 with | .ok q => some (e.1, q) | .error _ => none))
  else if !win.isEmpty then .error (laneFault addr win)
  else
    let m := maskOf (fun l => bad.any (fun e => e.1 == l))
    .error { code := fAlign, lanes := m, addrs := addrList m addr }

/-- The bytes of a copy: the leaves, which no longer change, into the destination. -/
def nmBytes (s : State) (k : DomKey) (root : QWord) (first count : Nat) (dst : Nat → Option Loc) : List CByte :=
  (List.range count).flatMap (fun j =>
    ((leafLine s k root (first + j)).zipIdx).map (fun e =>
      { src := none, dst := dst (192 * j + e.2), val := some e.1 }))

/-- One lane's copy is entered, with a reference on its root, once the slot and the root's home have been reached. -/
def nmcopyLane (x : Ctx) (k : DomKey) (root : Bool) (o : Opnd) (range : Nat × Nat)
    (ds : List (Nat × (Nat ⊕ Nat))) (ls : List (CLane × List (Nat × Nat × Loc))) (s : State) (l : Nat) : NmLane :=
  let r := nameOrSlot x k root o s l
  match r.1 with
  | none => .fault fCairnName 0 r.2
  | some n =>
    reachCairn x k (slotGroups x k root o s l ++ nameGroups r.2 k n) r.2 (fun s =>
      if known s k n then
        let at' := (ls.find? (fun e => e.1.lane == l)).map (·.2)
        let dst : Nat → Option Loc := match ds.find? (fun e => e.1 == l) with
          | some (_, .inr off) => fun i => some (.scratch (off + i))
          | some (_, .inl va) => fun i => locAt (at'.getD []) (va + i)
          | none => fun _ => none
        let bytes := nmBytes s k n range.1 range.2 dst
        let s := addRef (cairnTraffic s (!isPf x.l.fn) k) k n
        let (id, s) := fresh s
        .ok 0 (enterCopy s x { id := id, uid := x.uid, k := x.k, lane := l, pc := x.p.pc, lid := x.w.lid
                               parts := [(x.uid, bytes)], root := some (k.part, k.dom, n), leaf := range.1
                               pages := heldPages s x (at'.getD []), locs := at'.getD [] })
      else .fault fCairnName 0 s)

/-- The lanes of an `nmcopy`, with the global bytes that each writes. -/
def nmRuns (x : Ctx) (n : Nat) (ds : List (Nat × (Nat ⊕ Nat))) : List CLane :=
  ds.map (fun e => match e.2 with
    | .inl va => CLane.mk e.1 [⟨some va, 0, n⟩] none none [x.uid]
    | .inr _ => CLane.mk e.1 [] none none [x.uid])

/-- `nmcopy` (R292): the checks, the probes, room for every lane, then one copy for each (DEDUCED, log 70). -/
def execNmcopy (c : Ctl) (dsel : Fin 8) (root : Bool) (o : Ops) (s : State) : Host.Outcome State Fault Refusal :=
  ramson (.nmcopy c dsel root o) (fun x s =>
    let range := copyRange x o.c
    if range.2 = 0 || decide (65536 < range.2) then .fault { code := fIllegal, lanes := x.tm }
    else
      match nmDomain s x dsel.val .none (slotOf root o.b) with
      | .error f => .fault f
      | .ok k =>
        match nmDests x (192 * range.2) (readAddr x o.a .null .null) with
        | .error f => .fault f
        | .ok ds =>
          let runs := nmRuns x (192 * range.2) ds
          let into := ds.filter (fun e => match e.2 with | .inr _ => true | .inl _ => false)
          match probeLanes s x .write runs with
          | (.error f, _) => .fault f
          | (.ok (ls, misses), s1) =>
            if !misses.isEmpty then
              let r := postReqs s1 x.l.fn (dieOfCore x.w.core) .write misses
              .park r.2 r.1
            else if !copyRoom s x runs false || !copyRoom s x (runs.filter (fun q => into.any (fun e => e.1 == q.lane))) true
                || !(drainsOf s x.w.core x.uid x.k).isEmpty then .hold
            else
              nmGo x (forceLoads s1 x.uid x.k (fun _ => true)) (.nmcopy c dsel root o) c .null
                (nmcopyLane x k root o.b range ds ls)) s

end Sys2Proof.Machine
end

