-- ==== Sys2Proof/Machine/Compare.lean ====
section
/-! DEFINITION. Group 2: compare, predicate and select (R144-R149). -/

namespace Sys2Proof.Machine

open Sys2Proof

/-- `icmp` (R145). -/
def execIcmp (c : Ctl) (t : Ty) (cond : Cond) (o : Ops) (s : State) : Host.Outcome State Fault Refusal :=
  ramson (.icmp c t cond o)
    (fun x s => givePred x s o.d (fun l => icmpFlag t cond (readSrc x (rdI t) o.a l) (readSrc x (rdI t) o.b l))) s

/-- `fcmp` (R146). -/
def execFcmp (c : Ctl) (t : Ty) (cond : FCond) (o : Ops) (s : State) : Host.Outcome State Fault Refusal :=
  ramson (.fcmp c t cond o)
    (fun x s => givePred x s o.d (fun l =>
      fcmpFlag t cond (readSrc x (.flt t) o.a l % 2 ^ t.bits) (readSrc x (.flt t) o.b l % 2 ^ t.bits))) s

/-- `sel` (R147). -/
def execSel (c : Ctl) (t : Ty) (o : Ops) (s : State) : Host.Outcome State Fault Refusal :=
  ramson (.sel c t o)
    (fun x s => giveVec x s x.st (.sel c t o) c o.d t.words (fun l =>
      if readPred x o.c l then readSrc x (rdI t) o.a l else readSrc x (rdI t) o.b l)) s

/-- `pand` (R147). -/
def execPand (c : Ctl) (na nb : Bool) (o : Ops) (s : State) : Host.Outcome State Fault Refusal :=
  ramson (.pand c na nb o)
    (fun x s => givePred x s o.d (fun l => (readPred x o.a l != na) && (readPred x o.b l != nb))) s

/-- `por` (R147). -/
def execPor (c : Ctl) (na nb : Bool) (o : Ops) (s : State) : Host.Outcome State Fault Refusal :=
  ramson (.por c na nb o)
    (fun x s => givePred x s o.d (fun l => (readPred x o.a l != na) || (readPred x o.b l != nb))) s

/-- `pxor` (R147). -/
def execPxor (c : Ctl) (na nb : Bool) (o : Ops) (s : State) : Host.Outcome State Fault Refusal :=
  ramson (.pxor c na nb o)
    (fun x s => givePred x s o.d (fun l => (readPred x o.a l != na) != (readPred x o.b l != nb))) s

/-- `pnot` (R147). -/
def execPnot (c : Ctl) (o : Ops) (s : State) : Host.Outcome State Fault Refusal :=
  ramson (.pnot c o)
    (fun x s => givePred x s o.d (fun l => !readPred x o.a l)) s

/-- The truth value that `pmov` reads: a predicate, or a word that is not zero (R147). -/
def pmovRead (x : Ctx) (a : Opnd) (l : Nat) : Bool :=
  match a with
  | .vec _ => readSrc x rd32 a l != 0
  | _ => readPred x a l

/-- `pmov` (R147). -/
def execPmov (c : Ctl) (o : Ops) (s : State) : Host.Outcome State Fault Refusal :=
  ramson (.pmov c o)
    (fun x s =>
      match o.d with
      | .vec _ => giveVec x s x.st (.pmov c o) c o.d 1 (fun l => if pmovRead x o.a l then 1 else 0)
      | _ => givePred x s o.d (pmovRead x o.a)) s

/-- `pagg` (R148). -/
def execPagg (c : Ctl) (m : PaggMode) (o : Ops) (s : State) : Host.Outcome State Fault Refusal :=
  ramson (.pagg c m o)
    (fun x s =>
      match m with
      | .mask | .count => giveVec x s x.st (.pagg c m o) c o.d 1 (fun _ => paggWord m x.tm (readPred x o.a))
      | _ => givePred x s o.d (fun _ => paggBool m x.tm (readPred x o.a))) s

/-- `pclass` (R149). -/
def execPclass (c : Ctl) (t : Ty) (o : Ops) (s : State) : Host.Outcome State Fault Refusal :=
  ramson (.pclass c t o)
    (fun x s => givePred x s o.d (fun l =>
      pclassFlag t (readSrc x (.flt t) o.a l % 2 ^ t.bits) (readSrc x rd32 o.b l))) s

end Sys2Proof.Machine
end

