-- ==== Sys2Proof/Machine/Convert.lean ====
section
/-! DEFINITION. Group 6: conversion, quantising, packing and `seed` (R167-R176). -/

namespace Sys2Proof.Machine

open Sys2Proof

/-- `cvt` (R168, R169); only the two packing codes read B. -/
def execCvt (c : Ctl) (code : Fin 30) (r : Rnd) (o : Ops) (s : State) : Host.Outcome State Fault Refusal :=
  ramson (.cvt c code r o)
    (flanes2 (.cvt c code r o) c o r (cvtForm code.val).1 (cvtForm code.val).2.1 (.flt .f32) (fCvt code.val r)) s

/-- `qnt` (R170). -/
def execQnt (c : Ctl) (t : Ty) (r : Rnd) (o : Ops) (s : State) : Host.Outcome State Fault Refusal :=
  ramson (.qnt c t r o)
    (flanes2 (.qnt c t r o) c o r 1 (.flt .f32) (.flt .f32) (fQnt t r)) s

/-- `dqnt` (R171). -/
def execDqnt (c : Ctl) (t : Ty) (r : Rnd) (o : Ops) (s : State) : Host.Outcome State Fault Refusal :=
  ramson (.dqnt c t r o)
    (flanes2 (.dqnt c t r o) c o r 1 (if t.isFloat then .flt t else rdI t) (.flt .f32) (fDqnt t r)) s

/-- `bfpack` (R172). -/
def execBfpack (c : Ctl) (t : Ty) (r : Rnd) (o : Ops) (s : State) : Host.Outcome State Fault Refusal :=
  ramson (.bfpack c t r o)
    (fun x s =>
      let y := seeded x r
      giveVec y s y.st (.bfpack c t r o) c o.d 1 (fBfpack t r y.st.seed y.tm (readSrc y (.flt .f32) o.a))) s

/-- The exponent of `bfunpack`: B, or A[15:8] when B is null (R173). B is no integer position of R157: an inline constant in it is an
FP32 pattern (DEDUCED, log 162). -/
def bfExp (x : Ctx) (o : Ops) (l : Nat) : Nat :=
  match o.b with
  | .null => fld (readSrc x rd32 o.a l) 8 8
  | _ => readSrc x (.flt .f32) o.b l % 256

/-- `bfunpack` (R173). -/
def execBfunpack (c : Ctl) (t : Ty) (o : Ops) (s : State) : Host.Outcome State Fault Refusal :=
  ramson (.bfunpack c t o) (fun x s => giveVec x s x.st (.bfunpack c t o) c o.d 1 (fun l =>
    fBfunpack t (readSrc x rd32 o.a l) (bfExp x o l))) s

/-- `seed` (R174): B of the lowest lane of T. -/
def execSeed (c : Ctl) (o : Ops) (s : State) : Host.Outcome State Fault Refusal :=
  ramson (.seed c o)
    (fun x s => .go { s := s, t := { x.st with seed := BitVec.ofNat 32 (readSrc x rd32 o.b x.low) } }) s

/-- `pack` (R175). -/
def execPack (c : Ctl) (t : Ty) (o : Ops) (s : State) : Host.Outcome State Fault Refusal :=
  ramson (.pack c t o)
    (fun x s => giveVec x s x.st (.pack c t o) c o.d 1
      (fPack t x.tm (readSrc x rd32 o.a) (readSrc x rd32 o.b) (readSrc x rd32 o.c))) s

/-- `unpack` (R176). -/
def execUnpack (c : Ctl) (t : Ty) (o : Ops) (s : State) : Host.Outcome State Fault Refusal :=
  ramson (.unpack c t o)
    (fun x s => giveVec x s x.st (.unpack c t o) c o.d 1
      (fUnpack t x.tm (readSrc x rd32 o.a) (readSrc x rd32 o.b))) s

end Sys2Proof.Machine
end

