-- ==== Sys2Proof/Machine/Landing.lean ====
section
/-! DEFINITION. Events of copies and of cairn memory: bytes of copies land (R323-R325), an uncorrectable error ends one
(R328), nodes are reclaimed and cores drop their cached cairn lines (R281). -/

namespace Sys2Proof.Machine

open Sys2Proof

/-! ## Copies -/

/-- Destinations of some of a copy's bytes. -/
def byteDests (y : Copy) (bs : List (Nat × Nat)) : List (Nat × Loc) :=
  bs.filterMap (fun e =>
    ((y.parts.find? (fun p => p.1 == e.1)).bind (fun p => p.2[e.2]?)).bind (fun b => b.dst.map (fun d => (e.1, d))))

/-- A copy of the same lane, or of the same instruction, entered earlier and not landed in one of these places: the
byte would end with the wrong value (R323). -/
def landsAfter (s : State) (core : Nat) (y : Copy) (bs : List (Nat × Nat)) : Bool :=
  let ds := byteDests y bs
  let all := if copyLive s core y then (coreOf s core).copies else match Tbl.find? s.images y.uid with | some im => im.copies | none => []
  (all.takeWhile (fun z => z.id != y.id)).any (fun z =>
    z.uid == y.uid && z.k == y.k && (z.lane == y.lane || z.pc == y.pc) && !z.failed &&
      (byteDests z (pendingBytes z)).any (fun d => ds.contains d))

/-- Bytes of a copy whose source or destination cannot be reached never land (R328, R385). -/
def landReach (s : State) (core : Nat) (y : Copy) (bs : List (Nat × Nat)) : Bool :=
  let serves (l : Option Loc) (wr : Bool) : Bool := match l with | some l => homeServes s l 1 (!wr) wr | none => true
  bs.all (fun e => match (y.parts.find? (fun p => p.1 == e.1)).bind (fun p => p.2[e.2]?) with
    | some b => (byteLinks s core y e.1 b ++ nmCols s core y e.2).all (linkUp s) && (b.val.isSome || serves b.src false) && serves b.dst true
    | none => true)

/-- The bytes of a copy that a core may land now: of a copy whose issuer is saved, those of the units for which the core reads (R329). -/
def mayLand (s : State) (core : Nat) (y : Copy) (bs : List (Nat × Nat)) : List (Nat × Nat) :=
  if copyLive s core y then bs else bs.filter (fun e => Tbl.find? y.readers e.1 == some core)

/-- COPY_LAND: what is left of a copy lands, and it is done (R323-R326); it waits while a run queue has no room for the task that it
signals (R298), and a copy whose issuer is saved is done only once that is restored (R329). -/
def execEvCopyLand (core : Fin 384) (id : Nat) (s : State) : Host.Outcome State Fault Refusal :=
  match copy? s core.val id with
  | none => .next s
  | some y =>
    if y.failed || !copyLive s core.val y || !landRoom s y || landsAfter s core.val y (pendingBytes y)
        || landsInImage s (pendingBytes y) || !landReach s core.val y (pendingBytes y) then .next s
    else .next (whenRqFits s (dropRoot (copyDone (landList s core.val y (pendingBytes y) true) core.val y) y))

/-- The bytes `[first, first + n)` of a copy, counted over its parts, that have not landed. -/
def bytesFrom (y : Copy) (first n : Nat) : List (Nat × Nat) :=
  (((y.parts.flatMap (fun p => (p.2.zipIdx).map (fun e => (p.1, e.2, e.1.landed)))).drop first).take n).filterMap
    (fun e => if e.2.2 then none else some (e.1, e.2.1))

/-- COPY_BYTES_LANDED: some bytes land, whole words of the destination (R236, R323, R324). -/
def execEvCopyBytesLanded (core : Fin 384) (id first n : Nat) (s : State) : Host.Outcome State Fault Refusal :=
  match copy? s core.val id with
  | none => .next s
  | some y =>
    let bs := landWords y (mayLand s core.val y (bytesFrom y first n))
    if y.failed || !landRoom s y || landsAfter s core.val y bs || landsInImage s bs || !landReach s core.val y bs then .next s
    else .next (landList s core.val y bs false)

/-- A copy reads a word of its source before it lands: each read falls at some moment between issue and landing (R244). -/
def readEarly (s : State) (core id u i : Nat) : State :=
  match copy? s core id with
  | none => s
  | some y =>
    match copyByte? y u i with
    | some b =>
      (match b.src with
       | some l => if y.failed || b.landed || b.val.isSome || Tbl.has s.images u || (mayLand s core y [(u, i)]).isEmpty
             || !landReach s core y [(u, i)] then s
           else readWord s core id u l
       | none => s)
    | none => s

/-- An entered copy ends with UNCORR: its remaining bytes never land (R328). -/
def endUncorr (s : State) (y : Copy) : State :=
  let s2 := freeRanges (setAnyCopy s y.id (fun y => { y with failed := true, root := none })) [y.id]
  laterFault (dropRoot s2 y) y.uid y.k y.pc (copyFault y fUncorr 0 (firstUnlanded y) [])

/-- COPY_UNCORR: the bytes before `first` land, the rest never does (R328). -/
def execEvCopyUncorr (core : Fin 384) (id first : Nat) (s : State) : Host.Outcome State Fault Refusal :=
  match copy? s core.val id with
  | none => .next s
  | some y =>
    let bs := landWords y (bytesFrom y 0 first)
    if y.failed || !copyLive s core.val y || !recordRoom s y.lid || landsAfter s core.val y bs || landsInImage s bs
        || (pendingBytes y).all bs.contains || !landReach s core.val y bs then .next s
    else
      let s1 := landList s core.val y bs false
      .next (endUncorr s1 ((copy? s1 core.val id).getD y))

/-! ## Cairn -/

/-- CAIRN_CACHE_INVALIDATE: lines that no core can cache any more become free for reuse (R281). -/
def execEvCairnCacheInvalidate (core : Fin 384) (s : State) : Host.Outcome State Fault Refusal :=
  let s := setCore s core.val (fun c => { c with cairn := [] })
  let settle (d : Domain) : Domain :=
    let f := d.freed.map (fun x => { x with cores := x.cores.filter (fun c => c != core.val) })
    let ready := f.filter (fun x => x.cores.isEmpty)
    { d with freed := f.filter (fun x => !x.cores.isEmpty)
             free := (d.free.zipIdx).map (fun e => e.1 + (ready.filter (fun x => x.group == e.2)).length) }
  .next { s with parts := s.parts.map (fun e =>
    (e.1, { e.2 with domains := e.2.domains.map (fun d => (d.1, settle d.2)) })) }

/-- RECLAIM_NODE: the first node of a slice's queue drops its children, and its line is freed (R281). -/
def execEvReclaimNode (p : Fin 64) (dom : Fin 256) (slice : Fin 192) (s : State) : Host.Outcome State Fault Refusal :=
  match Tbl.getD s.reclaim slice.val [] with
  | x :: rest =>
    if x.part == p.val && x.dom == dom.val then
      let k : DomKey := ⟨p.val, dom.val⟩
      let s := { s with reclaim := if rest.isEmpty then Tbl.del s.reclaim slice.val
                                   else Tbl.put s.reclaim slice.val rest }
      let s := refillReclaim p.val slice.val 1 (cairnTraffic s true k)
      let s := (childrenOf x.line).foldl (fun s c => dropRefBy x.by' s k c) s
      .next (freeLine s k x.group)
    else .next s
  | [] => .next s

end Sys2Proof.Machine
end

