-- ==== Sys2Proof/Machine/Admit.lean ====
section
/-! DEFINITION. Admission of a unit to a core (R32-R36, R51-R53, R59, R60, R99, R222, R383), what a run-queue entry gives
next (R303), and the fit tests of an LPB (R28). -/

namespace Sys2Proof.Machine

open Sys2Proof

/-! ## Room on a core -/

/-- World of a launch (R382, R445): the VF's, or 0 for the PF. -/
def worldOf (s : State) (l : Launch) : Nat := if isPf l.fn then 0 else (fnOf s l.fn).world

/-- Strand numbers of a unit that hold a live item of its pieces (R51). -/
def liveStrands (lpb : Lpb) (pieces : List Span) : List Nat :=
  (List.range (strandCount lpb)).filter (fun k => pieces.any (fun sp => spanLanes sp k != 0))

/-- The quarter of each strand (R33). -/
def dealQuarters (s : State) (core : Nat) (ks : List Nat) : List (Nat × Nat) :=
  (ks.zipIdx).map (fun e => (e.1, ((coreOf s core).qptr + e.2) % 4))

def unitsOn (s : State) (core : Nat) : List (Nat × WUnit) := s.units.filter (fun e => e.2.core == core)

def inQuarter (w : WUnit) (q : Nat) : Bool := w.strands.any (fun t => t.2.quarter == q)

/-- The world whose tag a resident unit's scratchpad banks carry: that of its strands' quarters (R383). -/
def unitWorld (s : State) (w : WUnit) : Nat :=
  match w.strands with
  | (_, t) :: _ => nth (coreOf s w.core).wCur t.quarter 0
  | [] => 0

def bankBytes : Nat := 49152

/-- The worlds and bank allocations of the units on a core. -/
def bankUse (s : State) (core : Nat) : List (Nat × Tbl Nat) := (unitsOn s core).map (fun e => (unitWorld s e.2, e.2.banks))

def bankHeld (us : List (Nat × Tbl Nat)) (b : Nat) : Bool := us.any (fun e => Tbl.has e.2 b)

/-- Bytes of a bank that an allocation of world `w` may take: a bank holds allocations of one world (R383). -/
def bankFree (us : List (Nat × Tbl Nat)) (w b : Nat) : Nat :=
  if us.any (fun e => e.1 != w && Tbl.has e.2 b) then 0 else bankBytes - (us.map (fun e => Tbl.getD e.2 b 0)).foldl (· + ·) 0

/-- The scratchpad banks that depart: free ones first, the highest first (R229). -/
def departing (us : List (Nat × Tbl Nat)) (c : Core) : List Nat :=
  let bs := (List.range c.sc).reverse
  ((bs.filter (fun b => !bankHeld us b)) ++ bs.filter (bankHeld us)).take (c.sc - c.st)

/-- Takes `n` bytes of the banks of a list, in order. -/
def fillBanks (us : List (Nat × Tbl Nat)) (w : Nat) : List Nat → Nat → Option (Tbl Nat)
  | _, 0 => some []
  | [], _ + 1 => none
  | b :: bs, n + 1 =>
    let k := min (n + 1) (bankFree us w b)
    (fillBanks us w bs (n + 1 - k)).map (fun t => if k = 0 then t else Tbl.put t b k)

/-- The banks that an allocation of `n` bytes of world `w` takes on a core: none of those that depart, banks that hold allocations before
free ones (R229, R383; DESIGN CHOICE, log 33). -/
def scratchPlace (s : State) (core w n : Nat) : Option (Tbl Nat) :=
  let us := bankUse s core
  let c := coreOf s core
  let out := departing us c
  let bs := (List.range c.sc).filter (fun b => !out.contains b)
  fillBanks us w (bs.filter (bankHeld us) ++ bs.filter (fun b => !bankHeld us b)) n

/-- May a quarter take strands of a launch (R382, R383)? The sweep enters quarters that await it. -/
def quarterOpen (s : State) (core q : Nat) (l : Launch) : Bool :=
  let c := coreOf s core
  if l.sweep then nth c.wPend q false && !nth c.wFail q false
  else nth c.wCur q 0 == worldOf s l && nth c.wTgt q 0 == nth c.wCur q 0 && !nth c.wPend q false && !nth c.wFail q false

/-- Free contexts of a quarter (R203). -/
def freeCtxs (s : State) (core q : Nat) : List Nat :=
  (((quarterOf s core q).ctxs.zipIdx).filter (fun e => e.1.owner.isNone)).map (·.2)

/-- R99, for `n` more strands of a launch in a quarter. -/
def floorsFit (s : State) (core q n : Nat) (lpb : Lpb) : Bool :=
  let res := quarterStrands s core q
  let gap := res.foldl (fun a e => match (unit? s e.1).bind (fun w => launch? s w.lid) with
    | some l => max a (l.lpb.vregs - e.2.2.g)
    | none => a) (if n = 0 then 0 else lpb.vregs - lpb.vfloor)
  let sum := (res.map (fun e => e.2.2.g)).foldl (· + ·) (n * lpb.vfloor)
  decide (n * lpb.vfloor ≤ poolFree s core q) && decide (sum + gap ≤ regTotal s core q)

/-- Item-queue entries held on a core: those in use, and one for each resident refill launch (R59). -/
def itemHeld (s : State) (core : Nat) : Nat :=
  let lids := (((unitsOn s core).filter (fun e =>
    match launch? s e.2.lid with | some l => l.lpb.refill | none => false)).map (·.2.lid)).eraseDups
  (coreOf s core).items.length +
    (lids.filter (fun l => !(coreOf s core).items.any (fun e => e.span.lid == l))).length

def itemRoom (s : State) (core : Nat) (l : Launch) (lid : Nat) : Bool :=
  !l.lpb.refill || (coreOf s core).items.any (fun e => e.span.lid == lid) ||
    (unitsOn s core).any (fun e => e.2.lid == lid) || decide (itemHeld s core < 16)

def strandSlots : Nat := 256

/-- Does a concurrent launch wait for its one admission: cut into units, or each of its tasks queued (R36, R305; DEDUCED, log 69)? -/
def concReady (s : State) (lid : Nat) (l : Launch) : Bool :=
  l.concWait && !l.inTable && (!l.lpb.kind || (s.tasks.filter (fun e => e.2.lid == lid)).all (fun e => e.2.st == .queued))

/-- An earlier concurrent launch waits in the partition: what is released is held for it (R36, log 34). -/
def heldBack (s : State) (l : Launch) : Bool :=
  s.launches.any (fun e => e.2.part == l.part && concReady s e.1 e.2 && decide (e.2.seq < l.seq))

/-- The world whose tag a unit's scratchpad takes: a sweep's quarters have one current world (R382, R383). -/
def admitWorld (s : State) (l : Launch) (core : Nat) (qs : List Nat) : Nat :=
  if l.sweep then (match qs with | q :: _ => nth (coreOf s core).wCur q 0 | [] => 0) else worldOf s l

/-- A gang switch that has not ended has saved a unit of this core: what it freed waits, for a gang that misses gives the unit back at once
(R431; DEDUCED, log 167). -/
def gangHolds (s : State) (core : Nat) : Bool :=
  s.halts.any (fun h => h.gang && h.saved.any (fun u => (Tbl.find? s.images u).any (fun im => im.core == core)))

/-- Can everything of R32 be reserved for a unit with these strands? A sweep's quarters have one current world (R382, R383). -/
def canAdmit (s : State) (lid : Nat) (l : Launch) (core : Nat) (ks : List Nat) : Bool :=
  let dq := dealQuarters s core ks
  let qs := ((List.range 4).map (fun q => (q, (dq.filter (fun e => e.2 == q)).length))).filter (fun e => e.2 != 0)
  let w := admitWorld s l core (dq.map (·.2))
  !heldBack s l && !gangHolds s core && decide ((unitsOn s core).length < 128)
    && (scratchPlace s core w l.lpb.scratch).isSome
    && itemRoom s core l lid
    && spillRoom s l ks.length
    && qs.all (fun e =>
      quarterOpen s core e.1 l && (!l.sweep || nth (coreOf s core).wCur e.1 0 == w)
        && decide ((quarterStrands s core e.1).length + e.2 ≤ strandSlots)
        && decide (l.lpb.mctx ≤ (freeCtxs s core e.1).length)
        && floorsFit s core e.1 e.2 l.lpb)

/-! ## Placing a unit -/

def newStrand (k q slot g : Nat) : Strand :=
  { k := k, quarter := q, slot := slot, paths := [], preds := List.replicate 7 0, convs := spanConvs, seed := 1, g := g
    items := List.replicate 32 0, hasItem := 0, batchCtr := List.replicate 32 0 }

/-- Strand slots of a quarter in use. -/
def slotsUsed (s : State) (core q : Nat) : Tbl Unit :=
  (quarterStrands s core q).foldl (fun t e => Tbl.put t e.2.2.slot ()) []

/-- The strands of a new unit, each in a free slot of its quarter. -/
def makeStrands (s : State) (core g : Nat) : List (Nat × Nat) → (Nat → Tbl Unit) → Tbl Strand
  | [], _ => []
  | (k, q) :: rest, used =>
    let sl := Tbl.lowestFree (used q) 0 strandSlots
    (k, newStrand k q sl g) :: makeStrands s core g rest (fun r => if r = q then Tbl.put (used r) sl () else used r)

/-- Takes a unit's matrix contexts, zeroed, in each quarter it occupies (R202, R203). -/
def takeCtxs (s : State) (core uid n : Nat) (qs : List Nat) : Tbl (List Nat) × State :=
  qs.foldl (fun acc q =>
    let ns := (freeCtxs acc.2 core q).take n
    (Tbl.put acc.1 q ns, setQuarter acc.2 core q (fun r =>
      { r with ctxs := (r.ctxs.zipIdx).map (fun e => if ns.contains e.2 then { owner := some uid } else e.1) }))) ([], s)

/-- Advances the quarter pointer, and stamps the admission (R33, R338). -/
def stampCore (s : State) (core n : Nat) : State :=
  setCore s core (fun c => { c with qptr := (c.qptr + n % 4) % 4, lastAdmit := s.time })

/-- Reserves everything and makes the unit resident (R32, R33, R222); its pieces become unit spans, or strands when
they are more than four (R52), counted once neighbours have rejoined at their insertion (R55; DESIGN CHOICE, log 143), or when a
strand cut is owed (R56). -/
def placeUnit (s : State) (lid : Nat) (l : Launch) (u core : Nat) (pieces : List Span) (runs : List (Nat × Nat × Nat)) :
    State :=
  let ks := liveStrands l.lpb pieces
  let dq := dealQuarters s core ks
  let (uid, s) := fresh s
  let strands := withSpills s l uid (makeStrands s core l.lpb.vfloor dq (slotsUsed s core))
  let slot := Tbl.lowestFree ((unitsOn s core).foldl (fun t e => Tbl.put t e.2.slot ()) ([] : Tbl Unit)) 0 128
  let qs := (dq.map (·.2)).eraseDups
  let r := takeCtxs s core uid l.lpb.mctx qs
  let spans := pieces.foldl insertSpan []
  let w : WUnit := { lid := lid, u := u, core := core, slot := slot, strands := strands, spans := spans, runs := runs, ctx := r.1
                     banks := (scratchPlace s core (admitWorld s l core (dq.map (·.2))) l.lpb.scratch).getD [] }
  let s := { r.2 with units := Tbl.put r.2.units uid w }
  let s := acquireCore (stampCore s core ks.length) core
  if 4 < spans.length || pieces.any (·.owed) then strandCut s uid else s

/-! ## Refill (R60) -/

/-- Unstarted items in a core's entries of a launch. -/
def itemsLeft (s : State) (core lid : Nat) : Nat :=
  (((coreOf s core).items.filter (fun e => e.span.lid == lid)).map (fun e => e.span.hi - e.span.lo)).foldl (· + ·) 0

/-- Fetches one chunk into a free entry, where R60 lets it. -/
def fetchChunk (s : State) (core lid : Nat) : State :=
  let mine := (coreOf s core).items.filter (fun e => e.span.lid == lid)
  match launch? s lid with
  | none => s
  | some l =>
    match sortSpans l.pool with
    | [] => s
    | sp :: rest =>
      if 2 ≤ mine.length || decide (1024 ≤ itemsLeft s core lid) || (mine.isEmpty && !itemRoom s core l lid)
          || (!mine.isEmpty && decide (16 ≤ itemHeld s core)) || !l.lpb.refill || l.concWait || poolSaved s lid then s
      else
        let m := min sp.hi (sp.lo + 1024)
        let s := setCore s core (fun c => { c with items := c.items ++ [⟨clip sp sp.lo m 0⟩] })
        setLaunch s lid (fun l => { l with pool := if m < sp.hi then clip sp m sp.hi 0 :: rest else rest })

/-- Takes up to `n` items of a launch from a core as pieces of unit `u` from local `loc` on, fetching as entries run
empty. -/
def takeRuns (core lid u : Nat) : Nat → State → Nat → Nat → List Span × State
  | 0, s, _, _ => ([], s)
  | fuel + 1, s, loc, n =>
    if n = 0 then ([], s)
    else
      let s := if itemsLeft s core lid = 0 then fetchChunk s core lid else s
      let mine := sortSpans (((coreOf s core).items.filter (fun e => e.span.lid == lid)).map (·.span))
      match mine with
      | [] => ([], s)
      | sp :: _ =>
        let m := min n (sp.hi - sp.lo)
        let piece := { clip sp sp.lo (sp.lo + m) u with loc := loc }
        let s := setCore s core (fun c => { c with items := (c.items.map (fun e =>
          if e.span = sp then ⟨clip sp (sp.lo + m) sp.hi 0⟩ else e)).filter (fun e => decide (e.span.lo < e.span.hi)) })
        let r := takeRuns core lid u fuel s (loc + m) (n - m)
        (piece :: r.1, r.2)

/-- Are there items for a unit of a refill launch on this core? -/
def itemsFor (s : State) (core lid : Nat) (l : Launch) : Bool := itemsLeft s core lid != 0 || !l.pool.isEmpty

/-- How many items a unit of a refill launch would take (R60). -/
def itemsAhead (s : State) (core lid : Nat) (l : Launch) : Nat :=
  min (unitSize l.lpb) (itemsLeft s core lid + (l.pool.map (fun sp => sp.hi - sp.lo)).foldl (· + ·) 0)

/-- A stand-in piece that says how many locals a unit of a refill launch fills. -/
def itemsPiece (lid u n : Nat) : Span := { lid := lid, lo := 0, hi := n, pc := 0, unit := u, aff := [], preds := [], convs := [] }

/-! ## What a unit is made of -/

/-- The first span of a launch, and of a task's unit (R42, R302). -/
def entrySpan (lid : Nat) (lpb : Lpb) (lo hi u : Nat) : Span :=
  { lid := lid, lo := lo, hi := hi, pc := lpb.entry, unit := u
    aff := ⟨lpb.args, 0⟩ :: List.replicate 31 {}, preds := List.replicate 7 {}, convs := spanConvs }

/-- The piece of a span that unit `u` takes, with its locals (R50, R60). -/
def unitPiece (lpb : Lpb) (u : Nat) (sp : Span) : Span :=
  let z := unitSize lpb
  let p := clip sp (u * z) ((u + 1) * z) u
  { p with loc := p.lo - u * z }

/-- The pieces of unit `u` in a list of launch spans. -/
def piecesIn (lpb : Lpb) (u : Nat) (spans : List Span) : List Span :=
  let z := unitSize lpb
  (spans.filter (fun sp => decide (sp.lo < (u + 1) * z) && decide (u * z < sp.hi))).map (unitPiece lpb u)

/-- Tries to admit unit `u` made of given pieces, or of items where the launch refills from a pool: none when it does not fit.
A unit that finds no item completes at once, and one whose items lie in a pool that an image holds waits (R60, R62). A task's unit is one span at ENTRY, whether or not it refills (R302). -/
def tryUnit (s : State) (lid : Nat) (l : Launch) (u core : Nat) (pieces : List Span) : Option State :=
  if l.lpb.refill && !l.lpb.kind then
    if itemsFor s core lid l then
      if canAdmit s lid l core (liveStrands l.lpb [itemsPiece lid u (itemsAhead s core lid l)]) then
        let r := takeRuns core lid u (unitSize l.lpb) s 0 (unitSize l.lpb)
        if (r.1.map (fun sp => sp.hi - sp.lo)).foldl (· + ·) 0 ≠ itemsAhead s core lid l then none
        else some (placeUnit r.2 lid ((launch? r.2 lid).getD l) u core r.1 (r.1.map (fun sp => (sp.loc, sp.lo, sp.hi - sp.lo))))
      else none
    else some (countUnit s lid false)
  else if canAdmit s lid l core (liveStrands l.lpb pieces) then
    some (placeUnit s lid l u core pieces (if l.lpb.refill then pieces.map (fun sp => (sp.loc, sp.lo, sp.hi - sp.lo)) else []))
  else none

/-! ## Fit tests of R28 -/

/-- A machine whose cores hold no unit and stand ready for a world. -/
def emptied (s : State) (w : Nat) : State :=
  { s with
    units := []
    launches := s.launches.map (fun e => (e.1, { e.2 with concWait := false }))
    cores := s.cores.map (fun e => (e.1, { e.2 with
      items := [], st := e.2.sc, xt := 10, wTgt := List.replicate 4 w, wCur := List.replicate 4 w
      wPend := List.replicate 4 false, wFail := List.replicate 4 false
      quarters := e.2.quarters.map (fun q => { q with ctxs := [{}, {}] }) })) }

/-- A core of the partition as `emptied` leaves one that has no record yet (DEDUCED, log 77). -/
def readyCore (s : State) (w : Nat) (c : Nat) : State :=
  setCore s c (fun c => { c with wTgt := List.replicate 4 w, wCur := List.replicate 4 w })

def wholeUnit (lid : Nat) (lpb : Lpb) (u : Nat) : List Span :=
  [unitPiece lpb u (entrySpan lid lpb (u * unitSize lpb) ((u + 1) * unitSize lpb) u)]

/-- A single unit fits some empty core of the partition (R28). -/
def unitFits (s : State) (l : Launch) : Bool :=
  let w := worldOf s l
  let cs := partCores s l.part
  let e := cs.foldl (fun s c => readyCore s w c) (emptied s w)
  let l := { l with sweep := false }
  cs.any (fun c => canAdmit e 0 l c (liveStrands l.lpb (wholeUnit 0 l.lpb 0)))

/-- Places a unit on the lower of a cluster's cores that has room (R305). -/
def dealUnit (s : State) (lid : Nat) (l : Launch) (u : Nat) (pieces : List Span) : Option State :=
  let cl := dealOf s l u
  match tryUnit s lid l u (2 * cl) pieces with
  | some s => some s
  | none => tryUnit s lid l u (2 * cl + 1) pieces

/-- Places units one after another; none when one does not fit. -/
def dealUnits (lid : Nat) (l : Launch) (pieces : Nat → List Span) : State → List Nat → Option State
  | s, [] => some s
  | s, u :: rest =>
    match dealUnit s lid ((launch? s lid).getD l) u (pieces u) with
    | some s => dealUnits lid l pieces s rest
    | none => none

/-- The whole launch fits the empty partition at once (R28, R36). -/
def launchFits (s : State) (l : Launch) : Bool :=
  let w := worldOf s l
  let cs := partCores s l.part
  let e := cs.foldl (fun s c => readyCore s w c) (emptied s w)
  let l := { l with sweep := false, lpb := { l.lpb with refill := false } }
  (dealUnits (2 ^ 40) l (fun u => wholeUnit (2 ^ 40) l.lpb u) { e with launches := Tbl.put e.launches (2 ^ 40) l }
    (List.range (unitsTotal l.lpb))).isSome

end Sys2Proof.Machine
end

