-- ==== Sys2Proof/Machine/Launching.lean ====
section
/-! DEFINITION. Launch parameter blocks, dependant lists and task records (R26-R28, R306), acceptance (R43, R302), and
group 14, operations 0 to 3: `launch`, `trigger`, `tsig`, `cancel` (R310-R314). -/

namespace Sys2Proof.Machine

open Sys2Proof

/-! ## Blocks that the Eryon reads (R477) -/

/-- A read of `n` bytes for a launch or a job: at the homes, in the global window. -/
def readBlock (s : State) (core fn part a n : Nat) : Except XErr (List Byte) × State :=
  match window a n with
  | .global _ =>
    let r := locPieces s core fn part .read (pagePieces a n)
    match r.1 with
    | .error e => (.error e.2, r.2)
    | .ok ls =>
      let q := ls.foldl (fun (acc : List Byte × State) e =>
        (acc.1 ++ readHome acc.2 e.1 e.2, touchHome acc.2 (!isPf fn) e.1 e.2 false)) ([], r.2)
      (.ok q.1, q.2)
  | _ => (.error (.prot 1), s)

def isMiss : XErr → Bool
  | .miss _ _ _ _ => true
  | _ => false

/-! ## The LPB (R26) -/

def parseLpb (addr : Nat) (bs : List Byte) : Lpb :=
  let v := ofBytes bs
  { addr := addr, entry := BitVec.ofNat 64 (fld v 0 64), args := BitVec.ofNat 64 (fld v 64 64)
    ux := fld v 128 32, uy := fld v 160 32, uz := fld v 192 32
    sx := fld v 224 16, sy := fld v 240 16, sz := fld v 256 16
    order := fld v 272 2, logw := fld v 274 3, progress := fld v 277 2, refill := fld v 279 1 == 1
    noprog := fld v 280 1 == 1, fpolicy := fld v 281 1 == 1, mctx := fld v 282 2, kind := fld v 284 1 == 1
    vregs := fld v 288 9, vfloor := fld v 304 9, scratch := fld v 320 32, priv := fld v 352 32, privbase := fld v 384 64
    deplist := fld v 448 64, depcount := fld v 512 16, taskbase := fld v 528 12 }

/-- Reserved bits are 0. -/
def lpbRsv (bs : List Byte) : Bool :=
  let v := ofBytes bs
  fld v 285 3 == 0 && fld v 297 7 == 0 && fld v 313 7 == 0 && fld v 540 996 == 0

/-- The ranges and conditions of R26, R28 and R302 that the block alone decides. -/
def lpbOk (l : Lpb) : Bool :=
  let u := unitsTotal l
  let big := 2 ^ 22
  let inR (a : Nat) : Bool := decide (1 ≤ a) && decide (a ≤ big)
  l.addr % 16 == 0 && l.entry.toNat % 12 == 0
    && inR l.ux && inR l.uy && inR l.uz && decide (u ≤ big)
    && decide (1 ≤ l.sx) && decide (1 ≤ l.sy) && decide (1 ≤ l.sz) && decide (unitSize l ≤ 1024)
    && decide (l.logw ≤ 6) && decide (l.progress ≤ 2) && decide (l.mctx ≤ 2)
    && decide (1 ≤ l.vregs) && decide (l.vregs ≤ 256) && decide (l.vfloor ≤ l.vregs)
    && l.scratch % 192 == 0 && l.priv % 16 == 0 && decide (l.priv ≤ 65536) && l.privbase % pageBytes == 0
    && l.deplist % 4 == 0 && decide (l.depcount ≤ 4096)
    && (!l.kind || (decide (l.taskbase + u ≤ 4096) && l.args.toNat % 16 == 0))

/-- A dependant-list entry (R27), and whether its reserved bits are 0. It counts for the launch that it names whether or not they are: the
in-degree is a number of TARGET = 0 entries (R301). -/
def parseDep (v : Nat) : Dep × Bool := (⟨fld v 0 1 == 1, fld v 1 1 == 1, fld v 2 12⟩, fld v 14 18 == 0)

/-- What reading a launch gives. A refusal keeps the edges that could be read: the launches they name can no longer
start (R28, R314). -/
inductive LpbRead where
  | ok (lpb : Lpb) (deps : List Dep)
  | refuse (fpolicy : Bool) (deps : List Dep)
  | wait (e : XErr) (fpolicy : Bool)

/-- The conditions of R28 on a launch that has been read. -/
def lpbAccept (s : State) (fn part home : Nat) (l : Lpb) (deps : List Dep) : Bool :=
  let x : Launch := { handle := 0, fn := fn, part := part, job := ⟨0, 0⟩, lpb := l, deps := deps, home := home, recd := {} }
  unitFits s x && (l.progress != 0 || launchFits s x)

/-- Reads and checks an LPB and its dependant list (R28). `nlaunch` bounds the launches that the list may name (R301);
a device-side launch may name none (R311). FPOLICY of a misaligned block is not read: the launch is refused under "terminate the
launch" (DESIGN CHOICE, log 142). -/
def readLpb (s : State) (core fn part home addr : Nat) (nlaunch : Option Nat) : LpbRead × State :=
  if addr % 16 ≠ 0 then (.refuse false [], s)
  else
    match readBlock s core fn part addr 192 with
    | (.error e, s) => (if isMiss e then .wait e false else .refuse false [], s)
    | (.ok bs, s) =>
      let l := parseLpb addr bs
      if 4096 < l.depcount || l.deplist % 4 != 0 then (.refuse l.fpolicy [], s)
      else
        match if l.depcount = 0 then (.ok [], s) else readBlock s core fn part l.deplist (4 * l.depcount) with
        | (.error e, s) => (if isMiss e then .wait e l.fpolicy else .refuse l.fpolicy [], s)
        | (.ok ds, s) =>
          let all := (List.range l.depcount).map (fun i => parseDep (ofBytes (slice ds (4 * i) 4)))
          let out := fun (d : Dep) => !d.task && (match nlaunch with | none => true | some n => decide (n ≤ d.index))
          let deps := (all.map (·.1)).filter (fun d => !out d)
          if deps.length = l.depcount && all.all (·.2) && lpbRsv bs && lpbOk l && lpbAccept s fn part home l deps then (.ok l deps, s)
          else (.refuse l.fpolicy deps, s)

/-- Task records of a launch (R306): PRESET and the three SUCC fields; none when one is malformed. -/
def parseTask (v : Nat) : Option (Nat × List Nat) :=
  let f (i : Nat) : Nat := fld v (16 + 16 * i) 16
  let ok := (List.range 3).all (fun i => f i < 32768 || fld (f i) 12 3 == 0)
  if ok then some (fld v 0 16, (List.range 3).map f) else none

inductive TaskRead where
  | ok (ts : List (Nat × List Nat))
  | refuse
  | wait (e : XErr)

/-- Reads the task records of a KIND = 1 launch, and checks that its entries are FREE (R302, R306). -/
def readTasks (s : State) (core fn part : Nat) (l : Lpb) : TaskRead × State :=
  if !l.kind then (.ok [], s)
  else
    let n := unitsTotal l
    if (List.range n).any (fun u => Tbl.has s.tasks (taskKey fn (l.taskbase + u))) then (.refuse, s)
    else
      match readBlock s core fn part l.args.toNat (16 * n) with
      | (.error e, s) => (if isMiss e then .wait e else .refuse, s)
      | (.ok bs, s) =>
        let ts := (List.range n).map (fun u => parseTask (ofBytes (slice bs (16 * u) 16)))
        if ts.any (·.isNone) then (.refuse, s) else (.ok (ts.filterMap id), s)

/-! ## Acceptance (R43, R302, R308, R311) -/

def lidOf (fn handle : Nat) : Nat := 65536 * fn + handle

def liveHandles (s : State) (fn : Nat) : Nat := (s.launches.filter (fun e => fnOfLid e.1 == fn)).length

/-- A handle of a function that no live launch holds: the first from `n` on (R311; DESIGN CHOICE, log 62). -/
def freeHandle (s : State) (fn : Nat) : Nat → Nat → Nat
  | 0, n => n
  | fuel + 1, n => if Tbl.has s.launches (lidOf fn n) then freeHandle s fn fuel ((n + 1) % 65535) else n

def tableRoom (s : State) (cl : Nat) : Bool := decide (tableUsed s cl < 64)

/-- Is the code the measured sweep (R384)? -/
def isSweep (s : State) (fn part : Nat) (l : Lpb) : Bool :=
  isPf fn &&
    (match (readBlock s 0 fn part l.entry.toNat Config.sweepLen).1 with
     | .ok bs => sha384 bs == (List.range 48).map Config.sweepByte
     | .error _ => false)

/-- The task-table entries of an accepted launch (R308). Those of a concurrent launch are offered to no policy (R305). A task with
PRESET = 0 is queued at the launch's home cluster: R304 names no event for it (DESIGN CHOICE, log 175). -/
def armTasks (s : State) (lid fn home : Nat) (l : Lpb) (ts : List (Nat × List Nat)) : State :=
  let s := { s with tasks := (ts.zipIdx).foldl (fun t e =>
    Tbl.put t (taskKey fn (l.taskbase + e.2)) ⟨e.1.1, if e.1.1 = 0 then .queued else .waiting, lid, e.1.2⟩) s.tasks }
  (ts.zipIdx).foldl (fun s e =>
    if e.1.1 = 0 then enqueue s home lid (.task e.2 (l.taskbase + e.2)) (l.progress != 0) else s) s

/-- Accepts a checked launch: its handle, and the state with its record, its span or its tasks. -/
def acceptLaunch (s : State) (fn part : Nat) (job : JobRef) (graph : Option (Nat × Nat)) (home : Nat) (lpb : Lpb)
    (deps : List Dep) (tasks : List (Nat × List Nat)) : Nat × State :=
  let v := freeVal s
  let h := freeHandle s fn 65535 (v.1 % 65535)
  let (n, s) := fresh v.2
  let lid := lidOf fn h
  let l : Launch :=
    { handle := h, fn := fn, part := part, job := job, graph := graph, lpb := lpb, deps := deps, home := home
      priv := isPf fn, sweep := isSweep s fn part lpb, inTable := !lpb.kind, concWait := lpb.progress == 0
      recd := { total := unitsTotal lpb, handle := h, jobtag := jobTagOf s job }, acceptTime := s.time, seq := n }
  let s := { s with launches := Tbl.put s.launches lid l, ended := Tbl.del s.ended lid }
  if lpb.kind then (h, armTasks s lid fn home lpb tasks)
  else
    (h, setCluster s home (fun c =>
      { c with table := Tbl.put c.table (Tbl.lowestFree c.table 0 64) (entrySpan lid lpb 0 (itemCount lpb) 0) }))

/-- The LAUNCH record of a refusal (R28, R300): it names the block. -/
def launchRecord (s : State) (fn : Nat) (job : JobRef) (addr : Nat) : Event :=
  { code := fLaunch, vf := if fn < 128 then fn else 0, jobtag := jobTagOf s job, launch := 0xFFFF, aux := toBytes 8 addr }

/-! ## Who waits for a span-table entry (R43) -/

/-- Home cluster of graph launches: that of the partition's lowest slice (R43). -/
def jobHome (s : State) (part : Nat) : Nat := (partSpan (partOf s part)).1

/-- A graph launch that waits for acceptance. -/
structure Waiting where
  ready : Nat
  ref : JobRef
  g : Nat
  i : Nat
  l : GLaunch

def refOfKey (k : Nat) : JobRef := ⟨k / 16, k % 16⟩

/-- The launches of in-degree 0 whose home is a cluster, oldest first. -/
def waitingLaunches (s : State) (cl : Nat) : List Waiting :=
  let all := s.jobs.flatMap (fun e =>
    if e.2.failed.isSome || jobHome s e.2.part != cl then []
    else (e.2.graphs.zipIdx).flatMap (fun g => (g.1.launches.zipIdx).filterMap (fun l =>
      match l.1.ready with
      | some n => if l.1.ended.isNone && l.1.handle.isNone then some ⟨n, refOfKey e.1, g.2, l.2, l.1⟩ else none
      | none => none)))
  all.foldr (fun x acc => acc.takeWhile (fun y => decide (y.ready < x.ready)) ++ x ::
    acc.dropWhile (fun y => decide (y.ready < x.ready))) []

/-- Does a lane of a `launch` still wait? -/
def laneWaits (s : State) (e : LaunchWait) : Bool :=
  match strand? s e.uid e.k with
  | some t => t.pends.any (fun d => d.reissue && !lane d.done e.lane && (match d.instr with | .launch _ _ => true | _ => false))
  | none => false

/-- Does a `launch` that arrived at the table of a cluster before `stamp` still wait? -/
def arrivedBefore (s : State) (cl stamp : Nat) : Bool :=
  (clusterOf s cl).arrivals.any (fun e => decide (e.stamp < stamp) && laneWaits s e)

/-- A launch that arrived before `stamp` waits for an entry of the table of a cluster. -/
def tableAwaited (s : State) (cl stamp : Nat) : Bool :=
  arrivedBefore s cl stamp || (waitingLaunches s cl).any (fun w => !w.l.lpb.kind && decide (w.ready < stamp))

/-- The arrival of a lane at the table of its cluster: its stamp, and the state that remembers it. -/
def arriveTable (s : State) (cl uid k l : Nat) : Nat × State :=
  match (clusterOf s cl).arrivals.find? (fun e => e.uid == uid && e.k == k && e.lane == l) with
  | some e => (e.stamp, s)
  | none =>
    let (n, s) := fresh s
    (n, setCluster s cl (fun c => { c with arrivals := c.arrivals ++ [⟨n, uid, k, l⟩] }))

/-- A lane no longer waits; nor do those whose strand has gone. -/
def leaveTable (s : State) (cl uid k l : Nat) : State :=
  setCluster s cl (fun c => { c with arrivals := c.arrivals.filter (fun e => laneWaits s e && !(e.uid == uid && e.k == k && e.lane == l)) })

/-! ## `launch` (R311) -/

/-- How a run over lanes ends: all performed, held at a lane, or lanes parked on requests. -/
structure LaneRun where
  s : State
  vals : Tbl Nat := []
  done : LaneMask := 0
  parked : Tbl (Nat × Bool) := []
  /-- lanes whose request was answered FAIL, and those whose FPOLICY had been read as 1 -/
  failed : LaneMask := 0
  fps : LaneMask := 0
  held : Bool := false

/-- One lane of `launch` is refused: its record, its policy, and all ones in its result (R28, R311). -/
def refuseLane (x : Ctx) (addr : Nat → Nat) (r : LaneRun) (l : Nat) (s : State) (fp : Bool) : LaneRun :=
  if eventRoom s (queueOf x.l.fn) then
    let e := { strandRecord s x { code := fLaunch, lanes := maskOf (· == l), precise := false } with aux := toBytes 8 (addr l) }
    let s := leaveTable (postEvent s (queueOf x.l.fn) e) (x.w.core / 2) x.uid x.k l
    { r with s := if fp then cancelJob s x.l.job .faulted else s
             vals := Tbl.put r.vals l 0xFFFFFFFF, done := r.done ||| maskOf (· == l) }
  else { r with s := s, held := true }

/-- One lane of `launch` waits for the answer to a request; while none can be posted it holds. -/
def parkLane (x : Ctx) (r : LaneRun) (l : Nat) (s : State) (e : XErr) (fp : Bool) : LaneRun :=
  match e with
  | .miss st c tb pg =>
    match postReq s x.l.fn (dieOfCore x.w.core) .read st c tb pg with
    | some (tag, s) =>
      { r with s := s, parked := Tbl.put r.parked l (tag, st), fps := if fp then r.fps ||| maskOf (· == l) else r.fps }
    | none => { r with s := s, held := true }
  | _ => { r with s := s, held := true }

/-- One lane's launch is accepted; one whose job has been ended meanwhile is cancelled at once (R311, R420; DEDUCED, log 71). While a
run queue has no room for its tasks the lane holds (R298). -/
def acceptLane (x : Ctx) (r : LaneRun) (l : Nat) (s : State) (lpb : Lpb) (deps : List Dep) (ts : List (Nat × List Nat)) : LaneRun :=
  let cl := x.w.core / 2
  let a := acceptLaunch s x.l.fn x.l.part x.l.job none cl lpb deps ts
  if !rqFits a.2 then { r with s := s, held := true }
  else
    let s := leaveTable a.2 cl x.uid x.k l
    let s := match (job? s x.l.job).bind (·.failed) with
      | some st => cancelLaunch s (lidOf x.l.fn a.1) st
      | none => s
    { r with s := s, vals := Tbl.put r.vals l a.1, done := r.done ||| maskOf (· == l) }

/-- KIND of the block at an address, where it can be read: a lane holds for a span-table entry before the block is checked (R311). -/
def lpbKind (s : State) (core fn part addr : Nat) : Option Bool :=
  if addr % 16 ≠ 0 then none
  else match (readBlock s core fn part addr 192).1 with
    | .ok bs => some (parseLpb addr bs).kind
    | .error _ => none

/-- One lane of `launch`: it holds for a handle and, where KIND reads 0, for an entry of the table; then the block is checked. KIND of a
block that cannot be read is not known, and the read refuses or parks the lane (DEDUCED, log 71). -/
def launchLane (x : Ctx) (addr : Nat → Nat) (r : LaneRun) (l : Nat) : LaneRun :=
  if lane r.done l || Tbl.has r.parked l || r.held then r
  else if lane r.failed l then refuseLane x addr r l r.s (lane r.fps l)
  else
    let s := releaseCore r.s x.w.core
    let cl := x.w.core / 2
    if 65535 ≤ liveHandles s x.l.fn then { r with held := true }
    else
      let entry := lpbKind s x.w.core x.l.fn x.l.part (addr l) == some false
      let a := if entry then arriveTable s cl x.uid x.k l else (0, s)
      if entry && (!tableRoom s cl || tableAwaited a.2 cl a.1) then { r with s := a.2, held := true }
      else
        match readLpb a.2 x.w.core x.l.fn x.l.part cl (addr l) none with
        | (.wait e fp, s) => parkLane x r l (leaveTable s cl x.uid x.k l) e fp
        | (.refuse fp _, s) => refuseLane x addr r l s fp
        | (.ok lpb deps, s) =>
          match readTasks s x.w.core x.l.fn x.l.part lpb with
          | (.wait e, s) => parkLane x r l s e lpb.fpolicy
          | (.refuse, s) => refuseLane x addr r l s lpb.fpolicy
          | (.ok ts, s) => acceptLane x r l s lpb deps ts

/-- What a strand keeps of a run over lanes that waits. -/
def runPend (r : LaneRun) (d : Pend) : Pend :=
  { d with parked := r.parked, done := r.done
           addr := (List.range 32).map (fun l => (if lane r.failed l then 1 else 0) + (if lane r.fps l then 2 else 0))
           data := (List.range 32).map (fun l => [BitVec.ofNat 32 (Tbl.getD r.vals l 0)]) }

/-- The run over lanes that such a record stands for. -/
def pendRun (s : State) (d : Pend) : LaneRun :=
  { s := s, done := d.done, parked := d.parked
    failed := maskOf (fun l => nth d.addr l 0 % 2 == 1), fps := maskOf (fun l => decide (2 ≤ nth d.addr l 0))
    vals := (lanesOf d.done).foldl (fun t l => Tbl.put t l (dataNat d.data l)) [] }

/-- `launch` (R311). -/
def execLaunch (c : Ctl) (o : Ops) (s : State) : Host.Outcome State Fault Refusal :=
  ramson (.launch c o) (fun x s =>
    let addr := readAddr x o.a .null .null
    let bad := x.lanes.filterMap (fun l => match window (addr l) 192 with
      | .global _ => none
      | _ => some (l, XErr.prot 1))
    if !bad.isEmpty then .fault (laneFault addr bad)
    else if !(drainsOf s x.w.core x.uid x.k).isEmpty then .hold
    else
      let r0 : LaneRun := match progressOf x (.launch c o) with
        | some d => pendRun s d
        | none => { s := s }
      let r := x.lanes.foldl (launchLane x addr) { r0 with s := forceLoads s x.uid x.k (fun _ => true) }
      if r.held || !r.parked.isEmpty then keepWaiting r.s x (.launch c o) (runPend r)
      else
        let t := (strand? r.s x.uid x.k).getD x.st
        let t := dropProgress t x (.launch c o)
        giveVec x r.s t (.launch c o) c o.d 1 (fun l => Tbl.getD r.vals l 0)) s

/-! ## `trigger`, `tsig` (R312, R313) -/

/-- `trigger` (R312): it holds while a run queue has no room for a task that an edge queues (R298). -/
def execTrigger (c : Ctl) (o : Ops) (s : State) : Host.Outcome State Fault Refusal :=
  ramson (.trigger c o) (fun x s =>
    if !(drainsOf s x.w.core x.uid x.k).isEmpty then .hold
    else
      let s := releaseCore (forceLoads s x.uid x.k (fun _ => true)) x.w.core
      if x.w.triggered then goNow x s
      else
        let s' := countTrigger (setUnit s x.uid (fun w => { w with triggered := true })) x.w.lid
        if rqFits s' then goNow x s' else .hold) s

/-- The signals of `tsig` in ascending lane order, up to a lane whose task finds no room in the run queue: the lanes left (R298). -/
def tsigLanes (x : Ctx) (n : Nat → Nat) : State → List Nat → State × List Nat
  | s, [] => (s, [])
  | s, l :: rest =>
    let s' := taskDecrement (releaseCore s x.w.core) x.l.fn (n l) (x.w.core / 2)
    if rqFits s' then tsigLanes x n s' rest else (s, l :: rest)

/-- `tsig` (R313). -/
def execTsig (c : Ctl) (o : Ops) (s : State) : Host.Outcome State Fault Refusal :=
  ramson (.tsig c o) (fun x s =>
    let n := readSrc x rd32 o.b
    let bad := maskOf (fun l => lane x.tm l && decide (4096 ≤ n l))
    if bad ≠ 0 then .fault { code := fProt, reason := 7, lanes := bad }
    else if !(drainsOf s x.w.core x.uid x.k).isEmpty then .hold
    else
      let i : Instr := .tsig c o
      let old : LaneMask := match progressOf x i with | some d => d.done | none => 0
      let r := tsigLanes x n (forceLoads s x.uid x.k (fun _ => true)) (x.lanes.filter (fun l => !lane old l))
      if r.2.isEmpty then .go { s := r.1, t := dropProgress ((strand? r.1 x.uid x.k).getD x.st) x i }
      else keepWaiting r.1 x i (fun d => { d with done := x.tm &&& ~~~(maskOf (fun l => r.2.contains l)) })) s

/-! ## `cancel` (R314) -/

/-- The launch that `cancel.launch` ends. -/
def cancelTarget (x : Ctx) (o : Ops) : Nat :=
  match o.a, o.b with
  | .null, .lit v => lidOf x.l.fn (v.toNat % 65536 + (if v.toNat < 65536 then 0 else 2 ^ 40))
  | .null, _ => x.w.lid
  | a, _ => let h := readSrc x rd32 a x.low; if h < 65536 then lidOf x.l.fn h else 2 ^ 50

/-- `cancel` (R314): of a device-side launch, `.graph` and `.phase` end the launch itself. -/
def execCancel (c : Ctl) (l : Level) (o : Ops) (s : State) : Host.Outcome State Fault Refusal :=
  ramson (.cancel c l o) (fun x s =>
    let act (s : State) : State :=
      match l, x.l.graph with
      | .launch, _ => cancelLaunch s (cancelTarget x o) .cancelled
      | .graph, some (g, _) => cancelGraph s x.l.job g
      | .phase, some _ => cancelPhase s x.l.job
      | .job, _ => cancelJob s x.l.job .cancelled
      | _, none => cancelLaunch s x.w.lid .cancelled
    .go { s := s, t := x.st, after := act }) s

end Sys2Proof.Machine
end

