-- ==== Sys2Proof/Machine/Counters.lean ====
section
/-! DEFINITION. The counters that reeves and strands read (R338) and `cread` (R411, R412). -/

namespace Sys2Proof.Machine

open Sys2Proof

def max64 : Nat := 2 ^ 64 - 1

/-- µs of device time since an instant. -/
def since (s : State) (t : Nat) : Nat := (s.time - t) / 1000

/-- L2 misses per 1,000 instructions (DESIGN CHOICE, log 80). -/
def missRate (st : List Stat) : Nat :=
  let i := (st.map (·.instrs)).foldl (· + ·) 0
  let m := (st.map (·.misses)).foldl (· + ·) 0
  if i = 0 then Config.missIdle m else 1000 * m / i

/-- Quarter-µs of issue. -/
def usedTime (st : List Stat) : Nat := (st.map (·.used)).foldl (· + ·) 0 / 2000

def strandsOf (us : List (Nat × WUnit)) : Nat :=
  (us.map (fun e => (e.2.strands.filter (fun t => !t.2.completed)).length)).foldl (· + ·) 0

def clusterUnits (s : State) (cl : Nat) : List (Nat × WUnit) := s.units.filter (fun e => e.2.core / 2 == cl)
def freeUnitSlots (s : State) (core : Nat) : Nat := 128 - (unitsOn s core).length

/-- VFs bound to the partition of a cluster: its tenants. -/
def tenantsOf (s : State) (cl : Nat) : List Nat :=
  match partOfSlice s cl with
  | some p => (s.fns.filter (fun e => decide (e.1 < 128) && e.2.bound && e.2.part == p)).map (·.1)
  | none => []

/-- Counters 0 to 9 of a core (R338). -/
def coreCounters (s : State) (core : Nat) : List Nat :=
  let c := clusterOf s (core / 2)
  let us := unitsOn s core
  [us.length, missRate (c.lastStats.filter (·.core == core)), strandsOf us, since s (coreOf s core).lastAdmit, 0, 0,
   usedTime (c.stats.filter (·.core == core)), 0, freeUnitSlots s core, 0]

/-- Counters of a tenant on a cluster. -/
def tenantCounters (s : State) (cl fn : Nat) : List Nat :=
  let c := clusterOf s cl
  let us := (clusterUnits s cl).filter (fun e => fnOfLid e.2.lid == fn)
  let es := c.rq.filter (fun e => fnOfLid e.lid == fn)
  let held := if runningTenant s cl == some fn then s.time else Tbl.getD c.heldAt fn 0
  [us.length, missRate (c.lastStats.filter (fun t => fnOfLid t.lid == fn)), strandsOf us, since s held,
   (es.map (·.prio)).foldl max 0, (fnOf s fn).share, usedTime (c.stats.filter (fun t => fnOfLid t.lid == fn)), es.length, 0,
   (fnOf s fn).faults]

/-- Counters of a cluster. -/
def clusterCounters (s : State) (cl : Nat) : List Nat :=
  let c := clusterOf s cl
  let us := clusterUnits s cl
  [us.length, missRate c.lastStats, strandsOf us, since s 0, 0,
   ((tenantsOf s cl).map (fun f => (fnOf s f).share)).foldl (· + ·) 0, usedTime c.stats, c.rq.length,
   freeUnitSlots s (2 * cl) + freeUnitSlots s (2 * cl + 1), 0]

/-- Units that an entry still holds (DEDUCED, log 79). -/
def entryLoad : RqKind → Nat
  | .range _ n _ => n
  | _ => 1

/-- What the counters of an entry and of a unit share; `used` is its own issue time in the quantum, in half ns. -/
def workCounters (s : State) (cl lid load age prio used : Nat) : List Nat :=
  let c := clusterOf s cl
  [load, missRate (c.lastStats.filter (·.lid == lid)), strandsOf ((clusterUnits s cl).filter (fun e => e.2.lid == lid)), age,
   prio, (fnOf s (fnOfLid lid)).share, used / 2000, 1, 0,
   match launch? s lid with | some l => l.faults | none => 0]

/-- The issue time of what an entry holds: units not yet begun have none. -/
def entryUsed (s : State) : RqKind → Nat
  | .resume u => match Tbl.find? s.images u with | some im => im.unit.used | none => 0
  | _ => 0

def entryCounters (s : State) (cl : Nat) (e : RqEntry) : List Nat :=
  workCounters s cl e.lid (entryLoad e.kind) (since s e.queued) e.prio (entryUsed s e.kind)

def unitCounters (s : State) (cl : Nat) (w : WUnit) : List Nat :=
  workCounters s cl w.lid 1 (if w.begun then since s w.beganAt else 0) w.prio w.used

/-- Counter `n` of a list, 0 when unassigned, saturated. -/
def counterAt (cs : List Nat) (n : Nat) : Nat := min max64 (nth cs n 0)

/-! ## Whole milliseconds (R404) -/

/-- Live data lines of a partition's region: those of its names, and of nodes that wait for reclaim (R281, R459). -/
def liveLines (s : State) (p : Nat) : Nat :=
  ((partOf s p).domains.map (fun d => d.2.dir.length)).foldl (· + ·) 0 + (queuedNodes s p).length

/-- A whole ms of a LIVE or draining partition is still to be counted. -/
def msDue (s : State) (p : Partition) : Bool := (p.st == .live || p.st == .drain) && decide (p.msDone < s.time / 1000000)

/-- RESERVED, of a partition in LIVE, and CAIRN, at `lines` live lines, advance by one ms. -/
def countMs (lines : Nat) (p : Partition) : Partition :=
  let m := if p.st = .live then setNth p.meters 4 (min meterMax (nth p.meters 4 0 + 4 * (partSpan p).2)) else p.meters
  { p with meters := setNth m 6 (min meterMax (nth m 6 0 + lines)), msDone := p.msDone + 1 }

/-- The event of this instant is counted before anything reads the counters of a partition, or ends its LIVE time (R405). -/
def settleMs (s : State) (p : Nat) : State :=
  if msDue s (partOf s p) then setPart s p (countMs (liveLines s p)) else s

/-- METER_MS (R404). -/
def execEvMeterMs (p : Fin 64) (s : State) : Host.Outcome State Fault Refusal := .next (settleMs s p.val)

/-! ## `cread` (R411, R412) -/

/-- The record of the strand's own level; a device-side launch belongs to no graph and to no phase: its own (log 36). -/
def ownRecord (s : State) (x : Ctx) (l : Level) : Rec :=
  match l, x.l.graph, job? s x.l.job with
  | .graph, some (g, _), some j => (nth j.graphs g blankGraph).recd
  | .phase, some _, some j => j.phaseRec
  | .job, _, some j => j.recd
  | _, _, _ => x.l.recd

/-- The record that `cread.rec` reads: a launch's stays readable until its handle is reused (R403, R412; DEDUCED, log 165). -/
def readRecord (s : State) (x : Ctx) (l : Level) (b : Opnd) : Option Rec :=
  match l, b with
  | .launch, .null => some x.l.recd
  | .launch, b =>
    let h := readSrc x rd32 b x.low
    if h < 65536 then launchRec? s (lidOf x.l.fn h) else none
  | l, _ => some (ownRecord s x l)

/-- The value of a read, or the lack of a binding (R275). -/
def creadValue (s : State) (x : Ctx) (sp : ReadSpace) (b : Opnd) : Option Nat :=
  let i := match b with | .null => 0 | b => readSrc x rd32 b x.low
  match sp with
  | .meter => some (if i < 7 then meterRead (partOf (settleMs s x.l.part) x.l.part) i else 0)
  | .reeveCore => some (counterAt (coreCounters s x.w.core) i)
  | .reeveTenant => some (counterAt (tenantCounters s (x.w.core / 2) x.l.fn) i)
  | .reeveCluster => some (counterAt (clusterCounters s (x.w.core / 2)) i)
  | .record l => some (match readRecord s x l b with | some r => recBits r | none => 0)
  | .coll d => (selectDomain s x.l d.val).map (fun u => match domain? s u.key with | some q => q.collisions | none => 0)
  | .time => some s.time
  | .clock =>
    let c := clusterOf s (x.w.core / 2)
    some (c.laneCur + 4 * c.pass + 16 * fld (partOf s x.l.part).railVote.toNat 0 3)

/-- Does the read observe a final STATUS: then it is an acquire at `.dev` (R412)? -/
def creadAcquires (s : State) (x : Ctx) (sp : ReadSpace) (b : Opnd) : Bool :=
  match sp with
  | .record l => (match readRecord s x l b with | some r => r.status.final | none => false)
  | _ => false

/-- `cread` (R412). -/
def execCread (c : Ctl) (sp : ReadSpace) (o : Ops) (s : State) : Host.Outcome State Fault Refusal :=
  ramson (.cread c sp o) (fun x s =>
    match creadValue s x sp o.b with
    | none => .fault { code := fProt, reason := 6, lanes := x.tm }
    | some v =>
      let s := if creadAcquires s x sp o.b then acquireCore s x.w.core else if sp = .meter then settleMs s x.l.part else s
      let w := match sp with | .record _ => 4 | _ => 2
      giveVec x s x.st (.cread c sp o) c o.d w (fun _ => v)) s

end Sys2Proof.Machine
end

