-- ==== Sys2Proof/Machine/CrossLane.lean ====
section
/-! DEFINITION. Group 3: cross-lane (R150-R155), over the set T. -/

namespace Sys2Proof.Machine

open Sys2Proof

/-- `lxch` (R152). -/
def execLxch (c : Ctl) (t : Ty) (m : XchMode) (o : Ops) (s : State) : Host.Outcome State Fault Refusal :=
  ramson (.lxch c t m o)
    (fun x s => giveVec x s x.st (.lxch c t m o) c o.d t.words
      (fLxch x.tm m (readSrc x (rdI t) o.a) (readSrc x rd32 o.b))) s

/-- The rounding mode of a float reduction that combines by adding; min and max do not round (R154). -/
def redRnd (op : Nat) : Rnd := (lredMode op).getD .rne

/-- `lred` (R154): one result in every lane of T. -/
def execLred (c : Ctl) (t : Ty) (op : Fin 7) (o : Ops) (s : State) : Host.Outcome State Fault Refusal :=
  ramson (.lred c t op o)
    (fun x s =>
      if t.isFloat then
        let y := seeded x (redRnd op.val)
        giveVec y s y.st (.lred c t op o) c o.d 1 (fun _ => fLredF t op.val y.st.seed y.tm (readSrc y (.flt t) o.a))
      else giveVec x s x.st (.lred c t op o) c o.d t.words (fun _ => fLredI t op.val x.tm (readSrc x (rdI t) o.a))) s

/-- `lscan` (R154): the prefix at or below each lane of T. -/
def execLscan (c : Ctl) (t : Ty) (op : Fin 7) (o : Ops) (s : State) : Host.Outcome State Fault Refusal :=
  ramson (.lscan c t op o)
    (fun x s =>
      if t.isFloat then
        let y := seeded x (redRnd op.val)
        giveVec y s y.st (.lscan c t op o) c o.d 1 (fLscanF t op.val y.st.seed y.tm (readSrc y (.flt t) o.a))
      else giveVec x s x.st (.lscan c t op o) c o.d t.words (fLscanI t op.val x.tm (readSrc x (rdI t) o.a))) s

/-- `lbcast` (R153). -/
def execLbcast (c : Ctl) (t : Ty) (o : Ops) (s : State) : Host.Outcome State Fault Refusal :=
  ramson (.lbcast c t o)
    (fun x s => giveVec x s x.st (.lbcast c t o) c o.d t.words
      (fLbcast x.tm (readSrc x (rdI t) o.a) (readSrc x rd32 o.b))) s

/-- `lmatch` (R155). -/
def execLmatch (c : Ctl) (t : Ty) (o : Ops) (s : State) : Host.Outcome State Fault Refusal :=
  ramson (.lmatch c t o)
    (fun x s => giveVec x s x.st (.lmatch c t o) c o.d 1 (fLmatch x.tm (readSrc x (rdI t) o.a))) s

end Sys2Proof.Machine
end

