-- ==== Sys2Proof/Machine/Descriptor.lean ====
section
/-! DEFINITION. Group 14, operations 4 to 6: `tdset`, `tdmod` and `tdinv` (R352-R355). -/

namespace Sys2Proof.Machine

open Sys2Proof

/-- Does another launch hold the entry: tagged with it, VALID, and the launch resident on the core (R351, R353)? -/
def tdHeld (s : State) (core lid n : Nat) : Bool :=
  match Tbl.find? (coreOf s core).td n with
  | some e => e.valid && e.lid != lid && s.units.any (fun w => w.2.core == core && w.2.lid == e.lid)
  | none => false

def putTd (s : State) (core n : Nat) (e : TdEntry) : State := setCore s core (fun c => { c with td := Tbl.put c.td n e })

/-- `tdset` (R353): one weak read of 32 bytes at the address of the lowest lane of T. -/
def execTdset (c : Ctl) (o : Ops) (s : State) : Host.Outcome State Fault Refusal :=
  ramson (.tdset c o) (fun x s =>
    let addr := readAddr x o.a .null .null
    let y : Ctx := { x with tm := maskOf (· == x.low) }
    match checkLanes s y addr 32 32 .read true with
    | (.error f, _) => .fault f
    | (.ok ls, s1) =>
      match missLanes ls, okLanes ls with
      | (_, e) :: _, _ => failWhole s1 y .read e []
      | [], (l, loc) :: _ =>
        if rangesHold s x [(l, loc)] 32 || drainHolds s x [(l, loc)] 32 false then .hold
        else if readUncorr s1 x loc 32 then .fault (uncorrOf addr l 0)
        else
          let r := weakRead (forceLoads s1 x.uid x.k (fun q => sameLine q loc)) (x.who s) loc 32
          match tdescOf (ofBytes r.1) with
          | none => .fault { code := fTd, lanes := x.tm }
          | some d =>
            if !d.valid || tdHeld s x.w.core x.w.lid (tdNum o.d) then .fault { code := fTd, lanes := x.tm }
            else goNow x (putTd r.2 x.w.core (tdNum o.d) ⟨d, x.w.lid, true⟩)
      | [], [] => .go { s := s1, t := x.st }) s

/-- The value that `tdmod` puts into its field (R354). -/
def tdValue (x : Ctx) (f : TdField) (o : Ops) : Nat :=
  match o.a, o.b with
  | .null, .lit v => if f = .baseadd ∨ f = .sbaseadd then wrap 64 (sext 32 v.toNat) else v.toNat
  | .null, _ => 0
  | .inline e, _ => wrap 64 (inlineInt e.val 2)
  | .aff n _, _ => (affReg x.p n.val).base.toNat
  | a, _ => readSrc x (.int 2 false) a x.low

/-- The descriptor with one field changed; none when the value does not fit (R354). -/
def tdChange (d : Tdesc) (f : TdField) (v : Nat) : Option Tdesc :=
  let fits (w : Nat) (e : Tdesc) : Option Tdesc := if v < 2 ^ w then some e else none
  match f with
  | .base => some { d with base := BitVec.ofNat 64 v }
  | .sbase => some { d with sbase := BitVec.ofNat 64 v }
  | .rows => fits 32 { d with rows := v }
  | .cols => fits 32 { d with cols := v }
  | .pitch => fits 32 { d with pitch := v }
  | .spitch => fits 24 { d with spitch := v }
  | .baseadd => some { d with base := d.base + BitVec.ofNat 64 v }
  | .sbaseadd => some { d with sbase := d.sbase + BitVec.ofNat 64 v }

/-- `tdmod` (R354). -/
def execTdmod (c : Ctl) (f : TdField) (o : Ops) (s : State) : Host.Outcome State Fault Refusal :=
  ramson (.tdmod c f o) (fun x s =>
    match tdUse s x.w.core x.w.lid (tdNum o.d) with
    | none => .fault { code := fTd, lanes := x.tm }
    | some d =>
      match tdChange d f (tdValue x f o) with
      | none => .fault { code := fTd, lanes := x.tm }
      | some e =>
        if e.valid then .go { s := putTd s x.w.core (tdNum o.d) ⟨e, x.w.lid, true⟩, t := x.st }
        else .fault { code := fTd, lanes := x.tm }) s

/-- `tdinv` (R355). -/
def execTdinv (c : Ctl) (all : Bool) (o : Ops) (s : State) : Host.Outcome State Fault Refusal :=
  ramson (.tdinv c all o) (fun x s =>
    .go { s := setCore s x.w.core (fun c => { c with td := c.td.map (fun e =>
            if e.2.lid == x.w.lid && (all || e.1 == tdNum o.d) then (e.1, { e.2 with valid := false }) else e) })
          t := x.st }) s

end Sys2Proof.Machine
end

