-- ==== Sys2Proof/Machine/FloatArith.lean ====
section
/-! DEFINITION. Group 4: float arithmetic (R159-R164). -/

namespace Sys2Proof.Machine

open Sys2Proof

/-- `fadd` (R160). -/
def execFadd (c : Ctl) (t : Ty) (r : Rnd) (o : Ops) (s : State) : Host.Outcome State Fault Refusal :=
  ramson (.fadd c t r o)
    (flanes2 (.fadd c t r o) c o r 1 (.flt t) (.flt t) (fun sd l a b => perElem t (fun j => elAdd t r (rsOf sd l j) (elem t a j) (elem t b j)))) s

/-- `fsub` (R160). -/
def execFsub (c : Ctl) (t : Ty) (r : Rnd) (o : Ops) (s : State) : Host.Outcome State Fault Refusal :=
  ramson (.fsub c t r o)
    (flanes2 (.fsub c t r o) c o r 1 (.flt t) (.flt t) (fun sd l a b => perElem t (fun j => elSub t r (rsOf sd l j) (elem t a j) (elem t b j)))) s

/-- `fmul` (R160). -/
def execFmul (c : Ctl) (t : Ty) (r : Rnd) (o : Ops) (s : State) : Host.Outcome State Fault Refusal :=
  ramson (.fmul c t r o)
    (flanes2 (.fmul c t r o) c o r 1 (.flt t) (.flt t) (fun sd l a b => perElem t (fun j => elMul t r (rsOf sd l j) (elem t a j) (elem t b j)))) s

/-- `fdiv` (R160). -/
def execFdiv (c : Ctl) (t : Ty) (r : Rnd) (o : Ops) (s : State) : Host.Outcome State Fault Refusal :=
  ramson (.fdiv c t r o)
    (flanes2 (.fdiv c t r o) c o r 1 (.flt t) (.flt t) (fun sd l a b => perElem t (fun j => elDiv t r (rsOf sd l j) (elem t a j) (elem t b j)))) s

/-- `ffma` (R160): one rounding. -/
def execFfma (c : Ctl) (t : Ty) (r : Rnd) (o : Ops) (s : State) : Host.Outcome State Fault Refusal :=
  ramson (.ffma c t r o)
    (flanes3 (.ffma c t r o) c o r 1 (.flt t) (.flt t) (.flt t) (fun sd l a b d => perElem t (fun j =>
      elFma t r (rsOf sd l j) (elem t a j) (elem t b j) (elem t d j)))) s

/-- `fmin` (R161). -/
def execFmin (c : Ctl) (t : Ty) (o : Ops) (s : State) : Host.Outcome State Fault Refusal :=
  ramson (.fmin c t o)
    (lanes2 (.fmin c t o) c o 1 (.flt t) (.flt t) (fun a b => perElem t (fun j => elMin t (elem t a j) (elem t b j)))) s

/-- `fmax` (R161). -/
def execFmax (c : Ctl) (t : Ty) (o : Ops) (s : State) : Host.Outcome State Fault Refusal :=
  ramson (.fmax c t o)
    (lanes2 (.fmax c t o) c o 1 (.flt t) (.flt t) (fun a b => perElem t (fun j => elMax t (elem t a j) (elem t b j)))) s

/-- `frnd` (R162). -/
def execFrnd (c : Ctl) (t : Ty) (r : Rnd) (o : Ops) (s : State) : Host.Outcome State Fault Refusal :=
  ramson (.frnd c t r o)
    (flanes1 (.frnd c t r o) c o r 1 (.flt t) (fun sd l a => perElem t (fun j => elRnd t r (rsOf sd l j) (elem t a j)))) s

/-- `fsqrt` (R160). -/
def execFsqrt (c : Ctl) (t : Ty) (r : Rnd) (o : Ops) (s : State) : Host.Outcome State Fault Refusal :=
  ramson (.fsqrt c t r o)
    (flanes1 (.fsqrt c t r o) c o r 1 (.flt t) (fun sd l a => perElem t (fun j => elSqrt t r (rsOf sd l j) (elem t a j)))) s

/-- `fclamp` (R161). -/
def execFclamp (c : Ctl) (t : Ty) (o : Ops) (s : State) : Host.Outcome State Fault Refusal :=
  ramson (.fclamp c t o)
    (lanes3 (.fclamp c t o) c o 1 (.flt t) (.flt t) (.flt t) (fun a b d => perElem t (fun j => elClamp t (elem t a j) (elem t b j) (elem t d j)))) s

/-- `fscale` (R163). -/
def execFscale (c : Ctl) (t : Ty) (r : Rnd) (o : Ops) (s : State) : Host.Outcome State Fault Refusal :=
  ramson (.fscale c t r o)
    (flanes2 (.fscale c t r o) c o r 1 (.flt t) (.int 1 true) (fun sd l a n => perElem t (fun j => elScale t r (rsOf sd l j) (elem t a j) (sext 32 n)))) s

/-- `fdot2` (R164). -/
def execFdot2 (c : Ctl) (t : Ty) (r : Rnd) (o : Ops) (s : State) : Host.Outcome State Fault Refusal :=
  ramson (.fdot2 c t r o)
    (flanes3 (.fdot2 c t r o) c o r 1 (.flt t) (.flt t) (.flt .f32) (fun sd l a b d => fFdot2 t r (rsOf sd l 0) a b d)) s

end Sys2Proof.Machine
end

