-- ==== Sys2Proof/Machine/Jobs.lean ====
section
/-! DEFINITION. Jobs, phases and graphs: JOB_SUBMIT, JOB_START, GRAPH_EXPAND, LAUNCH_ACCEPT and PHASE_COMPLETE
(R43, R299-R302, R403, R477). -/

namespace Sys2Proof.Machine

open Sys2Proof

/-- Function code of a function and a partition: a VF's number, or 128 + partition for the PF (R445). -/
def fnCode (fn : Fn) (part : Nat) : Nat := match fn with | .vf n => n.val | .pf => 128 + part
/-- The same where PF_PART selects the partition. -/
def fnNow (s : State) (fn : Fn) : Nat := fnCode fn s.pfPart
/-- The partition of a function code. -/
def partOfFn (s : State) (fn : Nat) : Nat := if isPf fn then fn - 128 else (fnOf s fn).part

/-! ## JOB_SUBMIT (R299, R445) -/

/-- Is the function's JOB_SUBMIT open (R372, R375, R445)? (DEDUCED, log 61) -/
def submitOpen (s : State) (fn : Nat) : Bool :=
  let f := fnOf s fn
  (partOf s (partOfFn s fn)).st == .live && (isPf fn || (f.bound && !f.unbinding))

def setDropped (s : State) (fn : Nat) : State :=
  if isPf fn then setPart s (fn - 128) (fun p => { p with pfDropped := true }) else setFn s fn (fun f => { f with dropped := true })

/-- A write that finds no free entry, or a closed queue: discarded, DROPPED, JOB_FULL. -/
def jobFull (s : State) (fn addr : Nat) : State :=
  postEvent (setDropped s fn) (queueOf fn) { code := evJobFull, vf := if fn < 128 then fn else 0, aux := toBytes 8 addr }

/-- A free entry of a queue: the first from `n` on. -/
def freeEntry (s : State) (fn : Nat) : Nat → Nat → Option Nat
  | 0, _ => none
  | fuel + 1, n => if Tbl.has s.jobs (jobKey ⟨fn, n⟩) then freeEntry s fn fuel ((n + 1) % 16) else some n

/-- JOB_SUBMIT (R299, R385, R387, R445). -/
def execEvJobSubmit (fn : Fn) (addr : DWord) (sealed : Bool) (s : State) : Host.Outcome State Fault Refusal :=
  let c := fnNow s fn
  let f := fnOf s (queueOf c)
  if !fnOpen s c then .next s
  else if f.ide && !sealed then .next (setDropped s c)
  else if !submitOpen s c then .next (jobFull s c addr.toNat)
  else
    let v := freeVal s
    match freeEntry s c 16 (v.1 % 16) with
    | none => .next (jobFull s c addr.toNat)
    | some e => .next { v.2 with jobs := Tbl.put s.jobs (jobKey ⟨c, e⟩)
                                   { addr := addr.toNat, part := partOfFn s c, recd := { handle := e } }
                                 endedJobs := Tbl.del s.endedJobs (jobKey ⟨c, e⟩) }

/-! ## Block reads of a job (R477) -/

/-- Does a read wait for the answer to its request? -/
def readWaits (j : Job) (rd : Nat × Nat) : Bool := j.waits.any (fun w => w.reader == rd)

def clearReader (s : State) (r : JobRef) (rd : Nat × Nat) : State :=
  setJob s r (fun j => { j with waits := j.waits.filter (fun w => w.reader != rd) })

/-- A read that missed waits for the answer to its request; while no request can be posted it is made again later. -/
def waitReader (s : State) (r : JobRef) (rd : Nat × Nat) (core : Nat) (e : XErr) (item : Nat := 0) (fp : Bool := false) : Option State :=
  match e with
  | .miss st c tb pg =>
    (postReq s r.fn (dieOfCore core) .read st c tb pg).map (fun q =>
      setJob q.2 r (fun j => { j with waits := j.waits.filter (fun w => w.reader != rd) ++ [⟨rd, q.1, st, item, fp⟩] }))
  | _ => none

/-- A job ended by a phase or graph entry that fails (R300). -/
def failJob (s : State) (r : JobRef) (addr : Nat) : State :=
  cancelJob (postEvent s (queueOf r.fn) (launchRecord s r.fn r addr)) r .faulted

/-! ## Phases (R300, R301) -/

/-- A graph entry; none when it breaks a range. -/
def parseGraph (tag v : Nat) : Option Graph :=
  let n := fld v 64 9
  if n = 0 || decide (256 < n) || fld v 73 55 != 0 || fld v 0 64 % 8 != 0 then none
  else some { list := fld v 0 64, nlaunch := n, recd := { total := n, jobtag := tag } }

/-- The address of the current phase's entry. -/
def phaseAt (j : Job) : Nat := j.phlist + 16 * j.phase

/-- A read of the phase entry, or of its graph list, that gave no bytes: it waits, or the job ends. -/
def phaseRead (s s' : State) (r : JobRef) (core at' : Nat) (e : XErr) : State :=
  if isMiss e then (waitReader s' r (0, 0) core e).getD s else failJob s' r at'

/-- The graph list of a phase entry that has been read: `n` entries at `g`. -/
def openGraphs (s : State) (r : JobRef) (j : Job) (core g n : Nat) : State :=
  match readBlock s core r.fn j.part g (16 * n) with
  | (.error e, s') => phaseRead s s' r core g e
  | (.ok gs, s) =>
    let graphs := (List.range n).map (fun i => parseGraph j.tag (ofBytes (slice gs (16 * i) 16)))
    match graphs.findIdx? (·.isNone) with
    | some i => failJob s r (g + 16 * i)
    | none =>
      setJob s r (fun j => { j with graphs := graphs.filterMap id, phaseOpen := true, phaseEntry := none
                                    phaseRec := { total := n, jobtag := j.tag } })

/-- Opens the current phase: its entry, which is read once, and its graph entries (R300). -/
def openPhase (s : State) (r : JobRef) : State :=
  match job? s r with
  | none => s
  | some j =>
    let core := 2 * jobHome s j.part
    if readWaits j (0, 0) then s
    else
      match j.phaseEntry with
      | some (g, n) => openGraphs s r j core g n
      | none =>
        if phaseAt j % 16 ≠ 0 then failJob s r (phaseAt j)
        else
          match readBlock s core r.fn j.part (phaseAt j) 16 with
          | (.error e, s') => phaseRead s s' r core (phaseAt j) e
          | (.ok bs, s) =>
            let v := ofBytes bs
            let n := fld v 64 7
            let g := fld v 0 64
            if n = 0 || decide (64 < n) || fld v 71 57 != 0 || g % 16 != 0 then failJob s r (phaseAt j)
            else openGraphs (setJob s r (fun j => { j with phaseEntry := some (g, n) })) r j core g n

/-- A job whose block is refused (R300; DEDUCED, log 65). -/
def refuseJob (s : State) (r : JobRef) (addr : Nat) : State :=
  endJob (postEvent s (queueOf r.fn) (launchRecord s r.fn r addr)) r .refused

/-- A job block that has been read: its JOBTAG goes into every record of the job, NPHASE into its TOTAL (R300, R402). -/
def startJob (s : State) (r : JobRef) (j : Job) (v : Nat) : State :=
  let n := fld v 64 16
  let s := setJob s r (fun j => { j with tag := fld v 96 32, recd := { j.recd with jobtag := fld v 96 32, total := n } })
  if n = 0 || fld v 80 16 != 0 || fld v 128 384 != 0 then refuseJob s r j.addr
  else
    openPhase (setJob s r (fun j => { j with started := true, phlist := fld v 0 64, nphase := n })) r

/-- JOB_START: the job block is read, or a phase list that a page request held up (R300, R477). -/
def execEvJobStart (fn : Fn) (part : Fin 64) (entry : Fin 16) (s : State) : Host.Outcome State Fault Refusal :=
  let r : JobRef := ⟨fnCode fn part.val, entry.val⟩
  match job? s r with
  | none => .next s
  | some j =>
    let core := 2 * jobHome s j.part
    if j.failed.isSome || j.phaseOpen || readWaits j (0, 0) then .next s
    else if j.started then .next (if j.phase < j.nphase then openPhase s r else s)
    else if j.addr % 64 ≠ 0 then .next (refuseJob s r j.addr)
    else
      match readBlock s core r.fn j.part j.addr 64 with
      | (.error e, s') => .next (if isMiss e then (waitReader s' r (0, 0) core e).getD s else refuseJob s' r j.addr)
      | (.ok bs, s) => .next (startJob s r j (ofBytes bs))

/-- PHASE_COMPLETE: every graph has ended; copies and drains have landed with their units, which do not complete before
(R24, R301). -/
def execEvPhaseComplete (fn : Fn) (part : Fin 64) (entry : Fin 16) (s : State) : Host.Outcome State Fault Refusal :=
  let r : JobRef := ⟨fnCode fn part.val, entry.val⟩
  match job? s r with
  | none => .next s
  | some j =>
    if j.failed.isSome || !j.phaseOpen || decide (j.phaseRec.done < j.phaseRec.total) then .next s
    else
      let s := setJob s r closePhase
      .next (if j.phase + 1 < j.nphase then openPhase s r else checkJobEnd s r)

/-! ## GRAPH_EXPAND (R301) -/

/-- The launches of a graph, by index and address: all of them, or the miss that holds the expansion up, with the index and the FPOLICY
read so far (DEDUCED, log 63). `failed`: the launches whose read a FAIL has ended. -/
def readLaunches (core fn part home n : Nat) (failed : Tbl Bool) :
    State → List (Nat × Nat) → List (Nat × LpbRead) → (List (Nat × LpbRead) ⊕ (XErr × Nat × Bool)) × State
  | s, [], acc => (.inl acc, s)
  | s, (i, a) :: rest, acc =>
    match Tbl.find? failed i with
    | some fp => readLaunches core fn part home n failed s rest (acc ++ [(a, .refuse fp [])])
    | none =>
      match readLpb s core fn part home a (some n) with
      | (.wait e fp, s) => (.inr (e, i, fp), s)
      | (r, s) => readLaunches core fn part home n failed s rest (acc ++ [(a, r)])

/-- DEDUCED, log 64. -/
def readDeps : LpbRead → List Dep
  | .ok _ ds => ds
  | .refuse _ ds => ds
  | .wait _ _ => []

/-- The launches of an expanded graph with their in-degrees; those of in-degree 0 are ready, in order of index. -/
def graphLaunches (n0 : Nat) (rs : List (Nat × LpbRead)) : List GLaunch :=
  let edges := (rs.flatMap (fun e => readDeps e.2)).filter (fun d => !d.task)
  (rs.zipIdx).map (fun e =>
    let k := (edges.filter (fun d => d.index == e.2)).length
    { addr := e.1.1, lpb := match e.1.2 with | .ok l _ => l | _ => {}, deps := readDeps e.1.2, indeg := k
      ready := if k = 0 then some (n0 + e.2) else none })

/-- A refused launch of a graph: its record, and its policy; it is treated as cancelled (R28, R301). -/
def refuseGraphLaunch (s : State) (r : JobRef) (gi i addr : Nat) (fp : Bool) : State :=
  let s := postEvent s (queueOf r.fn) (launchRecord s r.fn r addr)
  let s := setJob s r (fun j => withGraph j gi (fun g => cascade 257 g i .refused false))
  if fp then cancelJob s r .faulted else s

/-- The launches of a graph that has been read: those refused are treated as cancelled (R28, R301). -/
def expandGraph (s : State) (r : JobRef) (g : Nat) (rs : List (Nat × LpbRead)) : State :=
  let n0 := s.serial
  let s := setJob { s with serial := s.serial + rs.length } r (fun j => withGraph j g (fun q =>
    { q with launches := graphLaunches n0 rs, expanded := true, failedReads := [] }))
  (rs.zipIdx).foldl (fun s e => match e.1.2 with
    | .refuse fp _ => refuseGraphLaunch s r g e.2 e.1.1 fp
    | _ => s) s

/-- GRAPH_EXPAND (R301). -/
def execEvGraphExpand (fn : Fn) (part : Fin 64) (entry : Fin 16) (g : Fin 64) (s : State) : Host.Outcome State Fault Refusal :=
  let r : JobRef := ⟨fnCode fn part.val, entry.val⟩
  match job? s r with
  | none => .next s
  | some j =>
    match j.graphs[g.val]? with
    | none => .next s
    | some gr =>
      let home := jobHome s j.part
      let core := 2 * home
      let rd := (g.val + 1, 0)
      if j.failed.isSome || !j.phaseOpen || gr.expanded || gr.recd.status.final || readWaits j rd then .next s
      else
        match readBlock s core r.fn j.part gr.list (8 * gr.nlaunch) with
        | (.error e, s') => .next (if isMiss e then (waitReader s' r rd core e).getD s else failJob s' r gr.list)
        | (.ok bs, s1) =>
          let as := (List.range gr.nlaunch).map (fun i => (i, ofBytes (slice bs (8 * i) 8)))
          match readLaunches core r.fn j.part home gr.nlaunch gr.failedReads s1 as [] with
          | (.inr (e, i, fp), s') => .next ((waitReader s' r rd core e (i + 1) fp).getD s)
          | (.inl rs, s2) => .next (expandGraph s2 r g.val rs)

/-! ## LAUNCH_ACCEPT (R43) -/

/-- May a waiting graph launch be accepted now: its reads are answered, it has a handle, and an entry of the table for which no earlier
arrival waits? -/
def acceptable (s : State) (cl : Nat) (w : Waiting) : Bool :=
  (match job? s w.ref with | some j => !readWaits j (w.g + 1, w.i + 1) | none => false)
    && decide (liveHandles s w.ref.fn < 65535) && (w.l.lpb.kind || (tableRoom s cl && !arrivedBefore s cl w.ready))

/-- LAUNCH_ACCEPT: the oldest launch of a home cluster that has its handle and, where it enters the span table, an
entry (R43, R302); it waits while a run queue has no room for its tasks (R298). -/
def execEvLaunchAccept (cl : Fin 192) (s : State) : Host.Outcome State Fault Refusal :=
  match (waitingLaunches s cl.val).find? (acceptable s cl.val) with
  | none => .next s
  | some w =>
    match job? s w.ref with
    | none => .next s
    | some j =>
      let core := 2 * cl.val
      match readTasks s core w.ref.fn j.part w.l.lpb with
      | (.wait e, s') => .next ((waitReader s' w.ref (w.g + 1, w.i + 1) core e (w.i + 1) w.l.lpb.fpolicy).getD s)
      | (.refuse, s') => .next (refuseGraphLaunch s' w.ref w.g w.i w.l.addr w.l.lpb.fpolicy)
      | (.ok ts, s1) =>
        let a := acceptLaunch s1 w.ref.fn j.part w.ref (some (w.g, w.i)) cl.val w.l.lpb w.l.deps ts
        .next (whenRqFits s (setJob a.2 w.ref (fun j =>
          let g := setGraphLaunch (nth j.graphs w.g blankGraph) w.i (fun l => { l with handle := some a.1, ready := none })
          { j with graphs := setNth j.graphs w.g g })))

/-! ## FAIL replies (R477) -/

/-- Has the graph, or the launch, that a block read was for ended meanwhile? -/
def readerEnded (j : Job) : Nat × Nat → Bool
  | (0, _) => false
  | (g + 1, 0) => (nth j.graphs g blankGraph).recd.status.final
  | (g + 1, i + 1) => (nth j.graphs g blankGraph).recd.status.final || (graphLaunch (nth j.graphs g blankGraph) i).ended.isSome

/-- A FAIL reply fails the read that waits for it: the job is refused or ended, or the launch is refused. A launch whose graph is still
being expanded is refused with the others (R28, R300). -/
def failRead (s : State) (r : JobRef) (w : JobWait) : State :=
  let s := clearReader s r w.reader
  match job? s r with
  | none => s
  | some j =>
    if j.failed.isSome || readerEnded j w.reader then s
    else
      match w.reader with
      | (0, _) => if !j.started then refuseJob s r j.addr
                  else failJob s r (match j.phaseEntry with | some (g, _) => g | none => phaseAt j)
      | (g + 1, 0) =>
        if w.item = 0 then failJob s r (nth j.graphs g blankGraph).list
        else setJob s r (fun j => withGraph j g (fun q => { q with failedReads := Tbl.put q.failedReads (w.item - 1) w.fpolicy }))
      | (g + 1, i + 1) => refuseGraphLaunch s r g i (graphLaunch (nth j.graphs g blankGraph) i).addr w.fpolicy

end Sys2Proof.Machine
end

