-- ==== Sys2Proof/Machine/Image.lean ====
section
/-! DEFINITION. The bytes of a context image and where they lie (R427-R430). A restore reads the structured image that State
holds beside them: no program reaches the bytes (R221, log 131). -/

namespace Sys2Proof.Machine

open Sys2Proof

def up192 (n : Nat) : Nat := (n + 191) / 192 * 192

/-- A section, padded to a multiple of 192 bytes. -/
def pad192 (bs : List Byte) : List Byte := bs ++ List.replicate (up192 bs.length - bs.length) 0

def word4 (w : BitVec 32) : List Byte := toBytes 4 w.toNat
def word8 (w : BitVec 64) : List Byte := toBytes 8 w.toNat

/-! ## Replay packets (R430) -/

/-- The mode RS of a long-latency instruction (R158). -/
def usesSeed : Instr → Bool
  | .fdiv _ _ r _ | .fsqrt _ _ r _ => r == .rs
  | _ => false

/-- Old values that a read-modify-write has returned: 128 bytes for each destination register. -/
def oldValues (d : Pend) : List Byte :=
  match memKind d.instr with
  | some (.rmw _ _ _) | some (.cas _ _) =>
    d.outs.flatMap (fun o => match o with
      | .vec _ ws => ws.flatMap (fun w => (List.range 32).flatMap (fun l => word4 (nth w l 0)))
      | .aff _ _ _ _ => [])
  | _ => []

/-- What follows the fixed part: source values, lane addresses, old values, the state of `%seed`. -/
def packetTail (instr : Instr) (srcs : List Byte) (addr : List Nat) (old : List Byte) (seed : Word) : List Byte :=
  srcs ++ (if (memKind instr).isSome then (List.range 32).flatMap (fun l => toBytes 8 (nth addr l 0)) else []) ++ old
    ++ (if usesSeed instr then word4 seed else [])

/-- One packet. -/
def packetBytes (pc : DWord) (lanes done : LaneMask) (tag : Nat) (instr : Instr) (tail : List Byte) : List Byte :=
  word8 pc ++ word4 lanes ++ word4 done ++ toBytes 4 tag ++ toBytes 2 (48 + tail.length) ++ toBytes 2 0 ++ slice (encode instr) 0 12
    ++ toBytes 12 0 ++ tail

def noTag : Nat := 2 ^ 32 - 1

/-- Lanes not yet performed, and lanes performed. -/
def packetLanes (d : Pend) : LaneMask × LaneMask :=
  let left := if (memKind d.instr).isSome then d.todo else d.lanes &&& ~~~d.done
  (left, d.lanes &&& ~~~left)

/-- An instruction that is to issue again, with no lane performed and none that waits for a page reply, has not issued. -/
def notIssued (d : Pend) : Bool := d.reissue && d.parked.isEmpty && d.done == 0

/-- The packets of an outstanding instruction: one for each page request that lanes await, and one for the rest (log 131). -/
def pendPackets (d : Pend) : List (List Byte) :=
  if notIssued d then [] else
  let m := packetLanes d
  let tail := packetTail d.instr d.srcs d.addr (oldValues d) d.seed
  let tags := ((d.parked.map (fun e => e.2.1)).filter (fun t => decide (t < 2 ^ 20))).eraseDups
  let lanesOf' (tag : Nat) : LaneMask := maskOf (fun l => lane m.1 l && (match Tbl.find? d.parked l with | some e => e.1 == tag | none => false))
  let rest := tags.foldl (fun a t => a &&& ~~~lanesOf' t) m.1
  tags.map (fun t => packetBytes d.pc (lanesOf' t) m.2 t d.instr tail)
    ++ (if rest = 0 && !tags.isEmpty then [] else [packetBytes d.pc rest m.2 noTag d.instr tail])

/-! ## Strand records (R429) -/

def KSt.code : KSt → Nat
  | .idle => 0 | .armed => 1 | .waiting => 2 | .matrix => 3

/-- A convergence register: 160 bytes. -/
def convBytes (k : Conv) : List Byte :=
  word4 k.mask ++ word4 k.signed ++ toBytes 4 k.st.code ++ toBytes 4 0 ++ word8 k.pc ++ toBytes 8 0
    ++ (List.range 32).flatMap (fun l => word4 (nth k.rows l 0))

/-- STATE of a path, numbered as R177 lists the states; the register of a `kwait` in [11:8] (log 131). -/
def PathSt.code : PathSt → Nat
  | .run => 0
  | .parked k => 1 + 256 * k.val
  | .bwait => 2
  | .hold => 3
  | .fault => 4

/-- A path record: 1,584 bytes; the stack from its outermost frame on (log 131). -/
def pathBytes (p : Path) : List Byte :=
  word8 p.pc ++ word4 p.lanes ++ toBytes 4 p.st.code ++ toBytes 2 p.limit ++ toBytes 2 p.stack.length ++ toBytes 4 0
    ++ (List.range 64).flatMap (fun i => match p.stack.reverse[i]? with
      | some f => word8 f.1 ++ toBytes 2 f.2 ++ toBytes 6 0
      | none => toBytes 16 0)
    ++ (List.range 32).flatMap (fun n => affBytes (nth p.aff n {})) ++ toBytes 24 0

/-- A name with its register: 136 bytes. -/
def nameBytes (e : Nat × VReg) : List Byte :=
  toBytes 2 e.1 ++ toBytes 2 0 ++ word4 e.2.mask ++ (List.range 32).flatMap (fun l => word4 (nth e.2.words l 0))

def strandBytes (gen : Nat) (t : Strand) : List Byte :=
  let flags := (if t.isSpilled then 1 else 0) + (if t.paths.any (fun p => p.st == .bwait) then 2 else 0)
    + (if t.token.isSome then 4 else 0) + (if t.pends.any (fun d => !d.parked.isEmpty) then 8 else 0)
  let packets := t.pends.flatMap pendPackets
  toBytes 4 t.k ++ toBytes 1 gen ++ toBytes 1 flags ++ toBytes 2 t.paths.length ++ word4 t.seed ++ toBytes 2 t.g
    ++ toBytes 2 t.regs.length ++ toBytes 4 (match t.token with | some n => n.num | none => 0)
    ++ (List.range 7).flatMap (fun n => word4 (nth t.preds n 0)) ++ (List.range 8).flatMap (fun n => convBytes (nth t.convs n idleConv))
    ++ t.paths.flatMap pathBytes ++ t.regs.flatMap nameBytes ++ toBytes 4 packets.length ++ packets.flatMap id

/-! ## The sections (R428) -/

/-- The block of a launch as it was read (R26). -/
def lpbBits (l : Lpb) : Nat :=
  let b (f : Bool) : Nat := if f then 1 else 0
  l.entry.toNat + l.args.toNat * 2 ^ 64 + l.ux * 2 ^ 128 + l.uy * 2 ^ 160 + l.uz * 2 ^ 192 + l.sx * 2 ^ 224 + l.sy * 2 ^ 240
    + l.sz * 2 ^ 256 + l.order * 2 ^ 272 + l.logw * 2 ^ 274 + l.progress * 2 ^ 277 + b l.refill * 2 ^ 279 + b l.noprog * 2 ^ 280
    + b l.fpolicy * 2 ^ 281 + l.mctx * 2 ^ 282 + b l.kind * 2 ^ 284 + l.vregs * 2 ^ 288 + l.vfloor * 2 ^ 304 + l.scratch * 2 ^ 320
    + l.priv * 2 ^ 352 + l.privbase * 2 ^ 384 + l.deplist * 2 ^ 448 + l.depcount * 2 ^ 512 + l.taskbase * 2 ^ 528

def SpanSt.code : SpanSt → Nat
  | .run => 0 | .ldu => 1 | .kwait => 2

/-- A span record: 1,920 bytes. -/
def spanBytes (inUnit : Bool) (sp : Span) : List Byte :=
  toBytes 8 (sp.lid % 65536) ++ toBytes 8 sp.lo ++ toBytes 8 sp.hi ++ word8 sp.pc
    ++ toBytes 8 (if inUnit then sp.unit % 2 ^ 23 else 2 ^ 64 - 1) ++ toBytes 8 sp.st.code
    ++ (List.range 32).flatMap (fun n => affBytes (nth sp.aff n {}))
    ++ (List.range 7).flatMap (fun n => let p := nth sp.preds n {}; toBytes 8 (p.kind % 4 + (p.c % 2 ^ 33) * 2 ^ 8))
    ++ (List.range 8).flatMap (fun n => convBytes (nth sp.convs n idleConv)) ++ toBytes 24 0

/-- The packet of an `ldu` that a span waits for (R62). -/
def lduPackets (sp : Span) : List Byte :=
  (sp.wins.filter (fun v => !v.returned)).flatMap (fun v => match v.instr with
    | some i => packetBytes v.pc allLanes 0 noTag i (packetTail i v.srcs (List.replicate 32 v.va) [] 0)
    | none => [])

/-- `k` items of a part whose layout the manual does not give, from free value number `n` on. -/
def otherBytes (part n k : Nat) : List Byte :=
  (List.range k).flatMap (fun j => (List.range (Config.imagePart part)).map (fun i => Config.imageByte part (Config.freeNat (n + j)) i))

/-- The matrix state of context number `p` of quarter `q` in an image (R202, R428): eight tiles, its queued `mma`s, and its drains, each
with its snapshot's tile; `n` is the first free value drawn. -/
def ctxBytes (im : Image) (q p : Nat) (c : MCtx) (n : Nat) : List Byte :=
  let mine := im.drains.filter (fun d => d.1 == q && (Tbl.getD im.unit.ctx q []).findIdx? (· == d.2.ctx) == some p)
  (List.range 16384).flatMap (fun e => word4 (Tbl.getD c.tiles e 0)) ++ otherBytes 0 n c.queue.length
    ++ ((mine.zipIdx).flatMap (fun d =>
      (match d.1.2.snapshot with
        | some t => (List.range 2048).flatMap (fun e => word4 (Tbl.getD t (2048 * d.1.2.tile + e) 0))
        | none => []) ++ otherBytes 1 (n + c.queue.length + d.2) 1))

/-- Section 5, context by context. -/
def matrixBytes (im : Image) : Nat → List (Nat × Nat × MCtx) → List Byte
  | _, [] => []
  | n, c :: rest =>
    let k := c.2.2.queue.length + (im.drains.filter (fun d => d.1 == c.1)).length
    ctxBytes im c.1 c.2.1 c.2.2 n ++ matrixBytes im (n + k) rest

/-- Free values that section 5 draws. -/
def matrixDraws (im : Image) : Nat :=
  (im.ctxs.map (fun c => c.2.2.queue.length + (im.drains.filter (fun d => d.1 == c.1)).length)).foldl (· + ·) 0

/-- The open batches of a unit's strands: (strand, lane) with its copies (R315). -/
def openBatches (w : WUnit) : List (Nat × Nat × List Nat) := w.strands.flatMap (fun e => e.2.openBatch.map (fun b => (e.1, b.1, b.2)))

/-- The batch counters of a unit's strands, 16 bits a lane, in strand and lane order (R315). -/
def counterBytes (w : WUnit) : List Byte :=
  w.strands.flatMap (fun e => (List.range 32).flatMap (fun l => toBytes 2 (nth e.2.batchCtr l 0)))

/-- A descriptor entry (R348, R357): descriptor, identifier number, launch tag. -/
def tdBytes (e : Nat × TdEntry) : List Byte :=
  toBytes 32 (tdescBits e.2.d) ++ toBytes (Config.imagePart 5) e.1 ++ toBytes (Config.imagePart 7) (e.2.lid % 65536)

/-- Sections 1 to 8 of an image; `gens` are the generation tags of the strands, `pool` the pool spans it records, `n` the first
free value it draws. -/
def imageSections (l : Lpb) (gens : List Nat) (pool : List Span) (n : Nat) (im : Image) : List (List Byte) :=
  let w := im.unit
  let n2 := n + matrixDraws im
  let n3 := n2 + im.copies.length + im.incoming.length
  let n4 := n3 + im.seals.length
  let n5 := n4 + (openBatches w).length
  [ toBytes 192 (lpbBits l) ++ w.spans.flatMap (fun e => spanBytes true e.2) ++ im.items.flatMap (fun e => spanBytes false e.span)
      ++ w.spans.flatMap (fun e => lduPackets e.2),
    (w.strands.zipIdx).flatMap (fun e => strandBytes (nth gens e.2 0) e.1.2),
    w.strands.flatMap (fun e => if e.2.isSpilled then e.2.spilled.flatMap nameBytes else []),
    (List.range l.scratch).map (cellGet w.scratch),
    matrixBytes im n im.ctxs,
    otherBytes 2 n2 (im.copies.length + im.incoming.length) ++ otherBytes 3 n3 im.seals.length ++ otherBytes 6 n4 (openBatches w).length
      ++ counterBytes w ++ otherBytes 4 n5 im.ranges.length,
    im.td.flatMap tdBytes,
    im.launchSpans.flatMap (spanBytes false) ++ pool.flatMap (spanBytes false) ++ im.launchSpans.flatMap lduPackets ]

/-- Free values that the sections draw. -/
def imageDraws (im : Image) : Nat :=
  matrixDraws im + im.copies.length + im.incoming.length + im.seals.length + (openBatches im.unit).length + im.ranges.length

/-- Byte offsets of the sections, 0 when absent, and the total. -/
def sectionOffsets : Nat → List (List Byte) → List Nat × Nat
  | o, [] => ([], o)
  | o, b :: rest =>
    let r := sectionOffsets (o + up192 b.length) rest
    ((if b.isEmpty then 0 else o) :: r.1, r.2)

/-- The image of a unit with launch handle `h`: header and sections. -/
def imageBytes (l : Launch) (uid : Nat) (secs : List (List Byte)) (im : Image) : List Byte :=
  let o := sectionOffsets 192 secs
  let ks := im.unit.strands.map (·.2)
  toBytes 4 1 ++ toBytes 4 (if im.mid then 1 else 2) ++ toBytes 2 l.handle ++ toBytes 1 im.fn ++ toBytes 1 l.lpb.mctx
    ++ toBytes 4 im.unit.u ++ toBytes 8 uid ++ toBytes 2 ks.length ++ toBytes 2 (match ks with | t :: _ => t.quarter | [] => 0)
    ++ toBytes 4 o.2 ++ o.1.flatMap (toBytes 8) ++ toBytes 96 0 ++ secs.flatMap pad192

/-! ## Spill areas (R218, R221) -/

/-- The first `n` bytes of a spill area that begins at byte `b` of the partition's pages, piece by piece: offset, bytes, physical address
(R225). -/
def areaBytes (p : Partition) (b n : Nat) : List (Nat × Nat × Nat) :=
  (pagePieces b n).map (fun e => (e.1 - b, e.2, pageToPa p (e.1 / pageBytes) + e.1 % pageBytes))

/-- Where a strand's spilled registers lie in its spill area, 132 bytes each. -/
def spillPieces (s : State) (uid k : Nat) : List (Nat × Nat × Nat) :=
  match strand? s uid k, (unit? s uid).bind (fun w => launch? s w.lid) with
  | some t, some l => areaBytes (partOf s l.part) t.spillAt (132 * t.spilled.length)
  | _, _ => []

/-- What a spill writes for each register, the lowest name first: 128 bytes of words and the live mask (R218; DESIGN CHOICE, log 82). -/
def spilledBytes (s : State) (uid k : Nat) : List Byte :=
  match strand? s uid k with
  | some t => t.spilled.flatMap (fun e => (List.range 32).flatMap (fun l => word4 (nth e.2.words l 0)) ++ word4 e.2.mask)
  | none => []

/-- The spilled registers go to memory, word and mask (R101). -/
def spillOut (s : State) (uid k : Nat) : State :=
  let bs := spilledBytes s uid k
  (spillPieces s uid k).foldl (fun s e => writeHome s (whoOf s uid k).charge (.mem e.2.2) (slice bs e.1 e.2.1)) s

/-- They are read again (R102). -/
def spillIn (s : State) (uid k : Nat) : State :=
  (spillPieces s uid k).foldl (fun s e => l2Touch s (whoOf s uid k).charge e.2.2 e.2.1 false) s

/-- The spill areas of a unit that a spill has written are zeroed when they are released: no program reads what a strand left there (R218,
R222; DEDUCED, log 132). -/
def zeroSpills (s : State) (w : WUnit) : State :=
  match launch? s w.lid with
  | none => s
  | some l =>
    (w.strands.filter (fun t => t.2.spillUsed)).foldl (fun s t =>
      (areaBytes (partOf s l.part) t.2.spillAt (spillLen l.lpb)).foldl (fun s e => { s with mem := zeroBytes s.mem e.2.2 e.2.1 }) s) s

/-! ## The save area (R427) -/

/-- Offset of a new image of `n` bytes in a VF's save area: the lowest multiple of 192 where it fits (R427;
DESIGN CHOICE, log 73). -/
def areaPlace (s : State) (fn n : Nat) : Option Nat :=
  let size := (fnOf s fn).saveArea.toNat / 2 ^ 32 * pageBytes
  let used := (s.images.filter (fun e => e.2.fn == fn)).map (fun e => (e.2.off, e.2.len))
  let fits (o : Nat) : Bool := decide (o + n ≤ size) && used.all (fun u => decide (o + n ≤ u.1) || decide (u.1 + u.2 ≤ o))
  let cands := (0 :: used.map (fun u => up192 (u.1 + u.2))).filter fits
  match cands with
  | [] => none
  | c :: r => some (r.foldl min c)

/-- Pieces of `[off, off + n)` of a VF's save area: offset, bytes, physical address. -/
def areaPieces (s : State) (fn off n : Nat) : List (Nat × Nat × Nat) :=
  let f := fnOf s fn
  (pagePieces off n).map (fun e =>
    (e.1, e.2, pageToPa (partOf s f.part) (f.saveArea.toNat % 2 ^ 32 + e.1 / pageBytes) + e.1 % pageBytes))

/-- Writes bytes into a VF's save area. -/
def writeArea (s : State) (fn off : Nat) (bs : List Byte) : State :=
  (areaPieces s fn off bs.length).foldl (fun s e => writeHome s true (.mem e.2.2) (slice bs (e.1 - off) e.2.1)) s

/-- Reads of the save area by a restore (R426). -/
def touchArea (s : State) (fn off n : Nat) : State :=
  (areaPieces s fn off n).foldl (fun s e => l2Touch s true e.2.2 e.2.1 false) s

/-- Zeroes the images of a VF (R386). -/
def zeroImages (s : State) (fn : Nat) : State :=
  (s.images.filter (fun e => e.2.fn == fn)).foldl (fun s i =>
    (areaPieces s fn i.2.off i.2.len).foldl (fun s e => writeHome s true (.mem e.2.2) (List.replicate e.2.1 0)) s) s

end Sys2Proof.Machine
end

