-- ==== Sys2Proof/Machine/Replies.lean ====
section
/-! DEFINITION. What the answer to a page request, or new room for one, does to the lanes that waited for it (R258, R311, R319,
R365, R367, R421). -/

namespace Sys2Proof.Machine

open Sys2Proof

/-- Where an instruction that waits is taken up again: the path that holds its lanes. -/
def pendCtx (s : State) (uid k : Nat) (d : Pend) : Option Ctx :=
  match unit? s uid, strand? s uid k with
  | some w, some t =>
    match launch? s w.lid, (t.paths.zipIdx).find? (fun e => e.1.pc == d.pc && e.1.lanes &&& d.lanes != 0) with
    | some l, some (p, i) => some ⟨uid, k, w, t, i, p, l, d.lanes, s.clock⟩
    | _, _ => none
  | _, _ => none

/-- What lanes of a waiting copy probe, with the rights they need: copies, and an `nmcopy` to global memory (R292, R319). -/
def probeAsk (x : Ctx) (s : State) (i : Instr) : Option (Rights × List CLane) :=
  match i with
  | .nmcopy _ _ _ o =>
    let n := 192 * (copyRange x o.c).2
    (nmDests x n (readAddr x o.a .null .null)).toOption.map (fun ds => (.write, nmRuns x n ds))
  | _ => (copyAsk x s i).map (fun q => (q.need, q.lanes))

/-- Is an instruction of the strand that issued before a waiting one not complete (R83)? -/
def earlierThan (s : State) (uid k : Nat) (d : Pend) : Bool :=
  match unit? s uid, strand? s uid k with
  | some w, some t => earlierWork s w.core uid k { t with pends := t.pends.filter (fun e => decide (e.id < d.id)) }
  | _, _ => false

/-- Lanes `m` of an instruction that is to issue again: a copy probes them at once (R319); once no lane waits the instruction goes
on. `left` are the lanes still parked. A fault is raised precisely: until the strand's earlier instructions have completed its lanes wait,
and are probed again (R83, R319). -/
def probeAgain (s : State) (uid k : Nat) (d : Pend) (m : LaneMask) (left : Tbl (Nat × Bool)) : State :=
  match (pendCtx s uid k d).bind (fun x => (probeAsk x s d.instr).map (fun q => (x, q))) with
  | none => releaseParked s uid k d left
  | some (x, need, ls) =>
    match probeLanes s x need (ls.filter (fun q => lane m q.lane)) with
    | (.error f, s) =>
      if (preciseCode f.code && earlierThan s uid k d) || !recordRoom s x.w.lid then
        releaseParked s uid k d ((lanesOf m).foldl (fun acc l => Tbl.put acc l (roomTag, false)) left)
      else laterFault (setStrand s uid k (fun t => stopParked t d.id)) uid k d.pc f
    | (.ok (_, misses), s) =>
      let r := postReqs s x.l.fn (dieOfCore x.w.core) need misses
      releaseParked r.2 uid k d (r.1.foldl (fun acc e => Tbl.put acc e.1 e.2) left)

/-- Lanes `m` of a waiting `launch` are taken again; those of `failed` are refused (R311, R477). -/
def launchAgain (s : State) (uid k : Nat) (d : Pend) (o : Ops) (m failed : LaneMask) (left : Tbl (Nat × Bool)) : State :=
  match pendCtx s uid k d with
  | none => s
  | some x =>
    let r0 := pendRun s { d with parked := left }
    let r := (lanesOf m).foldl (launchLane x (readAddr x o.a .null .null)) { r0 with failed := r0.failed ||| failed }
    setStrand r.s uid k (fun t =>
      let t := setPend t d.id (runPend r)
      if r.parked.isEmpty then mapPaths t d.lanes (fun p => if p.st = .fault then { p with st := .run } else p) else t)

/-- Lanes `m` of an outstanding instruction, which no longer wait, are taken again at once; the others wait on (R258, R367). -/
def replayPend (s : State) (uid k : Nat) (d : Pend) (m : LaneMask) : State :=
  let left := d.parked.filter (fun e => !lane m e.1)
  if m = 0 then s
  else if !d.reissue then replayLanes s uid k d m left
  else
    match d.instr with
    | .launch _ o => launchAgain s uid k d o m 0 left
    | _ => probeAgain s uid k d m left

/-- The lanes of an outstanding instruction whose request satisfies a test. -/
def waitingOn (d : Pend) (q : Nat × Bool → Bool) : LaneMask := maskOf (fun l => (Tbl.find? d.parked l).any q)

/-- The lanes that wait on a failed request take its fault (R367); a lane of `launch` is refused (R477). -/
def failWaiting (s : State) (uid k : Nat) (d : Pend) (tag : Nat) (pfq : Bool) (code : Nat) : State :=
  match d.reissue, d.instr with
  | true, .launch _ o =>
    let m := waitingOn d (· == (tag, pfq))
    launchAgain s uid k d o m m (d.parked.filter (fun e => !lane m e.1))
  | _, _ => failPend s uid k d tag pfq code

/-- Acts on an outstanding instruction of a strand, as it stands. -/
def withPend (s : State) (uid k id : Nat) (f : Pend → State) : State :=
  match (strand? s uid k).bind (fun t => t.pends.find? (fun d => d.id == id)) with
  | some d => f d
  | none => s

/-- Lanes whose request found no room try again (R365). -/
def retryRoom (s : State) (uid k : Nat) : State :=
  match strand? s uid k with
  | none => s
  | some t => t.pends.foldl (fun s d => withPend s uid k d.id (fun d =>
      replayPend s uid k d (waitingOn d (fun e => e.1 == roomTag)))) s

end Sys2Proof.Machine
end

