-- ==== Sys2Proof/Machine/Save.lean ====
section
/-! DEFINITION. Saving a unit into an image and restoring it (R216, R271, R329, R357, R423, R426-R430), and freeing what a
unit holds on its core. -/

namespace Sys2Proof.Machine

open Sys2Proof

/-! ## Freeing a core -/

/-- The tenant that held a cluster before its last unit left does so no more (R338). -/
def leaveCluster (s : State) (cl : Nat) (old : Option Nat) : State :=
  match old with
  | some fn => if runningTenant s cl == some fn then s else setCluster s cl (fun c => { c with heldAt := Tbl.put c.heldAt fn s.time })
  | none => s

/-- What a unit holds on its core is freed, its contexts zeroed; the unit goes (R24, R203, R423). Under a function-level reset its
storage is zeroed too (R386). -/
def freeUnit (s : State) (uid : Nat) : State :=
  match unit? s uid with
  | none => s
  | some w =>
    let wrote := (match launch? s w.lid with | some l => !l.sweep | none => true) && !(fnOf s (fnOfLid w.lid)).flr
    let world := unitWorld s w
    let s := setCore (zeroSpills s w) w.core (fun c =>
      { c with quarters := (c.quarters.zipIdx).map (fun q =>
                 { q.1 with ctxs := q.1.ctxs.map (fun x => if x.owner == some uid then {} else x)
                            drains := q.1.drains.filter (fun d => d.uid != uid)
                            left := q.1.left || (wrote && w.strands.any (fun t => t.2.quarter == q.2)) })
               scratchLeft := if wrote && !w.scratch.isEmpty && !c.scratchLeft.contains world then c.scratchLeft ++ [world]
                              else c.scratchLeft
               copies := c.copies.filter (fun y => y.uid != uid)
               seals := c.seals.filter (fun b => b.uid != uid)
               ranges := c.ranges.filter (fun r => r.uid != uid) })
    leaveCluster { s with units := Tbl.del s.units uid } (w.core / 2) (runningTenant s (w.core / 2))

/-- Another unit of the launch is resident on the core. -/
def othersOn (s : State) (core lid uid : Nat) : Bool :=
  (unitsOn s core).any (fun e => e.2.lid == lid && e.1 != uid)

/-- DEDUCED, log 72. -/
def coreItems (s : State) (core lid : Nat) : List ItemEntry := (coreOf s core).items.filter (fun e => e.span.lid == lid)
def dropItems (s : State) (core lid : Nat) : State :=
  setCore s core (fun c => { c with items := c.items.filter (fun e => e.span.lid != lid) })

/-! ## What an image holds (R423, R428) -/

/-- What a halt leaves of an outstanding instruction: a load reads again the lanes whose values have not returned; a
store or read-modify-write keeps what it has performed (R271, R430). -/
def packetOf (d : Pend) : Pend :=
  match memKind d.instr with
  | some (.load _ _) =>
    let back := match d.instr with
      | .ldu _ _ _ => if d.ready = d.lanes then 0 else maskOf (· == lowest d.took)
      | _ => d.lanes &&& ~~~d.ready
    { d with todo := back, bad := 0, locs := [] }
  | some _ =>
    let p := maskOf (fun l => Tbl.has d.parked l)
    { d with todo := d.todo, locs := [], ready := d.lanes &&& ~~~(p ||| d.todo) }
  | none => d

/-- Lets the `mma`s that run for a unit complete (R216). -/
def finishMmas (s : State) (core uid : Nat) : State :=
  (List.range 4).foldl (fun s q =>
    match (quarterOf s core q).running with
    | some g => if g.m.uid == uid then completeMma s core q else s
    | none => s) s

/-- A strand slot's generation tag goes up by 1 (R423). -/
def bumpGen (s : State) (core : Nat) (t : Strand) : State :=
  setCore s core (fun c =>
    let i := t.quarter * 256 + t.slot
    { c with gens := Tbl.put c.gens i (Tbl.getD c.gens i 0 + 1) })

/-- The contexts of a unit, by quarter and position among its own. -/
def unitCtxs (s : State) (core : Nat) (w : WUnit) : List (Nat × Nat × MCtx) :=
  w.ctx.flatMap (fun e => (e.2.zipIdx).map (fun n => (e.1, n.2, nth (quarterOf s core e.1).ctxs n.1 {})))

/-- A save closes the windows of a strand: values that have returned become visible (R78). A stalled allocation keeps the start of its
4,096 cycles over the save (R101 is silent; DESIGN CHOICE, log 174). -/
def closeStrand (t : Strand) : Strand :=
  let t := settle (closeWindows t allLanes)
  { t with pends := t.pends.map packetOf, regs := Tbl.mapV t.regs (fun _ r => { r with bank := 0 })
           stalls := t.stalls.map (fun a => { a with granted := 0 }) }

/-- A save closes the windows of a span (R62, R78); one parked at its `kwait` stays parked. -/
def closeSpan (sp : Span) : Span :=
  let q := spanSettle { sp with wins := sp.wins.map (fun w => { w with left := 0 }) }
  { q with st := if sp.st = .kwait then .kwait else q.st }

/-- The copies of other units that land in a unit (R329). -/
def incomingOf (s : State) (uid : Nat) : List Nat :=
  ((allCopies s).filter (fun y => y.uid != uid && !y.failed && y.parts.any (fun p => p.1 == uid && p.2.any (fun b => !b.landed)))).map
    (·.id)

/-- What a packet keeps of a byte: one that has not landed is read again (R244, R329). -/
def unread (b : CByte) : CByte := if b.landed || b.src.isNone then b else { b with val := none }

/-- The image of a unit as it stands on its core. -/
def imageOf (s : State) (uid fn : Nat) (w : WUnit) (mid : Bool) : Image :=
  let c := coreOf s w.core
  let strands := w.strands.map (fun e => (e.1, closeStrand e.2))
  { unit := { w with strands := strands, spans := Tbl.mapV w.spans (fun _ sp => closeSpan sp), heldSince := none, blockSent := false
                     boost := false }
    mid := mid, fn := fn, off := 0, len := 0, core := w.core
    items := if othersOn s w.core w.lid uid then [] else coreItems s w.core w.lid
    ctxs := unitCtxs s w.core w
    drains := (c.quarters.zipIdx).flatMap (fun q => (q.1.drains.filter (fun d => d.uid == uid)).map (fun d => (q.2, d)))
    copies := (c.copies.filter (fun y => y.uid == uid)).map (fun y =>
      { y with parts := y.parts.map (fun p => (p.1, p.2.map unread)) })
    incoming := incomingOf s uid
    ranges := c.ranges.filter (fun r => r.uid == uid)
    seals := c.seals.filter (fun b => b.uid == uid)
    td := c.td.filter (fun e => e.2.valid && e.2.lid == w.lid) }

/-- Launches of a VF whose pools still lie in the span tables (R59). -/
def tablePools (s : State) (fn : Nat) : List Nat :=
  (s.launches.filter (fun e => e.2.fn == fn && e.2.lpb.refill && !e.2.pool.isEmpty && !poolSaved s e.1)).map (·.1)

/-- The launch spans of a VF, and its pools, join an image (R428, R440): they leave the span tables (DEDUCED, log 76). -/
def withLaunchSpans (s : State) (im : Image) : Image :=
  { im with
    launchSpans := s.clusters.flatMap (fun c => (c.2.table.filter (fun e => fnOfLid e.2.lid == im.fn)).map (fun e => closeSpan e.2))
    pools := tablePools s im.fn }

/-- The pool spans that an image records. -/
def poolSpansOf (s : State) (im : Image) : List Span :=
  im.pools.flatMap (fun lid => match launch? s lid with | some l => l.pool | none => [])

def dropLaunchSpans (s : State) (fn : Nat) : State :=
  { s with clusters := Tbl.mapV s.clusters (fun _ c => { c with table := c.table.filter (fun e => fnOfLid e.2.lid != fn) }) }

/-- Saves a unit and frees its core (R423, R424); none when the save area has no room (R427). A unit that a cancel has
reached is not saved. The last save of a `halt` takes the VF's launch spans too (`spans`). -/
def saveUnit (s : State) (uid : Nat) (mid : Bool) (spans : Bool := false) : Option State :=
  match unit? s uid with
  | none => none
  | some w0 =>
    match launch? s w0.lid with
    | none => none
    | some l =>
      let s := releaseCore (finishDrains (finishMmas s w0.core uid) w0.core uid) w0.core
      let w := (unit? s uid).getD w0
      let im := imageOf s uid l.fn w mid
      let im := if spans then withLaunchSpans s im else im
      let s1 := w.strands.foldl (fun s e => bumpGen s w.core e.2) s
      let gens := w.strands.map (fun e => (Tbl.getD (coreOf s1 w.core).gens (e.2.quarter * 256 + e.2.slot) 0).toNat)
      let bs := imageBytes l uid (imageSections l.lpb gens (poolSpansOf s im) s.free im) im
      match if w.cancelled then none else areaPlace s l.fn bs.length with
      | none => none
      | some off =>
        let s := writeArea { s1 with free := s1.free + imageDraws im } l.fn off bs
        let s := if im.items.isEmpty then s else dropItems s w.core w.lid
        let s := if spans then dropLaunchSpans s l.fn else s
        let s := freeUnit s uid
        some { s with images := Tbl.put s.images uid { im with off := off, len := bs.length } }

/-! ## Restore (R426) -/

/-- How far a resident strand stands below its name limit (R99). -/
def unitGap (s : State) (e : Nat × Nat × Strand) : Nat :=
  match (unit? s e.1).bind (fun w => launch? s w.lid) with
  | some x => x.lpb.vregs - e.2.2.g
  | none => 0

/-- Is there room for the launch spans of an image in their home tables (R43)? -/
def spansFit (s : State) (im : Image) : Bool :=
  let homes := im.launchSpans.map (fun sp => spanHome s sp) ++
    im.pools.flatMap (fun lid => match launch? s lid with | some l => List.replicate l.pool.length l.home | none => [])
  homes.all (fun h => decide (tableUsed s h + (homes.filter (· == h)).length ≤ 64))

/-- Is there room for a saved unit on a core? It is admitted like any unit (R426), so not against what a waiting concurrent launch holds
(R36), unless the watchdog restores it ahead of every other (R38) or a gang that missed gives it back (R431). The quarters of a sweep have one current world (R382, R383). -/
def canRestore (s : State) (core : Nat) (im : Image) (l : Launch) (gang : Bool := false) : Bool :=
  let c := coreOf s core
  let w := im.unit
  let lid := w.lid
  let ts := w.strands.map (·.2)
  let mine := coreItems s core lid
  let world := admitWorld s l core (ts.map (·.quarter))
  (gang || ((!heldBack s l || decide (4 ≤ w.watch)) && !gangHolds s core))
    && spansFit s im
    && decide ((unitsOn s core).length < 128)
    && (scratchPlace s core world l.lpb.scratch).isSome
    && itemRoom s core l lid
    && spillRoom s l w.strands.length
    && (im.items.isEmpty || (decide (mine.length + im.items.length ≤ 2) && decide (itemHeld s core + im.items.length ≤ 16)))
    && im.td.all (fun e => !tdHeld s core lid e.1)
    && decide (liveCopies c + im.copies.length ≤ 64) && decide (c.seals.length + im.seals.length ≤ 64)
    && decide (c.ranges.length + im.ranges.length ≤ 32)
    && (List.range 4).all (fun q =>
      let mineQ := ts.filter (fun t => t.quarter == q)
      let res := quarterStrands s core q
      let gap := (res.map (unitGap s) ++ mineQ.map (fun t => l.lpb.vregs - t.g)).foldl max 0
      let sum := (res.map (fun e => e.2.2.g) ++ mineQ.map (·.g)).foldl (· + ·) 0
      mineQ.isEmpty ||
        (quarterOpen s core q l && (!l.sweep || nth c.wCur q 0 == world) && decide (res.length + mineQ.length ≤ strandSlots)
          && decide (((im.ctxs.filter (fun e => e.1 == q)).length) ≤ (freeCtxs s core q).length)
          && decide ((quarterOf s core q).drains.length + (im.drains.filter (fun e => e.1 == q)).length ≤ 2)
          && decide ((mineQ.map holding).foldl (· + ·) 0 ≤ poolFree s core q)
          && decide (sum + gap ≤ regTotal s core q)))

/-- The rights that a copy needs at its pages (R361). -/
def copyNeed (y : Copy) : Rights :=
  if y.parts.any (fun p => p.2.any (fun b => match b.dst with | some (.scratch _) => false | some _ => true | none => false))
  then .write else .read

/-- Probes the pages of a saved copy again (R319, R329): the copy with its new locations and the pages it holds in force (R322); for
`into`, a unit that is restored while another unit's copy lands in it, only the bytes of that part (DEDUCED, log 74). -/
def reprobe (s : State) (core : Nat) (l : Launch) (into : Option Nat) (y : Copy) : Except XErr Copy × State :=
  let r := locPieces s core l.fn l.part (copyNeed y) (y.locs.map (fun e => (e.1, e.2.1)))
  match r.1 with
  | .error e => (.error e.2, r.2)
  | .ok ls =>
    let new := (y.locs.zip ls).map (fun e => (e.1.1, e.1.2.1, e.2.1))
    let move (loc : Loc) : Loc :=
      match y.locs.find? (fun e => locsMeet e.2.2 e.2.1 loc 1) with
      | some e => (match e.2.2, loc with
        | .mem p, .mem q => (locAt new (e.1 + (q - p))).getD loc
        | .host p, .host q => (locAt new (e.1 + (q - p))).getD loc
        | .peer _ _ p, .peer _ _ q => (locAt new (e.1 + (q - p))).getD loc
        | _, _ => loc)
      | none => loc
    let fix (b : CByte) : CByte := if b.landed then b else { b with src := b.src.map move, dst := b.dst.map move }
    match into with
    | none =>
      (.ok { y with parts := y.parts.map (fun p => (p.1, p.2.map fix)), locs := new, pages := pagesOf r.2 core l.fn new }, r.2)
    | some u =>
      (.ok { y with parts := y.parts.map (fun p => if p.1 = u then (u, p.2.map (fun b => unread (fix b))) else p)
                    pages := y.pages ++ pagesOf r.2 core l.fn new, readers := Tbl.put y.readers u core }, r.2)

/-- Why a copy ends at a restore: code, reason, AUX tag. -/
abbrev CopyEnd := Nat × Nat × Option Nat

/-- Notes in an image the page request that its restore waits for. -/
def awaitPage (s : State) (uid id tag : Nat) (pfq : Bool) : State :=
  { s with images := Tbl.upd? s.images uid (fun im => { im with awaits := im.awaits ++ [(id, tag, pfq)] }) }

/-- Copies probed again from a core for the restore of unit `uid`: each with its new locations, or the fault that it met; a miss posts its
request, and the restore waits for the answer: one that FAILs is that copy's fault (R329, R367). -/
def reprobeAll (core uid : Nat) (l : Launch) (into : Option Nat) (fails : List (Nat × Nat × Nat)) :
    State → List Copy → Option (List (Copy × Option CopyEnd)) × State
  | s, [] => (some [], s)
  | s, y :: rest =>
    let ends (s : State) (q : CopyEnd) : Option (List (Copy × Option CopyEnd)) × State :=
      let n := reprobeAll core uid l into fails s rest
      (n.1.map (fun ys => ({ y with failed := true }, some q) :: ys), n.2)
    match fails.find? (fun f => f.1 == y.id) with
    | some f => ends s (f.2.1, 0, some f.2.2)
    | none =>
      let r := reprobe s core l into y
      match r.1 with
      | .error (.miss st c tb pg) =>
        (none, match postReq r.2 l.fn (dieOfCore core) (copyNeed y) st c tb pg with
          | some (tag, s) => awaitPage s uid y.id tag st
          | none => r.2)
      | .error e => ends r.2 (xCode e, xReason e, none)
      | .ok y =>
        let n := reprobeAll core uid l into fails r.2 rest
        (n.1.map (fun ys => (y, none) :: ys), n.2)

/-- A restored unit's incoming packets: the restoring core reads for it what has not landed (R329). -/
def takeIncoming (s : State) (ys : List (Copy × Option CopyEnd)) : State :=
  let now (y : Copy) : Copy := match ys.find? (fun e => e.1.id == y.id) with | some e => e.1 | none => y
  { s with cores := Tbl.mapV s.cores (fun _ c => { c with copies := c.copies.map now })
           images := Tbl.mapV s.images (fun _ im => { im with copies := im.copies.map now }) }

/-- The copies that end at a restore, because their pages no longer allow them or a request failed: their ranges are freed, a root reference
ends with each, and the fault is raised (R281, R294, R319, R329, R367). -/
def copyFaults (s : State) (ys : List (Copy × Option CopyEnd)) : State :=
  ys.foldl (fun s e => match e.2 with
    | none => s
    | some q =>
      let y := e.1
      let f := copyFault y q.1 q.2.1 (firstUnlanded y) []
      let s := setAnyCopy (dropRoot (freeRanges s [y.id]) y) y.id (fun y => { y with root := none })
      laterFault s y.uid y.k y.pc (match q.2.2 with | some tag => { f with aux := toBytes 4 (tag % 65536) } | none => f)) s

/-- A strand in a free slot of its quarter on its new core; its outstanding work carries the slot's tag. -/
def reslot (s : State) (core : Nat) (ts : List (Nat × Strand)) : List (Nat × Strand) :=
  (ts.foldl (fun (acc : List (Nat × Strand) × (Nat → Tbl Unit)) e =>
    let used := acc.2 e.2.quarter
    let sl := Tbl.lowestFree used 0 strandSlots
    let g := Tbl.getD (coreOf s core).gens (e.2.quarter * 256 + sl) 0
    let t := { e.2 with slot := sl, pends := e.2.pends.map (fun d => { d with gen := g }) }
    (acc.1 ++ [(e.1, t)], fun q => if q = e.2.quarter then Tbl.put used sl () else acc.2 q))
    ([], fun q => slotsUsed s core q)).1

/-- Reads again what a restored span was waiting for (R62, R426). Where a strand would fault or miss, the `ldu` is a cut point, as it is at
issue: the strands read it (R45; DEDUCED, log 75). -/
def rereadSpan (s : State) (pl : Place) (l : Launch) (slot : Nat) (sp : Span) : State :=
  (sp.wins.filter (fun v => !v.returned)).foldl (fun s v =>
    match lduRead s ⟨pl, slot, sp, l, match pl with | .unit u => unit? s u | .table _ => none, sp.lid, 0⟩ v.t v.va with
    | none =>
      let s := setSpans s pl (fun t => Tbl.upd? t slot (fun sp =>
        { sp with st := .run, wins := sp.wins.map (fun w => if w.va = v.va && w.n == v.n then { w with stale := true } else w) }))
      match pl with | .table _ => unitCut s sp.lid | .unit _ => s
    | some (d, s) => setSpans s pl (fun t => Tbl.upd? t slot (fun sp =>
        { sp with st := if v.left = 0 then .ldu else sp.st
                  wins := sp.wins.map (fun w => if w.va = v.va && w.n == v.n then
                    { w with data := BitVec.ofNat 64 (lduValue v.t d), stale := false } else w) }))) s

/-- The launch spans that an image brought back read again what they were waiting for (R62). -/
def rereadTables (s : State) (lids : List Nat) : State :=
  s.clusters.foldl (fun s c => (c.2.table.filter (fun e => lids.contains e.2.lid)).foldl (fun s e =>
    match launch? s e.2.lid with | some l => rereadSpan s (.table c.1) l e.1 e.2 | none => s) s) s

/-- The mark of a lane whose request was answered FAIL while its strand was saved (R421). -/
def failMark (code tag : Nat) : Nat := 2 ^ 32 + 65536 * code + tag
def failMarked (tag : Nat) : Bool := decide (2 ^ 32 ≤ tag) && decide (tag < 2 ^ 33)
/-- The mark of a lane whose request was answered RESOLVED meanwhile: it replays when its strand resumes (R421). -/
def goMark : Nat := 2 ^ 33

/-- One outstanding instruction of a restored strand goes on (R426): kept FAIL replies raise their faults; lanes that page replies
resolved, and loads not returned, are performed (R421). -/
def reissuePend (s : State) (uid k id : Nat) : State :=
  withPend s uid k id (fun d =>
    let fails := ((d.parked.filter (fun e => failMarked e.2.1)).map (·.2)).eraseDups
    let s := fails.foldl (fun s e => withPend s uid k id (fun d => failWaiting s uid k d e.1 e.2 (e.1 / 65536 % 65536))) s
    withPend s uid k id (fun d =>
      let go := waitingOn d (fun e => e.1 == goMark)
      let left := d.parked.filter (fun e => !lane go e.1)
      if d.reissue || (memKind d.instr).isNone then replayPend s uid k d go
      else
        let m := d.todo &&& ~~~(maskOf (fun l => Tbl.has left l))
        if m = 0 then s else replayLanes s uid k { d with locs := [] } m left))

/-- Puts a saved unit on a core (R426); none when it does not fit or a page of a copy is missing. The unapplied drains keep the places
found when they issued (DESIGN CHOICE, log 147). -/
def restoreUnit (s : State) (uid core prio : Nat) (gang : Bool := false) : Option State × State :=
  match Tbl.find? s.images uid with
  | none => (none, s)
  | some im =>
    match launch? s im.unit.lid with
    | none => (none, s)
    | some l =>
      if !canRestore s core im l gang || !im.awaits.isEmpty then (none, s)
      else
        match reprobeAll core uid l none im.fails s im.copies, im.incoming.filterMap (fun i => (allCopies s).find? (fun y => y.id == i && !y.failed)) with
        | (none, s), _ => (none, s)
        | (some ys, s), ins =>
        match reprobeAll core uid l (some uid) im.fails s ins with
        | (none, s) => (none, s)
        | (some arriving, s) =>
          let copies := ys.map (·.1)
          let w := im.unit
          let ts := reslot s core w.strands
          let slot := Tbl.lowestFree ((unitsOn s core).foldl (fun t e => Tbl.put t e.2.slot ()) ([] : Tbl Unit)) 0 128
          -- contexts: the position of each among the unit's own, in its quarter
          let ns (q : Nat) : List Nat := (freeCtxs s core q).take ((im.ctxs.filter (fun e => e.1 == q)).length)
          let num (q p : Nat) : Nat := nth (ns q) p 0
          let s := im.ctxs.foldl (fun s e => setCtx s core e.1 (num e.1 e.2.1) (fun _ => { e.2.2 with owner := some uid })) s
          let drains := im.drains.map (fun e =>
            let p := ((Tbl.getD w.ctx e.1 []).findIdx? (· == e.2.ctx)).getD 0
            (e.1, { e.2 with ctx := num e.1 p }))
          let s := drains.foldl (fun s e => setQuarter s core e.1 (fun q => { q with drains := q.drains ++ [e.2] })) s
          let td := im.td.foldl (fun t e => match Tbl.find? t e.1 with
            | some x => if x.valid && x.lid == w.lid then t else Tbl.put t e.1 e.2
            | none => Tbl.put t e.1 e.2) (coreOf s core).td
          let s := setCore s core (fun c =>
            { c with copies := c.copies ++ copies, seals := c.seals ++ im.seals, ranges := c.ranges ++ im.ranges
                     items := c.items ++ im.items, td := td, lastAdmit := s.time })
          let banks := (scratchPlace s core (admitWorld s l core (w.strands.map (·.2.quarter))) l.lpb.scratch).getD []
          let w' := { w with core := core, banks := banks, slot := slot, strands := (withSpills s l uid ts).map (fun t =>
                        (t.1, { t.2 with spillUsed := t.2.isSpilled })), ctx := w.ctx.map (fun e => (e.1, ns e.1)), prio := prio }
          let s := touchArea s im.fn im.off im.len
          let s := { s with units := Tbl.put s.units uid w', images := Tbl.del s.images uid }
          let s := (ts.filter (fun t => t.2.isSpilled)).foldl (fun s t => spillOut s uid t.1) s
          let s := takeIncoming (putLaunchSpans s im.launchSpans) arriving
          let s := acquireCore s core
          let s := w'.spans.foldl (fun s e => rereadSpan s (.unit uid) l e.1 e.2) s
          let s := rereadTables s ((im.launchSpans.map (·.lid)).eraseDups)
          let s := ts.foldl (fun s e =>
            let s := setStrand s uid e.1 settle
            e.2.pends.foldl (fun s d => reissuePend s uid e.1 d.id) s) s
          (some (copyFaults (testWaiters s uid) (ys ++ arriving)), s)

/-! ## Readiness of a saved unit (R332) -/

/-- Can a strand of a saved unit go on once restored? -/
def strandReady (t : Strand) : Bool := !t.completed && t.token.isNone && t.pends.all (fun d => d.parked.all (fun e => decide (2 ^ 20 ≤ e.2.1)))

def imageReady (im : Image) : Bool := !im.unit.spans.isEmpty || im.unit.strands.any (fun e => strandReady e.2)

/-- Could it issue once restored: a runnable span, or a strand with a runnable path (R37, R38)? -/
def imageIssues (im : Image) : Bool :=
  im.unit.spans.any (fun e => e.2.st == .run) || im.unit.strands.any (fun e => strandReady e.2 && e.2.paths.any (fun p => p.st == .run))

/-- Does a reeve already hold a WAKE of an entry? -/
def wakePending (v : Reeve) (eid : Nat) : Bool :=
  let is (e : REvt) : Bool := match e with | .wake i => i == eid | _ => false
  v.queue.any is || v.waiting.any is || (match v.call with | some c => is c.ev | none => false)

/-- A blocked RESUME entry whose unit is ready raises WAKE (R332). -/
def wakeReady (s : State) (uid : Nat) : State :=
  match Tbl.find? s.images uid with
  | none => s
  | some im =>
    if !imageReady im then s
    else
      s.clusters.foldl (fun s c =>
        (c.2.rq.filter (fun e => e.blocked && e.kind == .resume uid)).foldl (fun s e =>
          if wakePending (clusterOf s c.1).reeve e.eid then s else pushReeve s c.1 (.wake e.eid)) s) s

/-- Queues the RESUME entry of a saved unit at its own cluster (R332). -/
def queueResume (s : State) (uid cl lid : Nat) (blocked : Bool) : State :=
  let eid := s.serial
  let s := enqueue s cl lid (.resume uid) true
  let s := setCluster s cl (fun c => { c with rq := c.rq.map (fun e => if e.eid == eid then { e with blocked := blocked } else e) })
  if blocked then wakeReady s uid else s

/-- A TICK or BLOCK save (R332, R427): with no room the unit keeps running and SAVE_FULL is posted (DEDUCED, log 97). -/
def saveAndQueue (s : State) (uid : Nat) (blocked : Bool) : State :=
  match unit? s uid with
  | none => s
  | some w =>
    let cl := w.core / 2
    let fn := fnOfLid w.lid
    if !rqRoom s fn [(cl, .resume uid)] || w.cancelled then s
    else
      match saveUnit s uid true with
      | some s => queueResume s uid cl w.lid blocked
      | none => postEvent s (queueOf fn) { code := evSaveFull, vf := fn, unit := w.u, launch := w.lid % 65536
                                           aux := toBytes 4 w.u }

end Sys2Proof.Machine
end

