-- ==== Sys2Proof/Machine/Units.lean ====
section
/-! DEFINITION. Units: what a run-queue entry gives next, unit cuts, admission, refill and completion
(R24, R32-R36, R41, R50-R60, R303-R305, R308, R445). -/

namespace Sys2Proof.Machine

open Sys2Proof

/-! ## Candidates (R303, R305) -/

/-- The first unit that an entry holds. -/
def entryUnit : RqKind → Option Nat
  | .range f _ _ => some f
  | .unit u _ => some u
  | .task u _ => some u
  | .resume _ => none

/-- The lowest unit of a launch that has not been admitted; a task's unit counts before it is queued. -/
def lowestWaiting (s : State) (lid : Nat) (l : Launch) : Option Nat :=
  let q := (s.clusters.flatMap (fun c => c.2.rq.filter (fun e => e.lid == lid))).filterMap (fun e => entryUnit e.kind)
  let t := (s.tasks.filter (fun e => e.2.lid == lid && (e.2.st == .waiting || e.2.st == .queued))).map
    (fun e => e.1 % 4096 - l.lpb.taskbase)
  match q ++ t with
  | [] => none
  | a :: r => some (r.foldl min a)

/-- Is an entry a candidate at PICK (R305, R332, R440)? The units of a concurrent launch are never admitted one by one (R35). -/
def candidate (s : State) (e : RqEntry) : Bool :=
  !e.blocked &&
    (match launch? s e.lid with
     | none => false
     | some l =>
       l.ending.isNone && (isPf l.fn || !(fnOf s l.fn).halted) &&
         (match e.kind with
          | .resume _ => true
          | k => l.lpb.progress == 2 || (l.lpb.progress == 1 && entryUnit k == lowestWaiting s e.lid l)))

/-- The entries of a queue from a place on, then those before it. -/
def fromPlace (q : List RqEntry) (n : Nat) : List RqEntry := q.drop n ++ q.take n

/-- Where round robin starts in a cluster's queue: the cluster keeps one pointer for PICK, whichever tenant's entry was last picked
(R346). -/
def rrStart (c : Cluster) : Nat :=
  match c.reeve.lastPick with
  | none => 0
  | some (eid, place) =>
    match c.rq.findIdx? (fun e => e.eid == eid) with
    | some j => j + 1
    | none => place

/-- The pointer of round robin follows the candidate last chosen, whoever chose it (R346). -/
def setLastPick (s : State) (cl eid : Nat) : State :=
  setCluster s cl (fun c =>
    let i := (c.rq.findIdx? (fun e => e.eid == eid)).getD 0
    { c with reeve := { c.reeve with lastPick := some (eid, i) } })

def entryOfQueue (s : State) (cl eid : Nat) : Option RqEntry := (clusterOf s cl).rq.find? (fun e => e.eid == eid)

/-! ## Admission from an entry (R32, R303) -/

def dropEntry (s : State) (cl eid : Nat) : State := setRq s cl (fun q => q.filter (fun e => e.eid != eid))
def keepEntry (s : State) (cl eid : Nat) (k : RqKind) : State :=
  setRq s cl (fun q => q.map (fun e => if e.eid == eid then { e with kind := k } else e))

/-- The tenant whose units hold a cluster; one that held it until now does so no more (R332, R338). -/
def takeCluster (s : State) (cl fn : Nat) : State :=
  if isPf fn then s
  else
    let old := runningTenant s cl
    setCluster s cl (fun c =>
      { c with tenants := fn :: c.tenants.filter (· != fn)
               heldAt := match old with
                 | some t => if t = fn then c.heldAt else Tbl.put c.heldAt t s.time
                 | none => c.heldAt })

/-- What an entry's first unit is made of, and the entry that is left. -/
def firstOf (s : State) (l : Launch) (e : RqEntry) : Nat × List Span × Option RqKind :=
  match e.kind with
  | .range f n sp =>
    (f, [unitPiece l.lpb f sp], if n ≤ 1 then none else some (.range (nextDealt (dealClusters s l).length f) (n - 1) sp))
  | .unit u ps => (u, ps.map (unitPiece l.lpb u), none)
  | .task u _ =>
    let z := unitSize l.lpb
    (u, [unitPiece l.lpb u (entrySpan e.lid l.lpb (u * z) ((u + 1) * z) u)], none)
  | .resume _ => (0, [], none)

/-- Admits the first unit of an entry to a core: whether it was admitted, and the state. It waits while a run queue has no room for what
the end of a launch without items queues (R298). -/
def admitFirst (s : State) (cl core : Nat) (e : RqEntry) : Bool × State :=
  match launch? s e.lid with
  | none => (false, s)
  | some l =>
    match e.kind with
    | .resume uid =>
      (match restoreUnit s uid core e.prio with
       | (some s, _) => (true, takeCluster (dropEntry s cl e.eid) cl l.fn)
       | (none, s) => (false, s))
    | k =>
      let f := firstOf s l e
      match tryUnit s e.lid l f.1 core f.2.1 with
      | none => (false, s)
      | some s' =>
        let s' := setUnit s' s.serial (fun w => { w with prio := e.prio })
        let s' := match k with
          | .task _ t => { s' with tasks := Tbl.upd? s'.tasks (taskKey l.fn t) (fun t => { t with st := .running }) }
          | _ => s'
        let s' := match f.2.2 with
          | none => dropEntry s' cl e.eid
          | some k => keepEntry s' cl e.eid k
        if rqFits s' then (true, takeCluster s' cl l.fn) else (false, s)

/-- Admits up to `n` units of an entry to a core, as many as fit: how many, and the state. -/
def admitSome (cl core eid : Nat) : Nat → State → Nat × State
  | 0, s => (0, s)
  | n + 1, s =>
    match entryOfQueue s cl eid with
    | none => (0, s)
    | some e =>
      if !candidate s e then (0, s)
      else
        match admitFirst s cl core e with
        | (false, s) => (0, s)
        | (true, s) => let r := admitSome cl core eid n s; (r.1 + 1, r.2)

/-! ## What goes ahead of every VF's entries (R38, R445) -/

/-- Entries that no reeve decides on, in the order they are taken: saved units that the watchdog restores, then PF
entries by round robin. -/
def aheadEntries (s : State) (cl : Nat) : List RqEntry :=
  let c := clusterOf s cl
  let dog (e : RqEntry) : Bool :=
    match e.kind with
    | .resume uid => (match Tbl.find? s.images uid with | some im => decide (4 ≤ im.unit.watch) | none => false)
    | _ => false
  (c.rq.filter (fun e => dog e && candidate s e)) ++
    (fromPlace c.rq (rrStart c)).filter (fun e => isPf (fnOfLid e.lid) && candidate s e)

/-- Places the first of these that finds room on a core: its entry and the state. -/
def placeAhead (cl core : Nat) : State → List RqEntry → Option Nat × State
  | s, [] => (none, s)
  | s, e :: rest =>
    match admitSome cl core e.eid 8 (setLastPick s cl e.eid) with
    | (0, s') => placeAhead cl core { s with reqs := s'.reqs, free := s'.free, fns := s'.fns } rest
    | (_, s') => (some e.eid, s')

/-- UNIT_ADMIT: a PF entry, or a saved unit that the watchdog restores, is admitted ahead of every VF's entries
(R38, R445). The units of a VF are admitted by the decision of PICK. -/
def execEvUnitAdmit (cl : Fin 192) (eid : Nat) (core1 : Bool) (s : State) : Host.Outcome State Fault Refusal :=
  match placeAhead cl.val (2 * cl.val + (if core1 then 1 else 0)) s (aheadEntries s cl.val) with
  | (some e, s') => .next (if e = eid then s' else s)
  | (none, s') => .next s'

/-! ## Concurrent launches (R36, R305) -/

/-- A concurrent launch that can no longer fit the empty partition is refused (R28, R34). -/
def refuseWaiting (s : State) (lid : Nat) : State :=
  match launch? s lid with
  | none => s
  | some l =>
    let s := postEvent s (queueOf l.fn) { launchRecord s l.fn l.job l.lpb.addr with launch := l.handle }
    let s := cancelLaunch s lid .refused
    if l.lpb.fpolicy then cancelJob s l.job .faulted else s

/-- The units that a waiting concurrent launch starts, each with its pieces: those with live items, or its tasks (R36, R302, R305). -/
def concUnits (lid : Nat) (l : Launch) : List Nat × (Nat → List Span) :=
  let all := List.range (unitsTotal l.lpb)
  if l.lpb.kind then (all, wholeUnit lid l.lpb)
  else (all.filter (fun u => l.lpb.refill || !(piecesIn l.lpb u l.pool).isEmpty), fun u => piecesIn l.lpb u l.pool)

/-- What one admission of every unit leaves: its tasks RUNNING, their entries out of the run queues, its pieces placed, and its tenant on
each cluster that took a unit (R308, R333). -/
def concAdmitted (s : State) (lid : Nat) (l : Launch) (us : List Nat) : State :=
  let s := if l.lpb.kind then
      { s with tasks := s.tasks.map (fun e => if e.2.lid == lid then (e.1, { e.2 with st := .running }) else e)
               clusters := Tbl.mapV s.clusters (fun _ c => withRq c (c.rq.filter (fun e => e.lid != lid))) }
    else if l.lpb.refill then s else setLaunch s lid (fun l => { l with pool := [] })
  ((us.map (dealOf s l)).eraseDups).foldl (fun s cl => takeCluster s cl l.fn) s

/-- CONCURRENT_ADMIT: every unit at once, or none; launches of the VF accepted earlier come first (R35, R36). -/
def execEvConcurrentAdmit (lid : Nat) (s : State) : Host.Outcome State Fault Refusal :=
  match launch? s lid with
  | none => .next s
  | some l =>
    let older := s.launches.any (fun e => e.2.fn == l.fn && e.2.concWait && e.2.ending.isNone && decide (e.2.seq < l.seq))
    if !concReady s lid l || l.ending.isSome || older || (!isPf l.fn && (fnOf s l.fn).halted) then .next s
    else if !launchFits s l then .next (refuseWaiting s lid)
    else
      let us := concUnits lid l
      match dealUnits lid l us.2 (setLaunch s lid (fun l => { l with concWait := false })) us.1 with
      | none => .next s
      | some s' => .next (whenRqFits s (concAdmitted s' lid l us.1))

/-! ## Unit cuts (R49, R50) -/

/-- Instructions that a span may execute (R45). -/
def isSpanOp : Instr → Bool
  | .aset _ _ | .aadd _ _ | .asub _ _ | .amul _ _ | .ashl _ _ | .aand _ _ | .amov _ _ | .acmp _ _ _ _ | .aaddr _ _ _
  | .ldu _ _ _ | .mov _ _ _ | .bra _ _ | .exit _ _ | .kwait _ _ | .nop _ _ => true
  | _ => false

/-- A 192-byte line is read whole at its home (R64). -/
def touchLine (s : State) (charge : Bool) : Loc → State
  | .mem pa => l2Touch s charge (lineBase pa) 192 false
  | _ => s

/-- The word at a launch span's PC, read at its home, its line whole (R64), through the translations of its cluster's first core. -/
def fetchSpan (s : State) (cl : Nat) (l : Launch) (pc : Nat) : Except XErr (List Byte) × State :=
  match window pc 12 with
  | .global _ =>
    let r := locPieces s (2 * cl) l.fn l.part .fetch (pagePieces pc 12)
    match r.1 with
    | .error e => (.error e.2, r.2)
    | .ok ls =>
      let q := ls.foldl (fun (acc : List Byte × State) e =>
        (acc.1 ++ readHome acc.2 e.1 e.2, touchLine acc.2 (!isPf l.fn) e.1)) ([], r.2)
      (.ok q.1, q.2)
  | _ => (.error (.prot 1), s)

/-- A launch span stands at a cut point (R49): its word cannot be fetched or decoded, or only strands execute it. -/
def atCut (s : State) (cl : Nat) (l : Launch) (sp : Span) : Bool :=
  sp.st == .run &&
    (match (fetchSpan s cl l sp.pc.toNat).1 with
     | .error _ => true
     | .ok bs => (match decode bs with | .ok i => !isSpanOp i | .error _ => true))

/-- UNIT_CUT (R50): by the span whose issue it is (R44), or of a launch whose cut waits. -/
def execEvUnitCut (lid : Nat) (s : State) : Host.Outcome State Fault Refusal :=
  match launch? s lid with
  | none => .next s
  | some l =>
    if l.inTable && (isPf l.fn || !(fnOf s l.fn).halted)
        && (clusterOf s l.home).table.any (fun e => e.2.lid == lid && (l.cutting || nextSpan s l.home == some e.1)
          && atCut s l.home l e.2) then .next (unitCut s lid)
    else .next s

/-! ## Parked spans (R55) -/

/-- Is a neighbour of a parked span runnable? One that waits on an `ldu` is not (R44). -/
def neighbourRuns (t : Tbl Span) (sp : Span) : Bool :=
  t.any (fun e => e.2.lid == sp.lid && e.2.unit == sp.unit && (e.2.hi == sp.lo || e.2.lo == sp.hi) && e.2.st == .run)

/-- The parked spans of a table that resume alone: those of the same launch or unit as `sp` that no neighbour holds (R55). -/
def resumeAlone (t : Tbl Span) (sp : Span) : Tbl Span :=
  t.map (fun e => if e.2.lid == sp.lid && e.2.unit == sp.unit && e.2.st == .kwait && !neighbourRuns t e.2 then (e.1, pastKwait e.2) else e)

/-- SPAN_RESUME_ALONE (R55): spans that nothing holds at the same moment resume together. -/
def execEvSpanResumeAlone (inUnit : Bool) (owner slot : Nat) (s : State) : Host.Outcome State Fault Refusal :=
  let pl : Place := if inUnit then .unit owner else .table owner
  let t := spansAt s pl
  match Tbl.find? t slot with
  | none => .next s
  | some sp =>
    if sp.st != .kwait || neighbourRuns t sp then .next s
    else .next (setSpans s pl (fun t => resumeAlone t sp))

/-! ## Refill (R59, R60) -/

/-- ITEM_QUEUE_FETCH (R60): for a launch with a unit on the core. -/
def execEvItemQueueFetch (core : Fin 384) (lid : Nat) (s : State) : Host.Outcome State Fault Refusal :=
  .next (if (unitsOn s core.val).any (fun e => e.2.lid == lid) then fetchChunk s core.val lid else s)

/-- Adds a span to a pool. R60 says only that unstarted items return: here they join their neighbours where R55 allows (DESIGN CHOICE,
log 161). -/
def poolInsert (pool : List Span) (sp : Span) : List Span :=
  let (sp, pool) := match pool.find? (canRejoin sp) with
    | some e => (joined sp e, pool.erase e)
    | none => (sp, pool)
  match pool.find? (fun e => canRejoin e sp) with
  | some e => sortSpans (joined e sp :: pool.erase e)
  | none => sortSpans (sp :: pool)

/-- The unstarted items of a core go back to the pool when the launch's last unit there has completed (R60). -/
def returnItems (s : State) (core lid uid : Nat) : State :=
  let es := coreItems s core lid
  if es.isEmpty || othersOn s core lid uid then s
  else setLaunch (dropItems s core lid) lid (fun l => { l with pool := es.foldl (fun p e => poolInsert p e.span) l.pool })

/-! ## Completion (R24, R216, R323) -/

/-- Does matrix work of a unit remain: queued, running, not applied, or signed and not issued? -/
def matrixOpen (s : State) (uid : Nat) (w : WUnit) : Bool :=
  (coreOf s w.core).quarters.any (fun q =>
    (match q.running with | some g => g.m.uid == uid | none => false)
      || q.ctxs.any (fun x => x.queue.any (fun m => m.uid == uid)) || q.drains.any (fun d => d.uid == uid))
    || w.strands.any (fun e => e.2.convs.any (fun v => v.st == .matrix && v.op.isSome))

/-- Do copies that it issued, or that land in it, remain? One that UNCORR ended never lands. -/
def copiesOpen (s : State) (uid : Nat) : Bool :=
  (allCopies s).any (fun y => !y.failed && (y.uid == uid || y.parts.any (fun p => p.1 == uid && p.2.any (fun b => !b.landed))))

/-- Will the arrival of the `i`-th sealed batch of a core never be made: it, or an earlier batch of its lane, holds a copy that UNCORR
ended (R328)? -/
def sealDead (c : Core) (i : Nat) : Bool :=
  match c.seals[i]? with
  | none => false
  | some b => (c.seals.take (i + 1)).any (fun e => e.uid == b.uid && e.k == b.k && e.lane == b.lane &&
      e.copies.any (fun n => c.copies.any (fun y => y.id == n && y.failed)))

/-- Do sealed batches of the unit still owe their arrival? -/
def sealsOpen (s : State) (uid : Nat) (w : WUnit) : Bool :=
  let c := coreOf s w.core
  (c.seals.zipIdx).any (fun e => e.1.uid == uid && !sealDead c e.2)

/-- A node that an operation of the unit dropped, or one below it, waits for reclaim: the operation is not complete (R293; DEDUCED,
log 168). -/
def reclaimOpen (s : State) (uid : Nat) : Bool :=
  s.reclaim.any (fun e => e.2.any (fun x => x.by' == some uid))
    || s.parts.any (fun p => p.2.domains.any (fun d => d.2.overflow.any (fun x => x.by' == some uid)))

/-- Has a unit completed? (DEDUCED, log 54) -/
def unitDone (s : State) (uid : Nat) (w : WUnit) : Bool :=
  w.spans.isEmpty && w.strands.all (fun e => e.2.completed && e.2.owed.isEmpty) && !matrixOpen s uid w && !copiesOpen s uid && !sealsOpen s uid w
    && !reclaimOpen s uid

/-- A task is DONE: its successors are decremented at the unit's cluster (R304, R308). -/
def taskDone (s : State) (l : Launch) (u cl : Nat) : State :=
  let k := taskKey l.fn (l.lpb.taskbase + u)
  match Tbl.find? s.tasks k with
  | none => s
  | some e =>
    let s := { s with tasks := Tbl.put s.tasks k { e with st := .done } }
    (validSucc e).foldl (fun s t => taskDecrement s l.fn t cl) s

/-- UNIT_COMPLETE: a `.dev` release, the core's resources, then the counts of the task and the launch (R24, R243,
R308, R309, R403); of a cancelled launch, the last unit ends it (R314). It waits while a run queue has no room for a task that it
queues (R298). -/
def execEvUnitComplete (uid : Nat) (s : State) : Host.Outcome State Fault Refusal :=
  let s0 := s
  match unit? s uid with
  | none => .next s
  | some w =>
    if !unitDone s uid w then .next s
    else
      match launch? s w.lid with
      | none => .next (freeUnit s uid)
      | some l =>
        let s := returnItems (releaseCore s w.core) w.core w.lid uid
        let s := freeUnit s uid
        match l.ending with
        | some st => .next (if (residentUnits s w.lid).isEmpty then finishLaunch s w.lid st else s)
        | none =>
          let s := if l.lpb.kind then taskDone s l w.u (w.core / 2) else s
          .next (whenRqFits s0 (countUnit s w.lid w.triggered))

end Sys2Proof.Machine
end

