-- ==== Sys2Proof/Machine/Policy.lean ====
section
/-! DEFINITION. Decision points of the reeves: what a call starts from (R334, R337), the round-robin decision (R346), the
legal values (R332), how a decision acts (R332-R334), overrun (R345), the tick watchdog (R38) and the events that raise and
serve the points. -/

namespace Sys2Proof.Machine

open Sys2Proof

/-! ## Points -/

/-- POINT (R343). -/
def pointNo : Point → Nat
  | .enq => 0 | .pick => 1 | .tick => 2 | .block => 3 | .wake => 4 | .migr => 5

def evPoint : REvt → Point
  | .enq _ _ => .enq | .pick _ => .pick | .tick => .tick | .block _ => .block | .wake _ => .wake | .migr _ _ => .migr

def dw (x : Int) : DWord := BitVec.ofInt 64 x
def dx8 (l : List Int) : List DWord := (l ++ List.replicate (8 - l.length) 0).map dw
def dxAt (dx : List DWord) (i : Nat) : Nat := (nth dx i 0).toNat

/-- Is a cluster inside a partition? -/
def clusterIn (s : State) (part cl : Nat) : Bool := (partSlices (partOf s part)).contains cl

/-- The cluster whose run queue holds an entry. -/
def homeOfEntry (s : State) (eid : Nat) : Option Nat :=
  (s.clusters.find? (fun c => c.2.rq.any (fun e => e.eid == eid))).map (·.1)

/-! ## Candidates (R332) -/

/-- Candidate entries of a VF in queue order. -/
def vfCandidates (s : State) (cl fn : Nat) : List RqEntry :=
  (clusterOf s cl).rq.filter (fun e => fnOfLid e.lid == fn && candidate s e)

/-- VFs with candidates on a cluster, ascending. -/
def pickTenants (s : State) (cl : Nat) : List Nat :=
  ((s.fns.map (·.1)).filter (fun f => decide (f < 128))).filter (fun f => !(vfCandidates s cl f).isEmpty)

def residentOf (s : State) (cl fn : Nat) : List Nat :=
  ((clusterUnits s cl).filter (fun e => fnOfLid e.2.lid == fn)).map (·.1)

/-- VFs with resident units or candidates, ascending. -/
def tickTenants (s : State) (cl : Nat) : List Nat :=
  ((s.fns.map (·.1)).filter (fun f => decide (f < 128))).filter
    (fun f => !(vfCandidates s cl f).isEmpty || !(residentOf s cl f).isEmpty)


/-- The candidates of a tenant call. -/
def tenantCands (s : State) (cl fn : Nat) : REvt → List Nat
  | .enq eid _ => [eid]
  | .pick _ => ((vfCandidates s cl fn).take 64).map (·.eid)
  | .tick => residentOf s cl fn
  | .block uid => [uid]
  | .wake eid => [eid]
  | .migr _ w =>
    let es := ((clusterOf s cl).rq.filter (fun e => fnOfLid e.lid == fn)).map (·.eid)
    (match w with
     | some (eid, _) => if es.contains eid then eid :: es.filter (· != eid) else es
     | none => es).take 64

/-- The counters of a candidate of a tenant call (R338). -/
def candCounters (s : State) (cl : Nat) (ev : REvt) (c : Nat) : List Nat :=
  match ev with
  | .tick | .block _ => (match unit? s c with | some w => unitCounters s cl w | none => [])
  | _ =>
    match (homeOfEntry s c).bind (fun k => entryOfQueue s k c) with
    | none => []
    | some e =>
      match ev, e.kind with
      | .wake _, .resume uid =>
        (match Tbl.find? s.images uid with
         | some im => unitCounters s cl { im.unit with prio := e.prio }
         | none => entryCounters s cl e)
      | _, _ => entryCounters s cl e

/-! ## Round robin (R346) -/

/-- The first tenant after the one last chosen. -/
def nextTenant (last : Option Nat) (fs : List Nat) : Nat :=
  match last with
  | none => 0
  | some f => (fs.findIdx? (fun x => decide (f < x))).getD 0

def rrHost (s : State) (cl : Nat) (ev : REvt) (cands : List Nat) : List DWord :=
  let c := clusterOf s cl
  match ev with
  | .pick _ => dx8 [(nextTenant c.reeve.lastTenant cands : Nat)]
  | _ =>
    let run := runningTenant s cl
    let other := run.isSome && (pickTenants s cl).any (fun f => some f != run)
    dx8 [if other then 1 else 0, (c.quantum : Nat)]

/-- The first candidate after the one last picked. -/
def rrPick (s : State) (cl : Nat) (cands : List Nat) : Nat :=
  let c := clusterOf s cl
  match (fromPlace c.rq (rrStart c)).find? (fun e => cands.contains e.eid) with
  | some e => (cands.findIdx? (· == e.eid)).getD 0
  | none => 0

def rrTenant (s : State) (cl : Nat) (ev : REvt) (cands : List Nat) : List DWord :=
  match ev with
  | .enq _ _ => dx8 [4, 0]
  | .pick _ => dx8 [(rrPick s cl cands : Nat), 2, 8]
  | .tick => dx8 [0, ((clusterOf s cl).quantum : Nat)]
  | .block _ => dx8 [0]
  | .wake eid => dx8 [((homeOfEntry s eid).getD cl : Nat), 0]
  -- with no destination but its own cluster, nothing moves
  | .migr _ w => dx8 [0, ((match w with | some (_, d) => d | none => cl) : Nat), -1]

/-! ## Legal values (R332) -/

def legalDx (s : State) (part : Nat) (p : Point) (host : Bool) (n i v : Nat) : Bool :=
  match p, host, i with
  | .enq, _, 0 => decide (v ≤ 7)
  | .enq, _, 1 => decide (v ≤ 1)
  | .pick, _, 0 => decide (v < n)
  | .pick, false, 1 => decide (v ≤ 2)
  | .pick, false, 2 => decide (1 ≤ v) && decide (v ≤ 8)
  | .tick, false, 0 => decide (v ≤ n)
  | .tick, true, 0 => decide (v ≤ 1)
  | .tick, _, 1 => decide (100 ≤ v) && decide (v ≤ 100000)
  | .block, _, 0 => decide (v ≤ 1)
  | .wake, _, 0 => clusterIn s part v
  | .wake, _, 1 => decide (v ≤ 7)
  | .migr, _, 0 => decide (v < n)
  | .migr, _, 1 => clusterIn s part v
  | _, _, _ => true

/-- Illegal values fall back to round robin; whether there was one (R345). -/
def settleDx (s : State) (c : RCall) : List DWord × Bool :=
  let bad (i : Nat) : Bool :=
    nth c.dx i 0 != nth c.rr i 0 && !legalDx s c.part c.point c.host c.cands.length i (dxAt c.dx i)
  ((List.range 8).map (fun i => if bad i then nth c.rr i 0 else nth c.dx i 0), (List.range 8).any bad)

/-- A reeve event record: point and level (R446). -/
def reeveEvent (s : State) (c : RCall) (code : Nat) : State :=
  let fn := if c.host then 128 else c.fn.getD 128
  postEvent s fn { code := code, vf := if c.host then 0 else c.fn.getD 0
                   aux := [BitVec.ofNat 8 (pointNo c.point), if c.host then 1 else 0] }

/-! ## The tick watchdog (R38) -/

/-- Can a unit issue from some strand or span? -/
def canIssue (w : WUnit) : Bool :=
  w.spans.any (fun e => e.2.st == .run) || w.strands.any (fun e => !e.2.completed && !strandStuck e.2)

/-- One TICK point of a begun unit. -/
def watchUnit (able : Bool) (w : WUnit) : WUnit :=
  { w with watch := if w.begun && able && !w.issued then w.watch + 1 else w.watch, issued := false }

/-- Every resident unit of a cluster, rewritten. -/
def mapUnits (s : State) (cl : Nat) (f : WUnit → WUnit) : State :=
  { s with units := Tbl.mapV s.units (fun _ w => if w.core / 2 = cl then f w else w) }

def watchResident (w : WUnit) : WUnit := watchUnit (canIssue w) { w with boost := false }
def watchImage (im : Image) : Image := { im with unit := watchUnit (imageIssues im) im.unit }

/-- Counts a TICK point for the resident units of a cluster, whose boost ends, and for the saved ones queued there
(DEDUCED, log 88). -/
def watchTick (s : State) (cl : Nat) : State :=
  let saved := (clusterOf s cl).rq.filterMap (fun e => match e.kind with | .resume u => some u | _ => none)
  let s := mapUnits s cl watchResident
  { s with images := Tbl.mapV s.images (fun u im => if saved.contains u then watchImage im else im) }

/-- Saved units of a cluster that the watchdog restores. -/
def watchedEntries (s : State) (cl : Nat) : List RqEntry :=
  (clusterOf s cl).rq.filter (fun e =>
    (match e.kind with
     | .resume uid => (match Tbl.find? s.images uid with | some im => decide (4 ≤ im.unit.watch) | none => false)
     | _ => false) && candidate s e)

/-- At a count of 4: a resident unit is boosted, a saved one restored where it fits. -/
def watchAct (s : State) (cl : Nat) : State :=
  let s := mapUnits s cl (fun w => { w with boost := w.boost || decide (4 ≤ w.watch) })
  let s := (placeAhead cl (2 * cl) s (watchedEntries s cl)).2
  (placeAhead cl (2 * cl + 1) s (watchedEntries s cl)).2

/-- A TICK save, which the watchdog overrides (R334; DEDUCED, log 91). -/
def tickSave (s : State) (uid : Nat) : State :=
  match unit? s uid with
  | none => s
  | some w => if 4 ≤ w.watch then s else saveAndQueue s uid false

/-! ## Applying a tenant's decision -/

def setPrio (s : State) (cl eid : Nat) (f : RqEntry → RqEntry) : State :=
  setRq s cl (fun q => q.map (fun e => if e.eid == eid then f e else e))

/-- ENQ: priority, and head or tail (DEDUCED, log 87). -/
def applyEnq (s : State) (eid : Nat) (dx : List DWord) : State :=
  match homeOfEntry s eid with
  | none => s
  | some cl =>
    let s := setPrio s cl eid (fun e => { e with prio := dxAt dx 0 })
    if dxAt dx 1 = 1 then setRq s cl (fun q => q.filter (fun e => e.eid == eid) ++ q.filter (fun e => e.eid != eid)) else s

/-- A core with no unit on it. -/
def vacant (s : State) (core : Nat) : State :=
  setCore { s with units := s.units.filter (fun e => e.2.core != core) } core (fun c =>
    { c with quarters := c.quarters.map (fun q => { q with ctxs := q.ctxs.map (fun _ => {}), drains := [], running := none })
             items := [], copies := [], seals := [], ranges := [], td := [] })

/-- How many units a placement of up to `n` asks a core for: what the entry holds, and no more than the core could ever take (R332, R334;
DESIGN CHOICE, log 155). -/
def pickUnits (s : State) (cl core eid n : Nat) : Nat :=
  match entryOfQueue s cl eid with
  | some e => let u := min n (entryLoad e.kind); max 1 (min u (admitSome cl core eid u (vacant s core)).1)
  | none => 0

/-- Has a core room for the units of a placement (R332)? -/
def pickFits (s : State) (cl core eid n : Nat) : Bool :=
  let u := pickUnits s cl core eid n
  decide (u ≤ (admitSome cl core eid u s).1)

/-- The core of a placement: the one that dx1 names, or of either the one that raised PICK, else the other; none where there is no room
(R332, R334). -/
def pickCore (s : State) (cl core eid n dx1 : Nat) : Option Nat :=
  let ks := match dx1 with
    | 0 => [2 * cl]
    | 1 => [2 * cl + 1]
    | _ => [core, 4 * cl + 1 - core]
  ks.find? (fun k => pickFits s cl k eid n)

/-- PICK: the chosen candidate, or the first remaining one after it; up to dx2 units, on the core or cores of dx1. -/
def applyPick (s : State) (cl core : Nat) (cands : List Nat) (dx : List DWord) : State :=
  let k := dxAt dx 0
  let there (e : Nat) : Bool := match entryOfQueue s cl e with | some x => candidate s x | none => false
  match (cands.drop k ++ cands.take k).find? there with
  | none => s
  | some eid =>
    let s := setLastPick s cl eid
    let n := dxAt dx 2
    match pickCore s cl core eid n (dxAt dx 1) with
    | some k => (admitSome cl k eid (pickUnits s cl k eid n) s).2
    | none => s

/-- An offset masked into a routine's window (R340). -/
def maskOffset (wsize : Nat) (v : DWord) : Int := (((v.toNat % wsize) / 8 * 8 : Nat) : Int)

/-- What of an entry a MIGR moves, and what stays: the whole entry, or the upper units of a RANGE; a free value says how many (R303;
DESIGN CHOICE, log 78). -/
def migrPart (s : State) (e : RqEntry) : RqKind × Option RqKind × State :=
  match e.kind, launch? s e.lid with
  | .range f n sp, some l =>
    if n < 2 then (e.kind, none, s)
    else
      let v := freeVal s
      let m := v.1 % n
      if m = 0 then (e.kind, none, v.2)
      else
        let up := (List.range (n - m)).foldl (fun u _ => nextDealt (dealClusters s l).length u) f
        (.range up m sp, some (.range f (n - m) sp), v.2)
  | k, _ => (k, none, s)

/-- MIGR: the chosen entry, or its upper part, moves to the tail of another cluster's queue, where it is offered to ENQ. -/
def applyMigr (s : State) (cl fn : Nat) (cands : List Nat) (dx : List DWord) (wsize : Option Nat) : State :=
  let eid := nth cands (dxAt dx 0) 0
  let dst := dxAt dx 1
  match entryOfQueue s cl eid with
  | none => s
  | some e =>
    if dst = cl || cands.length ≤ dxAt dx 0 || !rqRoom s fn [(dst, e.kind)] then s
    else
      let (k, rest, s) := migrPart s e
      let (id, s) := match rest with
        | none => (eid, dropEntry s cl eid)
        | some r => let f := fresh (keepEntry s cl eid r); (f.1, f.2)
      let s := setCluster s dst (fun c => { c with rq := c.rq ++ [{ e with eid := id, kind := k }] })
      let r := nth dx 2 0
      pushReeve s dst (.enq id (match wsize with | some w => if r = dw (-1) then -1 else maskOffset w r | none => -1))

/-- WAKE: the entry becomes a candidate where it stands, with its boost; another cluster raises MIGR. -/
def applyWake (s : State) (eid : Nat) (dx : List DWord) : State :=
  match homeOfEntry s eid with
  | none => s
  | some cl =>
    let fn := match entryOfQueue s cl eid with | some e => fnOfLid e.lid | none => 128
    let s := setPrio s cl eid (fun e => { e with prio := min 7 (e.prio + dxAt dx 1), blocked := false })
    if dxAt dx 0 = cl then s else pushReeve s cl (.migr fn (some (eid, dxAt dx 0)))

/-- More than 16 entries while another cluster of the partition has none: one MIGR per VF (R332). -/
def raiseImbalance (s : State) (part cl : Nat) : State :=
  let q := (clusterOf s cl).rq
  if 16 < q.length && (partSlices (partOf s part)).any (fun c => c != cl && (clusterOf s c).rq.isEmpty) then
    (((s.fns.map (·.1)).filter (fun f => decide (f < 128))).filter (fun f => q.any (fun e => fnOfLid e.lid == f))).foldl
      (fun s f => pushReeve s cl (.migr f none)) s
  else s

/-- The end of a TICK: the watchdog overrides, and an imbalance raises MIGR. -/
def endTick (s : State) (part cl : Nat) : State := raiseImbalance (watchAct s cl) part cl

/-- A tenant's decision acts on the state as it stands (R334). -/
def applyTenant (s : State) (part cl fn : Nat) (ev : REvt) (cands : List Nat) (dx : List DWord) (wsize : Option Nat) : State :=
  match ev with
  | .enq eid _ => applyEnq s eid dx
  | .pick core => applyPick s cl core cands dx
  | .tick =>
    let s := setCluster s cl (fun c => { c with quantum := dxAt dx 1 })
    let s := match dxAt dx 0 with
      | 0 => s
      | k + 1 =>
        let uid := nth cands k 0
        if (residentOf s cl fn).contains uid then tickSave s uid else s
    endTick s part cl
  | .block uid => if dxAt dx 0 = 1 && (residentOf s cl fn).contains uid then saveAndQueue s uid true else s
  | .wake eid => applyWake s eid dx
  | .migr _ _ => applyMigr s cl fn cands dx wsize

/-! ## Starting a call (R334, R337) -/

/-- The routine in force for a point and level. -/
def routineFor (s : State) (part fn : Nat) (host : Bool) (p : Point) : Option Routine :=
  let t := if host then (partOf s part).hostRoutines else (fnOf s fn).routines
  match Tbl.find? t (pointNo p) with
  | some r => if r.suspended then none else some r
  | none => none

/-- g2 and g5 of a call (R337). -/
def entryG2 (cl : Nat) : REvt → Int
  | .pick core => ((2 * (cl % 12) + core % 2 : Nat) : Int)
  | _ => -1
def entryG5 : REvt → Int
  | .enq _ r => r
  | .migr _ (some (_, d)) => (d : Int)
  | _ => -1

def startCall (s : State) (cl part : Nat) (ev : REvt) (host : Bool) (fn : Option Nat) (cands : List Nat)
    (cnt0 : List (List Nat)) (rr : List DWord) (r : Routine) : State :=
  let c := clusterOf s cl
  let g3 : Int := match fn with | some f => (f : Int) | none => -1
  let call : RCall :=
    { ev := ev, point := evPoint ev, host := host, fn := fn, part := part, routine := r, cands := cands, cnt0 := cnt0
      cnt1 := [coreCounters s (2 * cl), coreCounters s (2 * cl + 1)]
      cnt2 := match fn with | some f => tenantCounters s cl f | none => []
      cnt3 := clusterCounters s cl
      g := ([0, (cands.length : Int), entryG2 cl ev, g3, (c.ticks : Int), entryG5 ev] ++ List.replicate 10 0).map dw
      dx := rr, rr := rr }
  setCluster s cl (fun c => { c with reeve := { c.reeve with call := some call } })

/-- The tenant level of an event. -/
def startTenant (s : State) (cl part fn : Nat) (ev : REvt) : State :=
  let cands := tenantCands s cl fn ev
  let rr := rrTenant s cl ev cands
  match routineFor s part fn false (evPoint ev) with
  | some r => startCall s cl part ev false (some fn) cands (cands.map (candCounters s cl ev)) rr r
  | none => applyTenant s part cl fn ev cands rr none

/-- A host decision acts; the tenant's call follows (R333). -/
def applyHost (s : State) (part cl : Nat) (ev : REvt) (cands : List Nat) (dx : List DWord) : State :=
  match ev with
  | .pick _ =>
    let k := dxAt dx 0
    let now := pickTenants s cl
    (match (cands.drop k ++ cands.take k).find? (fun f => now.contains f) with
     | none => s
     | some f =>
       startTenant (setCluster s cl (fun c => { c with reeve := { c.reeve with lastTenant := some f } })) cl part f ev)
  | _ =>
    let c := clusterOf s cl
    let run := runningTenant s cl
    let s := setCluster s cl (fun c => { c with quantum := dxAt dx 1, keep := false })
    let s := match run with
      | some f => if dxAt dx 0 = 1 && !c.keep then (residentOf s cl f).foldl tickSave s else s
      | none => s
    (match run with
     | some f => startTenant s cl part f ev
     | none => endTick s part cl)

/-- The host level of PICK and TICK. -/
def startHost (s : State) (cl part : Nat) (ev : REvt) : State :=
  let cands := match ev with | .pick _ => pickTenants s cl | _ => tickTenants s cl
  let rr := rrHost s cl ev cands
  match routineFor s part 128 true (evPoint ev) with
  | some r => startCall s cl part ev true (runningTenant s cl) cands (cands.map (tenantCounters s cl)) rr r
  | none => applyHost s part cl ev cands rr

/-- One event starts: PF entries and watched units go ahead at PICK (R38, R445); an event whose entry or unit has gone ends
(DEDUCED, log 86). -/
def startEvent (s : State) (cl : Nat) (ev : REvt) : State :=
  match partOfSlice s cl with
  | none => s
  | some part =>
    match ev with
    | .pick core =>
      (match placeAhead cl core s (aheadEntries s cl) with
       | (some _, s) => s
       | (none, s) => if (pickTenants s cl).isEmpty then s else startHost s cl part ev)
    | .tick => startHost (watchTick (setCluster s cl (fun c => { c with ticks := c.ticks + 1 })) cl) cl part ev
    | .enq eid _ | .wake eid =>
      (match (homeOfEntry s eid).bind (fun k => entryOfQueue s k eid) with
       | some e => startTenant s cl part (fnOfLid e.lid) ev
       | none => s)
    | .block uid =>
      (match unit? s uid with
       | some w => if w.core / 2 = cl then startTenant s cl part (fnOfLid w.lid) ev else s
       | none => s)
    | .migr fn w =>
      let gone := match w with | some (eid, _) => (entryOfQueue s cl eid).isNone | none => false
      if gone || (tenantCands s cl fn ev).isEmpty then s else startTenant s cl part fn ev

/-! ## Ending a call -/

def clearCall (s : State) (cl : Nat) : State :=
  setCluster s cl (fun c => { c with reeve := { c.reeve with call := none } })

/-- DESIGN CHOICE, log 84. -/
def decideCall (s : State) (cl : Nat) (c : RCall) (dx : List DWord) (w : Option Nat) : State :=
  if c.host then applyHost s c.part cl c.ev c.cands dx
  else applyTenant s c.part cl (c.fn.getD 128) c.ev c.cands dx w

/-- `done`: the decision registers take effect (R345). -/
def endCall (s : State) (cl : Nat) (c : RCall) : State :=
  let d := settleDx s c
  let s := if d.2 then reeveEvent s c evBadDec else s
  decideCall (clearCall s cl) cl c d.1 (some c.routine.wsize)

/-- The routine of an overrun call's point is suspended (R345): the one now in force, also where the call runs one that has since been
replaced (DESIGN CHOICE, log 177). -/
def suspendRoutine (s : State) (c : RCall) : State :=
  let f (t : Tbl Routine) : Tbl Routine := Tbl.upd? t (pointNo c.point) (fun r => { r with suspended := true })
  if c.host then setPart s c.part (fun p => { p with hostRoutines := f p.hostRoutines })
  else setFn s (c.fn.getD 128) (fun q => { q with routines := f q.routines })

/-- A spent allowance: the call is aborted and decided by round robin, its routine suspended (R345). -/
def overrun (s : State) (cl : Nat) (c : RCall) : State :=
  decideCall (reeveEvent (suspendRoutine (clearCall s cl) c) c evOverrun) cl c c.rr none

/-! ## Serving the event queue (R332) -/

def popReeve (s : State) (cl : Nat) : State :=
  setCluster s cl (fun c =>
    let v := c.reeve
    { c with reeve := { v with queue := v.queue.drop 1 ++ v.waiting.take 1, waiting := v.waiting.drop 1 } })

/-- An idle reeve takes the oldest event when it is of the given point. -/
def serve (cl : Nat) (p : Point) (s : State) : State :=
  let v := (clusterOf s cl).reeve
  if v.call.isSome then s
  else
    match v.queue with
    | e :: _ => if evPoint e = p then startEvent (popReeve s cl) cl e else s
    | [] => s

/-- ENQ: the reeve takes it when it is its oldest event (R332). -/
def execEvEnq (cl : Fin 192) (s : State) : Host.Outcome State Fault Refusal := .next (serve cl.val .enq s)
/-- TICK: the reeve takes it when it is its oldest event (R332). -/
def execEvTick (cl : Fin 192) (s : State) : Host.Outcome State Fault Refusal := .next (serve cl.val .tick s)
/-- BLOCK: the reeve takes it when it is its oldest event (R332). -/
def execEvBlock (cl : Fin 192) (s : State) : Host.Outcome State Fault Refusal := .next (serve cl.val .block s)
/-- WAKE: the reeve takes it when it is its oldest event (R332). -/
def execEvWake (cl : Fin 192) (s : State) : Host.Outcome State Fault Refusal := .next (serve cl.val .wake s)
/-- MIGR: the reeve takes it when it is its oldest event (R332). -/
def execEvMigr (cl : Fin 192) (s : State) : Host.Outcome State Fault Refusal := .next (serve cl.val .migr s)

/-- Does a reeve hold an event? -/
def pending (v : Reeve) (e : REvt) : Bool :=
  v.queue.contains e || v.waiting.contains e || (match v.call with | some c => c.ev == e | none => false)

/-- A core with a free unit slot raises PICK while the run queue holds a candidate; at most one pending a core. -/
def raisePick (s : State) (cl : Nat) : State :=
  let c := clusterOf s cl
  if !c.rq.any (candidate s) then s
  else
    match [2 * cl, 2 * cl + 1].find? (fun k => decide (0 < freeUnitSlots s k) && !pending c.reeve (.pick k)) with
    | some k => pushReeve s cl (.pick k)
    | none => s

/-- PICK: served when it is the oldest event, else raised (R332; DEDUCED, log 67). -/
def execEvPick (cl : Fin 192) (s : State) : Host.Outcome State Fault Refusal :=
  let v := (clusterOf s cl.val).reeve
  match v.call, v.queue with
  | none, .pick _ :: _ => .next (serve cl.val .pick s)
  | _, _ => .next (raisePick s cl.val)

/-- QUANTUM_EXPIRY: the quantum's statistics are kept for one quantum and TICK is raised (R332, R338). -/
def execEvQuantumExpiry (cl : Fin 192) (s : State) : Host.Outcome State Fault Refusal :=
  let c := clusterOf s cl.val
  if (partOfSlice s cl.val).isNone || decide (s.time < c.quantumAt + 1000 * c.quantum) then .next s
  else
    let saved := c.rq.filterMap (fun e => match e.kind with | .resume u => some u | _ => none)
    let s := mapUnits s cl.val (fun w => { w with used := 0 })
    let s := { s with images := Tbl.mapV s.images (fun u im => if saved.contains u then { im with unit := { im.unit with used := 0 } } else im) }
    .next (pushReeve (setCluster s cl.val (fun c => { c with quantumAt := s.time, lastStats := c.stats, stats := [] })) cl.val .tick)

/-- TICK_WATCHDOG (R38). -/
def execEvTickWatchdog (cl : Fin 192) (s : State) : Host.Outcome State Fault Refusal := .next (watchAct s cl.val)

/-- A strand parked by a trap or on a page request. -/
def strandParked (t : Strand) : Bool := t.token.isSome || t.pends.any (fun d => !d.parked.isEmpty)

/-- BLOCK_THRESHOLD: a unit of a VF none of whose strands can issue, for 1 ms, or parked (R332). A hold lasts until the
unit issues again (`beginUnit`), and raises one event (DEDUCED, log 81). -/
def execEvBlockThreshold (uid : Nat) (s : State) : Host.Outcome State Fault Refusal :=
  match unit? s uid with
  | none => .next s
  | some w =>
    let cl := w.core / 2
    let raise := fun (s : State) => pushReeve (setUnit s uid (fun w => { w with blockSent := true })) cl (.block uid)
    if isPf (fnOfLid w.lid) || canIssue w || w.strands.all (fun e => e.2.completed) || w.blockSent then .next s
    else if w.strands.any (fun e => strandParked e.2) then .next (raise s)
    else
      match w.heldSince with
      | none => .next (setUnit s uid (fun w => { w with heldSince := some s.time }))
      | some t => .next (if t + 1000000 ≤ s.time then raise s else s)

end Sys2Proof.Machine
end

