-- ==== Sys2Proof/Machine/Reeve.lean ====
section
/-! DEFINITION. Reeve code (R335-R337), counters as `cget` reads them (R338), the commons and its caches (R339-R342), the
allowance (R345), and loading and checking routines (R343, R344). -/

namespace Sys2Proof.Machine

open Sys2Proof

/-! ## Registers -/

/-- g0 reads 0. -/
def greg (c : RCall) (n : Fin 16) : DWord := if n = 0 then 0 else nth c.g n.val 0
/-- A write to g0 is discarded. -/
def setG (c : RCall) (n : Fin 16) (v : DWord) : RCall := if n = 0 then c else { c with g := setNth c.g n.val v }
/-- sext(IMM, 64). -/
def imm64 (o : RvOps) : DWord := o.imm.signExtend 64
/-- The word at an offset from the current one. -/
def rvTarget (c : RCall) (o : RvOps) : Nat := ((c.pc : Int) + o.imm.toInt).toNat

/-! ## The commons (R339-R342) -/

/-- Base of a partition's allotment. -/
def commonsBase (s : State) (part : Nat) : Nat := (partOf s part).cbase * 4096
/-- The offset of a `cld`, `cst` or `ccas` (R340). -/
def commonsOffset (s : State) (c : RCall) (a : DWord) (imm : DWord) : Nat :=
  commonsBase s c.part + c.routine.wbase + (a + imm).toNat % c.routine.wsize / 8 * 8

/-- Place of a die in the 4 × 4 array (R9). -/
def diePlace (d : Nat) : Nat × Nat :=
  nth [(0, 0), (0, 1), (1, 1), (1, 0), (2, 0), (3, 0), (3, 1), (2, 1), (2, 2), (3, 2), (3, 3), (2, 3), (1, 3), (1, 2), (0, 2),
       (0, 3)] d (0, 0)
/-- Col hops between two dies (R10). -/
def dieHops (a b : Nat) : Nat :=
  let p := diePlace a
  let q := diePlace b
  (p.1 - q.1) + (q.1 - p.1) + (p.2 - q.2) + (q.2 - p.2)

/-- Added cycles of a commons access (R342). -/
def commonsCost (s : State) (cl off : Nat) (write : Bool) : Nat :=
  match (clusterOf s cl).reeve.cache.find? (fun e => e.1 == off / 64) with
  | some (_, held) => if held || !write then 1 else if off / 2 ^ 19 = cl / 12 then 24 else 80 + 8 * dieHops (cl / 12) (off / 2 ^ 19)
  | none => if off / 2 ^ 19 = cl / 12 then 24 else 80 + 8 * dieHops (cl / 12) (off / 2 ^ 19)

def mapCache (c : Cluster) (f : List (Nat × Bool) → List (Nat × Bool)) : Cluster :=
  { c with reeve := { c.reeve with cache := f c.reeve.cache } }

/-- What an access by another reeve leaves of a line. -/
def otherLine (line : Nat) (write : Bool) (t : List (Nat × Bool)) : List (Nat × Bool) :=
  if write then t.filter (fun e => e.1 != line) else t.map (fun e => if e.1 = line then (line, false) else e)

/-- A reeve's own line after its access; one of 64 others makes room, which the manual does not name. -/
def ownLine (line : Nat) (write : Bool) (v : Nat) (t : List (Nat × Bool)) : List (Nat × Bool) :=
  if t.any (fun e => e.1 == line) then t.map (fun e => if e.1 = line then (line, e.2 || write) else e)
  else (if 64 ≤ t.length then t.eraseIdx (v % 64) else t) ++ [(line, write)]

/-- The caches after an access: coherent, and they change timing only (R341; DESIGN CHOICE, log 85). -/
def touchCommons (s : State) (cl off : Nat) (write : Bool) : State :=
  let line := off / 64
  let v := freeVal s
  let s := v.2
  let others := Tbl.mapV s.clusters (fun k c => if k = cl then c else mapCache c (otherLine line write))
  setCluster { s with clusters := others } cl (fun c => mapCache c (ownLine line write v.1))

def commonsGet (s : State) (off : Nat) : DWord := Tbl.getD s.commons off 0
def commonsPut (s : State) (off : Nat) (v : DWord) : State :=
  { s with commons := if v = 0 then Tbl.del s.commons off else Tbl.put s.commons off v }

/-! ## Running one instruction (R345) -/

def setCall (s : State) (cl : Nat) (c : RCall) : State :=
  setCluster s cl (fun k => { k with reeve := { k.reeve with call := some c } })

/-- An instruction of a call: performed only when all of its cycles lie within the allowance. -/
def reeveRun (cost : State → Nat → RCall → Nat) (act : State → Nat → RCall → State) (s : State) : Host.Outcome State Fault Refusal :=
  match s.actor with
  | .reeve cl =>
    (match (clusterOf s cl).reeve.call with
     | none => .next s
     | some c =>
       let n := c.used + cost s cl c
       if c.routine.allow < n then .next (overrun s cl c) else .next (act s cl { c with used := n }))
  | _ => .fault .noIssuer

def oneCycle (_ : State) (_ : Nat) (_ : RCall) : Nat := 1

/-- An instruction that only changes the call, and goes on at the next word. -/
def reeveStep (f : RCall → RCall) (s : State) : Host.Outcome State Fault Refusal :=
  reeveRun oneCycle (fun s cl c => setCall s cl { f c with pc := c.pc + 1 }) s

/-- gd ← f(ga, gb). -/
def reeveAlu (o : RvOps) (f : DWord → DWord → DWord) (s : State) : Host.Outcome State Fault Refusal :=
  reeveStep (fun c => setG c o.d (f (greg c o.a) (greg c o.b))) s

def flag64 (b : Bool) : DWord := if b then 1 else 0

def execRvLi (o : RvOps) (s : State) : Host.Outcome State Fault Refusal := reeveStep (fun c => setG c o.d (imm64 o)) s
def execRvMov (o : RvOps) (s : State) : Host.Outcome State Fault Refusal := reeveAlu o (fun a _ => a) s
def execRvAdd (o : RvOps) (s : State) : Host.Outcome State Fault Refusal := reeveAlu o (fun a b => a + b) s
def execRvSub (o : RvOps) (s : State) : Host.Outcome State Fault Refusal := reeveAlu o (fun a b => a - b) s
def execRvAnd (o : RvOps) (s : State) : Host.Outcome State Fault Refusal := reeveAlu o (fun a b => a &&& b) s
def execRvOr (o : RvOps) (s : State) : Host.Outcome State Fault Refusal := reeveAlu o (fun a b => a ||| b) s
def execRvXor (o : RvOps) (s : State) : Host.Outcome State Fault Refusal := reeveAlu o (fun a b => a ^^^ b) s
def execRvShl (o : RvOps) (s : State) : Host.Outcome State Fault Refusal := reeveAlu o (fun a b => a <<< (b.toNat % 64)) s
def execRvShr (o : RvOps) (s : State) : Host.Outcome State Fault Refusal := reeveAlu o (fun a b => a >>> (b.toNat % 64)) s
def execRvMul (o : RvOps) (s : State) : Host.Outcome State Fault Refusal := reeveAlu o (fun a b => a * b) s
def execRvMin (o : RvOps) (s : State) : Host.Outcome State Fault Refusal := reeveAlu o (fun a b => if a.sle b then a else b) s
def execRvMax (o : RvOps) (s : State) : Host.Outcome State Fault Refusal := reeveAlu o (fun a b => if b.sle a then a else b) s
def execRvSlt (o : RvOps) (s : State) : Host.Outcome State Fault Refusal := reeveAlu o (fun a b => flag64 (a.slt b)) s
def execRvSltn (o : RvOps) (s : State) : Host.Outcome State Fault Refusal := reeveAlu o (fun a b => flag64 (a.ult b)) s
def execRvSeq (o : RvOps) (s : State) : Host.Outcome State Fault Refusal := reeveAlu o (fun a b => flag64 (a == b)) s
/-- `sel` reads gd as its condition. -/
def execRvSel (o : RvOps) (s : State) : Host.Outcome State Fault Refusal :=
  reeveStep (fun c => setG c o.d (if greg c o.d ≠ 0 then greg c o.a else greg c o.b)) s
def execRvAddi (o : RvOps) (s : State) : Host.Outcome State Fault Refusal :=
  reeveStep (fun c => setG c o.d (greg c o.a + imm64 o)) s
def execRvAndi (o : RvOps) (s : State) : Host.Outcome State Fault Refusal :=
  reeveStep (fun c => setG c o.d (greg c o.a &&& imm64 o)) s

/-- The value of `cget` (R338): captured counters; what is out of range reads 0. -/
def cgetValue (c : RCall) (o : RvOps) : DWord :=
  let i := (greg c o.a).toNat
  let m := o.imm.toNat
  let row : List Nat :=
    if m / 64 ≠ 0 then []
    else match m / 16 with
      | 0 => nth c.cnt0 i []
      | 1 => nth c.cnt1 i []
      | 2 => c.cnt2
      | _ => c.cnt3
  BitVec.ofNat 64 (counterAt row (m % 16))

/-- `cget` (R336, R338). -/
def execRvCget (o : RvOps) (s : State) : Host.Outcome State Fault Refusal :=
  reeveRun (fun _ _ _ => 3) (fun s cl c => setCall s cl { setG c o.d (cgetValue c o) with pc := c.pc + 1 }) s

def rvOffset (s : State) (c : RCall) (o : RvOps) : Nat := commonsOffset s c (greg c o.a) (imm64 o)

/-- `cld` (R336, R340-R342). -/
def execRvCld (o : RvOps) (s : State) : Host.Outcome State Fault Refusal :=
  reeveRun (fun s cl c => 1 + commonsCost s cl (rvOffset s c o) false)
    (fun s cl c =>
      let off := rvOffset s c o
      setCall (touchCommons s cl off false) cl { setG c o.d (commonsGet s off) with pc := c.pc + 1 }) s

/-- `cst` (R336, R340-R342). -/
def execRvCst (o : RvOps) (s : State) : Host.Outcome State Fault Refusal :=
  reeveRun (fun s cl c => 1 + commonsCost s cl (rvOffset s c o) true)
    (fun s cl c =>
      let off := rvOffset s c o
      setCall (commonsPut (touchCommons s cl off true) off (greg c o.d)) cl { c with pc := c.pc + 1 }) s

/-- `ccas` (R336, R340-R342). -/
def execRvCcas (o : RvOps) (s : State) : Host.Outcome State Fault Refusal :=
  reeveRun (fun s cl c => 1 + commonsCost s cl (rvOffset s c o) true)
    (fun s cl c =>
      let off := rvOffset s c o
      let old := commonsGet s off
      let s := touchCommons s cl off true
      let s := if old = greg c o.d then commonsPut s off (greg c o.b) else s
      setCall s cl { setG c o.d old with pc := c.pc + 1 }) s

/-! ## Loops and branches (R336, R344) -/

def opOf (w : Word) : Nat := w.toNat / 67108864

/-- The place of the matching `lend` in words that follow a `loop`, from place `i`; the end of the code if none. -/
def matchLend : List Word → Nat → Nat → Nat
  | [], i, _ => i
  | w :: r, i, d =>
    if opOf w = 20 then matchLend r (i + 1) (d + 1)
    else if opOf w = 21 then (if d = 0 then i else matchLend r (i + 1) (d - 1))
    else matchLend r (i + 1) d

/-- min(max(ga, 0), imm). -/
def loopCount (c : RCall) (o : RvOps) : Nat := (minI (maxI (greg c o.a).toInt 0) o.imm.toInt).toNat

def loopStart (c : RCall) (o : RvOps) : RCall :=
  let n := loopCount c o
  let c' := setG c o.d 0
  if n = 0 then { c' with pc := matchLend (c.routine.code.drop (c.pc + 1)) (c.pc + 1) 0 + 1 }
  else { c' with pc := c.pc + 1, loops := ⟨c.pc + 1, o.d.val, n⟩ :: c.loops }

/-- `loop` (R336; DEDUCED, log 89). -/
def execRvLoop (o : RvOps) (s : State) : Host.Outcome State Fault Refusal :=
  reeveRun oneCycle (fun s cl c => setCall s cl (loopStart c o)) s

def loopEnd (c : RCall) : RCall :=
  match c.loops with
  | [] => { c with pc := c.pc + 1 }
  | l :: r =>
    let d : Fin 16 := Fin.ofNat 16 l.reg
    let c := setG c d (greg c d + 1)
    if 1 < l.left then { c with pc := l.start, loops := { l with left := l.left - 1 } :: r }
    else { c with pc := c.pc + 1, loops := r }

/-- `lend` (R336). -/
def execRvLend (_ : RvOps) (s : State) : Host.Outcome State Fault Refusal :=
  reeveRun oneCycle (fun s cl c => setCall s cl (loopEnd c)) s

/-- `bf` (R336). -/
def execRvBf (o : RvOps) (s : State) : Host.Outcome State Fault Refusal :=
  reeveRun oneCycle (fun s cl c => setCall s cl { c with pc := if greg c o.a = 0 then rvTarget c o else c.pc + 1 }) s

/-- `jf` (R336). -/
def execRvJf (o : RvOps) (s : State) : Host.Outcome State Fault Refusal :=
  reeveRun oneCycle (fun s cl c => setCall s cl { c with pc := rvTarget c o }) s

/-- `dset` (R336). -/
def execRvDset (o : RvOps) (s : State) : Host.Outcome State Fault Refusal :=
  reeveStep (fun c => { c with dx := setNth c.dx o.d.val (greg c o.a) }) s

/-- `done` (R336, R345). -/
def execRvDone (_ : RvOps) (s : State) : Host.Outcome State Fault Refusal :=
  reeveRun oneCycle (fun s cl c => endCall s cl c) s

/-! ## Overrun (R345) -/

/-- The cycles of the instruction that a call stands at. -/
def nextCost (s : State) (cl : Nat) (c : RCall) : Nat :=
  match decodeReeve (nth c.routine.code c.pc 0).toNat with
  | .ok (.rvCget _) => 3
  | .ok (.rvCld o) => 1 + commonsCost s cl (rvOffset s c o) false
  | .ok (.rvCst o) => 1 + commonsCost s cl (rvOffset s c o) true
  | .ok (.rvCcas o) => 1 + commonsCost s cl (rvOffset s c o) true
  | _ => 1

/-- REEVE_OVERRUN (R345). -/
def execEvReeveOverrun (cl : Fin 192) (s : State) : Host.Outcome State Fault Refusal :=
  match (clusterOf s cl.val).reeve.call with
  | none => .next s
  | some c => .next (if c.routine.allow < c.used + nextCost s cl.val c then overrun s cl.val c else s)

/-! ## The checker (R344) -/

structure RvWord where
  op : Nat
  d : Nat
  a : Nat
  b : Nat
  imm : Int
deriving DecidableEq, Repr

def rvWord (w : Word) : RvWord :=
  let x := w.toNat
  ⟨fld x 26 6, fld x 22 4, fld x 18 4, fld x 14 4, sext 14 x⟩

/-- Bodies of the loops, as (place of `loop`, place of its `lend`); none when they do not pair or nest deeper than 2. -/
def loopBodies : List RvWord → Nat → List Nat → Option (List (Nat × Nat))
  | [], _, [] => some []
  | [], _, _ => none
  | w :: r, i, open' =>
    if w.op = 20 then (if 2 ≤ open'.length then none else loopBodies r (i + 1) (i :: open'))
    else if w.op = 21 then
      (match open' with
       | [] => none
       | l :: ls => (loopBodies r (i + 1) ls).map (fun bs => (l, i) :: bs))
    else loopBodies r (i + 1) open'

/-- As far as `loop` and `lend` pair. -/
def pairedBodies : List RvWord → Nat → List Nat → List (Nat × Nat)
  | [], _, _ => []
  | w :: r, i, open' =>
    if w.op = 20 then pairedBodies r (i + 1) (i :: open')
    else if w.op = 21 then
      (match open' with
       | [] => pairedBodies r (i + 1) []
       | l :: ls => (l, i) :: pairedBodies r (i + 1) ls)
    else pairedBodies r (i + 1) open'

/-- Does a word lie in a loop's body: after its `loop`, up to its `lend`? -/
def inBody (b : Nat × Nat) (i : Nat) : Bool := decide (b.1 < i) && decide (i ≤ b.2)

def branchOk (n : Nat) (bodies : List (Nat × Nat)) (i : Nat) (w : RvWord) : Bool :=
  if w.op = 22 || w.op = 23 then
    decide (0 < w.imm) && decide ((i : Int) + w.imm < n)
      && bodies.all (fun b => inBody b i == inBody b ((i : Int) + w.imm).toNat)
  else true

/-- What is left of the code from a place: the count of the longest path that falls through, and of the longest that ends in
`done`; none when there is no such path. -/
structure PathCost where
  thru : Option Nat
  fin : Option Nat
deriving DecidableEq, Repr

def optMax (a b : Option Nat) : Option Nat :=
  match a, b with
  | some x, some y => some (max x y)
  | some x, none => some x
  | none, y => y
def optAdd (n : Nat) (a : Option Nat) : Option Nat := a.map (n + ·)

/-- Costs of the words of a list from the last to the first: entry j of the result is for word i + j; branches are forward. A
`loop` counts its body, `lend` included, at its bound; the costs inside a body end at its `lend`. -/
def pathCosts (bodies : List (Nat × Nat)) (stop : Nat) : List RvWord → Nat → List PathCost
  | [], _ => []
  | w :: r, i =>
    let rest := pathCosts bodies stop r (i + 1)
    let at' (j : Nat) : PathCost := nth rest (j - i - 1) ⟨some 0, none⟩
    let one (p : PathCost) : PathCost := ⟨optAdd 1 p.thru, optAdd 1 p.fin⟩
    let here : PathCost :=
      if w.op = 25 then ⟨none, some 1⟩
      else if w.op = 21 then ⟨some 1, none⟩
      else if w.op = 23 then one (at' ((i : Int) + w.imm).toNat)
      else if w.op = 22 then
        let p := at' (i + 1)
        let q := at' ((i : Int) + w.imm).toNat
        one ⟨optMax p.thru q.thru, optMax p.fin q.fin⟩
      else if w.op = 20 then
        match bodies.find? (fun b => b.1 == i) with
        | none => one (at' (i + 1))
        | some b =>
          let body := at' (i + 1)
          let after := if b.2 + 1 < stop then at' (b.2 + 1) else ⟨some 0, none⟩
          let k := w.imm.toNat
          let full := 1 + k * body.thru.getD 0
          let thru := match body.thru with | some _ => optAdd full after.thru | none => optAdd 1 after.thru
          let fin1 := match body.thru with | some _ => optAdd full after.fin | none => optAdd 1 after.fin
          let fin2 := optAdd (1 + (k - 1) * body.thru.getD 0) body.fin
          ⟨thru, optMax fin1 fin2⟩
      else one (at' (i + 1))
    here :: rest

/-- The worst-case executed count. -/
def worstCount (ws : List RvWord) (bodies : List (Nat × Nat)) : Nat :=
  match pathCosts bodies ws.length ws 0 with
  | [] => 0
  | p :: _ => max (p.thru.getD 0) (p.fin.getD 0)

/-- The decision registers of a point and level (R332). -/
def dxDefined (p : Nat) (host : Bool) : Nat :=
  match p, host with
  | 0, false => 2 | 1, false => 3 | 2, false => 2 | 3, false => 1 | 4, false => 2 | 5, false => 3
  | 1, true => 1 | 2, true => 2
  | _, _ => 0

/-- Which fields an operation uses: D, A, B, IMM (R336). -/
def rvUses (op : Nat) : Bool × Bool × Bool × Bool :=
  if op = 0 then (true, false, false, true)
  else if op = 1 then (true, true, false, false)
  else if op ≤ 15 then (true, true, true, false)
  else if op ≤ 18 then (true, true, false, true)
  else if op = 19 then (true, true, true, true)
  else if op = 20 then (true, true, false, true)
  else if op = 21 then (false, false, false, false)
  else if op = 22 then (false, true, false, true)
  else if op = 23 then (false, false, false, true)
  else if op = 24 then (true, true, false, false)
  else if op = 25 then (false, false, false, false)
  else (true, true, false, true)

def fieldsOk (w : RvWord) : Bool :=
  let u := rvUses w.op
  decide (w.op ≤ 27) && (u.1 || w.d == 0) && (u.2.1 || w.a == 0) && (u.2.2.1 || w.b == 0) && (u.2.2.2 || w.imm == 0)

/-- Words that a path from the first word reaches: from the lowest place up, since every edge but a loop's is forward. -/
def reached (bodies : List (Nat × Nat)) : List RvWord → Nat → List Nat → List Nat
  | [], _, rs => rs
  | w :: r, i, rs =>
    if rs.contains i then
      let out : List Nat :=
        if w.op = 25 then []
        else if w.op = 23 then [((i : Int) + w.imm).toNat]
        else if w.op = 22 then [i + 1, ((i : Int) + w.imm).toNat]
        else if w.op = 20 then (match bodies.find? (fun b => b.1 == i) with | some b => [i + 1, b.2 + 1] | none => [i + 1])
        else [i + 1]
      reached bodies r (i + 1) (rs ++ out)
    else reached bodies r (i + 1) rs

/-- The code that R344 gives a routine: 0 when it is accepted. -/
def checkRoutine (code : List Word) (point : Nat) (host : Bool) (wsize : Nat) : Nat :=
  let ws := code.map rvWord
  let bodies := pairedBodies ws 0 []
  if 256 < ws.length then 1
  else if !(ws.zipIdx).all (fun e => branchOk ws.length bodies e.2 e.1) then 2
  else if (loopBodies ws 0 []).isNone || ws.any (fun w => w.op == 20 && (decide (w.imm < 1) || decide (64 < w.imm))) then 3
  else if 4096 < worstCount ws bodies then 4
  else if ws.any (fun w => (w.op == 17 || w.op == 18 || w.op == 19) && w.a == 0 && (decide (w.imm < 0) || decide ((wsize : Int) ≤ w.imm))) then 5
  else if dxDefined point host = 0 || ws.any (fun w => w.op == 24 && decide (dxDefined point host ≤ w.d)) then 6
  else if !ws.all fieldsOk then 7
  else if (reached bodies ws 0 [0]).contains ws.length || ws.isEmpty then 8
  else 0

/-! ## Loading (R343) -/

/-- A read for a load: R permission, no page request; none when it fails. -/
def loadRead (s : State) (fn part a n : Nat) : Option (List Byte) × State :=
  match readBlock s (2 * jobHome s part) fn part a n with
  | (.ok bs, s) => (some bs, s)
  | (.error _, s) => (none, s)

/-- The routine of a descriptor and its point, or LASTCODE. -/
def loadResult (s : State) (fn part addr : Nat) : Except Nat (Nat × Routine) × State :=
  let host := isPf fn
  match if addr % 64 = 0 && (host || (fnOf s fn).bound) then loadRead s fn part addr 64 else (none, s) with
  | (none, s) => (.error 9, s)
  | (some bs, s) =>
    let v := ofBytes bs
    let p := partOf s part
    let len := fld v 64 9
    let allow := fld v 77 7
    let wlog := fld v 84 5
    let wsize := 2 ^ wlog
    let wbase := fld v 89 31 * 64
    if fld v 120 392 != 0 || len = 0 || fld v 0 64 % 4 != 0 || (fld v 76 1 == 1) != host || decide (16 < allow)
        || decide (wlog < 6) || decide (23 < wlog) || wbase % wsize != 0 || decide (2 ^ p.clog < wbase + wsize) then (.error 9, s)
    else if 256 < len then (.error 1, s)
    else
      match loadRead s fn part (fld v 0 64) (4 * len) with
      | (none, s) => (.error 9, s)
      | (some cs, s) =>
        let code := (List.range len).map (fun i => BitVec.ofNat 32 (ofBytes (slice cs (4 * i) 4)))
        match checkRoutine code (fld v 73 3) host wsize with
        | 0 => (.ok (fld v 73 3, { code := code, allow := 64 * (if allow = 0 then 4 else allow), wsize := wsize, wbase := wbase }), s)
        | n => (.error n, s)

/-- REEVE_LOAD: reading and checking begin; a write while LOADING is ignored (DEDUCED, log 90). -/
def execEvReeveLoad (fn : Fn) (addr : DWord) (s : State) : Host.Outcome State Fault Refusal :=
  let c := fnNow s fn
  if !fnOpen s c then .next s
  else if isPf c then
    .next (setPart s (c - 128) (fun p => { p with hostLoading := some (p.hostLoading.getD addr) }))
  else .next (setFn s c (fun f => { f with loading := some (f.loading.getD addr) }))

/-- The outcome of a load in a routine table. -/
def loadedInto (t : Tbl Routine) (r : Except Nat (Nat × Routine)) : Tbl Routine × Nat :=
  match r with
  | .ok (p, r) => (Tbl.put t p r, 0)
  | .error n => (t, n)

/-- The function whose load ends: the PF's is that of the partition it was written for, whatever PF_PART names now. -/
def loadingFn (s : State) (fn : Fn) : Nat :=
  match fn, s.parts.find? (fun e => e.2.hostLoading.isSome) with
  | .pf, some e => 128 + e.1
  | _, _ => fnNow s fn

/-- REEVE_LOAD_COMPLETE (R343, R344). -/
def execEvReeveLoadComplete (fn : Fn) (s : State) : Host.Outcome State Fault Refusal :=
  let c := loadingFn s fn
  if isPf c then
    let p := partOf s (c - 128)
    match p.hostLoading with
    | none => .next s
    | some a =>
      let q := loadResult s c (c - 128) a.toNat
      let r := loadedInto p.hostRoutines q.1
      .next (setPart q.2 (c - 128) (fun p => { p with hostRoutines := r.1, hostLastcode := r.2, hostLoading := none }))
  else
    let f := fnOf s c
    match f.loading with
    | none => .next s
    | some a =>
      let q := loadResult s c f.part a.toNat
      let r := loadedInto f.routines q.1
      .next (setFn q.2 c (fun f => { f with routines := r.1, lastcode := r.2, loading := none }))

def mapRoutines (s : State) (c : Nat) (f : Tbl Routine → Tbl Routine) : State :=
  if isPf c then setPart s (c - 128) (fun p => { p with hostRoutines := f p.hostRoutines })
  else setFn s c (fun q => { q with routines := f q.routines })

/-- REEVE_CTL with UNLOAD 0: clears SUSPENDED for the selected points. -/
def execEvReeveCtlArm (fn : Fn) (v : DWord) (s : State) : Host.Outcome State Fault Refusal :=
  let c := fnNow s fn
  if !fnOpen s c || v.getLsbD 8 then .next s
  else .next (mapRoutines s c (fun t => Tbl.mapV t (fun p r => if decide (p < 6) && v.getLsbD p then { r with suspended := false } else r)))

/-- REEVE_CTL with UNLOAD 1: removes the selected routines. -/
def execEvReeveCtlUnload (fn : Fn) (v : DWord) (s : State) : Host.Outcome State Fault Refusal :=
  let c := fnNow s fn
  if !fnOpen s c || !v.getLsbD 8 then .next s
  else .next (mapRoutines s c (fun t => Tbl.keep t (fun p _ => !(decide (p < 6) && v.getLsbD p))))

end Sys2Proof.Machine
end

