-- ==== Sys2Proof/Machine/Power.lean ====
section
/-! DEFINITION. Device time (R406), usage records (R407-R410), lifetime histograms (R413, R451), lane ratio, passes, tokens and
rail votes (R414-R416). -/

namespace Sys2Proof.Machine

open Sys2Proof

/-! ## Device time (R406) -/

/-- PTM_ALIGN: the offset that the coming time removes (DEDUCED, log 110). -/
def execEvPtmAlign (offset : Int) (s : State) : Host.Outcome State Fault Refusal :=
  .next (if s.dev.ready then { s with ptm := offset } else s)

/-- ns of device time in `n` cycles: nominal, changed by at most 100 ppm while an offset is left. -/
def elapsed (ptm : Int) (n : Nat) : Nat × Int :=
  let d := clampI (-(n / 10000 : Nat)) ((n / 10000 : Nat) : Int) ptm
  (((n : Int) + d).toNat, ptm - d)

/-! ## Usage records (R407, R408) -/

/-- Bytes 0 to 255 of a record. -/
def usageBody (r : UsageRec) : List Byte :=
  toBytes 4 1 ++ toBytes 4 (if r.final then 2 else 1) ++ toBytes 8 r.seq ++ toBytes 8 r.incarn ++ toBytes 4 r.part
    ++ toBytes 4 r.skipped ++ toBytes 16 r.vfmap ++ toBytes 8 r.time ++ r.counters.flatMap (toBytes 8) ++ slice r.prev 0 48
    ++ (List.range 48).map Config.identityByte ++ List.replicate 48 0

/-- Both signatures over some bytes (R23). -/
def signatures (bs : List Byte) : List Byte :=
  (List.range 384).map (Config.rsaByte bs) ++ (List.range 7856).map (Config.slhByte bs)

/-- The 8,496 bytes of a record. -/
def usageBytes (r : UsageRec) : List Byte := let b := usageBody r; b ++ signatures b

/-- VFs bound to a partition, as a mask. -/
def boundMask (s : State) (p : Nat) : Nat :=
  (s.fns.filter (fun e => decide (e.1 < 128) && e.2.bound && e.2.part == p)).foldl (fun a e => a + 2 ^ e.1) 0

/-- Emits a record of a partition, at this instant of device time (R405). -/
def emitRecord (s : State) (p : Nat) (final : Bool) : State :=
  let s := settleMs s p
  let q := partOf s p
  let r : UsageRec :=
    { final := final, seq := q.nextSeq, incarn := q.incarn, part := p, skipped := q.skipped, vfmap := boundMask s p, time := s.time
      counters := (List.range 7).map (meterRead q), prev := if q.nextSeq = 0 then [] else q.prev }
  let first := q.usage.isEmpty
  let s := setPart s p (fun q =>
    { q with usage := q.usage ++ [r], nextSeq := q.nextSeq + 1, skipped := 0, prev := sha384 (usageBytes r) })
  if first then raiseMsix s 128 2 else s

/-- Is a PERIODIC record due? -/
def recordDue (s : State) (p : Partition) : Bool := p.st == .live && decide (p.t0 + (p.periods + 1) * 1000000000 ≤ s.time)

/-- USAGE_RECORD_PERIODIC (R407). -/
def execEvUsageRecordPeriodic (p : Fin 64) (s : State) : Host.Outcome State Fault Refusal :=
  let q := partOf s p.val
  if !recordDue s q then .next s
  else
    let s := setPart s p.val (fun q => { q with periods := q.periods + 1 })
    .next (if 15 ≤ q.usage.length then setPart s p.val (fun q => { q with skipped := q.skipped + 1 }) else emitRecord s p.val false)

/-! ## USAGE_PULL (R410) -/

/-- AUX of USAGE_DONE, PART_DONE and CAIRN_DONE: OP, PART, CODE in bytes 0 to 2, SEQ or count in bytes 8 to 15 (log 38). -/
def doneAux (op part code n : Nat) : List Byte := toBytes 1 op ++ toBytes 1 part ++ toBytes 1 code ++ toBytes 5 0 ++ toBytes 8 n

def noSeq : Nat := 2 ^ 64 - 1

/-- Can the host take a partition's records? Those there when DRAIN ends are kept for the DESTROY buffer (R410). -/
def pullable (p : Partition) : Bool := p.st == .live || p.st == .drain

/-- The first of the waiting writes begins: the oldest record goes to the host. -/
def beginPull (s : State) : State :=
  match s.pulls with
  | [] => s
  | y :: rest =>
    match if pullable (partOf s y.part) then (partOf s y.part).usage else [] with
    | r :: _ =>
      { s with hostMem := putBytes s.hostMem y.io (usageBytes r), pulls := { y with seq := some r.seq } :: rest }
    | [] => { s with pulls := { y with seq := none } :: rest }

/-- USAGE_PULL. -/
def execEvUsagePull (v : DWord) (s : State) : Host.Outcome State Fault Refusal :=
  if !fnOpen s 128 then .next s
  else
    let y : Pull := { part := v.toNat % 64, io := v.toNat / 4096 * 4096 }
    let s' := { s with pulls := s.pulls ++ [y] }
    .next (if s.pulls.isEmpty then beginPull s' else s')

/-- A record is removed once its write is complete; vector 2 again when others are left (R446). -/
def dropRecord (s : State) (p seq : Nat) : State :=
  let us := (partOf s p).usage
  let s := setPart s p (fun q => { q with usage := q.usage.filter (fun r => r.seq != seq) })
  if us.any (fun r => r.seq != seq) then raiseMsix s 128 2 else s

/-- USAGE_DONE. -/
def execEvUsageDone (s : State) : Host.Outcome State Fault Refusal :=
  match s.pulls with
  | [] => .next s
  | y :: rest =>
    let s := { s with pulls := rest }
    let s := match y.seq with
      | some n => dropRecord s y.part n
      | none => s
    .next (beginPull (postEvent s 128 { code := evUsageDone, aux := doneAux 0 y.part 0 (y.seq.getD noSeq) }))

/-! ## Lifetime histograms (R413, R451) -/

/-- Level of a die's rail: the highest vote among the partitions that hold slices on it (R416). -/
def railLevel (s : State) (die : Nat) : Nat :=
  (s.parts.filter (fun p => p.2.st != .free && (partSlices p.2).any (fun c => dieOfCluster c == die))).foldl
    (fun a p => max a (fld p.2.railVote.toNat 0 3)) 0

def bump (l : List Nat) (n i : Nat) : List Nat := (List.range n).map (fun j => nth l j 0 + if j = i then 1 else 0)

/-- One more hour: the temperature bins and the correctable errors come from outside, free values; the rail bins count the
level at the end of the hour (log 39). -/
def countHour (s : State) : State :=
  let s := (List.range 16).foldl (fun s d =>
    let v := freeVal s
    { v.2 with life := { v.2.life with
        temp := Tbl.upd v.2.life.temp d [] (fun l => bump l 16 (v.1 % 16))
        rail := Tbl.upd v.2.life.rail d [] (fun l => bump l 8 (railLevel s d)) } }) s
  let s := (List.range 192).foldl (fun s g =>
    let v := freeVal s
    { v.2 with life := { v.2.life with errors := Tbl.upd v.2.life.errors g 0 (fun n => n + v.1) } }) s
  { s with life := { s.life with hours := s.life.hours + 1 } }

def writeLife (s : State) : State := { s with lifeFlash := s.life }

/-- LIFE_HISTOGRAM_WRITE: once per hour of power-on time; time does not pass the hour before it (log 109). -/
def execEvLifeHistogramWrite (s : State) : Host.Outcome State Fault Refusal :=
  .next (if s.dev.ready && decide (s.lifeAt + hourNs ≤ s.time) then { writeLife (countHour s) with lifeAt := s.lifeAt + hourNs } else s)

/-- ORDERLY_SHUTDOWN: the histograms are written before the power goes (R413; `powerLoss`). -/
def execEvOrderlyShutdown (s : State) : Host.Outcome State Fault Refusal := .next (if s.dev.ready then writeLife s else s)

/-- The power goes, at any moment: what stands in module flash stays (R413, R450), with the numbers that never repeat (R379) and what
is not the device's own (DEDUCED, log 169). -/
def powerLoss (s : State) : State :=
  { State.reset with
    turns := s.turns, free := s.free, serial := s.serial, receiptSeq := s.receiptSeq, importKey := s.importKey
    links := Tbl.mapV s.links (fun _ l => { keys := l.keys })
    lifeFlash := s.lifeFlash, life := s.lifeFlash, retired := s.retired, repairs := s.repairs, vendor := s.vendor
    excludedSlices := s.excludedSlices, hostMem := s.hostMem, peerMem := s.peerMem, peerRefuses := s.peerRefuses }

/-- What the field part depends on. -/
def lifeWords (l : Life) : List Nat :=
  l.temp.flatMap (·.2) ++ l.rail.flatMap (·.2) ++ l.errors.map (·.2) ++ l.retired.map (·.2) ++ l.repaired.map (·.2)
    ++ [l.hours, l.cycles]

def repairWords (r : Repairs) : List Nat := r.cores.flatMap (·.2) ++ r.lanes.flatMap (·.2) ++ r.rows.flatMap (·.2)

/-- The field part of the configuration image, signatures included (R450). -/
def fieldPart (s : State) : List Byte :=
  (List.range Config.fieldPartLen).map (Config.fieldPartByte (lifeWords s.lifeFlash ++ repairWords s.repairs) s.retired)

/-- LIFE_READ (R451). -/
def execEvLifeRead (v : DWord) (s : State) : Host.Outcome State Fault Refusal :=
  if !fnOpen s 128 then .next s
  else
    let s := { s with hostMem := putBytes s.hostMem (v.toNat / 4096 * 4096) (fieldPart s) }
    .next (postEvent s 128 { code := evUsageDone, aux := doneAux 0 0 0 (2 ^ 64 - 2) })

/-! ## Lane ratio, passes, tokens, votes (R414-R416) -/

/-- The cap that a vote sets, as a ratio code (R416). -/
def ratioCap (vote : Nat) : Nat := if vote ≤ 2 then 0 else if vote ≤ 5 then 1 else 2

/-- LANE_RATIO_APPLY: CUR takes the target, within the cap of the cluster's own partition (R414). -/
def execEvLaneRatioApply (cl : Fin 192) (s : State) : Host.Outcome State Fault Refusal :=
  match partOfSlice s cl.val with
  | none => .next s
  | some p =>
    .next (setCluster s cl.val (fun c => { c with laneCur := min c.laneTgt (ratioCap (fld (partOf s p).railVote.toNat 0 3)) }))

/-- PASS_COUNT_SET (R415). -/
def execEvPassCountSet (cl : Fin 192) (v : BitVec 2) (s : State) : Host.Outcome State Fault Refusal :=
  .next (if v = 3 then s else setCluster s cl.val (fun c => { c with pass := v.toNat }))

/-- `n` tokens: those there stay, new ones start at free places of the ring (log 40). -/
def placeTokens (s : State) : Nat → List Nat → List Nat × State
  | 0, ts => (ts, s)
  | n + 1, ts => let v := freeVal s; placeTokens v.2 n (ts ++ [v.1 % 12])

/-- POWER_TOKENS_SET: 1 to 12 tokens (R416). -/
def execEvPowerTokensSet (die : Fin 16) (n : Nat) (s : State) : Host.Outcome State Fault Refusal :=
  if n = 0 || decide (12 < n) then .next s
  else
    let ts := (dieOf s die.val).tokens
    let r := placeTokens s (n - ts.length) (ts.take n)
    .next (setDie r.2 die.val (fun d => { d with tokens := r.1 }))

/-- MATRIX_TOKEN_ADVANCE: every 64 front-end cycles each token moves to the next slice (R416). -/
def execEvMatrixTokenAdvance (die : Fin 16) (s : State) : Host.Outcome State Fault Refusal :=
  let d := dieOf s die.val
  .next (if d.tokenCycles + 64 ≤ s.clock then
    setDie s die.val (fun d => { d with tokens := d.tokens.map (fun t => (t + 1) % 12), tokenCycles := d.tokenCycles + 64 }) else s)

/-- RAIL_VOTE (R416). -/
def execEvRailVote (p : Fin 64) (v : DWord) (s : State) : Host.Outcome State Fault Refusal :=
  .next (if fnOpen s 128 then setPart s p.val (fun q => { q with railVote := BitVec.ofNat 64 (v.toNat % 8) }) else s)

end Sys2Proof.Machine
end

