-- ==== Sys2Proof/Machine/Holds.lean ====
section
/-! DEFINITION. Events of strands that wait: values return (R242, R260, R423), holds end (R37), the fairness timer (R39), the
squeeze and the restore of spilled strands (R101, R102). -/

namespace Sys2Proof.Machine

open Sys2Proof

/-! ## Values return -/

/-- Does an outstanding instruction wait for values: of memory, or of a long-latency unit (R77)? -/
def awaits (d : Pend) : Bool := !d.reissue && (isBwait d.instr).isNone && d.lanes &&& ~~~d.ready != 0

/-- An uncorrectable error that lanes met at their home: the lowest is named, and none of them gets a value (R259). -/
def raiseBad (s : State) (uid k : Nat) (d : Pend) : State :=
  if d.bad = 0 then s
  else
    let f := uncorrOf (fun l => nth d.addr l 0) (lowest d.bad) (doneLanes d &&& ~~~d.bad)
    laterFault (setStrand s uid k (fun t => setPend t d.id (fun q => { q with bad := 0, lanes := q.lanes &&& ~~~faultLanes d d.bad }))) uid k d.pc
      { f with lanes := faultLanes d f.lanes }

/-- The waiting lanes of an instruction are performed at their homes; the event waits while it would post a record that finds the event
queue full (R242, R259, log 12). -/
def performWaiting (s : State) (uid k : Nat) (d : Pend) : Option State :=
  let s' := performTodo s uid k (fun _ => true) d
  match (strand? s' uid k).bind (fun t => t.pends.find? (fun q => q.id == d.id)), unit? s uid with
  | some q, some w => if q.bad != 0 && !recordRoom s w.lid then none else some (raiseBad s' uid k q)
  | _, _ => some s'

/-- MEMORY_RESPONSE of a strand: every lane that is not parked has its value; a memory response with a stale generation tag is dropped
(R423). -/
def execEvMemoryResponse (uid k id : Nat) (gen : Byte) (s : State) : Host.Outcome State Fault Refusal :=
  match (strand? s uid k).bind (fun t => t.pends.find? (fun d => d.id == id)) with
  | none => .next s
  | some d =>
    if !awaits d || ((memKind d.instr).isSome && d.gen != gen) then .next s
    else
      match performWaiting s uid k d with
      | none => .next s
      | some s => .next (setStrand s uid k (fun t => settle (setPend t id (fun q => { q with ready := q.ready ||| returnable q }))))

/-- The oldest `ldu` that a span waits for returns (R58). -/
def returnWin : List SWin → List SWin
  | [] => []
  | w :: r => if !w.waits then w :: returnWin r else { w with returned := true } :: r

/-- A value whose window has closed is written; the span goes on when none is missing (R58, R78). -/
def spanReturn (sp : Span) : Span :=
  let ws := returnWin sp.wins
  let due := ws.filter (fun w => w.returned && w.left == 0)
  let sp := due.foldl (fun sp w => { sp with aff := setNth sp.aff w.n (affWrite (spanAff sp w.n) w.part ⟨w.data, 0⟩) }) sp
  let ws := ws.filter (fun w => !(w.returned && w.left == 0))
  { sp with wins := ws
            st := if sp.st == .ldu && !ws.any (fun w => w.left == 0) then .run else sp.st }

/-- MEMORY_RESPONSE of a span's `ldu` (R58). -/
def execEvSpanResponse (inUnit : Bool) (owner slot : Nat) (s : State) : Host.Outcome State Fault Refusal :=
  .next (setSpans s (if inUnit then .unit owner else .table owner) (fun t => Tbl.upd? t slot spanReturn))

/-! ## Holds end -/

/-- A fully signed `mma` that has found no room yet (R206). -/
def signStuck (t : Strand) : Bool := t.convs.any (fun v => v.st == .matrix && v.op.isSome && fullySigned t v)

/-- RESOURCE_HOLD_END (R37): the strand's held paths may issue again; each meets its hold again where it still stands. -/
def execEvResourceHoldEnd (uid k : Nat) (s : State) : Host.Outcome State Fault Refusal :=
  let s := retryRoom (tryMatrix (raiseOwed s uid k) uid k) uid k
  .next (setStrand s uid k (fun t =>
    if signStuck t || t.isSpilled then t
    else { t with paths := t.paths.map (fun p => if p.st = .hold then { p with st := .run } else p) }))

/-- FAIRNESS_TIMER_EXPIRY (R39). -/
def execEvFairnessTimerExpiry (uid k : Nat) (s : State) : Host.Outcome State Fault Refusal :=
  match unit? s uid with
  | none => .next s
  | some w =>
    match launch? s w.lid with
    | none => .next s
    | some l =>
      .next (setStrand s uid k (fun t => if 64 ≤ t.timer && !l.lpb.noprog then rotate t t.cur false else t))

/-! ## The squeeze (R101) -/

/-- Is a strand held in `bwait`: one path waits at a barrier, and none can issue or is held on a resource? (DESIGN CHOICE, log 146) -/
def heldBwait (t : Strand) : Bool := t.paths.any (fun p => p.st == .bwait) && t.paths.all (fun p => p.st != .run && p.st != .hold)

def unblocked (t : Strand) : Bool :=
  !heldBwait t && t.token.isNone && t.pends.all (fun d => d.parked.isEmpty) && !t.isSpilled && !t.completed

/-- The allocations of a strand that wait on the pool: those that no restore has completed. -/
def waitingStalls (t : Strand) : List Stall := if t.isSpilled || t.completed then [] else t.stalls.filter (fun a => a.granted == 0)

def stalledNow (t : Strand) : Bool := !(waitingStalls t).isEmpty

/-- Does the quarter resolve a squeeze now? -/
def squeezed (s : State) (core q : Nat) : Bool :=
  let ts := (quarterStrands s core q).map (·.2.2)
  ts.any stalledNow &&
    (ts.all (fun t => !unblocked t || stalledNow t)
      || ts.any (fun t => (waitingStalls t).any (fun a => decide (4096 ≤ s.clock - a.since))))

/-- Writes the strand's mapped registers beyond G, the highest names, to its spill memory (DESIGN CHOICE, log 132). -/
def spill (t : Strand) : Strand :=
  let n := held t - t.g
  let keep := t.regs.length - n
  { t with spilled := t.regs.drop keep, regs := t.regs.take keep, isSpilled := true, spillUsed := true }

/-- The youngest candidate: strands are listed by unit age and number. -/
def youngest (s : State) (core q : Nat) : Option (Nat × Nat) :=
  (((quarterStrands s core q).filter (fun e =>
    (stalledNow e.2.2 || heldBwait e.2.2) && !e.2.2.isSpilled && decide (e.2.2.g < held e.2.2) && !e.2.2.regs.isEmpty)).getLast?).map
    (fun e => (e.1, e.2.1))

def someSatisfied (s : State) (core q : Nat) : Bool :=
  (quarterStrands s core q).any (fun e => (waitingStalls e.2.2).any (fun a => decide (a.need ≤ poolFree s core q)))

/-- Can a strand that may issue now take what it stalls on (R101)? -/
def takesNow (s : State) (core q : Nat) : Bool :=
  (quarterStrands s core q).any (fun e => unblocked e.2.2 && (waitingStalls e.2.2).any (fun a => decide (a.need ≤ poolFree s core q)))

/-- Steps 1 to 4 of R101. -/
def resolveSqueeze (core q : Nat) : Nat → State → State
  | 0, s => s
  | n + 1, s =>
    match youngest s core q with
    | none => s
    | some (uid, k) =>
      let s := spillOut (setStrand s uid k spill) uid k
      if someSatisfied s core q then s else resolveSqueeze core q n s

/-- SQUEEZE (R101). -/
def execEvSqueeze (core : Fin 384) (q : Fin 4) (s : State) : Host.Outcome State Fault Refusal :=
  .next (if squeezed s core.val q.val && !someSatisfied s core.val q.val then resolveSqueeze core.val q.val 256 s else s)

/-- A spilled register joins what has been written to its name meanwhile: a value that returns for a spilled name goes to a register
of its own until the restore (DESIGN CHOICE, log 145). -/
def mergeReg (old : VReg) (new : Option VReg) : VReg :=
  match new with
  | none => old
  | some r => ⟨old.mask ||| r.mask,
      (List.range 32).map (fun l => if lane r.mask l then nth r.words l 0 else nth old.words l 0), r.bank⟩

/-- The registers that the allocations of a strand wait for. -/
def stallNeed (t : Strand) : Nat := ((t.stalls.filter (fun a => a.granted == 0)).map (·.need)).foldl (· + ·) 0

/-- The strand has its spilled registers back, and those of the allocations it stalled on: each path keeps its own until it issues
(R102). -/
def unspill (t : Strand) : Strand :=
  { t with regs := t.spilled.foldl (fun r e => Tbl.put r e.1 (mergeReg { e.2 with bank := 0 } (Tbl.find? r e.1))) t.regs
           spilled := [], isSpilled := false
           stalls := t.stalls.map (fun a => if a.granted = 0 then { a with granted := a.need } else a)
           paths := t.paths.map (fun p => if p.st = .hold then { p with st := .run } else p) }

/-- SPILL_RESTORE: the oldest SPILLED strand of a quarter, once the pool holds its whole set (R102). Allocations that the pool satisfies
are made first, as in the example of a squeeze in chapter 6 (DEDUCED, log 83). -/
def execEvSpillRestore (core : Fin 384) (q : Fin 4) (s : State) : Host.Outcome State Fault Refusal :=
  match (quarterStrands s core.val q.val).find? (fun e => e.2.2.isSpilled) with
  | none => .next s
  | some e =>
    if !takesNow s core.val q.val && decide (e.2.2.spilled.length + stallNeed e.2.2 ≤ poolFree s core.val q.val) then
      .next (setStrand (spillIn s e.1 e.2.1) e.1 e.2.1 unspill)
    else .next s

end Sys2Proof.Machine
end

