-- ==== Sys2Proof/Machine/System.lean ====
section
/-! DEFINITION. Group 15: `sget`, `sset`, `zsig`, `tlbinv`, `cmaint`, `halt`, `bulk`, `wsel` and `nmsync` (R433-R442, R295,
R296), with the events that carry them out: world moves (R382), halts (R423-R425, R431, R440), bulk engines (R364, R432). -/

namespace Sys2Proof.Machine

open Sys2Proof

/-! ## Operands -/

/-- DEDUCED, log 60 (DEDUCED, log 94). -/
def protFault (x : Ctx) (reason : Nat) : FaultInfo := { code := fProt, reason := reason, lanes := x.tm }

/-- Operand B in the lowest lane of T. -/
def lowB (x : Ctx) (o : Ops) : Nat := readSrc x rd32 o.b x.low

/-- Where a memory block lies: global, aligned, translated (R257, R433). -/
def blockLoc (x : Ctx) (s : State) (a align n : Nat) (need : Rights) : Except Res Loc × State :=
  match window a n with
  | .global va =>
    if a % align ≠ 0 then (.error (.fault { code := fAlign, lanes := x.tm, addrs := addrList x.tm (fun _ => a) }), s)
    else
      let t := translate s x.w.core x.l.fn x.l.part va n need (!isPf x.l.fn)
      match t.1 with
      | .ok loc => (.ok loc, t.2)
      | .error e => (.error (failWhole t.2 x need e (addrList x.tm (fun _ => a))), t.2)
  | _ => (.error (.fault { protFault x 1 with addrs := addrList x.tm (fun _ => a) }), s)

/-- A block that another agent writes: at its home, as a `.sys` release. -/
def putBlock (s : State) (loc : Loc) (off : Nat) (bs : List Byte) : State := writeHome s false (loc.plus off) bs

/-! ## System registers (R434-R436) -/

/-- The selector of R434. -/
structure SysSel where
  reg : Nat
  core : Nat
  vf : Nat
deriving DecidableEq, Repr

/-- None where the selector raises PROT. -/
def sysSel (v : Nat) : Option SysSel :=
  if fld v 24 8 != 0 || decide (15 < fld v 0 8) || decide (383 < fld v 8 9) then none else some ⟨fld v 0 8, fld v 8 9, fld v 17 7⟩

def nibbles (l : List Nat) : Nat := (l.zipIdx).foldl (fun a e => a + e.1 % 16 * 2 ^ (4 * e.2)) 0
def flags (l : List Bool) : Nat := (l.zipIdx).foldl (fun a e => if e.1 then a + 2 ^ e.2 else a) 0

/-- XC: banks that every quarter has been lent (R228). -/
def lentBanks (c : Core) : Nat := min (min (nth c.xq 0 0) (nth c.xq 1 0)) (min (nth c.xq 2 0) (nth c.xq 3 0))

/-- ARRAY_SPLIT (R228; DEDUCED, log 103). -/
def readSplit (c : Core) : Nat :=
  c.xt + c.st * 2 ^ 4 + c.lt * 2 ^ 10 + lentBanks c * 2 ^ 32 + c.sc * 2 ^ 36 + c.lc * 2 ^ 42
    + (if c.xq.any (· != c.xt) || c.sc != c.st || c.lc != c.lt then 2 ^ 48 else 0)

/-- WORLD_MAP (R382). -/
def readWorlds (c : Core) : Nat :=
  nibbles c.wTgt + nibbles c.wCur * 2 ^ 16 + flags c.wPend * 2 ^ 32 + flags c.wFail * 2 ^ 36

/-- The value of a system register (R435). -/
def sysRead (s : State) (part : Nat) (x : SysSel) : Nat :=
  let cl := clusterOf s (x.core / 2)
  let f := fnOf s x.vf
  match x.reg with
  | 0 => readSplit (coreOf s x.core)
  | 1 => cl.laneTgt + 4 * cl.laneCur
  | 2 => cl.pass
  | 3 => readWorlds (coreOf s x.core)
  | 12 => f.saveArea.toNat
  | 13 => f.debugWord.toNat
  | 14 => (partOf s part).railVote.toNat
  | 15 => (partOf s part).pfCairn.toNat
  | n => (nth f.cairnBind (n - 4) 0).toNat

/-- Every register that a quarter maps: unit, strand, name, and the departing bank it lies in (R104). -/
def quarterRegs (s : State) (core q : Nat) : List (Nat × Nat × Nat × Nat) :=
  (quarterStrands s core q).flatMap (fun e => e.2.2.regs.map (fun r => (e.1, e.2.1, r.1, r.2.bank)))

/-- A mapped register lies in bank `b`. -/
def putBank (s : State) (uid k n b : Nat) : State :=
  setStrand s uid k (fun t => { t with regs := Tbl.upd? t.regs n (fun r => { r with bank := b }) })

/-- The lent banks `lo + 1` to `hi` of a quarter begin to depart. Which of them holds a mapped register is not visible: a free value
chooses among those with room, and the banks that stay, number 0 (R104; DESIGN CHOICE, log 150). -/
def departBanks (core q lo hi : Nat) (s : State) : State :=
  let old := quarterRegs s core q
  (old.filter (fun r => r.2.2.2 == 0)).foldl (fun s r =>
    let v := freeVal s
    let used (b : Nat) : Nat := ((quarterRegs s core q).filter (fun e => e.2.2.2 == b)).length
    let room := (List.range (hi - lo)).map (fun i => lo + 1 + i)
    let room := room.filter (fun b => decide (used b < 384)) ++ (if used 0 ≤ 8192 + 384 * lo then [0] else [])
    putBank v.2 r.1 r.2.1 r.2.2.1 (nth room (v.1 % room.length) 0)) s

/-- Banks up to `xt` of a quarter stay after all (R104). -/
def keepBanks (core q xt : Nat) (s : State) : State :=
  (quarterRegs s core q).foldl (fun s r => if r.2.2.2 ≤ xt then putBank s r.1 r.2.1 r.2.2.1 0 else s) s

/-- A new target of the lent banks (R104, R229). -/
def setLent (s : State) (core xt : Nat) : State :=
  let c := coreOf s core
  (List.range 4).foldl (fun s q =>
    let top := min (nth c.xq q 0) c.xt
    if xt < top then departBanks core q xt top s else keepBanks core q xt s) s

/-- Targets of ARRAY_SPLIT; an invalid write is ignored (R228). -/
def setSplit (s : State) (core v : Nat) : State :=
  let xt := fld v 0 4
  let st := fld v 4 6
  let lt := fld v 10 6
  if 4 * xt + st + lt = 48 ∧ 8 ≤ lt ∧ xt ≤ 10 then setCore (setLent s core xt) core (fun c => { c with xt := xt, st := st, lt := lt })
  else s

/-- A write of a system register (R434-R436); none where it raises PROT. Bits that are reserved or read only keep their
value (R4). -/
def sysWrite (s : State) (part : Nat) (x : SysSel) (v : Nat) : Option State :=
  match x.reg with
  | 0 => some (setSplit s x.core v)
  | 1 => some (if fld v 0 2 = 3 then s else setCluster s (x.core / 2) (fun c => { c with laneTgt := fld v 0 2 }))
  | 2 => none
  | 3 => some (setCore s x.core (fun c => { c with wTgt := (List.range 4).map (fun q => fld v (4 * q) 4) }))
  | 12 =>
    -- ignored while the VF holds an image (R436)
    some (if s.images.any (fun e => e.2.fn == x.vf) then s else setFn s x.vf (fun f => { f with saveArea := BitVec.ofNat 64 v }))
  | 13 => some (setFn s x.vf (fun f => { f with debugWord := BitVec.ofNat 64 (v % 4) }))
  | 14 => some (setPart s part (fun p => { p with railVote := BitVec.ofNat 64 (v % 8) }))
  | 15 => some (setPart s part (fun p => { p with pfCairn := BitVec.ofNat 64 (v % 512) }))
  | n => some (setFn s x.vf (fun f => { f with cairnBind := setNth f.cairnBind (n - 4) (BitVec.ofNat 32 (v % 2048)) }))

/-- Waiting concurrent launches of a core's partition are checked again after its split changed (R34); one not yet cut into units is
checked at its admission. -/
def recheckWaiting (s : State) (core : Nat) : State :=
  match partOfSlice s (core / 2) with
  | none => s
  | some p =>
    ((s.launches.filter (fun e => e.2.concWait && e.2.part == p)).map (·.1)).foldl (fun s lid =>
      match launch? s lid with
      | some l => if l.concWait && !l.inTable && l.ending.isNone && !launchFits s l then refuseWaiting s lid else s
      | none => s) s

/-- `sget` (R434). -/
def execSget (c : Ctl) (o : Ops) (s : State) : Host.Outcome State Fault Refusal :=
  ramson (.sget c o) (fun x s =>
    match sysSel (lowB x o) with
    | none => .fault (protFault x 7)
    | some r => giveVec x s x.st (.sget c o) c o.d 2 (fun _ => sysRead s x.l.part r)) s

/-- `sset` (R434). -/
def execSset (c : Ctl) (o : Ops) (s : State) : Host.Outcome State Fault Refusal :=
  ramson (.sset c o) (fun x s =>
    match sysSel (lowB x o) with
    | none => .fault (protFault x 7)
    | some r =>
      match sysWrite s x.l.part r (readSrc x (.int 2 false) o.d x.low) with
      | none => .fault (protFault x 7)
      | some s => .go { s := s, t := x.st, after := fun s => if r.reg = 0 then recheckWaiting s r.core else s }) s

/-! ## Bank moves (R229) -/

/-- The departing bank of a quarter that holds no mapped register, the lowest (R104). -/
def emptyBank (s : State) (core q : Nat) : Option Nat :=
  let c := coreOf s core
  ((List.range (nth c.xq q 0 - c.xt)).map (fun i => c.xt + 1 + i)).find? (fun b => !(quarterRegs s core q).any (fun r => r.2.2.2 == b))

/-- It has left: the highest departing bank takes its number. -/
def dropBank (s : State) (core q b : Nat) : State :=
  (quarterRegs s core q).foldl (fun s r => if r.2.2.2 = nth (coreOf s core).xq q 0 then putBank s r.1 r.2.1 r.2.2.1 b else s) s

/-- A scratchpad bank in which no resident unit's allocation lies, the highest (R229). -/
def freeScratch (s : State) (core : Nat) : Option Nat := (List.range (coreOf s core).sc).reverse.find? (fun b => !bankHeld (bankUse s core) b)

/-- It has left: the highest bank takes its number. -/
def dropScratch (s : State) (core b : Nat) : State :=
  let top := (coreOf s core).sc - 1
  { s with units := Tbl.mapV s.units (fun _ w => if w.core = core then
      { w with banks := w.banks.foldl (fun t e => Tbl.put t (if e.1 = top then b else e.1) e.2) [] } else w) }

/-- May a bank leave its role? -/
def bankLeaves (s : State) (core : Nat) : BankRole → Bool
  | .regext q => (emptyBank s core q.val).isSome
  | .scratch =>
    let c := coreOf s core
    decide (c.st < c.sc) && (freeScratch s core).isSome
  | .l1 => decide ((coreOf s core).lt < (coreOf s core).lc)

/-- Does a role want a bank? -/
def bankJoins (c : Core) : BankRole → Bool
  | .regext q => decide (nth c.xq q.val 0 < c.xt)
  | .scratch => decide (c.sc < c.st)
  | .l1 => decide (c.lc < c.lt)

def takeBank (c : Core) : BankRole → Core
  | .regext q => { c with xq := setNth c.xq q.val (nth c.xq q.val 0 - 1) }
  | .scratch => { c with sc := c.sc - 1 }
  | .l1 => { c with lc := c.lc - 1 }
def giveBank (c : Core) : BankRole → Core
  | .regext q => { c with xq := setNth c.xq q.val (nth c.xq q.val 0 + 1) }
  | .scratch => { c with sc := c.sc + 1 }
  | .l1 => { c with lc := c.lc + 1 }

/-- Lines leave an L1 until it holds at most `most`. -/
def l1Fit (core most : Nat) : Nat → State → State
  | 0, s => s
  | n + 1, s =>
    let c := coreOf s core
    let k := (l1Lines c).length + c.cairn.length
    if k ≤ most then s
    else
      let v := freeVal s
      l1Fit core most n (l1Leave v.2 core (v.1 % k))

/-- The lines of a departing L1 bank are written back and invalidated; which lines it holds is not visible: a free value names
them (DESIGN CHOICE, log 102), and what stays fits the other banks (R226). -/
def dropL1Bank (s : State) (core : Nat) : State :=
  let v := freeVal s
  let s := l1Drop v.2 core (fun a => v.1.testBit (lineNo a))
  let c := coreOf s core
  l1Fit core ((c.lc - 1) * 256) (c.l1.length + c.cairn.length) s

/-- BANK_MOVE (R229): one bank from a role above its target to one below; waiting concurrent launches are checked again (R34). -/
def execEvBankMove (core : Fin 384) (src dst : BankRole) (s : State) : Host.Outcome State Fault Refusal :=
  if !bankLeaves s core.val src || !bankJoins (coreOf s core.val) dst then .next s
  else
    let s := match src with
      | .l1 => dropL1Bank s core.val
      | .regext q => match emptyBank s core.val q.val with | some b => dropBank s core.val q.val b | none => s
      | .scratch => match freeScratch s core.val with | some b => dropScratch s core.val b | none => s
    .next (recheckWaiting (setCore s core.val (fun c => giveBank (takeBank c src) dst)) core.val)

/-! ## Worlds (R382, R437, R442) -/

/-- Strands of a quarter that have not ended. -/
def quarterBusy (s : State) (core q : Nat) : Bool := (quarterStrands s core q).any (fun e => !e.2.2.completed)

/-- Nonzero words of a strand in its quarter's arrays, beside the lanes and PC of a path, which end with it (R384; DESIGN CHOICE,
log 101): registers, predicates, affine registers and call stacks, convergence registers. -/
def strandWords (t : Strand) : Bool :=
  t.regs.any (fun e => e.2.words.any (· != 0)) || t.preds.any (· != 0)
    || t.paths.any (fun p => p.aff.any (fun a => a.base != 0 || a.stride != 0) || p.stack.any (fun f => f.1 != 0 || f.2 != 0))
    || t.convs.any (fun v => v.mask != 0 || v.signed != 0 || v.pc != 0 || v.rows.any (· != 0))

/-- Is a quarter the last of its world on the core (R384)? -/
def lastOfWorld (c : Core) (q : Nat) : Bool := (List.range 4).all (fun r => r == q || nth c.wCur r 0 != nth c.wCur q 0)

/-- Nonzero words of a quarter's accumulators and operand latch; for the last quarter of a world on the core, of the
scratchpads of that world (R384). -/
def quarterWords (s : State) (core q : Nat) : Bool :=
  let c := coreOf s core
  let u := quarterOf s core q
  let w := nth c.wCur q 0
  let last := lastOfWorld c q
  u.ctxs.any (fun x => x.tiles.any (fun e => e.2 != 0)) || u.running.isSome
    || (last && (unitsOn s core).any (fun e => unitWorld s e.2 == w && !e.2.scratch.isEmpty))

def setWorld (c : Core) (q cur : Nat) (pend fail : Bool) : Core :=
  { c with wCur := setNth c.wCur q cur, wPend := setNth c.wPend q pend, wFail := setNth c.wFail q fail }

/-- Do words that units left, when they ended or were saved, still stand in the arrays? The manual does not say where in them a strand's
words lie, so that a free value says whether the sweep has overwritten them all (R384; DESIGN CHOICE, log 101). -/
def leftWords (s : State) (core q : Nat) : Bool × State :=
  let c := coreOf s core
  if (quarterOf s core q).left || (lastOfWorld c q && c.scratchLeft.contains (nth c.wCur q 0)) then
    let v := freeVal s
    (v.1 % 2 == 1, v.2)
  else (false, s)

/-- The signature of a `zsig` that waits, once its quarter holds no other strand (R437; DESIGN CHOICE, log 66). -/
def checkSig (s : State) (core q : Nat) : State :=
  match (quarterOf s core q).zsig with
  | none => s
  | some seen =>
    if quarterBusy s core q then s
    else
      let c := coreOf s core
      let l := leftWords s core q
      let bad := seen || quarterWords s core q || l.1
      let s := setQuarter l.2 core q (fun u => { u with zsig := none })
      if !nth c.wPend q false then s
      else if bad then
        { setCore s core (fun c => setWorld c q (nth c.wCur q 0) true true) with attest := s.attest ++ [[2, core, q, nth c.wCur q 0]] }
      else
        let s := setQuarter s core q (fun u => { u with left := false })
        setCore s core (fun c => setWorld (if lastOfWorld c q then
          { c with scratchLeft := c.scratchLeft.filter (· != nth c.wCur q 0) } else c) q (nth c.wTgt q 0) false (nth c.wFail q false))

/-- Every lane of a strand ends, as by `exit`. -/
def endAll (t : Strand) : Strand := exitLanes t (t.paths.foldl (fun m p => m ||| p.lanes) 0)

/-- `zsig` (R437; DESIGN CHOICE, log 101). -/
def execZsig (c : Ctl) (o : Ops) (s : State) : Host.Outcome State Fault Refusal :=
  ramson (.zsig c o) (fun x s =>
    if !x.l.sweep then .fault { code := fPriv, lanes := x.tm }
    else
      let q := x.st.quarter
      let s := setQuarter s x.w.core q (fun u => { u with zsig := some (u.zsig.getD false || strandWords x.st) })
      .go { s := s, t := endAll x.st, moved := true, cur := .next, close := true
            after := fun s => checkSig (tryMatrix s x.uid x.k) x.w.core q }) s

/-- QUARTER_WORLD_MOVE (R382): a `zsig` that waited is checked, or an empty quarter whose target differs moves or awaits the
sweep. -/
def execEvQuarterWorldMove (core : Fin 384) (q : Fin 4) (s : State) : Host.Outcome State Fault Refusal :=
  let c := coreOf s core.val
  let cur := nth c.wCur q.val 0
  if (quarterOf s core.val q.val).zsig.isSome then .next (checkSig s core.val q.val)
  else if nth c.wTgt q.val 0 = cur || nth c.wPend q.val false || nth c.wFail q.val false
      || !(quarterStrands s core.val q.val).isEmpty then .next s
  else if cur = 0 then
    .next (setCore (setQuarter s core.val q.val (fun u =>
      { u with ctxs := u.ctxs.map (fun x => if x.owner.isNone then {} else x), left := false }))
      core.val (fun c => setWorld c q.val (nth c.wTgt q.val 0) false false))
  else .next (setCore s core.val (fun c => setWorld c q.val cur true false))

/-- What a `wsel` that holds its strand has left of its issue: its targets are set once. -/
def wselStarted (x : Ctx) (i : Instr) : Bool := (progressOf x i).isSome

/-- `wsel` (R442). -/
def execWsel (c : Ctl) (o : Ops) (s : State) : Host.Outcome State Fault Refusal :=
  ramson (.wsel c o) (fun x s =>
    let i : Instr := .wsel c o
    let v := lowB x o
    let core := fld v 0 9
    let w := fld v 13 4
    let qs := (List.range 4).filter (fun q => (v / 2 ^ (9 + q)) % 2 == 1)
    if fld v 17 15 != 0 || decide (383 < core) then .fault (protFault x 7)
    else
      let first := !wselStarted x i
      let s := if first then setCore s core (fun k =>
          { k with wTgt := (k.wTgt.zipIdx).map (fun e => if qs.contains e.2 then w else e.1) }) else s
      let k := coreOf s core
      let clear := dropProgress x.st x i
      let give := fun (n : Nat) => giveVec x s clear i c o.d 1 (fun _ => n)
      if qs.any (fun q => nth k.wTgt q 0 != w) then give 2
      else if qs.all (fun q => nth k.wCur q 0 == w || nth k.wFail q false) then
        give (if qs.any (fun q => nth k.wCur q 0 != w) then 1 else 0)
      else if first then
        let (n, s) := fresh s
        let d : Pend := { id := n, pc := x.p.pc, instr := i, lanes := x.tm, win := [], outs := [], ready := 0, reissue := true,
                          srcs := srcValues x i }
        .holdWith s { x.st with pends := x.st.pends ++ [d] }
      else .hold) s

/-! ## Invalidation of translations (R362, R438) -/

/-- Does an invalidation select a translation: of VF `vf`, by page, by IPA page, of a VF, or every one? -/
def tlbSelects (t : TlbType) (vf page : Nat) (f vpn ipa : Nat) : Bool :=
  match t with
  | .va => f == vf && vpn == page
  | .ipa => f == vf && ipa == page
  | .vf => f == vf
  | .all => true

/-- The translations of a TLB that an invalidation leaves: `.ipa` takes those derived through a stage-1 table on the page too (R438). -/
def keepTlb (m : Tbl Xlat) (t : TlbType) (vf page : Nat) : Tbl Xlat :=
  Tbl.keep m (fun k x => !(x.ipa :: x.via).any (tlbSelects t vf page (k / 2 ^ 40) (k % 2 ^ 40)))

/-- The table entries of a walk cache that an invalidation leaves: none of the VF (log 130). -/
def keepWalks (m : Tbl Nat) (t : TlbType) (vf : Nat) : Tbl Nat := Tbl.keep m (fun k _ => t != .all && k / 2 ^ 40 != vf)

/-- Removes cached translations in every TLB and walk cache. -/
def dropXlat (s : State) (t : TlbType) (vf page : Nat) : State :=
  { s with cores := Tbl.mapV s.cores (fun _ c => { c with tlb := keepTlb c.tlb t vf page, walks := keepWalks c.walks t vf })
           dies := Tbl.mapV s.dies (fun _ d => { d with tlb := keepTlb d.tlb t vf page, walks := keepWalks d.walks t vf }) }

/-- Copies whose landing an invalidation waits for (R322, R362). -/
def copiesHold (s : State) (t : TlbType) (vf page : Nat) : Bool :=
  (allCopies s).any (fun y => !y.failed && y.pages.any (fun p => tlbSelects t vf page p.1 p.2.1 p.2.2))

/-- `tlbinv` (R438). -/
def execTlbinv (c : Ctl) (t : TlbType) (o : Ops) (s : State) : Host.Outcome State Fault Refusal :=
  ramson (.tlbinv c t o) (fun x s =>
    let vf := lowB x o
    if 127 < vf && t != .all then .fault (protFault x 7)
    else
      let page := readAddr x o.a .null .null x.low / pageBytes
      let s := dropXlat s t vf page
      if copiesHold s t vf page then .holdWith s x.st else .go { s := s, t := x.st }) s

/-- `cmaint` (R439; DEDUCED, log 93). -/
def execCmaint (c : Ctl) (t : CmaintType) (o : Ops) (s : State) : Host.Outcome State Fault Refusal :=
  ramson (.cmaint c t o) (fun x s =>
    let wb := l1WriteBack (performSends s (fun y => y.core == x.w.core)) x.w.core (fun _ => true)
    match t with
    | .l1wb => .go { s := wb, t := x.st }
    | .l1inv => .go { s := setCore wb x.w.core (fun k => { k with l1 := [], cairn := [] }), t := x.st }
    | .l2page =>
      let a := readAddr x o.a .null .null x.low
      if 2 ^ 40 ≤ a || (sliceOfPa a).isNone then .fault (protFault x 7)
      else
        let lo := a / 2 ^ 32 * 2 ^ 32 + a % 2 ^ 32 / pageBytes * pageBytes
        .go { s := l2Drop s (pageSectors lo), t := x.st }) s

/-! ## Halts (R423-R425, R431, R440) -/

/-- STATE of a status block (R440). -/
def haltDone : Nat := 1
def haltReset : Nat := 2
def haltMissed : Nat := 3
def haltFull : Nat := 4
def haltForced : Nat := 5
def haltUnbound : Nat := 6

/-- What the Eryon writes of a status block: STATE and the units saved, the time at the end, MISSDIES, zeros. -/
def putStatus (s : State) (loc : Loc) (state saved : Nat) (miss : List Nat) : State :=
  let dies := miss.eraseDups.foldl (fun a d => a + 2 ^ d) 0
  let s := putBlock s loc 0 (toBytes 4 state ++ toBytes 4 saved)
  putBlock s loc 16 (toBytes 8 s.time ++ toBytes 2 dies ++ List.replicate 38 0)

/-- A partition of whole dies (R370). -/
def wholeDies (s : State) (part : Nat) : Bool := (partSpan (partOf s part)).2 % 12 == 0

/-- Is a unit saved by a mid-instruction halt: a plain halt, or a die of a gang that has missed three times (R431)? -/
def midHalt (s : State) (bnd gang : Bool) (core : Nat) : Bool :=
  !bnd || (gang && decide (3 ≤ (dieOf s (dieOfCore core)).misses))

/-- Begun units of a VF (DEDUCED, log 96). -/
def begunUnits (s : State) (vf : Nat) : List (Nat × WUnit) :=
  s.units.filter (fun e => fnOfLid e.2.lid == vf && e.2.begun)

/-- Starts a halt (R440): the VF is HALTED, and boundary stops close the issue of their units. -/
def startHalt (s : State) (part vf : Nat) (bnd gang : Bool) (loc : Loc) (deadline : Nat) (incoming : Option Nat) : State :=
  let (id, s) := fresh s
  let us := begunUnits s vf
  let mids := us.filter (fun e => midHalt s bnd gang e.2.core)
  let s := setFn s vf (fun f => { f with halted := true })
  let h : Halt := { id := id, part := part, vf := vf, bnd := bnd, gang := gang, block := loc, deadline := s.time + deadline
                    start := s.time, incoming := incoming, todo := us.map (·.1), forced := bnd && !mids.isEmpty }
  let stops := (us.filter (fun e => !midHalt s bnd gang e.2.core)).map (fun e => (⟨e.1, id⟩ : Stop))
  { s with halts := s.halts ++ [h], stops := s.stops ++ stops }

/-- DEADLINE in ns (R425). -/
def deadlineOf (d : Nat) : Nat := 1000 * (if d = 0 then 200 else max d 50)

/-- `halt` (R440; DEDUCED, log 95). -/
def execHalt (c : Ctl) (bnd gang : Bool) (o : Ops) (s : State) : Host.Outcome State Fault Refusal :=
  ramson (.halt c bnd gang o) (fun x s =>
    let v := lowB x o
    let vf := fld v 0 7
    if fld v 8 24 != 0 then .fault (protFault x 7)
    else
      match blockLoc x s (readAddr x o.a .null .null x.low) 64 64 .rmw with
      | (.error r, _) => r
      | (.ok loc, s) =>
        -- halts of one VF are performed in the order they were issued
        if s.halts.any (fun h => h.vf == vf) then .hold
        else
          let r := strongRead s (x.who s) loc 64
          let b := ofBytes r.1
          let s := r.2
          if fld v 7 1 = 1 then
            .go { s := putStatus (setFn s vf (fun f => { f with halted := false })) loc haltDone 0 [], t := x.st }
          else if !(fnOf s vf).bound then .go { s := putStatus s loc haltUnbound 0 [], t := x.st }
          else
            let part := (fnOf s vf).part
            let g := gang && wholeDies s part
            let inc := fld b 96 32
            let s := putBlock s loc 0 (toBytes 4 0)
            .go { s := startHalt s part vf bnd g loc (deadlineOf (fld b 64 32)) (if inc < 128 then some inc else none), t := x.st }) s

def mapHalts (s : State) (id : Nat) (f : Halt → Halt) : State :=
  { s with halts := s.halts.map (fun h => if h.id = id then f h else h) }
def dropStops (s : State) (p : Stop → Bool) : State := { s with stops := s.stops.filter (fun t => !p t) }

/-- Is this save of a halt its last, with none missed? Then it takes the VF's launch spans (R440). -/
def lastSave (s : State) (h : Halt) (uid : Nat) : Bool :=
  h.missed.isEmpty && !h.full && h.todo.all (fun u => u == uid || !Tbl.has s.units u)

/-- A unit of a halt is saved, and its RESUME entry queued at its cluster; with no room in the save area the halt is FULL. -/
def haltSave (s : State) (h : Halt) (uid : Nat) (w : WUnit) (mid : Bool) : State :=
  let s := dropStops s (fun t => t.uid == uid)
  match saveUnit s uid mid (lastSave s h uid) with
  | some s =>
    mapHalts (queueResume s uid (w.core / 2) w.lid false) h.id (fun h =>
      { h with todo := h.todo.filter (· != uid), saved := h.saved ++ [uid] })
  | none => mapHalts s h.id (fun h => { h with todo := h.todo.filter (· != uid), full := h.full || !w.cancelled })

/-- UNIT_SAVE: a mid-instruction halt (R423). -/
def execEvUnitSave (uid : Nat) (s : State) : Host.Outcome State Fault Refusal :=
  match s.halts.find? (fun h => h.todo.contains uid), unit? s uid with
  | some h, some w =>
    if midHalt s h.bnd h.gang w.core && rqRoom s h.vf [(w.core / 2, .resume uid)] then .next (haltSave s h uid w true)
    else .next s
  | _, _ => .next s

/-- Has every issued instruction of a unit completed (R424)? A `bwait` that holds its lanes has not (DEDUCED, log 98), nor has an operation
whose dropped node waits for reclaim (R293; DEDUCED, log 168). -/
def issueDone (s : State) (uid : Nat) (w : WUnit) : Bool :=
  w.strands.all (fun e => e.2.pends.all notIssued)
    && w.spans.all (fun e => e.2.wins.all (·.returned)) && !matrixOpen s uid w && !reclaimOpen s uid

/-- BOUNDARY_STOP_DONE (R424). -/
def execEvBoundaryStopDone (uid : Nat) (s : State) : Host.Outcome State Fault Refusal :=
  match s.halts.find? (fun h => h.todo.contains uid && s.stops.any (fun t => t.uid == uid && t.halt == h.id)), unit? s uid with
  | some h, some w =>
    if issueDone s uid w && decide (s.time ≤ h.deadline) && rqRoom s h.vf [(w.core / 2, .resume uid)] then .next (haltSave s h uid w false)
    else .next s
  | _, _ => .next s

/-- BOUNDARY_STOP_MISS (R424): issue reopens and nothing is saved. -/
def execEvBoundaryStopMiss (uid : Nat) (s : State) : Host.Outcome State Fault Refusal :=
  match s.halts.find? (fun h => h.todo.contains uid && s.stops.any (fun t => t.uid == uid && t.halt == h.id)), unit? s uid with
  | some h, some w =>
    if h.deadline < s.time then
      .next (mapHalts (dropStops s (fun t => t.uid == uid)) h.id (fun h =>
        { h with todo := h.todo.filter (· != uid), missed := h.missed ++ [dieOfCore w.core] }))
    else .next s
  | _, _ => .next s

/-- Dies of a partition. -/
def partDies (s : State) (part : Nat) : List Nat := ((partSlices (partOf s part)).map dieOfCluster).eraseDups

/-- Units saved by a gang that missed go back to their cores at once: what they left there has been kept for them (R431; DEDUCED,
log 167). -/
def restoreGang (s : State) (us : List Nat) : State :=
  us.foldl (fun s uid =>
    match Tbl.find? s.images uid with
    | none => s
    | some im =>
      match restoreUnit s uid im.core im.unit.prio true with
      | (some s, _) => setRq s (im.core / 2) (fun q => q.filter (fun e => e.kind != .resume uid))
      | (none, s) => s) s

/-- The miss counts of a gang's dies (R431). -/
def countGang (s : State) (h : Halt) : State :=
  (partDies s h.part).foldl (fun s d => setDie s d (fun u => { u with misses := if h.missed.contains d then u.misses + 1 else 0 })) s

/-- How a gang halt ends. -/
def endGang (s : State) (h : Halt) : State :=
  let s := countGang s h
  if h.missed.isEmpty then
    match h.incoming with
    | some v => setFn s v (fun f => { f with halted := false })
    | none => s
  else
    let s := setFn s h.vf (fun f => { f with halted := false })
    let s := (partSlices (partOf s h.part)).foldl (fun s cl => setCluster s cl (fun c => { c with keep := true })) s
    restoreGang s h.saved

def haltState (h : Halt) : Nat :=
  if h.full then haltFull else if !h.missed.isEmpty then haltMissed else if h.gang && h.forced then haltForced else haltDone

/-- HALT_DONE: every save has ended; units that completed meanwhile need none (R431, R440). -/
def execEvHaltDone (id : Nat) (s : State) : Host.Outcome State Fault Refusal :=
  match s.halts.find? (fun h => h.id == id) with
  | none => .next s
  | some h =>
    if h.todo.any (fun u => Tbl.has s.units u) then .next s
    else
      let s := dropStops { s with halts := s.halts.filter (fun k => k.id != id) } (fun t => t.halt == id)
      let s := if h.gang then endGang s h else s
      .next (putStatus s h.block (haltState h) h.saved.length h.missed)

/-! ## Bulk engines (R364, R432, R441) -/

def bulkDone : Nat := 1
def bulkVersion : Nat := 2
def bulkBad : Nat := 3
def bulkRetired : Nat := 4

def putState (s : State) (b : BulkOp) (v : Nat) : State := putBlock s b.block 4 (toBytes 4 v)

/-- The stage-2 leaf at level 2 of an IPA page: its address, when the tables above it are valid. -/
def leafAddr (s : State) (vf page : Nat) : Option Nat :=
  match (walk2 (memEntry s) (fnOf s vf).s2root.toNat page).2 with
  | [_, _, a] => some a.1
  | _ => none

/-- Version slot of a page's channel group (R224). -/
def versionAt (pa slot : Nat) : Nat := pa / 2 ^ 32 * 2 ^ 32 + 0xFFFFC000 + 8 * slot
def versionOf (s : State) (pa slot : Nat) : Nat := ofBytes (getBytes s.mem (versionAt pa slot) 8)

/-- A page frame of a partition. -/
def frameIn (s : State) (part pa : Nat) : Bool :=
  decide (pa < 2 ^ 40) && pa % pageBytes == 0 && decide (pa % 2 ^ 32 / pageBytes < pagesPerGroup) &&
    (match pageOfPa s pa with | some (p, _) => p == part | none => false)

/-- An EVICTED leaf (R359); the permissions stay as the entry had them (DEDUCED, log 100). -/
def evictedLeaf (old slot pa io : Nat) : Nat :=
  1 + 3 * 2 + fld old 3 3 * 8 + (slot % 2 ^ 11) * 2 ^ 8 + (pa / 2 ^ 36) * 2 ^ 19 + (fld pa 32 4) * 2 ^ 23
    + (io / pageBytes % 2 ^ 34) * 2 ^ 27
/-- A PAGE leaf. -/
def pageLeaf (pa rwx : Nat) : Nat := 1 + 1 * 2 + (rwx % 8) * 8 + pa

/-- DIE and SLICE of an EVICTED leaf, as the base of its channel group. -/
def evictedGroup (e : Nat) : Nat := paOf (12 * fld e 19 4 + fld e 23 4) 0

def writeLeaf (s : State) (a e : Nat) : State := writeHome s true (.mem a) (toBytes 8 e)

/-- What an engine makes of a command when it begins (R441): its last STATE, or the state with the command begun. -/
def bulkBegin (s : State) (b : BulkOp) : Nat ⊕ (BulkOp × State) :=
  let page := b.ipa / pageBytes
  if !(fnOf s b.vf).bound || (fnOf s b.vf).part != b.part || b.ipa % pageBytes != 0 || decide (2 ^ 53 ≤ b.ipa)
      || b.io % pageBytes != 0 || decide (1536 ≤ b.slot) then .inl bulkBad
  else
    match leafAddr s b.vf page with
    | none => .inl bulkBad
    | some a =>
      let e := ofBytes (getBytes s.mem a 8)
      let s := l2Touch s true a 8 false
      if b.evict then
        match s2Leaf e 0 2 with
        | .leaf (.page pa) _ _ _ =>
          if !frameIn s b.part pa then .inl bulkBad
          else if versionOf s pa b.slot = 2 ^ 64 - 1 then .inl bulkRetired
          else
            -- the leaf is invalid from now on, and its `.ipa` invalidation has begun
            .inr ({ b with started := true, leaf := a, old := e, frame := pa }, dropXlat (writeLeaf s a (e - 1)) .ipa b.vf page)
        | _ => .inl bulkBad
      else if entryV e && rsvOk e && entryKind e == 3 && frameIn s b.part b.frame then
        .inr ({ b with started := true, leaf := a, old := e }, s)
      else .inl bulkBad

/-- An idle engine begins its commands in order; those refused write their STATE at once. -/
def bulkPump (die engine : Nat) : Nat → State → State
  | 0, s => s
  | n + 1, s =>
    match (dieOf s die).bulk.findIdx? (fun b => b.engine == engine) with
    | none => s
    | some i =>
      match (dieOf s die).bulk[i]? with
      | none => s
      | some b =>
        if b.started then s
        else
          match bulkBegin s b with
          | .inl v => bulkPump die engine n (setDie (putState s b v) die (fun d => { d with bulk := d.bulk.eraseIdx i }))
          | .inr (b, s) => setDie s die (fun d => { d with bulk := setNth d.bulk i b })

/-- `bulk` hands its block to an engine of its die (R441; DEDUCED, log 99). -/
def bulkIssue (x : Ctx) (o : Ops) (s : State) : Res :=
  match blockLoc x s (readAddr x o.a .null .null x.low) 64 64 .rmw with
  | (.error r, _) => r
  | (.ok loc, s) =>
    let r := strongRead s (x.who s) loc 64
    let v := ofBytes r.1
    let s := r.2
    let die := dieOfCore x.w.core
    let e := fld v 16 8
    let b : BulkOp := { engine := e, part := x.l.part, evict := fld v 0 8 == 1, vf := fld v 8 8, rwx := fld v 24 3
                        ipa := fld v 64 64, frame := fld v 128 64, io := fld v 192 64, slot := fld v 256 16, block := loc }
    let held := decide (e ≤ 6) && nth (dieOf s die).engines e none == some x.l.part
    if !held || (fld v 0 8 != 1 && fld v 0 8 != 2) || decide (127 < b.vf) then
      .go { s := putState s b bulkBad, t := x.st }
    else .go { s := bulkPump die e 64 (setDie (putState s b 0) die (fun d => { d with bulk := d.bulk ++ [b] })), t := x.st }

/-- `bulk` with OP 1, EVICT. -/
def execBulkEvict (c : Ctl) (o : Ops) (s : State) : Host.Outcome State Fault Refusal :=
  ramson (.bulkEvict c o) (fun x s => bulkIssue x o s) s

/-- `bulk` with OP 2, RETURN. -/
def execBulkReturn (c : Ctl) (o : Ops) (s : State) : Host.Outcome State Fault Refusal :=
  ramson (.bulkReturn c o) (fun x s => bulkIssue x o s) s

/-- A return fails its check (R432). -/
def versionFail (s : State) (b : BulkOp) : State :=
  let f := fnOf s b.vf
  let held := (s.units.filter (fun e => fnOfLid e.2.lid == b.vf)).flatMap (fun e => e.2.strands.map (fun t => (e.2.core, t.2.quarter)))
  let s := if f.world = 0 then s else held.foldl (fun s e => setCore s e.1 (fun c => { c with wTgt := setNth c.wTgt e.2 0 })) s
  let jobs := (s.jobs.filter (fun e => decide (e.1 / 16 = b.vf))).map (·.1)
  let s := jobs.foldl (fun s k => cancelJob s (refOfKey k) .faulted) s
  let s := postEvent s 128 { code := fVersion, vf := b.vf }
  let s := setFn s b.vf (fun f => { f with barred := f.barred ++ [b.ipa / pageBytes] })
  { s with attest := s.attest ++ [[1, b.vf, b.ipa, b.slot]] }

/-- The partition's key, as the sealing functions name it (R364). -/
def sealKey (s : State) (part : Nat) : Nat := ((partOf s part).key).getD 0

/-- EVICT is carried out (R364): version, seal, host range, leaf. -/
def bulkEvictNow (s : State) (b : BulkOp) : State :=
  let s := l2Drop s (pageSectors b.frame)
  let v := versionOf s b.frame b.slot + 1
  let s := writeHome s true (.mem (versionAt b.frame b.slot)) (toBytes 8 v)
  let page := getBytes s.mem b.frame pageBytes
  let s := (sectorsOf b.frame pageBytes).foldl (fun s c => chargeSector s true c 2) s
  let sealed := (List.range (pageBytes + 16)).map (Config.sealByte (sealKey s b.part) b.vf b.ipa b.slot v page)
  let s := { s with hostMem := putBytes s.hostMem b.io sealed }
  putState (writeLeaf s b.leaf (evictedLeaf b.old b.slot b.frame b.io)) b bulkDone

/-- RETURN is carried out (R364): the seal is checked before anything is written. A page whose return once failed is never mapped: a
later RETURN of it ends with VERSION at once (DESIGN CHOICE, log 156). -/
def bulkReturnNow (s : State) (b : BulkOp) : State :=
  if (fnOf s b.vf).barred.contains (b.ipa / pageBytes) then putState s b bulkVersion
  else
  let v := ofBytes (getBytes s.mem (versionAt (evictedGroup b.old) b.slot) 8)
  let k := sealKey s b.part
  let sealed := getBytes s.hostMem b.io (pageBytes + 16)
  let page := (List.range pageBytes).map (Config.unsealByte k b.vf b.ipa b.slot v sealed)
  if (List.range (pageBytes + 16)).map (Config.sealByte k b.vf b.ipa b.slot v page) = sealed then
    let s := l2Drop s (pageSectors b.frame)
    let s := (sectorsOf b.frame pageBytes).foldl (fun s c => chargeSector s true c 3) { s with mem := putBytes s.mem b.frame page }
    putState (writeLeaf s b.leaf (pageLeaf b.frame b.rwx)) b bulkDone
  else putState (versionFail s b) b bulkVersion

/-- BULK_DONE (R364, R441). An eviction waits for copies that hold the page's translation. -/
def execEvBulkDone (die : Fin 16) (engine : Fin 8) (s : State) : Host.Outcome State Fault Refusal :=
  let bs := (dieOf s die.val).bulk
  match bs.findIdx? (fun b => b.engine == engine.val) with
  | none => .next s
  | some i =>
    match bs[i]? with
    | none => .next s
    | some b =>
      if !b.started || (b.evict && copiesHold s .ipa b.vf (b.ipa / pageBytes)) then .next s
      else
        let s := if b.evict then bulkEvictNow (dropXlat s .ipa b.vf (b.ipa / pageBytes)) b else bulkReturnNow s b
        .next (bulkPump die.val engine.val 64 (setDie s die.val (fun d => { d with bulk := d.bulk.eraseIdx i })))

/-! ## `nmsync` (R295, R296) -/

/-- `nmsync` (R295): accepted with one reference on the root (DEDUCED, log 104). -/
def execNmsync (c : Ctl) (dsel : Fin 8) (o : Ops) (s : State) : Host.Outcome State Fault Refusal :=
  ramson (.nmsync c dsel o) (fun x s =>
    let h := readSrc x rd32 o.c x.low
    if fld h 24 7 != 0 then .fault { code := fIllegal, lanes := x.tm }
    else
      match nmDomain s x dsel.val .none none with
      | .error f => .fault f
      | .ok k =>
        match blockLoc x s (readSrc x (.int 2 false) o.b x.low) 16 16 .write with
        | (.error r, _) => r
        | (.ok loc, s) =>
          match nameArg x o.a x.low with
          | none => .fault { code := fCairnName, lanes := x.tm }
          | some n =>
            if !known s k n then .fault { code := fCairnName, lanes := x.tm }
            else
              let (id, s) := fresh (addRef s k n)
              .go { s := { s with syncs := s.syncs ++ [{ id := id, part := k.part, dom := k.dom, root := n, status := loc
                                                         handle := h, start := s.time, issuer := x.l.part
                                                         offers := if n = 0 then [] else [n] }] }
                    t := x.st }) s

/-- The peers that a handle names (R449): none when it is invalid. -/
def syncTargets (s : State) (h : Nat) : Option (List Nat) :=
  let t := fld h 0 16
  if fld h 31 1 = 0 then
    if t < 256 && (Tbl.getD s.peerMap t 0).getLsbD 0 then some [t] else none
  else if 63 < t then none
  else
    let m := (List.range 256).filter (fun i => (Tbl.getD s.mcast t 0).getLsbD i)
    if m.isEmpty || !m.all (fun i => (Tbl.getD s.peerMap i 0).getLsbD 0) then none else some m

/-- A sync ends: its status block, and the reference on its root (R295, R296). -/
def endSync (s : State) (y : Sync) (state sent suppressed target : Nat) : State :=
  let s := { s with syncs := s.syncs.filter (fun z => z.id != y.id) }
  let s := putBlock s y.status 0 (toBytes 4 state ++ toBytes 4 sent ++ toBytes 4 suppressed ++ toBytes 4 target)
  dropRef (cairnTraffic s true ⟨y.part, y.dom⟩) ⟨y.part, y.dom⟩ y.root

/-- Discovery (R296): the next name of a sync has been offered. What every target holds is skipped whole; another line is marked, and
its nonzero children are offered in turn. A name is offered once, level by level (DESIGN CHOICE, log 154). -/
def syncOffer (s : State) (y : Sync) (held : Bool) : Sync :=
  match y.offers with
  | [] => y
  | n :: rest =>
    let y := { y with offers := rest, offered := y.offered ++ [n] }
    if held then { y with held := y.held + 1 }
    else
      let cs := if nameKind n = 0 then [] else (childrenOf (lineFor s ⟨y.part, y.dom⟩ n)).filter (fun m => m != 0)
      let new := cs.eraseDups.filter (fun m => !y.offered.contains m && !y.offers.contains m)
      { y with offers := y.offers ++ new, marked := n :: y.marked }

/-- Sending (R296): once everything has been offered, the next marked line goes out; children go before their parents. -/
def syncSend (y : Sync) : Sync :=
  match y.offers, y.marked with
  | [], _ :: rest => { y with marked := rest, sent := y.sent + 1 }
  | _, _ => y

def setSync (s : State) (id : Nat) (f : Sync → Sync) : State :=
  { s with syncs := s.syncs.map (fun y => if y.id == id && (syncTargets s y.handle).isSome then f y else y) }

/-- May a sync end with this STATE: DONE once every marked line has been sent, another only after some line has met a target? -/
def syncEnds (y : Sync) (state : Nat) : Bool :=
  if state = 1 then y.offers.isEmpty && y.marked.isEmpty else decide (2 ≤ state) && decide (state ≤ 4) && decide (0 < y.sent)

/-- NMSYNC_COMPLETE (R296): how the peers answered, with the counts that the sync has reached; a sync without targets ends
UNREACHABLE. -/
def execEvNmsyncComplete (id : Nat) (state : Fin 6) (sent suppressed target : Nat) (s : State) : Host.Outcome State Fault Refusal :=
  match s.syncs.find? (fun y => y.id == id) with
  | none => .next s
  | some y =>
    match syncTargets s y.handle with
    | none => .next (endSync s y 5 0 0 (fld y.handle 0 16))
    | some _ =>
      .next (if syncEnds y state.val && y.sent == sent && y.held == suppressed then
          endSync s y state.val sent suppressed (if state.val = 1 then 0 else target)
        else s)

/-- NMSYNC_TIMEOUT (R296): a target has not answered for 100 ms. -/
def execEvNmsyncTimeout (id target : Nat) (s : State) : Host.Outcome State Fault Refusal :=
  match s.syncs.find? (fun y => y.id == id) with
  | none => .next s
  | some y => .next (if y.start + 100000000 ≤ s.time then endSync s y 5 y.sent y.held target else s)

/-- What a peer's line meets in a domain (R296). -/
inductive Received where
  | held
  | new
  | key
  | collided
  | full
  /-- every free data line awaits reuse (R279) -/
  | wait
deriving DecidableEq, Repr

def receive (d : Domain) (name : QWord) (line : List Byte) : Received :=
  let kind := nameKind name
  let h := nameHash d.key kind line
  if name = 0 then (if line = zeroLine then .held else .key)
  else if kind = 15 || h != name.toNat / 256 then .key
  else
    match Tbl.find? d.dir name.toNat with
    | some e => if e.line = line then .held else .collided
    | none =>
      if (List.range 16).any (fun o => match Tbl.find? d.dir (nameOf h o kind).toNat with | some e => e.line == line | none => false) then
        .collided
      else if d.budget ≤ d.dir.length then .full
      else if (lineGroup d.free (homeGroup name d.free.length)).isNone then .wait
      else .new

/-- Does the domain hold other content of the HASH and KIND of a name (R280)? -/
def hashMet (d : Domain) (name : QWord) : Bool :=
  (List.range 16).any (fun o => Tbl.has d.dir (nameOf (name.toNat / 256) o (nameKind name)).toNat)

/-- NMSYNC_LINE_RECEIVED (R296): the line is interned under the name sent, or nothing is; the answer goes to the peer. While every
free data line awaits reuse, it waits (R279). -/
def execEvNmsyncLineReceived (p : Fin 64) (dom : Fin 256) (name : QWord) (line : List Byte) (root : Bool) (s : State) :
    Host.Outcome State Fault Refusal :=
  match if (partOf s p.val).st = .live then tableEntry s p.val dom.val else none with
  | none => .next { s with latch := none }
  | some k =>
    match domain? s k with
    | none => .next { s with latch := none }
    | some d =>
      let line := slice line 0 192
      let answer (s : State) (n : Nat) : State := { s with latch := some [BitVec.ofNat 8 n] }
      let root' (s : State) : State := if root then addRef s k name else s
      match receive d name line with
      | .held => .next (answer (root' s) 1)
      | .key => .next (answer s 2)
      | .collided => .next (answer s 3)
      | .full => .next (answer s 4)
      | .wait => .next s
      | .new =>
        match lineGroup d.free (homeGroup name d.free.length) with
        | none => .next (answer s 4)
        | some g =>
          let s := countCollision (cairnTraffic s true k) k (hashMet d name)
          .next (answer (root' (createEntry s k name (nameKind name) line g)) 1)

/-- NMSYNC_OFFER (R296): does the domain hold the name as a live entry? -/
def execEvNmsyncOffer (p : Fin 64) (dom : Fin 256) (name : QWord) (s : State) : Host.Outcome State Fault Refusal :=
  match if (partOf s p.val).st = .live then tableEntry s p.val dom.val else none with
  | none => .next { s with latch := none }
  | some k => .next { s with latch := some [if known s k name then 1 else 0] }

end Sys2Proof.Machine
end

