-- ==== Sys2Proof/Machine/Guest.lean ====
section
/-! DEFINITION. The commands that a function takes through its register file: S1ROOT and TLB_INV (R444), page requests and
replies (R366, R367), event records (R419, R446), trap replies (R422), plain registers (R4, R443), and the function-level
reset (R368, R386, R387). -/

namespace Sys2Proof.Machine

open Sys2Proof

/-- The queue and register file of a function: a VF's number, or 128 (R443). -/
def fnFile : Fn → Nat
  | .vf n => n.val
  | .pf => 128

/-! ## Stage-1 translations (R444) -/

/-- S1ROOT: the root, and every cached translation of the VF goes. -/
def execEvS1rootWrite (vf : Fin 128) (v : DWord) (s : State) : Host.Outcome State Fault Refusal :=
  if !fnOpen s vf.val then .next s
  else .next (dropXlat (setFn s vf.val (fun f => { f with s1root := BitVec.ofNat 64 (v.toNat % 2 ^ 53) })) .vf vf.val 0)

/-- Copies that an invalidation waits for, by number. -/
def copiesOf (s : State) (t : TlbType) (vf page : Nat) : List Nat :=
  ((allCopies s).filter (fun y => !y.failed && y.pages.any (fun p => tlbSelects t vf page p.1 p.2.1 p.2.2))).map (·.id)

/-- BUSY of TLB_INV: a copy that an outstanding write waits for has not landed. -/
def tlbInvBusy (s : State) (vf : Nat) : Bool :=
  (allCopies s).any (fun y => !y.failed && (fnOf s vf).tlbBusy.contains y.id)

/-- TLB_INV: as `tlbinv.va`, or for every page of the VF. -/
def execEvTlbInv (vf : Fin 128) (v : DWord) (s : State) : Host.Outcome State Fault Refusal :=
  if !fnOpen s vf.val then .next s
  else
    let t : TlbType := if v.getLsbD 63 then .vf else .va
    let page := v.toNat % 2 ^ 53 / pageBytes
    let live := (allCopies s).map (·.id)
    let wait := copiesOf s t vf.val page
    .next (dropXlat (setFn s vf.val (fun f => { f with tlbBusy := f.tlbBusy.filter live.contains ++ wait })) t vf.val page)

/-! ## Page requests (R366) -/

/-- The record of a request. -/
def requestBits (r : PageReq) : Nat :=
  r.tag + (if r.stage2 then 2 ^ 16 else 0) + (r.cause % 4) * 2 ^ 17 + (r.access % 8) * 2 ^ 19 + (if r.table then 2 ^ 22 else 0)
    + (r.page % 2 ^ 64) * 2 ^ 32 + (r.vf % 128) * 2 ^ 96 + 2 ^ 127

/-- PRQ_POP: the oldest request goes to the host; an empty queue gives VALID = 0. -/
def execEvPrqPop (fn : Fn) (s : State) : Host.Outcome State Fault Refusal :=
  let q := fnFile fn
  if !fnOpen s q then .next s
  else
    match prqOf s q with
    | [] => .next { s with latch := some (toBytes 16 0) }
    | r :: rest =>
      let s := { s with latch := some (toBytes 16 (requestBits r))
                        reqs := s.reqs.map (fun x => if x.tag == r.tag && x.vf == r.vf then { x with popped := true } else x) }
      .next (if rest.isEmpty then s else raiseMsix s q 1)

/-! ## Replies (R367) -/

/-- Code of the fault that a failed request raises. -/
def requestFault (r : PageReq) : Nat := if r.cause = 1 then fHostpage else if r.stage2 then fXlate2 else fXlate1

/-- The request that a reply names: of the VF in its value, or of the VF whose file it is written to; each file answers the requests of
its own queue, and a tag of the other queue is unknown to it (R365, R367, R468; DEDUCED, log 118). -/
def repliedTo (s : State) (fn : Fn) (v : DWord) : Option PageReq :=
  let vf := match fn with | .vf n => n.val | .pf => fld v.toNat 17 7
  s.reqs.find? (fun r => r.vf == vf && r.tag == fld v.toNat 0 16 && r.stage2 == decide (fn = .pf))

def strayReply (s : State) (fn : Fn) (n : Nat) : State :=
  postEvent s (fnFile fn) { code := evStrayReply, vf := match fn with | .vf v => v.val | .pf => 0, aux := toBytes 4 n }

def dropRequest (s : State) (r : PageReq) : State :=
  { s with reqs := s.reqs.filter (fun x => !(x.vf == r.vf && x.tag == r.tag)) }

/-- The saved units of a VF, with their strands rewritten; units that became ready raise WAKE (R421). -/
def mapSaved (s : State) (vf : Nat) (f : Strand → Strand) : State :=
  let ids := (s.images.filter (fun e => e.2.fn == vf)).map (·.1)
  let s := { s with images := Tbl.mapV s.images (fun _ im =>
    if im.fn == vf then { im with unit := { im.unit with strands := Tbl.mapV im.unit.strands (fun _ t => f t) } } else im) }
  ids.foldl wakeReady s

/-- Block reads of jobs that wait on a request (R477). -/
def jobWaits (s : State) (r : PageReq) : List (JobRef × JobWait) :=
  s.jobs.flatMap (fun e => if e.1 / 16 = r.vf then
      (e.2.waits.filter (fun w => w.tag == r.tag && w.pfq == r.stage2)).map (fun w => (refOfKey e.1, w)) else [])

/-- The lanes of saved strands that wait on a request keep its answer as a mark until they resume (R421). -/
def markSaved (s : State) (r : PageReq) (mark : Nat) : State :=
  mapSaved s r.vf (fun t => { t with pends := t.pends.map (fun d =>
    { d with parked := Tbl.mapV d.parked (fun _ e => if e == (r.tag, r.stage2) then (mark, r.stage2) else e) }) })

/-- The restores of a VF's saved units that wait on a request go on; what `f` gives for a copy that waited for it is kept (R329, R367). -/
def answerRestores (s : State) (r : PageReq) (f : Nat → List (Nat × Nat × Nat)) : State :=
  { s with images := Tbl.mapV s.images (fun _ im =>
    if im.fn == r.vf then
      { im with awaits := im.awaits.filter (fun a => a.2 != (r.tag, r.stage2))
                fails := im.fails ++ (im.awaits.filter (fun a => a.2 == (r.tag, r.stage2))).flatMap (fun a => f a.1) }
    else im) }

/-- RESOLVED: every lane that waits on the tag is replayed at once; lanes of saved strands replay when they resume. -/
def resolveRequest (s : State) (r : PageReq) : State :=
  let s := (jobWaits s r).foldl (fun s w => clearReader s w.1 w.2.reader) (dropRequest s r)
  let s := (waitersOf s r.vf r.tag r.stage2).foldl (fun s w =>
    withPend s w.1 w.2.1 w.2.2.id (fun d => replayPend s w.1 w.2.1 d (waitingOn d (· == (r.tag, r.stage2))))) s
  answerRestores (markSaved s r goMark) r (fun _ => [])

/-- FAIL: every lane that waits on the tag takes the request's fault; saved strands when they resume; a block read fails (R477). -/
def failRequest (s : State) (r : PageReq) : State :=
  let code := requestFault r
  let ws := waitersOf s r.vf r.tag r.stage2
  let s := (jobWaits s r).foldl (fun s w => failRead s w.1 w.2) (dropRequest s r)
  let s := ws.foldl (fun s w => withPend s w.1 w.2.1 w.2.2.id (fun d => failWaiting s w.1 w.2.1 d r.tag r.stage2 code)) s
  answerRestores (markSaved s r (failMark code r.tag)) r (fun id => [(id, code, r.tag)])

/-- PRQ_REPLY with FAIL 0. -/
def execEvPrqReplyResolved (fn : Fn) (v : DWord) (s : State) : Host.Outcome State Fault Refusal :=
  if !fnOpen s (fnFile fn) || v.getLsbD 16 then .next s
  else
    match repliedTo s fn v with
    | none => .next (strayReply s fn (fld v.toNat 0 16))
    | some r => .next (resolveRequest s r)

/-- PRQ_REPLY with FAIL 1. It waits while a record of the faults would find the event queue full (log 12). -/
def execEvPrqReplyFail (fn : Fn) (v : DWord) (s : State) : Host.Outcome State Fault Refusal :=
  if !fnOpen s (fnFile fn) || !v.getLsbD 16 then .next s
  else
    match repliedTo s fn v with
    | none => .next (strayReply s fn (fld v.toNat 0 16))
    | some r => .next (if eventRoom s r.vf then failRequest s r else s)

/-! ## Event records (R419, R446) -/

/-- The 384 bytes of a record. -/
def eventBytes (e : Event) : List Byte :=
  toBytes 1 e.code ++ toBytes 1 e.reason ++ toBytes 2 e.vf ++ toBytes 2 e.launch ++ toBytes 2 e.flags ++ toBytes 8 e.pc
    ++ toBytes 4 e.unit ++ toBytes 2 e.strand ++ toBytes 1 e.quarter ++ toBytes 1 0 ++ toBytes 4 e.faulted.toNat
    ++ toBytes 4 e.done.toNat ++ toBytes 4 e.jobtag ++ toBytes 4 e.token ++ toBytes 8 e.time ++ slice e.aux 0 16
    ++ (List.range 32).flatMap (fun l => toBytes 8 (nth e.addrs l 0)) ++ slice e.aux2 0 64

/-- EVQ_PULL: the oldest record goes to the host; an empty queue writes byte 0 as 0. -/
def execEvEvqPull (fn : Fn) (v : DWord) (s : State) : Host.Outcome State Fault Refusal :=
  let q := fnFile fn
  let io := v.toNat / 4096 * 4096
  if !fnOpen s q then .next s
  else
    match (fnOf s q).events with
    | [] => .next { s with hostMem := putBytes s.hostMem io [0] }
    | e :: rest =>
      let s := setFn { s with hostMem := putBytes s.hostMem io (eventBytes e) } q (fun f => { f with events := rest })
      .next (if rest.isEmpty then s else raiseMsix s q 0)

/-! ## Trap replies (R422) -/

def hasToken (n : Nat) (t : Strand) : Bool := match t.token with | some k => k.num == n | none => false

/-- The lanes that a token parked. -/
def tokenLanes (t : Strand) : LaneMask := match t.token with | some k => k.lanes | none => 0

/-- Resume at PC + 12, or at the next PC for a step: where the parked lanes stand. -/
def resumeParked (t : Strand) : Strand := resumeToken t (tokenLanes t)
/-- End the parked lanes as `exit` does: lanes of their path that took no part go on (R197, R422; DEDUCED, log 148). -/
def endParked (t : Strand) : Strand := exitLanes (resumeParked t) (tokenLanes t)

/-- Answers a token: of a resident strand, of a saved one, or of none. -/
def answerToken (s : State) (fn : Fn) (n : Nat) (f : Strand → Strand) : State :=
  let q := fnFile fn
  let res := (s.units.filter (fun e => queueOf (fnOfLid e.2.lid) == q)).flatMap (fun e =>
    (e.2.strands.filter (fun t => hasToken n t.2)).map (fun t => (e.1, t.1)))
  match res with
  | (uid, k) :: _ => tryMatrix (setStrand s uid k f) uid k
  | [] =>
    let saved := s.images.filter (fun e => queueOf e.2.fn == q && e.2.unit.strands.any (fun t => hasToken n t.2))
    match saved with
    | (_, im) :: _ => mapSaved s im.fn (fun t => if hasToken n t then f t else t)
    | [] => strayReply s fn n

/-- TRAP_REPLY with END 0. -/
def execEvTrapReplyResume (fn : Fn) (v : DWord) (s : State) : Host.Outcome State Fault Refusal :=
  if !fnOpen s (fnFile fn) || v.getLsbD 32 then .next s else .next (answerToken s fn (fld v.toNat 0 32) resumeParked)

/-- TRAP_REPLY with END 1. -/
def execEvTrapReplyEnd (fn : Fn) (v : DWord) (s : State) : Host.Outcome State Fault Refusal :=
  if !fnOpen s (fnFile fn) || !v.getLsbD 32 then .next s else .next (answerToken s fn (fld v.toNat 0 32) endParked)

/-! ## Plain registers (R4, R443, R445, R447, R449) -/

/-- A write of CXL_WINw: PORT is fixed, reserved bits stay 0. -/
def cxlOf (v : Nat) : CxlWin := { valid := fld v 0 1 == 1, part := fld v 2 6, first := fld v 8 32, pages := fld v 40 32 }

/-- Clears DROPPED of JOB_STATUS (R299). -/
def clearDropped (s : State) (fn : Nat) : State :=
  if isPf fn then setPart s (fn - 128) (fun p => { p with pfDropped := false }) else setFn s fn (fun f => { f with dropped := false })

/-- A whole write of a register of the PF's file. -/
def pfWrite (s : State) (off v : Nat) : State :=
  if off = 0x70 then { s with pfPart := v % 64 }
  else if 0x100 ≤ off ∧ off < 0x180 ∧ off % 16 = 0 then { s with cxl := Tbl.put s.cxl ((off - 0x100) / 16) (cxlOf v) }
  else if 0x2000 ≤ off ∧ off < 0x2800 ∧ off % 8 = 0 then
    { s with peerMap := Tbl.put s.peerMap ((off - 0x2000) / 8) (BitVec.ofNat 64 (v % 2 ^ 21)) }
  else if 0x4000 ≤ off ∧ off < 0x4800 ∧ off % 32 = 0 then
    { s with mcast := Tbl.put s.mcast ((off - 0x4000) / 32) (BitVec.ofNat 256 v) }
  else s

/-- REGISTER_WRITE: a whole write of a register with no behaviour of its own; every other offset ignores it
(PRESUMED, log 115; DEDUCED, log 117). -/
def execEvRegisterWrite (fn : Fn) (off : Nat) (v : BitVec 256) (s : State) : Host.Outcome State Fault Refusal :=
  if !fnOpen s (fnFile fn) then .next s
  else if off = 0x10 then .next (if v.getLsbD 5 then clearDropped s (fnNow s fn) else s)
  else
    match fn with
    | .pf => .next (pfWrite s off v.toNat)
    | .vf _ => .next s

/-! ## Function-level reset (R386, R387) -/

/-- Step 1: the VF's saves in progress are abandoned; the function keeps them until their status blocks are written (R386). -/
def abandonHalts (s : State) (vf : Nat) : State :=
  let gone := s.halts.filter (fun h => h.vf == vf)
  let s := gone.foldl (fun s h => dropStops { s with halts := s.halts.filter (fun k => k.id != h.id) } (fun t => t.halt == h.id)) s
  setFn s vf (fun f => { f with resetHalts := f.resetHalts ++ gone })

/-- Step 5: every abandoned save's status block says ABORTED_BY_RESET (R386, R440; DEDUCED, log 126). -/
def abortHalts (s : State) (vf : Nat) : State :=
  (fnOf s vf).resetHalts.foldl (fun s h => putStatus s h.block haltReset h.saved.length h.missed) s

/-- FLR: the VF's work ends as under `cancel.job`. -/
def execEvFlr (vf : Fin 128) (s : State) : Host.Outcome State Fault Refusal :=
  if !fnOpen s vf.val then .next s
  else
    let s := zeroImages (abandonHalts (setFn s vf.val (fun f => { f with flr := true })) vf.val) vf.val
    let s := { s with reqs := s.reqs.filter (fun r => r.vf != vf.val) }
    let keys := (s.jobs.filter (fun e => decide (e.1 / 16 = vf.val))).map (·.1)
    .next (keys.foldl (fun s k => cancelJob s (refOfKey k) .cancelled) s)

/-- Does work of a VF remain? -/
def vfBusy (s : State) (vf : Nat) : Bool :=
  s.jobs.any (fun e => decide (e.1 / 16 = vf)) || s.launches.any (fun e => fnOfLid e.1 == vf)
    || s.units.any (fun e => fnOfLid e.2.lid == vf)

/-- What the guest set: the fields the PF set stay (R387; DEDUCED, log 121). -/
def guestReset (f : FnState) : FnState :=
  { msix := f.msix, part := f.part, bound := f.bound, port := f.port, world := f.world, share := f.share, s2root := f.s2root
    cairnBind := f.cairnBind, saveArea := f.saveArea, debugWord := f.debugWord, halted := f.halted, unbinding := f.unbinding
    ide := f.ide, barred := f.barred }

/-- FLR_COMPLETE: once nothing of the VF's work remains. -/
def execEvFlrComplete (vf : Fin 128) (s : State) : Host.Outcome State Fault Refusal :=
  if !(fnOf s vf.val).flr || vfBusy s vf.val then .next s
  else
    let s := setFn (abortHalts s vf.val) vf.val guestReset
    let s := { s with
      ended := Tbl.keep s.ended (fun k _ => fnOfLid k != vf.val)
      endedJobs := Tbl.keep s.endedJobs (fun k _ => k / 16 != vf.val)
      tasks := Tbl.keep s.tasks (fun k _ => k / 4096 != vf.val)
      reqs := s.reqs.filter (fun r => r.vf != vf.val)
      images := Tbl.keep s.images (fun _ im => im.fn != vf.val) }
    .next (dropXlat s .vf vf.val 0)

end Sys2Proof.Machine
end

