-- ==== Sys2Proof/Machine/Partitions.lean ====
section
/-! DEFINITION. The commands of the PF over partitions (R369-R376), the phases of a partition with its scrub and receipt
(R377-R380), and the commands over cairn regions and domains (R273-R275, R448). -/

namespace Sys2Proof.Machine

open Sys2Proof

/-! ## Command blocks (R373, R448) -/

/-- H0, on which the PF appears (R21), is up (DEDUCED, log 128). -/
def hostUp (s : State) : Bool := linkUp s 36

/-- The 64 bytes of a PART_CMD block, read once from host memory (R373); none where it is unreadable or misaligned (log 41). -/
def commandBlock (s : State) (addr : DWord) : Option Nat :=
  if addr.toNat % 64 = 0 && hostUp s then some (ofBytes (getBytes s.hostMem addr.toNat 64)) else none

/-- OP and codes of partition commands (R373, R374). -/
def opCreate : Nat := 1
def opDestroy : Nat := 2
def opBind : Nat := 3
def opUnbind : Nat := 4
def opReceipt : Nat := 5

def codeShape : Nat := 1
def codeFull : Nat := 2
def codeState : Nat := 3
def codeImage : Nat := 4
def codeMalformed : Nat := 5
def codeShort : Nat := 6

def partDoneEvent (s : State) (op part code n : Nat) : State := postEvent s 128 { code := evPartDone, aux := doneAux op part code n }

/-- Fields of a command block. -/
def cmdPart (b : Nat) : Nat := fld b 8 6
def cmdVf (b : Nat) : Nat := fld b 192 7
def cmdSrc (b : Nat) : Nat := fld b 128 64
def cmdPages (b : Nat) : Nat := fld b 112 10

/-- The partition that a CREATE makes (R371, R373). -/
def createdPart (b : Nat) : Partition :=
  { st := .reassign, span := fld b 32 1 == 1, first := fld b 33 8, count := fld b 41 5, eng := fld b 46 3
    owner := BitVec.ofNat 32 (fld b 64 32), clog := fld b 96 5, cbase := fld b 101 11 }

/-- Every reserved bit is 0, and the fields of the operation are in range (R374). -/
def cmdWellFormed (b : Nat) : Bool :=
  let op := fld b 0 8
  let rsv := fld b 14 18 == 0 && fld b 49 15 == 0 && fld b 122 6 == 0 && fld b 252 260 == 0
  let pages := cmdPages b != 0 && cmdSrc b % pageBytes == 0
  rsv &&
    (match op with
     | 1 =>
       let p := createdPart b
       pages && decide (12 ≤ p.clog) && decide (p.clog ≤ 23) && 4096 * p.cbase % 2 ^ p.clog == 0
     | 2 => pages
     | 3 => fld b 204 8 != 0
     | 4 => true
     | 5 => pages
     | _ => false)

/-! ## CREATE (R370, R373-R375) -/

/-- R370. -/
def shapeLegal (p : Partition) : Bool :=
  if p.span then decide (p.count ∈ [2, 4, 8, 16]) && p.first % p.count == 0 && decide (p.first + p.count ≤ 16)
  else decide (p.count ∈ [1, 2, 3, 4, 6, 12]) && p.first % p.count == 0 && decide (p.first + p.count ≤ 192)
    && p.first / 12 == (p.first + p.count - 1) / 12

/-- Two commons allotments overlap. -/
def allotMeets (p q : Partition) : Bool :=
  decide (4096 * p.cbase < 4096 * q.cbase + 2 ^ q.clog) && decide (4096 * q.cbase < 4096 * p.cbase + 2 ^ p.clog)

/-- The lowest free engines of a die, `n` of engines 0 to 6 (R372). -/
def freeEngines (s : State) (die : Nat) : List Nat := (List.range 7).filter (fun e => (nth (dieOf s die).engines e none).isNone)

def diesOf (p : Partition) : List Nat := ((partSlices p).map dieOfCluster).eraseDups

/-- Slices named by CREATEs that were written earlier and wait behind other commands of their partition (R374). -/
def namedSlices (s : State) (seq : Nat) : List Nat :=
  s.parts.flatMap (fun e => (e.2.cmds.filter (fun k => k.op == opCreate && decide (k.seq < seq) && shapeLegal (createdPart k.bits))).flatMap
    (fun k => partSlices (createdPart k.bits)))

/-- CODE of a CREATE, 0 when it is accepted (DEDUCED, log 112). -/
def createCode (s : State) (b seq : Nat) : Nat :=
  let p := createdPart b
  let sls := partSlices p
  if (partOf s (cmdPart b)).st != .free then codeState
  else if !shapeLegal p || sls.any (fun x => s.usedSlices.contains x || s.excludedSlices.contains x || (namedSlices s seq).contains x)
      || s.parts.any (fun e => e.2.st != .free && allotMeets p e.2) then codeShape
  else if 64 ≤ (s.parts.filter (fun e => e.2.st != .free)).length
      || (diesOf p).any (fun d => decide ((freeEngines s d).length < p.eng)) then codeFull
  else 0

/-- Takes the engines of a die for a partition. -/
def takeEngines (s : State) (p n die : Nat) : State :=
  let es := (freeEngines s die).take n
  setDie s die (fun d => { d with engines := (d.engines.zipIdx).map (fun e => if es.contains e.2 then some p else e.1) })

/-- REASSIGN begins: slices, engines and allotment are bound, the key is generated, the counters are 0 (R375, R404). -/
def beginCreate (s : State) (b : Nat) : State :=
  let n := cmdPart b
  let old := partOf s n
  let (key, s) := fresh s
  let p := { createdPart b with key := some key, incarn := s.receiptSeq, cmd := some { op := opCreate, bits := b }, cmds := old.cmds
                                railVote := old.railVote, pfCairn := old.pfCairn, pfDropped := old.pfDropped }
  let s := setPart { s with receiptSeq := s.receiptSeq + 1, usedSlices := s.usedSlices ++ partSlices p } n (fun _ => p)
  (diesOf p).foldl (fun s d => takeEngines s n p.eng d) s

/-! ## BIND_VF, UNBIND_VF, DESTROY, RECEIPT -/

/-- VFs bound to a partition. -/
def boundVfs (s : State) (p : Nat) : List Nat := (s.fns.filter (fun e => decide (e.1 < 128) && e.2.bound && e.2.part == p)).map (·.1)

/-- DEDUCED, log 111. -/
def bindCode (s : State) (b : Nat) : Nat :=
  let p := cmdPart b
  let f := fnOf s (cmdVf b)
  if (partOf s p).st != .live || (f.bound && f.part != p) then codeState
  else if !f.bound && decide (8 ≤ (boundVfs s p).length) then codeFull
  else 0

def bindVf (s : State) (b : Nat) : State :=
  setFn s (cmdVf b) (fun f =>
    { f with part := cmdPart b, bound := true, port := fld b 199 1 == 1, world := fld b 200 4, share := fld b 204 8
             s2root := BitVec.ofNat 64 (fld b 212 40), unbinding := false })

/-- The jobs of a function end as under `cancel.job`. -/
def cancelJobsOf (s : State) (fn : Nat) : State :=
  ((s.jobs.filter (fun e => e.1 / 16 == fn)).map (·.1)).foldl (fun s k => cancelJob s (refOfKey k) .cancelled) s

def beginUnbind (s : State) (vf : Nat) : State := cancelJobsOf (setFn s vf (fun f => { f with unbinding := true })) vf

/-- DRAIN begins: every JOB_SUBMIT closes, every job is cancelled, every VF is unbound (R375). -/
def beginDrain (s : State) (p : Nat) : State :=
  let s := setPart (settleMs s p) p (fun q => { q with st := .drain, dir := true })
  cancelJobsOf ((boundVfs s p).foldl beginUnbind s) (128 + p)

/-! ## Receipts (R379, R380) -/

def up16k (n : Nat) : Nat := (n + 16383) / 16384 * 16384

/-- Bytes of a buffer that holds a receipt of `len` bytes and `c` records. -/
def bufferNeed (len c : Nat) : Nat := up16k len + 8704 * c

/-- Writes the receipt and the records; the records leave the queue. -/
def writeReceipt (s : State) (p src : Nat) : State :=
  let q := partOf s p
  let r := q.receipt.getD []
  let m := putBytes s.hostMem src r
  let m := (q.usage.zipIdx).foldl (fun m e => putBytes m (src + up16k r.length + 8704 * e.2) (usageBytes e.1)) m
  { s with hostMem := m }

/-- The receipt goes to its buffer, when it fits and the host can be written: CODE and count. -/
def deliver (s : State) (p b : Nat) : Nat × Nat × State :=
  let q := partOf s p
  let c := q.usage.length
  let need := bufferNeed (q.receipt.getD []).length c
  if cmdPages b * pageBytes < need then (codeShort, need, s)
  else if !hostUp s then (codeImage, 0, setPart s p (fun q => { q with usage := [], receipt := none }))
  else (0, c, setPart (writeReceipt s p (cmdSrc b)) p (fun q => { q with usage := [], receipt := none }))

/-- The partition leaves SCRUB. -/
def leaveScrub (s : State) (p : Nat) : State := setPart s p (fun q => { q with st := .reassign, dir := true })

/-! ## Running commands in order (R373, R374) -/

def startCmd (s : State) (p : Nat) (k : PartCmd) : State :=
  let b := k.bits
  let refuse (code : Nat) : State := partDoneEvent s k.op p code 0
  match k.op with
  | 1 => let c := createCode s b k.seq; if c = 0 then beginCreate s b else refuse c
  | 2 =>
    if (partOf s p).st = .live then beginDrain (setPart s p (fun q => { q with cmd := some k })) p else refuse codeState
  | 3 => let c := bindCode s b; if c = 0 then partDoneEvent (bindVf s b) k.op p 0 0 else refuse c
  | 4 =>
    let f := fnOf s (cmdVf b)
    if (partOf s p).st = .live && f.bound && f.part == p then beginUnbind (setPart s p (fun q => { q with cmd := some k })) (cmdVf b)
    else refuse codeState
  | _ =>
    if (partOf s p).st = .scrub && (partOf s p).receipt.isSome then
      let r := deliver s p b
      let s := partDoneEvent r.2.2 k.op p r.1 r.2.1
      if r.1 = codeShort then s else leaveScrub s p
    else refuse codeState

/-- Starts the commands of a partition, in the order written, up to one that takes time. -/
def pumpCmds (p : Nat) : Nat → State → State
  | 0, s => s
  | n + 1, s =>
    let q := partOf s p
    match q.cmd, q.cmds with
    | none, k :: rest => pumpCmds p n (startCmd (setPart s p (fun q => { q with cmds := rest })) p k)
    | _, _ => s

/-- Ends the command in progress with its event, and starts what was written after it. -/
def endCmd (s : State) (p code n : Nat) : State :=
  match (partOf s p).cmd with
  | none => s
  | some k =>
    let s := partDoneEvent (setPart s p (fun q => { q with cmd := none })) k.op p code n
    pumpCmds p ((partOf s p).cmds.length + 1) s

/-- A write of PART_CMD: the block is read once, refused where it is malformed, else queued behind the earlier commands of
its partition (DEDUCED, log 127). -/
def partCmd (addr : DWord) (s : State) : State :=
  if !fnOpen s 128 then s
  else
    match commandBlock s addr with
    | none => partDoneEvent s 0 0 codeMalformed 0
    | some b =>
      let p := cmdPart b
      if !cmdWellFormed b then partDoneEvent s (fld b 0 8) p codeMalformed 0
      else
        let (i, s) := fresh s
        let s := setPart s p (fun q => { q with cmds := q.cmds ++ [{ op := fld b 0 8, bits := b, seq := i }] })
        pumpCmds p ((partOf s p).cmds.length + 1) s

/-- PART_CMD with a CREATE block; the block's OP decides. -/
def execEvPartCreate (addr : DWord) (s : State) : Host.Outcome State Fault Refusal := .next (partCmd addr s)
/-- PART_CMD with a DESTROY block. -/
def execEvPartDestroy (addr : DWord) (s : State) : Host.Outcome State Fault Refusal := .next (partCmd addr s)
/-- PART_CMD with a BIND_VF block. -/
def execEvBindVf (addr : DWord) (s : State) : Host.Outcome State Fault Refusal := .next (partCmd addr s)
/-- PART_CMD with an UNBIND_VF block. -/
def execEvUnbindVf (addr : DWord) (s : State) : Host.Outcome State Fault Refusal := .next (partCmd addr s)
/-- PART_CMD with a RECEIPT block. -/
def execEvReceipt (addr : DWord) (s : State) : Host.Outcome State Fault Refusal := .next (partCmd addr s)

/-- UNBIND_VF_COMPLETE: the entry is cleared, and CAIRN_BIND, SAVE_AREA and DEBUG read their reset values (R375). -/
def execEvUnbindVfComplete (vf : Fin 128) (s : State) : Host.Outcome State Fault Refusal :=
  let f := fnOf s vf.val
  if !f.unbinding || vfBusy s vf.val then .next s
  else
    let s := setFn s vf.val (fun f =>
      { f with part := 0, bound := false, port := false, world := 0, share := 0, s2root := 0, saveArea := 0, debugWord := 0
               cairnBind := List.replicate 8 0, unbinding := false, barred := [], faults := 0 })
    .next (match (partOf s f.part).cmd with
      | some k => if k.op = opUnbind && cmdVf k.bits == vf.val then endCmd s f.part 0 0 else s
      | none => s)

/-! ## Phases (R375) -/

/-- The image is copied to partition pages 0 on (R373; DEDUCED, log 113) (DEDUCED, log 114). -/
def copyImage (s : State) (p b : Nat) : State :=
  (List.range (cmdPages b)).foldl (fun s i =>
    let bs := getBytes s.hostMem (cmdSrc b + i * pageBytes) pageBytes
    meterAdd { s with mem := putBytes s.mem (pageToPa (partOf s p) i) bs } p 3 pageBytes) s

/-- The pool takes back the engines of a partition. -/
def releaseEngines (s : State) (p : Nat) : State :=
  { s with dies := Tbl.mapV s.dies (fun _ d => { d with engines := d.engines.map (fun e => if e == some p then none else e) }) }

/-- PARTITION_REASSIGN_DONE. -/
def execEvPartitionReassignDone (p : Fin 64) (s : State) : Host.Outcome State Fault Refusal :=
  let q := partOf s p.val
  if q.st != .reassign then .next s
  else if q.dir then .next (releaseEngines (setPart s p.val (fun q => { q with st := .release, key := none })) p.val)
  else
    match q.cmd with
    | none => .next s
    | some k =>
      if hostUp s then .next (setPart (copyImage s p.val k.bits) p.val (fun q => { q with st := .release }))
      else
        let s := setPart s p.val (fun q => { q with st := .scrub, dir := true, noReceipt := true, scrubStart := s.time })
        .next (endCmd s p.val codeImage 0)

/-- The reeve of a cluster, and what it counts, start afresh (DEDUCED, log 123). -/
def resetReeve (s : State) (cl : Nat) : State :=
  setCluster s cl (fun c =>
    { c with reeve := {}, quantum := 2000, quantumAt := s.time, ticks := 0, stats := [], lastStats := [], heldAt := [], keep := false
             tenants := [] })

/-- A partition that is FREE again: the registers that the PF set for its number stay (log 42). -/
def freePart (q : Partition) : Partition :=
  { cmd := q.cmd, cmds := q.cmds, railVote := q.railVote, pfCairn := q.pfCairn, pfDropped := q.pfDropped }

/-- PARTITION_RELEASE_DONE: creating, the partition is LIVE; returning, its slices are clean and it is FREE. -/
def execEvPartitionReleaseDone (p : Fin 64) (s : State) : Host.Outcome State Fault Refusal :=
  let q := partOf s p.val
  if q.st != .release then .next s
  else if q.dir then
    let sls := partSlices q
    let s := setPart { s with usedSlices := s.usedSlices.filter (fun x => !sls.contains x) } p.val freePart
    .next (endCmd s p.val q.doneCode q.written)
  else
    let s := (partSlices q).foldl resetReeve s
    let s := setPart s p.val (fun q =>
      { q with st := .live, hostRoutines := [], hostLoading := none, hostLastcode := 0, t0 := s.time, periods := 0
               msDone := s.time / 1000000 })
    .next (endCmd s p.val 0 0)

/-- Is nothing of a partition outstanding (R376)? A record that the host is taking leaves its queue first (R410; DEDUCED, log 171). -/
def drained (s : State) (p : Nat) : Bool :=
  let fnHere (fn : Nat) : Bool := if isPf fn then fn == 128 + p else (fnOf s fn).bound && (fnOf s fn).part == p
  (boundVfs s p).isEmpty
    && !s.jobs.any (fun e => e.2.part == p) && !s.launches.any (fun e => e.2.part == p)
    && !s.units.any (fun e => fnHere (fnOfLid e.2.lid)) && !(partCores s p).any (fun c => (unitsOn s c).length != 0)
    && !s.syncs.any (fun y => y.issuer == p) && !s.dies.any (fun d => d.2.bulk.any (fun b => b.part == p))
    && !s.reqs.any (fun r => r.part == p) && !s.pulls.any (fun y => y.part == p && y.seq.isSome)
    && !s.parts.any (fun e => e.1 != p && e.2.links.any (fun l => l.2.1 == p))

/-- DRAIN_END: the FINAL record is emitted, SCRUB begins (R376, R407). -/
def execEvDrainEnd (p : Fin 64) (s : State) : Host.Outcome State Fault Refusal :=
  if (partOf s p.val).st != .drain || !drained s p.val then .next s
  else
    let s := emitRecord s p.val true
    .next (setPart s p.val (fun q => { q with st := .scrub, dir := true, scrubStart := s.time }))

/-! ## The scrub (R377, R378) -/

def inSlices (sls : List Nat) (pa : Nat) : Bool := match sliceOfPa pa with | some x => sls.contains x | none => false

/-- A core whose storage is zeroed; the system registers that name its roles and worlds stay (DEDUCED, log 124). -/
def scrubbedCore (c : Core) : Core :=
  { xt := c.xt, st := c.st, lt := c.lt, xq := c.xq, sc := c.sc, lc := c.lc, wTgt := c.wTgt, wCur := c.wCur, wPend := c.wPend
    wFail := c.wFail, gens := c.gens }

/-- Everything that a partition held reads zero. -/
def zeroPartition (s : State) (p : Nat) : State :=
  let q := partOf s p
  let sls := partSlices q
  let lo := 4096 * q.cbase
  let hi := lo + 2 ^ q.clog
  let cores := partCores s p
  setPart { s with
    mem := s.mem.filter (fun c => !inSlices sls c.1)
    l2 := Tbl.keep s.l2 (fun sec _ => !inSlices sls (secBase sec))
    badSectors := s.badSectors.filter (fun sec => !inSlices sls (secBase sec))
    commons := Tbl.keep s.commons (fun o _ => !(decide (lo ≤ o) && decide (o < hi)))
    cores := Tbl.mapV s.cores (fun c x => if cores.contains c then scrubbedCore x else x)
    reclaim := Tbl.keep s.reclaim (fun sl _ => !sls.contains sl) } p
    (fun q => { q with region := none, domains := [], links := [] })

/-- The places found failing that lie in the partition, as exclusions: physical address and KIND (R379). -/
def exclusionsOf (s : State) (p : Nat) (fails : List ScrubFail) : List (Nat × Nat) :=
  let sls := partSlices (partOf s p)
  (fails.filterMap (fun f => match f with
    | .page sl n =>
      if sls.contains sl.val && decide (n < pagesPerGroup) && !s.retired.contains (paOf sl.val (n * pageBytes)) then
        some (paOf sl.val (n * pageBytes), 1) else none
    | .slice sl => if sls.contains sl.val then some (paOf sl.val 0, 2) else none)).eraseDups

/-- The signature of a group: 0 when clean; an excluded slice's is a free value (log 43). -/
def groupSigs (excl : List (Nat × Nat)) : State → List Nat → List Nat × State
  | s, [] => ([], s)
  | s, sl :: rest =>
    if excl.contains (paOf sl 0, 2) then
      let v := freeVal s
      let r := groupSigs excl v.2 rest
      (v.1 :: r.1, r.2)
    else let r := groupSigs excl s rest; (0 :: r.1, r.2)

/-- The receipt (R379). -/
def receiptBytes (seq start stop p : Nat) (sls : List Nat) (sigs : List Nat) (excl : List (Nat × Nat)) : List Byte :=
  let body := toBytes 4 1 ++ toBytes 4 (if excl.isEmpty then 1 else 2) ++ toBytes 8 seq ++ (List.range 48).map Config.identityByte
    ++ toBytes 8 start ++ toBytes 8 stop ++ toBytes 4 p ++ toBytes 4 sls.length
    ++ toBytes 24 (sls.foldl (fun a x => a + 2 ^ x) 0) ++ toBytes 4 excl.length ++ toBytes 12 0
    ++ sigs.flatMap (toBytes 8) ++ excl.flatMap (fun e => toBytes 8 (e.1 + e.2 * 2 ^ 40))
  body ++ signatures body

/-- One more page retired in the channel group of each address. -/
def countRetired (t : Tbl Nat) (pages : List Nat) : Tbl Nat :=
  (pages.filterMap sliceOfPa).foldl (fun t x => Tbl.upd t x 0 (· + 1)) t

/-- Retires pages and excludes slices for ever (R378). -/
def applyExclusions (s : State) (excl : List (Nat × Nat)) : State :=
  let pages := (excl.filter (fun e => e.2 == 1)).map (·.1)
  let slices := (excl.filter (fun e => e.2 == 2)).filterMap (fun e => sliceOfPa e.1)
  { s with retired := s.retired ++ pages, excludedSlices := s.excludedSlices ++ slices
           life := { s.life with retired := countRetired s.life.retired pages } }

/-- SCRUB_END: everything is zero and checked; the receipt and the records are written, or SHORT is posted (R377-R380). -/
def execEvScrubEnd (p : Fin 64) (fails : List ScrubFail) (s : State) : Host.Outcome State Fault Refusal :=
  let q := partOf s p.val
  if q.st != .scrub || q.receipt.isSome then .next s
  else
    let excl := exclusionsOf s p.val fails
    let s := applyExclusions (zeroPartition s p.val) excl
    if q.noReceipt then .next (leaveScrub s p.val)
    else
      let r := groupSigs excl s (partSlices q)
      let s := r.2
      let bytes := receiptBytes s.receiptSeq q.scrubStart s.time p.val (partSlices q) r.1 excl
      let s := setPart { s with receiptSeq := s.receiptSeq + 1 } p.val (fun q => { q with receipt := some bytes })
      match q.cmd with
      | none => .next s
      | some k =>
        let d := deliver s p.val k.bits
        if d.1 = codeShort then .next (endCmd d.2.2 p.val codeShort d.2.1)
        else .next (leaveScrub (setPart d.2.2 p.val (fun q => { q with doneCode := d.1, written := d.2.1 })) p.val)

/-! ## Cairn commands (R448) -/

def cairnDoneEvent (s : State) (op part code : Nat) : State := postEvent s 128 { code := evCairnDone, aux := doneAux op part code 0 }

def cOk : Nat := 0
def cState : Nat := 1
def cFull : Nat := 2
def cOwner : Nat := 3
def cKey : Nat := 4
def cMalformed : Nat := 5

def cDomain (b : Nat) : Nat := fld b 14 8
def cHolder (b : Nat) : Nat := fld b 22 6
def cHdom (b : Nat) : Nat := fld b 28 8
def cLines (b : Nat) : Nat := fld b 64 32
def cSlots (b : Nat) : Nat := fld b 96 32
def cKeyAddr (b : Nat) : Nat := fld b 128 64

/-- An `nmcopy` or `nmsync` of the partition is outstanding. -/
def nmOutstanding (s : State) (p : Nat) : Bool :=
  s.syncs.any (fun y => y.part == p || y.issuer == p)
    || (allCopies s).any (fun y => match y.root, launch? s y.lid with
      | some r, some l => r.1 == p || l.part == p
      | some r, none => r.1 == p
      | none, _ => false)

/-- A CAIRN_BIND register of a VF of the partition, or PF_CAIRN, selects one of its own domains that satisfies a test. -/
def domainBound (s : State) (p : Nat) (t : Nat → Bool) : Bool :=
  let q := partOf s p
  let names (v : Nat) : Bool := fld v 8 1 == 1 && !Tbl.has q.links (fld v 0 8) && Tbl.has q.domains (fld v 0 8) && t (fld v 0 8)
  names q.pfCairn.toNat || (boundVfs s p).any (fun f => (fnOf s f).cairnBind.any (fun w => names w.toNat))

/-- Another partition's domain table names one of these domains. -/
def domainLinked (s : State) (p : Nat) (t : Nat → Bool) : Bool :=
  s.parts.any (fun e => e.2.links.any (fun l => l.2.1 == p && t l.2.2))

/-- The domains that satisfy a test go, with every line, count and slot (R273). -/
def removeDomains (s : State) (p : Nat) (t : Nat → Bool) : State :=
  let q := partOf s p
  let lines := ((q.domains.filter (fun d => t d.1)).map (fun d => d.2.lines)).foldl (· + ·) 0
  let s := setPart s p (fun q =>
    { q with domains := Tbl.keep q.domains (fun d _ => !t d)
             region := q.region.map (fun r => { r with freeLines := r.freeLines + lines }) })
  let s := { s with
    reclaim := Tbl.keep (Tbl.mapV s.reclaim (fun _ ns => ns.filter (fun x => !(x.part == p && t x.dom)))) (fun _ ns => !ns.isEmpty)
    cores := Tbl.mapV s.cores (fun _ c => { c with cairn := c.cairn.filter (fun e => !(e.2.1 == p && t e.2.2.1)) }) }
  (partSlices q).foldl (fun s sl => refillReclaim p sl (overflowOf s p sl).length s) s

/-- The pages of a region return to the partition, zeroed (R222, R273). -/
def zeroRegion (s : State) (p : Nat) (r : Region) : State :=
  let pas := (List.range (regionPages r)).map (fun i => pageToPa (partOf s p) (r.first + i))
  let hit (a : Nat) : Bool := pas.contains (a / 2 ^ 32 * 2 ^ 32 + a % 2 ^ 32 / pageBytes * pageBytes)
  { s with mem := s.mem.filter (fun c => !hit c.1), l2 := Tbl.keep s.l2 (fun sec _ => !hit (secBase sec))
           cores := Tbl.mapV s.cores (fun _ c => { c with l1 := Tbl.keep c.l1 (fun a _ => !hit a) }) }

def cairnRegion (s : State) (b : Nat) : Nat × State :=
  let p := cmdPart b
  let q := partOf s p
  let n := cLines b
  if q.st != .live then (cState, s)
  else if 0 < n then
    let r : Region := { first := cSlots b, units := n, freeLines := n * 67108864 / 192 }
    if q.region.isSome then (cState, s)
    else if pagesPerGroup * (partSpan q).2 < r.first + regionPages r then (cMalformed, s)
    else (cOk, setPart s p (fun q => { q with region := some r }))
  else
    match q.region with
    | none => (cState, s)
    | some r =>
      if domainBound s p (fun _ => true) || domainLinked s p (fun _ => true) || nmOutstanding s p then (cState, s)
      else
        let s := zeroRegion (removeDomains s p (fun _ => true)) p r
        (cOk, setPart s p (fun q => { q with region := none }))

def ceilDiv (a b : Nat) : Nat := (a + b - 1) / b

/-- Lines of the region that a domain takes (R273). -/
def domainLines (b slots : Nat) : Nat := b + ceilDiv b 4 + ceilDiv b 12 + ceilDiv slots 12

/-- Data lines of a new domain by channel group: line `i` lies in group `i` mod k (log 44). -/
def splitLines (b k : Nat) : List Nat := (List.range k).map (fun g => (b + k - 1 - g) / k)

/-- The root entries of a new domain: its directory lines are dealt like its data lines (R274, log 44). -/
def newShards (p d b k : Nat) : List Shard :=
  (List.range k).map (fun g =>
    { base := Config.shardBase p d g, lines := nth (splitLines (ceilDiv b 4) k) g 0
      freeHead := if nth (splitLines b k) g 0 = 0 then 0xFFFFFFFF else Config.freeHead p d g (nth (splitLines b k) g 0) % 0xFFFFFFFF })

/-- The key of a new domain: generated, or unwrapped from 40 bytes of host memory (R274, R448). -/
def newKey (s : State) (addr : Nat) : Option (BitVec 256) × State :=
  if addr = 0 then let (n, s) := fresh s; (some (Config.domainKey n), s)
  else if s.importKey = 0 || !hostUp s then (none, s)
  else (Config.unwrapKey s.importKey (getBytes s.hostMem addr 40), s)

def cairnCreate (s : State) (b : Nat) : Nat × State :=
  let p := cmdPart b
  let q := partOf s p
  let d := cDomain b
  let need := domainLines (cLines b) (cSlots b)
  if cSlots b = 0 || decide (65536 < cSlots b) then (cMalformed, s)
  else if q.st != .live || Tbl.has q.domains d || Tbl.has q.links d then (cState, s)
  else if (match q.region with | some r => r.freeLines | none => 0) < need then (cFull, s)
  else
    match newKey s (cKeyAddr b) with
    | (none, _) => (cKey, s)
    | (some key, s) =>
      let dom : Domain := { key := key, budget := cLines b, nslots := cSlots b, roots := []
                            free := splitLines (cLines b) (partSpan q).2, lines := need
                            shards := newShards p d (cLines b) (partSpan q).2 }
      (cOk, setPart s p (fun q =>
        { q with domains := Tbl.put q.domains d dom, region := q.region.map (fun r => { r with freeLines := r.freeLines - need }) }))

def cairnDelete (s : State) (b : Nat) : Nat × State :=
  let p := cmdPart b
  let d := cDomain b
  let one : Nat → Bool := fun i => i == d
  if (partOf s p).st != .live || !Tbl.has (partOf s p).domains d || domainBound s p one || domainLinked s p one || nmOutstanding s p then
    (cState, s)
  else (cOk, removeDomains s p one)

def cairnLink (s : State) (b : Nat) : Nat × State :=
  let p := cmdPart b
  let h := cHolder b
  let q := partOf s p
  if h = p then (cMalformed, s)
  else if q.st != .live || (partOf s h).st != .live || !Tbl.has (partOf s h).domains (cHdom b) || Tbl.has q.domains (cDomain b)
      || Tbl.has q.links (cDomain b) then (cState, s)
  else if q.owner != (partOf s h).owner then (cOwner, s)
  else (cOk, setPart s p (fun q => { q with links := Tbl.put q.links (cDomain b) (h, cHdom b) }))

def cairnUnlink (s : State) (b : Nat) : Nat × State :=
  let p := cmdPart b
  if Tbl.has (partOf s p).links (cDomain b) then (cOk, setPart s p (fun q => { q with links := Tbl.del q.links (cDomain b) }))
  else (cState, s)

/-- The 64 bytes of a CAIRN_CMD block, read once at a generic address in the PF_PART partition (R445, R448; DEDUCED,
log 41), and none where they are unreadable. -/
def cairnBlock (s : State) (addr : DWord) : Option Nat × State :=
  if (partOf s s.pfPart).st != .live then (none, s)
  else
    match readBlock s (2 * jobHome s s.pfPart) (128 + s.pfPart) s.pfPart addr.toNat 64 with
    | (.ok bs, s) => (some (ofBytes bs), s)
    | (.error _, s) => (none, s)

/-- A write of CAIRN_CMD: the block is read once, and its OP decides; a refused command changes nothing. -/
def cairnCmd (addr : DWord) (s : State) : State :=
  if !fnOpen s 128 then s
  else
    match cairnBlock s addr with
    | (none, s) => cairnDoneEvent s 0 0 cMalformed
    | (some b, s) =>
      let r : Nat × State :=
        if fld b 36 28 != 0 || fld b 192 320 != 0 then (cMalformed, s)
        else
          match fld b 0 8 with
          | 1 => cairnRegion s b
          | 2 => cairnCreate s b
          | 3 => cairnDelete s b
          | 4 => cairnLink s b
          | 5 => cairnUnlink s b
          | _ => (cMalformed, s)
      cairnDoneEvent r.2 (fld b 0 8) (cmdPart b) r.1

/-- CAIRN_CMD with a REGION block. -/
def execEvCairnRegion (addr : DWord) (s : State) : Host.Outcome State Fault Refusal := .next (cairnCmd addr s)
/-- CAIRN_CMD with a CREATE block. -/
def execEvCairnCreate (addr : DWord) (s : State) : Host.Outcome State Fault Refusal := .next (cairnCmd addr s)
/-- CAIRN_CMD with a DELETE block. -/
def execEvCairnDelete (addr : DWord) (s : State) : Host.Outcome State Fault Refusal := .next (cairnCmd addr s)
/-- CAIRN_CMD with a LINK block. -/
def execEvCairnLink (addr : DWord) (s : State) : Host.Outcome State Fault Refusal := .next (cairnCmd addr s)
/-- CAIRN_CMD with an UNLINK block. -/
def execEvCairnUnlink (addr : DWord) (s : State) : Host.Outcome State Fault Refusal := .next (cairnCmd addr s)

end Sys2Proof.Machine
end

