-- ==== Sys2Proof/Machine/HostPort.lean ====
section
/-! DEFINITION. The ports: host memory accesses over CXL (R248-R250, R447), accesses from peers (R251, R269, R449), links
(R259, R385), and start-up (R450, R452). -/

namespace Sys2Proof.Machine

open Sys2Proof

/-! ## Accesses at the home (R248, R250) -/

/-- Physical address of the `n` bytes at `off`, in one page, of a window; none where they reach nothing: the window is invalid, its
partition is not LIVE, they lie beyond PAGES, beyond the partition, or in a removed range (R221, R447, log 45), or a link between
the window's port and the home is down (R20, R21). -/
def windowPa (s : State) (w off n : Nat) : Option Nat :=
  let c := Tbl.getD s.cxl w {}
  let p := partOf s c.part
  let page := c.first + off / pageBytes
  if !c.valid || p.st != .live || decide (c.pages ≤ off / pageBytes) || decide (pagesPerGroup * (partSpan p).2 ≤ page) then none
  else
    let pa := pageToPa p page + off % pageBytes
    if removedPa s pa n || !portReaches s (hostDie (w / 4)) (36 + w / 4) pa n then none else some pa

/-- A byte written from outside: the channel group is written, the L2 copy goes (R248). -/
def portWrite (s : State) (pa : Nat) (bs : List Byte) : State :=
  let secs := sectorsOf pa bs.length
  let s := secs.foldl (fun s c => chargeSector (chargeL2 s true c) true c 3) s
  { s with mem := putBytes s.mem pa bs, l2 := Tbl.keep s.l2 (fun c _ => !secs.contains c) }

/-- HOST_WRITE: the bytes go to the partition; where some of them reach nothing, the write is discarded. -/
def execEvHostWrite (w : Fin 8) (off : Nat) (data : List Byte) (s : State) : Host.Outcome State Fault Refusal :=
  if !s.dev.ready || (pagePieces off data.length).any (fun e => (windowPa s w.val e.1 e.2).isNone) then .next s
  else
    -- one write for each page piece
    .next ((pagePieces off data.length).foldl (fun s e =>
      match windowPa s w.val e.1 e.2 with
      | some pa => portWrite s pa (slice data (e.1 - off) e.2)
      | none => s) s)

/-- HOST_READ: at the home; what reaches nothing is poison. -/
def execEvHostRead (w : Fin 8) (off n : Nat) (s : State) : Host.Outcome State Fault Refusal :=
  if !s.dev.ready then .next { s with latch := none }
  else
    let ps := (pagePieces off n).map (fun e => (windowPa s w.val e.1 e.2, e.2))
    match ps.find? (fun e => e.1.isNone) with
    | some _ => .next { s with latch := none }
    | none =>
      let r := ps.foldl (fun (acc : List Byte × State) e =>
        match e.1 with
        | some pa => (acc.1 ++ getBytes acc.2.mem pa e.2, l2Touch acc.2 true pa e.2 false)
        | none => acc) ([], s)
      .next { r.2 with latch := some r.1 }

/-! ## Peers (R449) -/

/-- What a peer's access needs. -/
def peerNeeds : PeerOp → Rights
  | .read _ => .read
  | .write _ => .write
  | .atomic _ _ _ | .cas _ _ _ => .rmw

def peerBytes : PeerOp → Nat
  | .read n => n
  | .write d => d.length
  | .atomic _ t _ => t.bits / 8
  | .cas w _ _ => if w then 8 else 4

/-- The home of a peer's access through the receiving VF's stage 2; none where it is refused, or cannot get there from the port's die. -/
def peerPa (s : State) (port vf ipa n : Nat) (need : Rights) : Option Nat :=
  let f := fnOf s vf
  if !f.bound || (partOf s f.part).st != .live || decide (pageBytes < ipa % pageBytes + n) || decide (2 ^ 53 < ipa + n) then none
  else
    match (walk2 (memEntry s) f.s2root.toNat (ipa / pageBytes)).1 with
    | .leaf (.page pa) r w _ =>
      if (need.r && !r) || (need.w && !w) || s.retired.contains pa || noPage pa (ipa % pageBytes) || removedPa s (pa + ipa % pageBytes) n
          || !portReaches s (portDie port) (24 + port) (pa + ipa % pageBytes) n then
        none
      else some (pa + ipa % pageBytes)
    | _ => none

/-- PEER_ACCESS: performed at its home, or refused. -/
def execEvPeerAccess (port : Fin 12) (vf : Fin 128) (ipa : Nat) (op : PeerOp) (s : State) : Host.Outcome State Fault Refusal :=
  let n := peerBytes op
  let at' := if s.dev.ready then peerPa s port.val vf.val ipa n (peerNeeds op) else none
  match at' with
  | none => .next { s with latch := none }
  | some pa =>
    let old := getBytes s.mem pa n
    match op with
    | .read _ => .next { l2Touch s true pa n false with latch := some old }
    | .write d => .next { portWrite s pa d with latch := some [] }
    | .atomic f t v =>
      if pa % n ≠ 0 then .next { s with latch := none }
      else .next { portWrite (l2Touch s true pa n false) pa (toBytes n (atomNew f t (ofBytes old) v.toNat)) with latch := some old }
    | .cas _ cmp new =>
      if pa % n ≠ 0 then .next { s with latch := none }
      else if ofBytes old = cmp.toNat % 2 ^ (8 * n) then .next { portWrite (l2Touch s true pa n false) pa (toBytes n new.toNat) with latch := some old }
      else .next { l2Touch s true pa n false with latch := some old }

/-! ## Links (R385) -/

/-- Lanes of a waiting load that cross a link. -/
def lanesOver (s : State) (link uid : Nat) (d : Pend) : LaneMask :=
  match unit? s uid with
  | none => 0
  | some w => maskOf (fun l => lane d.todo l && (match Tbl.find? d.locs l with
      | some loc => (linksTo s (dieOfCore w.core) (portOfUnit s uid) loc).contains link
      | none => false))

/-- Loads in flight over a link end with UNCORR. -/
def failLoads (s : State) (link : Nat) : State :=
  let all := s.units.flatMap (fun e => e.2.strands.flatMap (fun t => t.2.pends.map (fun d => (e.1, t.1, d))))
  all.foldl (fun s e =>
    let m := lanesOver s link e.1 e.2.2
    if m = 0 then s
    else
      laterFault s e.1 e.2.1 e.2.2.pc
        { code := fUncorr, lanes := m, done := e.2.2.lanes &&& ~~~e.2.2.todo, precise := false
          addrs := addrList m (fun l => nth e.2.2.addr l 0) }) s

/-- Stores on their way that meet an uncorrectable error end with UNCORR (R259). -/
def failSends (s : State) (lost : Send → Bool) : State :=
  (s.sends.filter lost).foldl (fun s x =>
    let m := maskOf (· == x.lane)
    laterFault s x.uid x.k x.pc { code := fUncorr, lanes := m, precise := false, addrs := addrList m (fun _ => x.addr) })
    { s with sends := s.sends.filter (fun x => !lost x) }

/-- Copies with bytes to carry crosses a link end with UNCORR (R328). -/
def failCopies (s : State) (link : Nat) : State :=
  let crosses (core : Nat) (y : Copy) : Bool :=
    !y.failed && y.parts.any (fun p => p.2.zipIdx.any (fun b => !b.1.landed &&
      (byteLinks s core y p.1 b.1 ++ nmCols s core y b.2).contains link))
  let lost := s.cores.flatMap (fun c => (c.2.copies.filter (crosses c.1)).map (fun y => (c.1, y)))
  lost.foldl (fun s e => endUncorr s e.2) s

/-- A link goes down: every access in flight crosses it ends with UNCORR. -/
def linkDown (s : State) (link : Nat) : State :=
  let s := { s with links := Tbl.upd s.links link {} (fun l => { l with up := false, fails := 0, failsBack := 0 }) }
  failCopies (failSends (failLoads s link)
    (fun x => (linksTo s (dieOfCore x.core) (portOfUnit s x.uid) x.loc).contains link)) link

/-- A peer refuses a page, or serves it again; a store on its way there meets the refusal (R449). -/
def peerPage (s : State) (x : PeerRefusal) (refuse : Bool) : State :=
  if refuse then
    let s := { s with peerRefuses := x :: s.peerRefuses.filter (· != x) }
    failSends s (fun y => match y.loc with | .peer i v ipa => peerSays s i v ipa false true | _ => false)
  else { s with peerRefuses := s.peerRefuses.filter (· != x) }

/-- LINK event of a peer port (R446). -/
def linkEvent (s : State) (link : Nat) (up : Bool) : State :=
  if 24 ≤ link ∧ link < 36 then postEvent s 128 { code := evLinkCode, aux := toBytes 1 (link - 24) ++ toBytes 1 (if up then 1 else 0) }
  else s

/-- Consecutive tag failures of one direction (R10, R385). -/
def Link.failsOf (l : Link) (back : Bool) : Nat := if back then l.failsBack else l.fails
def Link.fail (l : Link) (back : Bool) : Link := if back then { l with failsBack := l.failsBack + 1 } else { l with fails := l.fails + 1 }

/-- FLIT_TAG_FAIL: the flit is resent; the third failure in a row of one direction takes the link down (DEDUCED, log 105). -/
def execEvFlitTagFail (way : LinkWay) (s : State) : Host.Outcome State Fault Refusal :=
  let l := Tbl.getD s.links way.link.val {}
  if !l.up then .next s
  else if l.failsOf way.back < 2 then
    .next { s with links := Tbl.upd s.links way.link.val {} (fun l => l.fail way.back) }
  else .next (linkEvent (linkDown s way.link.val) way.link.val false)

/-- A flit of one direction arrives whole: the run of failures of that direction ends (R385). -/
def goodFlit (s : State) (link : Nat) (back : Bool) : State :=
  { s with links := Tbl.upd s.links link {} (fun l => if back then { l with failsBack := 0 } else { l with fails := 0 }) }

/-- LINK: a peer port goes down or comes up; a link that comes up has new keys (R385; DEDUCED, log 107). -/
def execEvLink (port : Fin 12) (up : Bool) (s : State) : Host.Outcome State Fault Refusal :=
  let n := 24 + port.val
  if linkUp s n == up then .next s
  else if up then
    .next (linkEvent { s with links := Tbl.upd s.links n {} (fun l => { l with up := true, fails := 0, failsBack := 0, keys := l.keys + 1 }) } n true)
  else .next (linkEvent (linkDown s n) n false)

/-- COL_REKEY: new keys before the counter wraps. -/
def execEvColRekey (link : Fin 38) (s : State) : Host.Outcome State Fault Refusal :=
  .next (if linkUp s link.val then { s with links := Tbl.upd s.links link.val {} (fun l => { l with keys := l.keys + 1 }) } else s)

/-- SPDM_EXCHANGE: a function's IDE stream is established, or the key-import key is agreed (R385, R448;
DESIGN CHOICE, log 122). -/
def execEvSpdmExchange (stream : Option Fn) (s : State) : Host.Outcome State Fault Refusal :=
  if !s.dev.ready then .next s
  else
    match stream with
    | some fn => .next (setFn s (fnFile fn) (fun f => { f with ide := true }))
    | none => .next { s with importKey := s.importKey + 1 }

/-! ## Start-up (R452) -/

/-- A signed object is accepted only when both its signatures verify (R23). -/
def verified (g : Sigs) : Bool := g.rsa && g.slh

/-- A field part that failed its signatures is replaced by an empty one (R450). -/
def resetField (s : State) : State := { s with retired := [], repairs := {}, life := {}, lifeFlash := {}, attest := s.attest ++ [[3]] }

/-- The physical cores of a die that a repair map takes out: as shipped, or by a self-test of any start-up (R450, R452). -/
def mappedOut (s : State) (die : Nat) : List Nat := Tbl.getD s.vendor.shipped.cores die [] ++ Tbl.getD s.repairs.cores die []

/-- The physical cores that a die has left, in ascending order: its logical cores stand on the first 24 (R14; DESIGN CHOICE, log 151). -/
def coreMap (s : State) (r : StartResult) (die : Nat) : List Nat :=
  ((List.range 26).filter (fun c => (nth r.cores die []).contains c && !(mappedOut s die).contains c)).take 24

/-- The repairs that the self-test of step 4 adds to the field part: they hold for every later start-up (R12, R413, R452). -/
def addRepairs (s : State) (r : StartResult) : State :=
  { s with
    repairs := { cores := (List.range 16).foldl (fun t d => Tbl.upd t d [] (fun l =>
                   l ++ (List.range 26).filter (fun c => !(nth r.cores d []).contains c && !l.contains c))) s.repairs.cores
                 lanes := r.lanes.foldl (fun t e => Tbl.upd t e.1.val [] (fun l => l ++ [e.2])) s.repairs.lanes
                 rows := r.rows.foldl (fun t e => Tbl.upd t e.1.val [] (fun l => l ++ [e.2])) s.repairs.rows }
    life := { s.life with repaired := r.lanes.foldl (fun t e => Tbl.upd t e.1.val 0 (· + 1)) s.life.repaired } }

/-- Step 5: the cols are trained and have new keys (R385), every slice is scrubbed, time starts. -/
def trainMemory (s : State) : State :=
  { s with
    links := (List.range 24).foldl (fun t n => Tbl.upd t n {} (fun l =>
      { l with up := true, fails := 0, failsBack := 0, keys := l.keys + 1 })) s.links
    mem := []
    dev := { s.dev with stage := 5 }
    time := 0
    clock := 0
    lifeAt := 0 }

/-- Step 6: the host ports are up, the PF is there, PTM starts. -/
def openPorts (s : State) : State :=
  { s with
    links := [36, 37].foldl (fun t n => Tbl.upd t n {} (fun l => { l with up := true, fails := 0, failsBack := 0 })) s.links
    dev := { s.dev with ready := true }
    ptm := 0
    life := { s.life with cycles := s.life.cycles + 1 } }

/-- A step fails with its code. -/
def startFails (s : State) (code : Nat) : State := { s with dev := { stage := 7, ready := false, failcode := code } }

/-- A step is done: the next one is under way. -/
def startNext (s : State) (stage : Nat) : State := { s with dev := { s.dev with stage := stage } }

/-- START_UP (R452): the step under way, which STAGE names, is carried out; a part that has started, or stopped, does not start again
(DEDUCED, log 120). A signed object is accepted only when both its signatures verify (R23). -/
def execEvStartUp (r : StartResult) (s : State) : Host.Outcome State Fault Refusal :=
  if s.dev.ready || decide (s.dev.stage = 7) then .next s
  else
    match s.dev.stage with
    | 0 =>
      if !verified r.firmware then .next (startFails s 1)
      else if r.version < s.vendor.floor then .next (startFails s 2)
      else .next (startNext s 1)
    | 1 => .next (if r.identity then startNext s 2 else startFails s 3)
    | 2 =>
      if !verified r.vendor then .next (startFails s 4)
      else .next (startNext (if verified r.field then s else resetField s) 3)
    | 3 =>
      if (List.range 16).any (fun d => decide ((coreMap s r d).length < 24)) || r.beyond then .next (startFails s 5)
      else .next (startNext (addRepairs s r) 4)
    | 4 => .next (if r.memory then trainMemory s else startFails s 6)
    | _ => .next (openPorts s)

end Sys2Proof.Machine
end

