-- ==== Sys2Proof/Machine/Integer.lean ====
section
/-! DEFINITION. Group 0: integer arithmetic and `mov` (R133-R138). -/

namespace Sys2Proof.Machine

open Sys2Proof

/-- `iadd` (R134). -/
def execIadd (c : Ctl) (t : Ty) (sat : Bool) (o : Ops) (s : State) : Host.Outcome State Fault Refusal :=
  ramson (.iadd c t sat o)
    (lanes2 (.iadd c t sat o) c o t.words (rdI t) (rdI t) (fIadd t sat)) s

/-- `isub` (R134). -/
def execIsub (c : Ctl) (t : Ty) (sat : Bool) (o : Ops) (s : State) : Host.Outcome State Fault Refusal :=
  ramson (.isub c t sat o)
    (lanes2 (.isub c t sat o) c o t.words (rdI t) (rdI t) (fIsub t sat)) s

/-- `imul` (R134). -/
def execImul (c : Ctl) (t : Ty) (sat : Bool) (o : Ops) (s : State) : Host.Outcome State Fault Refusal :=
  ramson (.imul c t sat o)
    (lanes2 (.imul c t sat o) c o t.words (rdI t) (rdI t) (fImul t sat)) s

/-- `imulh` (R134). -/
def execImulh (c : Ctl) (t : Ty) (o : Ops) (s : State) : Host.Outcome State Fault Refusal :=
  ramson (.imulh c t o)
    (lanes2 (.imulh c t o) c o t.words (rdI t) (rdI t) (fImulh t)) s

/-- `imad` (R134). -/
def execImad (c : Ctl) (t : Ty) (sat : Bool) (o : Ops) (s : State) : Host.Outcome State Fault Refusal :=
  ramson (.imad c t sat o)
    (lanes3 (.imad c t sat o) c o t.words (rdI t) (rdI t) (rdI t) (fImad t sat)) s

/-- `imin` (R134). -/
def execImin (c : Ctl) (t : Ty) (o : Ops) (s : State) : Host.Outcome State Fault Refusal :=
  ramson (.imin c t o)
    (lanes2 (.imin c t o) c o t.words (rdI t) (rdI t) (fImin t)) s

/-- `imax` (R134). -/
def execImax (c : Ctl) (t : Ty) (o : Ops) (s : State) : Host.Outcome State Fault Refusal :=
  ramson (.imax c t o)
    (lanes2 (.imax c t o) c o t.words (rdI t) (rdI t) (fImax t)) s

/-- `iabs` (R134). -/
def execIabs (c : Ctl) (t : Ty) (sat : Bool) (o : Ops) (s : State) : Host.Outcome State Fault Refusal :=
  ramson (.iabs c t sat o)
    (lanes1 (.iabs c t sat o) c o t.words (rdI t) (fIabs t sat)) s

/-- `ineg` (R134). -/
def execIneg (c : Ctl) (t : Ty) (sat : Bool) (o : Ops) (s : State) : Host.Outcome State Fault Refusal :=
  ramson (.ineg c t sat o)
    (lanes1 (.ineg c t sat o) c o t.words (rdI t) (fIneg t sat)) s

/-- `idiv` (R136). -/
def execIdiv (c : Ctl) (t : Ty) (o : Ops) (s : State) : Host.Outcome State Fault Refusal :=
  ramson (.idiv c t o)
    (lanes2 (.idiv c t o) c o t.words (rdI t) (rdI t) (fIdiv t)) s

/-- `irem` (R136). -/
def execIrem (c : Ctl) (t : Ty) (o : Ops) (s : State) : Host.Outcome State Fault Refusal :=
  ramson (.irem c t o)
    (lanes2 (.irem c t o) c o t.words (rdI t) (rdI t) (fIrem t)) s

/-- The carry into lane `l`: C, or 0 when C is null or absent (R135). -/
def carryIn (x : Ctx) (o : Ops) (l : Nat) : Bool :=
  match o.c with
  | .pred _ => readPred x o.c l
  | _ => false

/-- `iaddc` (R135): the carry-in is read before the carry-out is written. -/
def execIaddc (c : Ctl) (t : Ty) (cp : Fin 8) (o : Ops) (s : State) : Host.Outcome State Fault Refusal :=
  ramson (.iaddc c t cp o) (fun x s =>
    let a := readSrc x (rdI t) o.a
    let b := readSrc x (rdI t) o.b
    let st := writePred x.st cp.val x.tm (fun l => carryFlag t (a l) (b l) (carryIn x o l))
    giveVec x s st (.iaddc c t cp o) c o.d t.words (fun l => fIaddc t (a l) (b l) (carryIn x o l))) s

/-- `isad` (R134). -/
def execIsad (c : Ctl) (t : Ty) (o : Ops) (s : State) : Host.Outcome State Fault Refusal :=
  ramson (.isad c t o)
    (lanes3 (.isad c t o) c o t.words (rdI t) (rdI t) (rdI t) (fIsad t)) s

/-- `idot4` (R137). -/
def execIdot4 (c : Ctl) (t : Ty) (sa sb sat : Bool) (o : Ops) (s : State) : Host.Outcome State Fault Refusal :=
  ramson (.idot4 c t sa sb sat o)
    (lanes3 (.idot4 c t sa sb sat o) c o 1 (rdI t) (rdI t) (rdI t) (fIdot4 t sa sb sat)) s

/-- The value that `mov` gives an affine register: an inline constant or a literal at 64 bits (R71, R72, R138). -/
def movValue (t : Ty) (b : Opnd) : DWord :=
  match b with
  | .inline e => BitVec.ofNat 64 (inlineInt e.val 2)
  | .lit v => BitVec.ofNat 64 (if t.signed then wrap 64 (sext 32 v.toNat) else v.toNat)
  | _ => 0

/-- `mov` (R138). -/
def execMov (c : Ctl) (t : Ty) (o : Ops) (s : State) : Host.Outcome State Fault Refusal :=
  ramsonS (.mov c t o)
    (fun x s =>
      match o.d with
      | .aff _ _ => giveAff x s o.d ⟨movValue t o.b, 0⟩
      | _ => giveVec x s x.st (.mov c t o) c o.d t.words (readSrc x (rdI t) o.b))
    (fun s x => spanWrite s x c o.d (some ⟨movValue t o.b, 0⟩)) s

/-- `iclamp` (R134). -/
def execIclamp (c : Ctl) (t : Ty) (o : Ops) (s : State) : Host.Outcome State Fault Refusal :=
  ramson (.iclamp c t o)
    (lanes3 (.iclamp c t o) c o t.words (rdI t) (rdI t) (rdI t) (fIclamp t)) s

end Sys2Proof.Machine
end

