-- ==== Sys2Proof/Machine/Logic.lean ====
section
/-! DEFINITION. Group 1: logic and bits (R139-R143). -/

namespace Sys2Proof.Machine

open Sys2Proof

/-- `and` (R140). -/
def execAnd (c : Ctl) (t : Ty) (o : Ops) (s : State) : Host.Outcome State Fault Refusal :=
  ramson (.and c t o)
    (lanes2 (.and c t o) c o t.words (rdI t) (rdI t) (fAnd)) s

/-- `or` (R140). -/
def execOr (c : Ctl) (t : Ty) (o : Ops) (s : State) : Host.Outcome State Fault Refusal :=
  ramson (.or c t o)
    (lanes2 (.or c t o) c o t.words (rdI t) (rdI t) (fOr)) s

/-- `xor` (R140). -/
def execXor (c : Ctl) (t : Ty) (o : Ops) (s : State) : Host.Outcome State Fault Refusal :=
  ramson (.xor c t o)
    (lanes2 (.xor c t o) c o t.words (rdI t) (rdI t) (fXor)) s

/-- `not` (R140). -/
def execNot (c : Ctl) (t : Ty) (o : Ops) (s : State) : Host.Outcome State Fault Refusal :=
  ramson (.not c t o)
    (lanes1 (.not c t o) c o t.words (rdI t) (fNot t)) s

/-- `andn` (R140). -/
def execAndn (c : Ctl) (t : Ty) (o : Ops) (s : State) : Host.Outcome State Fault Refusal :=
  ramson (.andn c t o)
    (lanes2 (.andn c t o) c o t.words (rdI t) (rdI t) (fAndn t)) s

/-- `shl` (R140). -/
def execShl (c : Ctl) (t : Ty) (clamp : Bool) (o : Ops) (s : State) : Host.Outcome State Fault Refusal :=
  ramson (.shl c t clamp o)
    (lanes2 (.shl c t clamp o) c o t.words (rdI t) rd32 (fShl t clamp)) s

/-- `shr` (R140). -/
def execShr (c : Ctl) (t : Ty) (clamp : Bool) (o : Ops) (s : State) : Host.Outcome State Fault Refusal :=
  ramson (.shr c t clamp o)
    (lanes2 (.shr c t clamp o) c o t.words (rdI t) rd32 (fShr t clamp)) s

/-- `sar` (R140). -/
def execSar (c : Ctl) (t : Ty) (clamp : Bool) (o : Ops) (s : State) : Host.Outcome State Fault Refusal :=
  ramson (.sar c t clamp o)
    (lanes2 (.sar c t clamp o) c o t.words (rdI t) rd32 (fSar t clamp)) s

/-- `rotl` (R140). -/
def execRotl (c : Ctl) (t : Ty) (o : Ops) (s : State) : Host.Outcome State Fault Refusal :=
  ramson (.rotl c t o)
    (lanes2 (.rotl c t o) c o t.words (rdI t) rd32 (fRotl t)) s

/-- `popc` (R140). -/
def execPopc (c : Ctl) (t : Ty) (o : Ops) (s : State) : Host.Outcome State Fault Refusal :=
  ramson (.popc c t o)
    (lanes1 (.popc c t o) c o 1 (rdI t) (fPopc t)) s

/-- `clz` (R140). -/
def execClz (c : Ctl) (t : Ty) (o : Ops) (s : State) : Host.Outcome State Fault Refusal :=
  ramson (.clz c t o)
    (lanes1 (.clz c t o) c o 1 (rdI t) (fClz t)) s

/-- `brev` (R140). -/
def execBrev (c : Ctl) (t : Ty) (o : Ops) (s : State) : Host.Outcome State Fault Refusal :=
  ramson (.brev c t o)
    (lanes1 (.brev c t o) c o t.words (rdI t) (fBrev t)) s

/-- `bfe` (R141). -/
def execBfe (c : Ctl) (t : Ty) (o : Ops) (s : State) : Host.Outcome State Fault Refusal :=
  ramson (.bfe c t o)
    (lanes2 (.bfe c t o) c o t.words (rdI t) rd32 (fBfe t)) s

/-- `bfi` (R141). -/
def execBfi (c : Ctl) (t : Ty) (o : Ops) (s : State) : Host.Outcome State Fault Refusal :=
  ramson (.bfi c t o)
    (lanes3 (.bfi c t o) c o t.words (rdI t) (rdI t) rd32 (fBfi t)) s

/-- `bmix` (R142). -/
def execBmix (c : Ctl) (t : Ty) (f : BmixFn) (o : Ops) (s : State) : Host.Outcome State Fault Refusal :=
  ramson (.bmix c t f o)
    (lanes3 (.bmix c t f o) c o t.words (rdI t) (rdI t) (rdI t) (fBmix t f)) s

/-- `bsel` (R143); `.rev` reads A alone. -/
def execBsel (c : Ctl) (t : Ty) (m : BselMode) (o : Ops) (s : State) : Host.Outcome State Fault Refusal :=
  ramson (.bsel c t m o)
    (lanes3 (.bsel c t m o) c o 1 rd32 rd32 rd32 (fBsel m)) s

end Sys2Proof.Machine
end

