-- ==== Sys2Proof/Machine/Special.lean ====
section
/-! DEFINITION. Group 5: special functions, correctly rounded to nearest even (R123, R165, R166). -/

namespace Sys2Proof.Machine

open Sys2Proof

/-- `frcp` (R166). -/
def execFrcp (c : Ctl) (t : Ty) (o : Ops) (s : State) : Host.Outcome State Fault Refusal :=
  ramson (.frcp c t o)
    (lanes1 (.frcp c t o) c o 1 (.flt t) (fun a => perElem t (fun j => elSpecial t rcpX (elem t a j)))) s

/-- `frsq` (R166). -/
def execFrsq (c : Ctl) (t : Ty) (o : Ops) (s : State) : Host.Outcome State Fault Refusal :=
  ramson (.frsq c t o)
    (lanes1 (.frsq c t o) c o 1 (.flt t) (fun a => perElem t (fun j => elSpecial t rsqX (elem t a j)))) s

/-- `fexp2` (R166). -/
def execFexp2 (c : Ctl) (t : Ty) (o : Ops) (s : State) : Host.Outcome State Fault Refusal :=
  ramson (.fexp2 c t o)
    (lanes1 (.fexp2 c t o) c o 1 (.flt t) (fun a => perElem t (fun j => elSpecial t exp2X (elem t a j)))) s

/-- `flog2` (R166). -/
def execFlog2 (c : Ctl) (t : Ty) (o : Ops) (s : State) : Host.Outcome State Fault Refusal :=
  ramson (.flog2 c t o)
    (lanes1 (.flog2 c t o) c o 1 (.flt t) (fun a => perElem t (fun j => elSpecial t log2X (elem t a j)))) s

/-- `fsinpi` (R166). -/
def execFsinpi (c : Ctl) (t : Ty) (o : Ops) (s : State) : Host.Outcome State Fault Refusal :=
  ramson (.fsinpi c t o)
    (lanes1 (.fsinpi c t o) c o 1 (.flt t) (fun a => perElem t (fun j => elSpecial t (trigPi true) (elem t a j)))) s

/-- `fcospi` (R166). -/
def execFcospi (c : Ctl) (t : Ty) (o : Ops) (s : State) : Host.Outcome State Fault Refusal :=
  ramson (.fcospi c t o)
    (lanes1 (.fcospi c t o) c o 1 (.flt t) (fun a => perElem t (fun j => elSpecial t (trigPi false) (elem t a j)))) s

/-- `ftanh` (R166). -/
def execFtanh (c : Ctl) (t : Ty) (o : Ops) (s : State) : Host.Outcome State Fault Refusal :=
  ramson (.ftanh c t o)
    (lanes1 (.ftanh c t o) c o 1 (.flt t) (fun a => perElem t (fun j => elSpecial t tanhX (elem t a j)))) s

/-- `fsigm` (R166). -/
def execFsigm (c : Ctl) (t : Ty) (o : Ops) (s : State) : Host.Outcome State Fault Refusal :=
  ramson (.fsigm c t o)
    (lanes1 (.fsigm c t o) c o 1 (.flt t) (fun a => perElem t (fun j => elSpecial t sigmX (elem t a j)))) s

end Sys2Proof.Machine
end

