-- ==== Sys2Proof/Machine/Dispatch.lean ====
section
/-! DEFINITION. One arm per constructor: the meaning of every instruction, host command and machine event. -/

namespace Sys2Proof.Machine

open Sys2Proof

/-- What an instruction or event does to the machine. -/
def exec (i : Instr) (s : State) : Host.Outcome State Fault Refusal :=
  match i with
  | .iadd c t sat o => Sys2Proof.Machine.execIadd c t sat o s
  | .isub c t sat o => Sys2Proof.Machine.execIsub c t sat o s
  | .imul c t sat o => Sys2Proof.Machine.execImul c t sat o s
  | .imulh c t o => Sys2Proof.Machine.execImulh c t o s
  | .imad c t sat o => Sys2Proof.Machine.execImad c t sat o s
  | .imin c t o => Sys2Proof.Machine.execImin c t o s
  | .imax c t o => Sys2Proof.Machine.execImax c t o s
  | .iabs c t sat o => Sys2Proof.Machine.execIabs c t sat o s
  | .ineg c t sat o => Sys2Proof.Machine.execIneg c t sat o s
  | .idiv c t o => Sys2Proof.Machine.execIdiv c t o s
  | .irem c t o => Sys2Proof.Machine.execIrem c t o s
  | .iaddc c t cp o => Sys2Proof.Machine.execIaddc c t cp o s
  | .isad c t o => Sys2Proof.Machine.execIsad c t o s
  | .idot4 c t sa sb sat o => Sys2Proof.Machine.execIdot4 c t sa sb sat o s
  | .mov c t o => Sys2Proof.Machine.execMov c t o s
  | .iclamp c t o => Sys2Proof.Machine.execIclamp c t o s
  | .and c t o => Sys2Proof.Machine.execAnd c t o s
  | .or c t o => Sys2Proof.Machine.execOr c t o s
  | .xor c t o => Sys2Proof.Machine.execXor c t o s
  | .not c t o => Sys2Proof.Machine.execNot c t o s
  | .andn c t o => Sys2Proof.Machine.execAndn c t o s
  | .shl c t clamp o => Sys2Proof.Machine.execShl c t clamp o s
  | .shr c t clamp o => Sys2Proof.Machine.execShr c t clamp o s
  | .sar c t clamp o => Sys2Proof.Machine.execSar c t clamp o s
  | .rotl c t o => Sys2Proof.Machine.execRotl c t o s
  | .popc c t o => Sys2Proof.Machine.execPopc c t o s
  | .clz c t o => Sys2Proof.Machine.execClz c t o s
  | .brev c t o => Sys2Proof.Machine.execBrev c t o s
  | .bfe c t o => Sys2Proof.Machine.execBfe c t o s
  | .bfi c t o => Sys2Proof.Machine.execBfi c t o s
  | .bmix c t f o => Sys2Proof.Machine.execBmix c t f o s
  | .bsel c t m o => Sys2Proof.Machine.execBsel c t m o s
  | .icmp c t cond o => Sys2Proof.Machine.execIcmp c t cond o s
  | .fcmp c t cond o => Sys2Proof.Machine.execFcmp c t cond o s
  | .sel c t o => Sys2Proof.Machine.execSel c t o s
  | .pand c na nb o => Sys2Proof.Machine.execPand c na nb o s
  | .por c na nb o => Sys2Proof.Machine.execPor c na nb o s
  | .pxor c na nb o => Sys2Proof.Machine.execPxor c na nb o s
  | .pnot c o => Sys2Proof.Machine.execPnot c o s
  | .pmov c o => Sys2Proof.Machine.execPmov c o s
  | .pagg c m o => Sys2Proof.Machine.execPagg c m o s
  | .pclass c t o => Sys2Proof.Machine.execPclass c t o s
  | .lxch c t m o => Sys2Proof.Machine.execLxch c t m o s
  | .lred c t op o => Sys2Proof.Machine.execLred c t op o s
  | .lscan c t op o => Sys2Proof.Machine.execLscan c t op o s
  | .lbcast c t o => Sys2Proof.Machine.execLbcast c t o s
  | .lmatch c t o => Sys2Proof.Machine.execLmatch c t o s
  | .fadd c t r o => Sys2Proof.Machine.execFadd c t r o s
  | .fsub c t r o => Sys2Proof.Machine.execFsub c t r o s
  | .fmul c t r o => Sys2Proof.Machine.execFmul c t r o s
  | .ffma c t r o => Sys2Proof.Machine.execFfma c t r o s
  | .fmin c t o => Sys2Proof.Machine.execFmin c t o s
  | .fmax c t o => Sys2Proof.Machine.execFmax c t o s
  | .frnd c t r o => Sys2Proof.Machine.execFrnd c t r o s
  | .fdiv c t r o => Sys2Proof.Machine.execFdiv c t r o s
  | .fsqrt c t r o => Sys2Proof.Machine.execFsqrt c t r o s
  | .fclamp c t o => Sys2Proof.Machine.execFclamp c t o s
  | .fscale c t r o => Sys2Proof.Machine.execFscale c t r o s
  | .fdot2 c t r o => Sys2Proof.Machine.execFdot2 c t r o s
  | .frcp c t o => Sys2Proof.Machine.execFrcp c t o s
  | .frsq c t o => Sys2Proof.Machine.execFrsq c t o s
  | .fexp2 c t o => Sys2Proof.Machine.execFexp2 c t o s
  | .flog2 c t o => Sys2Proof.Machine.execFlog2 c t o s
  | .fsinpi c t o => Sys2Proof.Machine.execFsinpi c t o s
  | .fcospi c t o => Sys2Proof.Machine.execFcospi c t o s
  | .ftanh c t o => Sys2Proof.Machine.execFtanh c t o s
  | .fsigm c t o => Sys2Proof.Machine.execFsigm c t o s
  | .cvt c code r o => Sys2Proof.Machine.execCvt c code r o s
  | .qnt c t r o => Sys2Proof.Machine.execQnt c t r o s
  | .dqnt c t r o => Sys2Proof.Machine.execDqnt c t r o s
  | .bfpack c t r o => Sys2Proof.Machine.execBfpack c t r o s
  | .bfunpack c t o => Sys2Proof.Machine.execBfunpack c t o s
  | .seed c o => Sys2Proof.Machine.execSeed c o s
  | .pack c t o => Sys2Proof.Machine.execPack c t o s
  | .unpack c t o => Sys2Proof.Machine.execUnpack c t o s
  | .aset c o => Sys2Proof.Machine.execAset c o s
  | .aadd c o => Sys2Proof.Machine.execAadd c o s
  | .asub c o => Sys2Proof.Machine.execAsub c o s
  | .amul c o => Sys2Proof.Machine.execAmul c o s
  | .ashl c o => Sys2Proof.Machine.execAshl c o s
  | .aand c o => Sys2Proof.Machine.execAand c o s
  | .amov c o => Sys2Proof.Machine.execAmov c o s
  | .avec c t o => Sys2Proof.Machine.execAvec c t o s
  | .auni c t o => Sys2Proof.Machine.execAuni c t o s
  | .acmp c t cond o => Sys2Proof.Machine.execAcmp c t cond o s
  | .aaddr c sc o => Sys2Proof.Machine.execAaddr c sc o s
  | .bra c o => Sys2Proof.Machine.execBra c o s
  | .brx c o => Sys2Proof.Machine.execBrx c o s
  | .call c o => Sys2Proof.Machine.execCall c o s
  | .calli c o => Sys2Proof.Machine.execCalli c o s
  | .ret c o => Sys2Proof.Machine.execRet c o s
  | .fent c o => Sys2Proof.Machine.execFent c o s
  | .exit c o => Sys2Proof.Machine.execExit c o s
  | .ksign c o => Sys2Proof.Machine.execKsign c o s
  | .kwait c o => Sys2Proof.Machine.execKwait c o s
  | .yield c o => Sys2Proof.Machine.execYield c o s
  | .refill c o => Sys2Proof.Machine.execRefill c o s
  | .itemdone c o => Sys2Proof.Machine.execItemdone c o s
  | .trap c o => Sys2Proof.Machine.execTrap c o s
  | .nop c o => Sys2Proof.Machine.execNop c o s
  | .grow c o => Sys2Proof.Machine.execGrow c o s
  | .shrink c o => Sys2Proof.Machine.execShrink c o s
  | .brk c o => Sys2Proof.Machine.execBrk c o s
  | .ld c acc t o => Sys2Proof.Machine.execLd c acc t o s
  | .st c acc t o => Sys2Proof.Machine.execSt c acc t o s
  | .ldu c t o => Sys2Proof.Machine.execLdu c t o s
  | .pvaddr c o => Sys2Proof.Machine.execPvaddr c o s
  | .pf c l2 o => Sys2Proof.Machine.execPf c l2 o s
  | .atom c f t o => Sys2Proof.Machine.execAtom c f t o s
  | .atomcas c t o => Sys2Proof.Machine.execAtomcas c t o s
  | .red c f t o => Sys2Proof.Machine.execRed c f t o s
  | .fence c o => Sys2Proof.Machine.execFence c o s
  | .nmlook c dsel o => Sys2Proof.Machine.execNmlook c dsel o s
  | .nmnode c dsel o => Sys2Proof.Machine.execNmnode c dsel o s
  | .nmreadLine c dsel root o => Sys2Proof.Machine.execNmreadLine c dsel root o s
  | .nmreadPiece c dsel root o => Sys2Proof.Machine.execNmreadPiece c dsel root o s
  | .nmwalk c dsel root o => Sys2Proof.Machine.execNmwalk c dsel root o s
  | .nmswap c dsel o => Sys2Proof.Machine.execNmswap c dsel o s
  | .nmref c dsel root o => Sys2Proof.Machine.execNmref c dsel root o s
  | .nmdrop c dsel o => Sys2Proof.Machine.execNmdrop c dsel o s
  | .nmcopy c dsel root o => Sys2Proof.Machine.execNmcopy c dsel root o s
  | .cpin c coord bytes sig o => Sys2Proof.Machine.execCpin c coord bytes sig o s
  | .cpout c coord bytes sig o => Sys2Proof.Machine.execCpout c coord bytes sig o s
  | .cpmc c coord bytes o => Sys2Proof.Machine.execCpmc c coord bytes o s
  | .cpseal c o => Sys2Proof.Machine.execCpseal c o s
  | .barinit c o => Sys2Proof.Machine.execBarinit c o s
  | .arrive c one x o => Sys2Proof.Machine.execArrive c one x o s
  | .bwait c seq o => Sys2Proof.Machine.execBwait c seq o s
  | .barinv c o => Sys2Proof.Machine.execBarinv c o s
  | .mma c k coord o => Sys2Proof.Machine.execMma c k coord o s
  | .mzero c o => Sys2Proof.Machine.execMzero c o s
  | .mld c coord o => Sys2Proof.Machine.execMld c coord o s
  | .mdrain c r coord o => Sys2Proof.Machine.execMdrain c r coord o s
  | .mmov c t o => Sys2Proof.Machine.execMmov c t o s
  | .mput c t o => Sys2Proof.Machine.execMput c t o s
  | .launch c o => Sys2Proof.Machine.execLaunch c o s
  | .trigger c o => Sys2Proof.Machine.execTrigger c o s
  | .tsig c o => Sys2Proof.Machine.execTsig c o s
  | .cancel c l o => Sys2Proof.Machine.execCancel c l o s
  | .tdset c o => Sys2Proof.Machine.execTdset c o s
  | .tdmod c f o => Sys2Proof.Machine.execTdmod c f o s
  | .tdinv c all o => Sys2Proof.Machine.execTdinv c all o s
  | .cread c sp o => Sys2Proof.Machine.execCread c sp o s
  | .sget c o => Sys2Proof.Machine.execSget c o s
  | .sset c o => Sys2Proof.Machine.execSset c o s
  | .zsig c o => Sys2Proof.Machine.execZsig c o s
  | .tlbinv c t o => Sys2Proof.Machine.execTlbinv c t o s
  | .cmaint c t o => Sys2Proof.Machine.execCmaint c t o s
  | .halt c bnd gang o => Sys2Proof.Machine.execHalt c bnd gang o s
  | .bulkEvict c o => Sys2Proof.Machine.execBulkEvict c o s
  | .bulkReturn c o => Sys2Proof.Machine.execBulkReturn c o s
  | .wsel c o => Sys2Proof.Machine.execWsel c o s
  | .nmsync c dsel o => Sys2Proof.Machine.execNmsync c dsel o s
  | .rvLi o => Sys2Proof.Machine.execRvLi o s
  | .rvMov o => Sys2Proof.Machine.execRvMov o s
  | .rvAdd o => Sys2Proof.Machine.execRvAdd o s
  | .rvSub o => Sys2Proof.Machine.execRvSub o s
  | .rvAnd o => Sys2Proof.Machine.execRvAnd o s
  | .rvOr o => Sys2Proof.Machine.execRvOr o s
  | .rvXor o => Sys2Proof.Machine.execRvXor o s
  | .rvShl o => Sys2Proof.Machine.execRvShl o s
  | .rvShr o => Sys2Proof.Machine.execRvShr o s
  | .rvMul o => Sys2Proof.Machine.execRvMul o s
  | .rvMin o => Sys2Proof.Machine.execRvMin o s
  | .rvMax o => Sys2Proof.Machine.execRvMax o s
  | .rvSlt o => Sys2Proof.Machine.execRvSlt o s
  | .rvSltn o => Sys2Proof.Machine.execRvSltn o s
  | .rvSeq o => Sys2Proof.Machine.execRvSeq o s
  | .rvSel o => Sys2Proof.Machine.execRvSel o s
  | .rvCget o => Sys2Proof.Machine.execRvCget o s
  | .rvCld o => Sys2Proof.Machine.execRvCld o s
  | .rvCst o => Sys2Proof.Machine.execRvCst o s
  | .rvCcas o => Sys2Proof.Machine.execRvCcas o s
  | .rvLoop o => Sys2Proof.Machine.execRvLoop o s
  | .rvLend o => Sys2Proof.Machine.execRvLend o s
  | .rvBf o => Sys2Proof.Machine.execRvBf o s
  | .rvJf o => Sys2Proof.Machine.execRvJf o s
  | .rvDset o => Sys2Proof.Machine.execRvDset o s
  | .rvDone o => Sys2Proof.Machine.execRvDone o s
  | .rvAddi o => Sys2Proof.Machine.execRvAddi o s
  | .rvAndi o => Sys2Proof.Machine.execRvAndi o s
  | .evJobSubmit fn addr sealed => Sys2Proof.Machine.execEvJobSubmit fn addr sealed s
  | .evS1rootWrite vf v => Sys2Proof.Machine.execEvS1rootWrite vf v s
  | .evTlbInv vf v => Sys2Proof.Machine.execEvTlbInv vf v s
  | .evReeveLoad fn addr => Sys2Proof.Machine.execEvReeveLoad fn addr s
  | .evReeveLoadComplete fn => Sys2Proof.Machine.execEvReeveLoadComplete fn s
  | .evReeveCtlArm fn v => Sys2Proof.Machine.execEvReeveCtlArm fn v s
  | .evReeveCtlUnload fn v => Sys2Proof.Machine.execEvReeveCtlUnload fn v s
  | .evPrqPop fn => Sys2Proof.Machine.execEvPrqPop fn s
  | .evPrqReplyResolved fn v => Sys2Proof.Machine.execEvPrqReplyResolved fn v s
  | .evPrqReplyFail fn v => Sys2Proof.Machine.execEvPrqReplyFail fn v s
  | .evEvqPull fn v => Sys2Proof.Machine.execEvEvqPull fn v s
  | .evTrapReplyResume fn v => Sys2Proof.Machine.execEvTrapReplyResume fn v s
  | .evTrapReplyEnd fn v => Sys2Proof.Machine.execEvTrapReplyEnd fn v s
  | .evPartCreate addr => Sys2Proof.Machine.execEvPartCreate addr s
  | .evPartDestroy addr => Sys2Proof.Machine.execEvPartDestroy addr s
  | .evBindVf addr => Sys2Proof.Machine.execEvBindVf addr s
  | .evUnbindVf addr => Sys2Proof.Machine.execEvUnbindVf addr s
  | .evUnbindVfComplete vf => Sys2Proof.Machine.execEvUnbindVfComplete vf s
  | .evReceipt addr => Sys2Proof.Machine.execEvReceipt addr s
  | .evUsagePull v => Sys2Proof.Machine.execEvUsagePull v s
  | .evUsageDone => Sys2Proof.Machine.execEvUsageDone s
  | .evLifeRead v => Sys2Proof.Machine.execEvLifeRead v s
  | .evCairnRegion addr => Sys2Proof.Machine.execEvCairnRegion addr s
  | .evCairnCreate addr => Sys2Proof.Machine.execEvCairnCreate addr s
  | .evCairnDelete addr => Sys2Proof.Machine.execEvCairnDelete addr s
  | .evCairnLink addr => Sys2Proof.Machine.execEvCairnLink addr s
  | .evCairnUnlink addr => Sys2Proof.Machine.execEvCairnUnlink addr s
  | .evRailVote p v => Sys2Proof.Machine.execEvRailVote p v s
  | .evRegisterWrite fn off v => Sys2Proof.Machine.execEvRegisterWrite fn off v s
  | .evHostWrite w off data => Sys2Proof.Machine.execEvHostWrite w off data s
  | .evHostRead w off n => Sys2Proof.Machine.execEvHostRead w off n s
  | .evPeerAccess port vf ipa op => Sys2Proof.Machine.execEvPeerAccess port vf ipa op s
  | .evFlr vf => Sys2Proof.Machine.execEvFlr vf s
  | .evStartUp r => Sys2Proof.Machine.execEvStartUp r s
  | .evFlitTagFail way => Sys2Proof.Machine.execEvFlitTagFail way s
  | .evLink port up => Sys2Proof.Machine.execEvLink port up s
  | .evColRekey link => Sys2Proof.Machine.execEvColRekey link s
  | .evPtmAlign offset => Sys2Proof.Machine.execEvPtmAlign offset s
  | .evQuantumExpiry cl => Sys2Proof.Machine.execEvQuantumExpiry cl s
  | .evTickWatchdog cl => Sys2Proof.Machine.execEvTickWatchdog cl s
  | .evEnq cl => Sys2Proof.Machine.execEvEnq cl s
  | .evPick cl => Sys2Proof.Machine.execEvPick cl s
  | .evTick cl => Sys2Proof.Machine.execEvTick cl s
  | .evBlock cl => Sys2Proof.Machine.execEvBlock cl s
  | .evWake cl => Sys2Proof.Machine.execEvWake cl s
  | .evMigr cl => Sys2Proof.Machine.execEvMigr cl s
  | .evBlockThreshold uid => Sys2Proof.Machine.execEvBlockThreshold uid s
  | .evReeveOverrun cl => Sys2Proof.Machine.execEvReeveOverrun cl s
  | .evFairnessTimerExpiry uid k => Sys2Proof.Machine.execEvFairnessTimerExpiry uid k s
  | .evSqueeze core q => Sys2Proof.Machine.execEvSqueeze core q s
  | .evSpillRestore core q => Sys2Proof.Machine.execEvSpillRestore core q s
  | .evLaunchAccept cl => Sys2Proof.Machine.execEvLaunchAccept cl s
  | .evJobStart fn part entry => Sys2Proof.Machine.execEvJobStart fn part entry s
  | .evGraphExpand fn part entry g => Sys2Proof.Machine.execEvGraphExpand fn part entry g s
  | .evPhaseComplete fn part entry => Sys2Proof.Machine.execEvPhaseComplete fn part entry s
  | .evUnitCut lid => Sys2Proof.Machine.execEvUnitCut lid s
  | .evUnitAdmit cl eid core1 => Sys2Proof.Machine.execEvUnitAdmit cl eid core1 s
  | .evConcurrentAdmit lid => Sys2Proof.Machine.execEvConcurrentAdmit lid s
  | .evSpanResumeAlone inUnit owner slot => Sys2Proof.Machine.execEvSpanResumeAlone inUnit owner slot s
  | .evItemQueueFetch core lid => Sys2Proof.Machine.execEvItemQueueFetch core lid s
  | .evUnitComplete uid => Sys2Proof.Machine.execEvUnitComplete uid s
  | .evMemoryResponse uid k id gen => Sys2Proof.Machine.execEvMemoryResponse uid k id gen s
  | .evSpanResponse inUnit owner slot => Sys2Proof.Machine.execEvSpanResponse inUnit owner slot s
  | .evResourceHoldEnd uid k => Sys2Proof.Machine.execEvResourceHoldEnd uid k s
  | .evMmaStart core q => Sys2Proof.Machine.execEvMmaStart core q s
  | .evMmaComplete core q => Sys2Proof.Machine.execEvMmaComplete core q s
  | .evMdrainSnapshot core q id => Sys2Proof.Machine.execEvMdrainSnapshot core q id s
  | .evMdrainApply core q id => Sys2Proof.Machine.execEvMdrainApply core q id s
  | .evCopyLand core id => Sys2Proof.Machine.execEvCopyLand core id s
  | .evBatchDeferredArrival core id => Sys2Proof.Machine.execEvBatchDeferredArrival core id s
  | .evUnitSave uid => Sys2Proof.Machine.execEvUnitSave uid s
  | .evBoundaryStopDone uid => Sys2Proof.Machine.execEvBoundaryStopDone uid s
  | .evBoundaryStopMiss uid => Sys2Proof.Machine.execEvBoundaryStopMiss uid s
  | .evHaltDone id => Sys2Proof.Machine.execEvHaltDone id s
  | .evBulkDone die engine => Sys2Proof.Machine.execEvBulkDone die engine s
  | .evBankMove core src dst => Sys2Proof.Machine.execEvBankMove core src dst s
  | .evLaneRatioApply cl => Sys2Proof.Machine.execEvLaneRatioApply cl s
  | .evQuarterWorldMove core q => Sys2Proof.Machine.execEvQuarterWorldMove core q s
  | .evPassCountSet cl v => Sys2Proof.Machine.execEvPassCountSet cl v s
  | .evPowerTokensSet die n => Sys2Proof.Machine.execEvPowerTokensSet die n s
  | .evMatrixTokenAdvance die => Sys2Proof.Machine.execEvMatrixTokenAdvance die s
  | .evUsageRecordPeriodic p => Sys2Proof.Machine.execEvUsageRecordPeriodic p s
  | .evMeterMs p => Sys2Proof.Machine.execEvMeterMs p s
  | .evCairnCacheInvalidate core => Sys2Proof.Machine.execEvCairnCacheInvalidate core s
  | .evReclaimNode p dom slice => Sys2Proof.Machine.execEvReclaimNode p dom slice s
  | .evNmsyncLineReceived p dom name line root => Sys2Proof.Machine.execEvNmsyncLineReceived p dom name line root s
  | .evNmsyncComplete id state sent suppressed target => Sys2Proof.Machine.execEvNmsyncComplete id state sent suppressed target s
  | .evNmsyncTimeout id target => Sys2Proof.Machine.execEvNmsyncTimeout id target s
  | .evLifeHistogramWrite => Sys2Proof.Machine.execEvLifeHistogramWrite s
  | .evPartitionReassignDone p => Sys2Proof.Machine.execEvPartitionReassignDone p s
  | .evPartitionReleaseDone p => Sys2Proof.Machine.execEvPartitionReleaseDone p s
  | .evDrainEnd p => Sys2Proof.Machine.execEvDrainEnd p s
  | .evScrubEnd p fails => Sys2Proof.Machine.execEvScrubEnd p fails s
  | .evCopyBytesLanded core id first n => Sys2Proof.Machine.execEvCopyBytesLanded core id first n s
  | .evCopyUncorr core id first => Sys2Proof.Machine.execEvCopyUncorr core id first s
  | .evFlrComplete vf => Sys2Proof.Machine.execEvFlrComplete vf s
  | .evOrderlyShutdown => Sys2Proof.Machine.execEvOrderlyShutdown s
  | .evSpdmExchange stream => Sys2Proof.Machine.execEvSpdmExchange stream s
  | .evNmsyncOffer p dom name => Sys2Proof.Machine.execEvNmsyncOffer p dom name s

end Sys2Proof.Machine
end

