-- ==== Sys2Proof/Machine/Registers.lean ====
section
/-! DEFINITION. What the registers of a register file read as (R4, R443). A read changes nothing, except PRQ_POP, which is a
command of its own. -/

namespace Sys2Proof.Machine

open Sys2Proof

/-- DEVICE_STATUS (R452). -/
def deviceStatus (s : State) : Nat := s.dev.stage % 8 + (if s.dev.ready then 8 else 0) + (s.dev.failcode % 256) * 256

/-- Free entries of a function's job queue (R299). -/
def jobFree (s : State) (fn : Nat) : Nat := 16 - (s.jobs.filter (fun e => e.1 / 16 == fn)).length

/-- JOB_STATUS (R299, R445). -/
def jobStatus (s : State) (fn : Nat) : Nat :=
  let dropped := if isPf fn then (partOf s (fn - 128)).pfDropped else (fnOf s fn).dropped
  jobFree s fn + (if dropped then 32 else 0)

/-- One bit for each routine that satisfies a test (R343). -/
def routineBits (t : Tbl Routine) (p : Routine → Bool) : Nat :=
  (t.filter (fun e => decide (e.1 < 6) && p e.2)).foldl (fun a e => a + 2 ^ e.1) 0

/-- REEVE_STATUS (R343). -/
def reeveStatus (s : State) (fn : Nat) : Nat :=
  let q := partOf s (fn - 128)
  let f := fnOf s fn
  let r : Tbl Routine × Nat × Bool :=
    if isPf fn then (q.hostRoutines, q.hostLastcode, q.hostLoading.isSome) else (f.routines, f.lastcode, f.loading.isSome)
  routineBits r.1 (fun _ => true) + routineBits r.1 (·.suspended) * 2 ^ 8 + (r.2.1 % 16) * 2 ^ 16 + (if r.2.2 then 2 ^ 20 else 0)

/-- STATE of a partition (R371). -/
def PartSt.code : PartSt → Nat
  | .free => 0 | .reassign => 1 | .release => 2 | .live => 3 | .drain => 4 | .scrub => 5

/-- A partition-table entry (R371). -/
def partEntry (s : State) (p : Nat) : Nat :=
  let q := partOf s p
  if q.st = .free then 0
  else
    q.st.code + (if q.dir && q.st != .live then 8 else 0) + (if q.span then 16 else 0) + (q.first % 256) * 2 ^ 5 + (q.count % 32) * 2 ^ 13
      + q.owner.toNat * 2 ^ 32 + (q.clog % 32) * 2 ^ 64 + (q.cbase % 2 ^ 11) * 2 ^ 69 + ((boundVfs s p).length % 16) * 2 ^ 80
      + (q.eng % 8) * 2 ^ 84

/-- CXL_WINw: PORT is fixed (R447). -/
def cxlBits (s : State) (w : Nat) : Nat :=
  let c := Tbl.getD s.cxl w {}
  (if c.valid then 1 else 0) + (w / 4) * 2 + (c.part % 64) * 4 + (c.first % 2 ^ 32) * 2 ^ 8 + (c.pages % 2 ^ 32) * 2 ^ 40

/-- The records of a job-queue entry, which stay readable until the entry is reused (R403): its own, that of its current phase,
and those of the phase's graphs. -/
def jobRecords (s : State) (r : JobRef) : Option (Rec × Rec × List Rec) :=
  match job? s r with
  | some j => some (j.recd, j.phaseRec, j.graphs.map (·.recd))
  | none => Tbl.find? s.endedJobs (jobKey r)

def jobRecord (s : State) (r : JobRef) : Nat := match jobRecords s r with | some x => recBits x.1 | none => 0
def phaseRecord (s : State) (r : JobRef) : Nat := match jobRecords s r with | some x => recBits x.2.1 | none => 0
def graphRecord (s : State) (r : JobRef) (g : Nat) : Nat :=
  match (jobRecords s r).bind (fun x => x.2.2[g]?) with
  | some x => recBits x
  | none => 0

/-- The record of a launch handle, until the handle is reused (R403). -/
def launchRecordOf (s : State) (fn h : Nat) : Nat :=
  match launchRec? s (lidOf fn h) with
  | some r => recBits r
  | none => 0

/-- A register of a file: its offset, its width in bytes and its value. -/
structure RegView where
  base : Nat
  width : Nat
  bits : Nat
deriving DecidableEq, Repr

/-- The register of an array of `n` registers of `w` bytes from `base` on that covers an offset. -/
def arrayView (base w n off : Nat) (f : Nat → Nat) : Option RegView :=
  if base ≤ off ∧ off < base + w * n then
    let i := (off - base) / w
    some ⟨base + w * i, w, f i⟩
  else none

/-- Registers that both files hold (R443). A write-only register reads 0 (R4). -/
def commonView (s : State) (fn off : Nat) : Option RegView :=
  if off = 0 then some ⟨0, 8, deviceStatus s⟩
  else if off = 0x10 then some ⟨0x10, 4, jobStatus s fn⟩
  else if off = 0x30 then some ⟨0x30, 4, reeveStatus s fn⟩
  else
    (arrayView 0x800 16 16 off (fun e => jobRecord s ⟨fn, e⟩)).orElse fun _ =>
    (arrayView 0xA00 16 16 off (fun e => phaseRecord s ⟨fn, e⟩)).orElse fun _ =>
    (arrayView 0x10000 16 1024 off (fun i => graphRecord s ⟨fn, i / 64⟩ (i % 64))).orElse fun _ =>
    arrayView 0x100000 16 65536 off (fun h => launchRecordOf s fn h)

def vfView (s : State) (vf off : Nat) : Option RegView :=
  if off = 0x18 then some ⟨0x18, 8, (fnOf s vf).s1root.toNat % 2 ^ 53⟩
  else if off = 0x20 then some ⟨0x20, 8, if tlbInvBusy s vf then 1 else 0⟩
  else none

def pfView (s : State) (off : Nat) : Option RegView :=
  if off = 0x70 then some ⟨0x70, 8, s.pfPart⟩
  else
    (arrayView 0x100 16 8 off (cxlBits s)).orElse fun _ =>
    (arrayView 0x1000 16 64 off (partEntry s)).orElse fun _ =>
    (arrayView 0x2000 8 256 off (fun i => (Tbl.getD s.peerMap i 0).toNat)).orElse fun _ =>
    (arrayView 0x4000 32 64 off (fun g => (Tbl.getD s.mcast g 0).toNat)).orElse fun _ =>
    arrayView 0x6000 8 64 off (fun p => (partOf s p).railVote.toNat)

/-- The register of a function's file at an offset. Before READY only DEVICE_STATUS of the PF reads (R452), and nothing
reads over a host port that is down; while a reset of a VF runs its file is closed and reads 0 (log 129). -/
def regView (s : State) (fn : Fn) (off : Nat) : Option RegView :=
  let c := fnNow s fn
  if !fnOpen s c then (if off = 0 && isPf c && linkUp s 36 then some ⟨0, 8, deviceStatus s⟩ else none)
  else (commonView s c off).orElse fun _ => (match fn with | .pf => pfView s off | .vf n => vfView s n.val off)

/-- A read of `n` bytes at an offset of a register file (R443): 0 outside the registers, and where the access is narrower than a
64-bit register; a wider register may be read in aligned parts of 8 bytes (log 129). -/
def readRegister (s : State) (fn : Fn) (off n : Nat) : Nat :=
  match regView s fn off with
  | none => 0
  | some v =>
    if v.width ≤ 8 then (if off = v.base ∧ v.width ≤ n ∧ n ≤ 8 then v.bits else 0)
    else if 8 ≤ n ∧ off % 8 = 0 ∧ off + n ≤ v.base + v.width then fld v.bits (8 * (off - v.base)) (8 * n)
    else 0

end Sys2Proof.Machine
end

