-- ==== Sys2Proof/Machine/Turns.lean ====
section
/-! DEFINITION. What a turn of the schedule (log 1) does before an instruction runs: which path a strand issues from (R37-R40), the
fetch of its word (R64), the CONV test (R196, R217), the word of a span or of a reeve; and the turns that carry no instruction:
time, evictions, stores and loads performed at their homes, HBM errors. -/

namespace Sys2Proof.Machine

open Sys2Proof

/-! ## Strands -/

/-- May a strand issue at all: it is not spilled, owes no record, and no lane of it waits for a token or a page reply (R102, R258, R420,
R422)? -/
def strandOpen (t : Strand) : Bool :=
  !t.completed && t.token.isNone && t.owed.isEmpty && !t.isSpilled && t.pends.all (fun d => d.parked.isEmpty)
    && t.steps.all (fun e => t.pends.all (fun d => d.pc != e.1 || d.lanes &&& e.2 == 0 || (isBwait d.instr).isSome))

/-- A single-stepped instruction has completed: its strand parks, once its record has room (R420, R422). -/
def stepToken (s : State) (uid k : Nat) (w : WUnit) (l : Launch) (t : Strand) (e : DWord × LaneMask) : State :=
  if recordRoom s w.lid then
    let t := { t with steps := t.steps.erase e }
    match entryOf t e.2 with
    | some p => takeToken s ⟨uid, k, w, t, 0, p, l, e.2, s.clock⟩ t .step fBreak 2 e.2 e.1 []
    | none => setStrand s uid k (fun _ => t)
  else s

def canIssueStrand (t : Strand) : Bool := strandOpen t && t.paths.any ready

/-- A strand whose unit has the highest issue priority stands in the same quarter and can issue (R38). -/
def outranked (s : State) (w : WUnit) (t : Strand) : Bool :=
  !w.boost && s.units.any (fun e => e.2.boost && e.2.core == w.core &&
    e.2.strands.any (fun x => x.2.quarter == t.quarter && canIssueStrand x.2))

/-- The current path of a strand that issues: the fairness timer's expiry and a path that cannot issue give way to the next
ready path (R39, R40). -/
def issuePath (t : Strand) (noprog : Bool) : Strand :=
  let t := if 64 ≤ t.timer && !noprog then rotate t t.cur noprog else t
  if (curPath t).isNone then rotate t t.cur noprog else t

/-- The tile on which a matrix instruction may be held (R209). -/
def tileOfInstr : Instr → Option Nat
  | .mma _ _ _ o | .mzero _ o | .mld _ _ o | .mput _ _ o => some (accNum o.d)
  | .mmov _ _ o | .mdrain _ _ _ o => some (accNum o.a)
  | _ => none

/-- The instruction at a PC, as a strand of a core would fetch it. -/
def peekAt (s : State) (w : WUnit) (l : Launch) (t : Strand) (pc : Nat) : Option Instr :=
  let who : Who := { core := w.core, world := nth (coreOf s w.core).wCur t.quarter 0, uid := 0, k := t.k, charge := false }
  match (fetchAt s w.core l.fn l.part who pc).1 with
  | .error _ => none
  | .ok bs => (decode bs).toOption

/-- The register that a signing names: an `mma` is never held on its own (R206). -/
def signsFor : Instr → Option Nat
  | .mma _ k _ _ => some k.val
  | _ => none

/-- Lanes still missing from the signing of the `mma` of a tile; none when no `mma` of it waits for signers. `but` is the
register that the asking instruction signs. -/
def missingSigners (t : Strand) (tile : Nat) (but : Option Nat) : Option LaneMask :=
  ((t.convs.zipIdx).find? (fun e => e.1.st == .matrix && some e.2 != but && !fullySigned t e.1 &&
    (match e.1.op with | some p => p.tile == tile | none => false))).map (fun e => e.1.mask &&& liveLanes t &&& ~~~e.1.signed)

/-- Paths held on a tile whose `mma` has not issued, with the lanes missing from its signing (R217). -/
def heldOnTile (s : State) (w : WUnit) (l : Launch) (t : Strand) : List (LaneMask × LaneMask) :=
  (t.paths.filter (fun p => p.st == .run || p.st == .hold)).filterMap (fun p =>
    (peekAt s w l t p.pc.toNat).bind (fun i =>
      match fieldsOf i, tileOfInstr i with
      | some (c, _), some n => if takesPart t p c = 0 then none else (missingSigners t n (signsFor i)).map (fun m => (p.lanes, m))
      | _, _ => none))

def parkedLanes (t : Strand) : LaneMask :=
  t.paths.foldl (fun m p => match p.st with | .parked _ => m ||| p.lanes | _ => m) 0

/-- The held paths that count as parked: every lane they miss is parked, or held in the same way. -/
def countsParked (parked : LaneMask) : Nat → List (LaneMask × LaneMask) → LaneMask
  | 0, _ => parked
  | n + 1, hs =>
    let all := hs.foldl (fun m h => m ||| h.1) parked
    let hs' := hs.filter (fun h => h.2 &&& ~~~all == 0)
    if hs'.length = hs.length then all else countsParked parked n hs'

/-- Every live lane counts as parked, and none can be released (R196, R217; DEDUCED, log 119). -/
def convStuck (s : State) (w : WUnit) (l : Launch) (t : Strand) : Bool :=
  let hs := if t.convs.any (fun v => v.st == .matrix && v.op.isSome) then heldOnTile s w l t else []
  liveLanes t != 0 && countsParked (parkedLanes t) 33 hs == liveLanes t

/-- CONV of a whole strand (R196), at the PC of its lowest path. -/
def raiseConv (s : State) (uid k : Nat) (w : WUnit) (t : Strand) : State :=
  if recordRoom s w.lid then
    let pc := match t.paths with | p :: _ => p.pc | [] => 0
    laterFault s uid k pc { code := fConv, lanes := liveLanes t }
  else s

/-- A fetch that failed (R64): a fault at the word, or the path parks on its request. -/
def fetchFailed (s : State) (x : Ctx) (e : XErr) : State :=
  match e with
  | .miss st c tb pg =>
    (match postReq s x.l.fn (dieOfCore x.w.core) .fetch st c tb pg with
     | none => holdPath s x x.st .hold
     | some (tag, s) => parkPath s x (.nop noCtl noOps) ((lanesOf x.p.lanes).map (fun l => (l, (tag, st)))))
  | _ => takeFault s x { code := xCode e, reason := xReason e, lanes := x.p.lanes }

/-- Is another strand of the quarter able to issue (R199)? -/
def othersIssue (s : State) (uid k : Nat) (w : WUnit) (t : Strand) : Bool :=
  (quarterStrands s w.core t.quarter).any (fun e => !(e.1 == uid && e.2.1 == k) && canIssueStrand e.2.2 &&
    !s.stops.any (fun y => y.uid == e.1) && (match unit? s e.1 with | some v => !outranked s v e.2.2 | none => false))

/-- Does a strand owe the slot that its `yield` gave up: no other strand of the quarter has issued since, and one is able to (R199)? -/
def owesSlot (s : State) (uid k : Nat) (w : WUnit) (t : Strand) : Bool :=
  t.yielded && Tbl.find? s.lastIssue (4 * w.core + t.quarter) == some (uid, k) && othersIssue s uid k w t

/-- An `ldu` that a strand cut left to its strands, and that has not been performed (R426). -/
def lduLeft (t : Strand) : Option Pend :=
  t.pends.find? (fun d => (match d.instr with | .ldu _ _ _ => t.owed.isEmpty | _ => false) && !d.reissue && d.parked.isEmpty && d.locs.isEmpty && d.todo != 0)

/-- A strand's turn: the instruction that it issues, if any, and the state it issues in. After a `yield` it waits until another
strand of the quarter that is able to issue has issued (R199). -/
def strandTurn (s : State) (uid k : Nat) : Option Instr × State :=
  match unit? s uid with
  | none => (none, s)
  | some w =>
    match Tbl.find? w.strands k, launch? s w.lid with
    | some t0, some l =>
      if t0.completed || s.stops.any (fun x => x.uid == uid) then (none, s)
      else if w.cancelled then (none, setStrand s uid k endStrand)
      else if (lduLeft t0).isSome then
        (none, match lduLeft t0 with | some d => replayLanes s uid k d d.todo [] | none => s)
      else if t0.token.isNone && t0.steps.any (stepDone t0) then
        (none, match t0.steps.find? (stepDone t0) with | some e => stepToken s uid k w l t0 e | none => s)
      else if !strandOpen t0 || outranked s w t0 then (none, s)
      else if convStuck s w l t0 then (none, raiseConv s uid k w t0)
      else if owesSlot s uid k w t0 then (none, s)
      else
        let s := setStrand s uid k (fun t => { issuePath t l.lpb.noprog with yielded := false })
        match ctxOf s uid k noCtl with
        | none => (none, s)
        | some x =>
          let f := fetchAt s w.core l.fn l.part (x.who s) x.p.pc.toNat
          match f.1 with
          | .error e => (none, fetchFailed f.2 x e)
          | .ok bs =>
            match decode bs with
            | .ok i => (some i, f.2)
            | .error _ => (none, takeFault f.2 x { code := fIllegal, lanes := x.p.lanes })
    | _, _ => (none, s)

/-! ## Spans -/

/-- A launch span's turn: at a word that cannot be fetched or decoded the launch is cut (R49, R50). A launch whose cut waits is cut as
soon as it can be. -/
def spanTurn (s : State) (cl slot : Nat) : Option Instr × State :=
  match spanCtx s (.table cl) slot with
  | none => (none, s)
  | some x =>
    if !isPf x.l.fn && (fnOf s x.l.fn).halted then (none, s)
    else if x.l.cutting then (none, unitCut s x.lid)
    else if nextSpan s cl != some slot then (none, s)
    else
      let s := setCluster s cl (fun c => { c with cursor := slot })
      let f := fetchSpan s cl x.l x.sp.pc.toNat
      match f.1 with
      | .error _ => (none, spanCut f.2 x)
      | .ok bs => match decode bs with
        | .ok i => (some i, f.2)
        | .error _ => (none, spanCut f.2 x)

/-- The runnable unit spans of a quarter, as (unit, slot), in order. -/
def quarterSpans (s : State) (core q : Nat) : List (Nat × Nat) :=
  (s.units.filter (fun e => e.2.core == core && spanQuarter e.2 == q && !e.2.cutting && !e.2.cancelled &&
      !s.stops.any (fun y => y.uid == e.1))).flatMap (fun e =>
    (e.2.spans.filter (fun sp => sp.2.st == .run)).map (fun sp => (e.1, sp.1)))

/-- The first runnable unit span of a quarter after the one that its affine unit issued last (R44). -/
def nextUnitSpan (s : State) (core q : Nat) : Option (Nat × Nat) :=
  let run := quarterSpans s core q
  match (quarterOf s core q).lastSpan with
  | none => run.head?
  | some (u, i) =>
    match run.find? (fun e => decide (u < e.1) || (u == e.1 && decide (i < e.2))) with
    | some e => some e
    | none => run.head?

/-- A unit span's turn. A unit whose strand cut waits is cut as soon as it can be. -/
def unitSpanTurn (s : State) (uid slot : Nat) : Option Instr × State :=
  match spanCtx s (.unit uid) slot with
  | none => (none, s)
  | some x =>
    match x.w with
    | none => (none, s)
    | some w =>
      let q := spanQuarter w
      if w.cancelled || s.stops.any (fun y => y.uid == uid) then (none, s)
      else if w.cutting || w.spans.any (fun e => e.2.wins.any (·.stale)) then (none, strandCut s uid)
      else if nextUnitSpan s w.core q != some (uid, slot) then (none, s)
      else
        let s := setQuarter s w.core q (fun r => { r with lastSpan := some (uid, slot) })
        let f := fetchAt s w.core x.l.fn x.l.part (spanWho s x uid w) x.sp.pc.toNat
        match f.1 with
        | .error _ => (none, spanCut f.2 x)
        | .ok bs => match decode bs with
          | .ok i => (some i, f.2)
          | .error _ => (none, spanCut f.2 x)

/-! ## Reeves -/

/-- The word that a call stands at. -/
def reeveTurn (s : State) (cl : Nat) : Option Instr :=
  match (clusterOf s cl).reeve.call with
  | none => none
  | some c =>
    match c.routine.code[c.pc]? with
    | none => none
    | some w => (decodeReeve w.toNat).toOption

/-- Is an instruction a host command or an event of the machine, with no word of its own? -/
def isEvent (i : Instr) : Bool := (fieldsOf i).isNone && (reeveUses i).isNone

/-! ## Time (R69, R404, R406) -/

/-- ns until the next whole ms or record of a partition. -/
def untilDue (s : State) (p : Partition) : Nat :=
  if p.st = .live then min ((p.msDone + 1) * 1000000 - s.time) (p.t0 + (p.periods + 1) * 1000000000 - s.time)
  else if p.st = .drain then (p.msDone + 1) * 1000000 - s.time
  else 2 ^ 64

/-- Cycles that may pass before a counter, a record or the hour of the lifetime histograms is due (DEDUCED, log 109). -/
def cyclesAllowed (s : State) (n : Nat) : Nat :=
  let lim := (s.parts.map (fun p => untilDue s p.2)).foldl min (s.lifeAt + hourNs - s.time)
  if (elapsed s.ptm n).1 ≤ lim then n else if lim < 10000 then min n lim else min n (lim * 10000 / 10001)

/-- BUSY: each quarter that holds a resident strand of a VF's launch (R404). -/
def countBusy (s : State) (ns : Nat) : State :=
  let held := s.units.flatMap (fun e =>
    if isPf (fnOfLid e.2.lid) then [] else e.2.strands.map (fun t => (e.2.core, t.2.quarter)))
  held.eraseDups.foldl (fun s e => match partOfSlice s (e.1 / 2) with
    | some p => meterAdd s p 0 ns
    | none => s) s

/-- The front-end clock and device time advance. -/
def passTime (s : State) (n : Nat) : State :=
  if !s.dev.ready then s
  else
    let n := cyclesAllowed s n
    let e := elapsed s.ptm n
    countBusy { s with clock := s.clock + n, time := s.time + e.1, ptm := e.2 } e.1

/-! ## What the memory system does on its own (R226, R227, R242, R347) -/

/-- An L1 drops a line. -/
def evictL1 (s : State) (core line : Nat) : State :=
  l1Drop s core (fun a => lineNo a == line)

/-- A TLB drops a page. -/
def evictTlb (s : State) (core fn vpn : Nat) : State :=
  setCore s core (fun c => { c with tlb := Tbl.del c.tlb (tlbKey fn vpn) })

/-- The TLB of a die drops a page. -/
def evictDieTlb (s : State) (die fn vpn : Nat) : State :=
  setDie s die (fun d => { d with tlb := Tbl.del d.tlb (tlbKey fn vpn) })

/-- A walk cache drops a table entry. -/
def evictWalk (s : State) (core fn pa : Nat) : State :=
  setCore s core (fun c => { c with walks := Tbl.del c.walks (tlbKey fn pa) })

def evictDieWalk (s : State) (die fn pa : Nat) : State :=
  setDie s die (fun d => { d with walks := Tbl.del d.walks (tlbKey fn pa) })

/-- The n-th store on its way is performed, after those that must precede it. -/
def performSend (s : State) (n : Nat) : State :=
  match s.sends[n]? with
  | none => s
  | some x =>
    let r := sendSplit (fun y => y == x) (s.sends.take (n + 1))
    r.1.foldl (fun s y => writeHome s y.counted y.loc y.data) { s with sends := r.2 ++ s.sends.drop (n + 1) }

/-- A waiting load is performed at its home. -/
def performLoadNow (s : State) (uid k id : Nat) : State :=
  match (strand? s uid k).bind (fun t => t.pends.find? (fun d => d.id == id)) with
  | none => s
  | some d => (performWaiting s uid k d).getD s

/-- A sector of HBM can no longer be read (R259; DESIGN CHOICE, log 108). -/
def hbmError (s : State) (sec : Nat) : State :=
  if s.badSectors.contains sec then s else { s with badSectors := s.badSectors ++ [sec] }

/-! ## A program's first word -/

/-- A launch of the PF in partition 0, with every resource a strand can ask for. -/
def fetchLaunch : Launch :=
  { handle := 0, fn := 128, part := 0, job := ⟨128, 0⟩, priv := true, inTable := false, recd := { total := 1, status := .running }
    lpb := { ux := 1, uy := 1, uz := 1, sx := 32, sy := 1, sz := 1, vregs := 128, vfloor := 128, mctx := 1, scratch := 4096, kind := false } }

/-- Its strand: one path at address 0 with every lane. -/
def fetchStrand : Strand :=
  { newStrand 0 0 0 128 with
    paths := [{ pc := 0, lanes := allLanes, limit := 128, aff := List.replicate 32 {} }], items := List.range 32, hasItem := allLanes }

/-- A LIVE partition 0 on slice 0 with one unit, whose strand stands at address 0, and the bytes of a word there. -/
def withWord (s : State) (w : Nat) : State :=
  { s with
    mem := putBytes s.mem 0 (toBytes 12 w)
    parts := Tbl.put s.parts 0 { partOf s 0 with st := .live, count := 1 }
    launches := Tbl.put s.launches (128 * 65536) fetchLaunch
    units := Tbl.put s.units 0 { lid := 128 * 65536, u := 0, core := 0, strands := [(0, fetchStrand)], begun := true, ctx := [(0, [0])] }
    turns := .strand 0 0 :: s.turns }

/-- A reeve call whose routine is one word. -/
def withReeveWord (s : State) (w : Nat) : State :=
  let c : RCall :=
    { ev := .pick 0, point := .pick, host := false, fn := some 0, part := 0, cands := [], cnt0 := [], cnt1 := [], cnt2 := [], cnt3 := []
      routine := { code := [BitVec.ofNat 32 w], allow := 256, wsize := 64, wbase := 0 }
      g := List.replicate 16 0, dx := [0, 0, 0], rr := [0, 0, 0] }
  { setCluster s 0 (fun k => { k with reeve := { k.reeve with call := some c } }) with turns := .reeve 0 :: s.turns }

end Sys2Proof.Machine
end

