-- ==== Sys2Proof/Machine/Step.lean ====
section
/-! DEFINITION. One step of the machine: the next turn of the schedule (log 1) moves. -/

namespace Sys2Proof.Machine

open Sys2Proof

/-- Runs an instruction for an actor, or nothing. -/
def issue (a : Actor) (r : Option Instr × State) : Host.Outcome State Fault Refusal :=
  match r.1 with
  | some i => exec i { r.2 with actor := a }
  | none => .next r.2

/-- What one turn does. -/
def run (t : Turn) (s : State) : Host.Outcome State Fault Refusal :=
  match t with
  | .strand uid k => issue (.strand uid k) (strandTurn s uid k)
  | .span cl slot => issue (.span cl slot) (spanTurn s cl slot)
  | .unitSpan uid slot => issue (.unitSpan uid slot) (unitSpanTurn s uid slot)
  | .reeve cl => issue (.reeve cl) (reeveTurn s cl, s)
  | .event i => if isEvent i then exec i { s with actor := .none } else .next s
  | .cycles n => .next (passTime s n)
  | .evictL1 core line => .next (evictL1 s core line)
  | .evictL2 sector => .next (l2Drop s (· == sector))
  | .evictTlb core vf vpn => .next (evictTlb s core vf vpn)
  | .evictDieTlb die vf vpn => .next (evictDieTlb s die vf vpn)
  | .evictWalk core vf pa => .next (evictWalk s core vf pa)
  | .evictDieWalk die vf pa => .next (evictDieWalk s die vf pa)
  | .perform n => .next (performSend s n)
  | .performLoad uid k id => .next (performLoadNow s uid k id)
  | .gatherWord core q c n w => .next (gatherEarly s core q c n w)
  | .syncOffer id held => .next (setSync s id (fun y => syncOffer s y held))
  | .syncSend id => .next (setSync s id syncSend)
  | .drainWord core q id e => .next (drainEarly s core q id e)
  | .copyWord core id u i => .next (readEarly s core id u i)
  | .powerLoss => .next (powerLoss s)
  | .goodFlit link back => .next (goodFlit s link back)
  | .hbmError sector => .next (hbmError s sector)
  | .peerPage x refuse => .next (peerPage s x refuse)

/-- One step: the first turn of the schedule. With no turn left nothing moves. -/
def step (s : State) : Host.Outcome State Fault Refusal :=
  match s.turns with
  | [] => .next s
  | t :: ts => run t { s with turns := ts }

/-- The state in which the very next step fetches and runs the given word: a Ramson word by a strand at address 0 of
partition 0, a reeve word by the reeve of cluster 0 (log 1). -/
def State.withFetchWord (s : State) (nbits w : Nat) : State :=
  if nbits = 32 then withReeveWord s w else withWord s w

end Sys2Proof.Machine
end

