-- ==== Sys2Proof/Safety.lean ====
section
/-! DEFINITION. What the statements speak of: safe states and steps, the conditions under which an instruction of a
strand issues with nothing turning it away, what it then leaves in its strand, and what it leaves alone. -/

namespace Sys2Proof.Machine

open Sys2Proof

/-- The invariant of the memories: canonical form of each. -/
def MemoryInv (s : State) : Prop := Memory.wf s = true

/-- The scratchpad bytes of a unit are in canonical form. -/
def ScratchWf (s : State) (uid : Nat) : Prop := ∀ w, unit? s uid = some w → cellsWf 0 w.scratch = true

/-- The scratchpads of all units, resident and saved, are in canonical form. -/
def ScratchInv (s : State) : Prop :=
  (∀ e ∈ s.units, cellsWf 0 e.2.scratch = true) ∧ ∀ e ∈ s.images, cellsWf 0 e.2.unit.scratch = true

/-- A step goes on: it neither faults nor refuses. -/
def StepGoesOn (s : State) : Prop := ∃ t, step s = .next t

/-- Every entry of a table lies at a strictly higher index than the one before. -/
def TableInv {α : Type} (t : Tbl α) : Prop := Tbl.sorted t = true

/-! ## When an instruction of a strand issues -/

/-- The acting strand stands at instruction `i`, with control fields `c`, operands `o` and form `sh`, in context `x`. -/
abbrev Stands (s : State) (x : Ctx) (i : Instr) (c : Ctl) (o : Ops) (sh : Shape) : Prop :=
  s.actor = .strand x.uid x.k ∧ fieldsOf i = some (c, o) ∧ shape i = some sh ∧ ctxOf s x.uid x.k c = some x

/-- Nothing turns the instruction away before its own checks (R83): some lane takes part (R65); a matrix instruction has
its contexts and an `nmcopy` a count in range (R203, R292), a privileged one its right (R81); names and counts are within
the limit (R70, R100, R192); a single-stepped strand has room for its record (R422); the pool holds the names it maps (R95, R98); no operand is outstanding
(R79); every register it reads is mapped (R96); no window covers what it writes (R79). -/
abbrev Clear (s : State) (x : Ctx) (i : Instr) (c : Ctl) (o : Ops) (sh : Shape) : Prop :=
  Stands s x i c o sh ∧ x.tm ≠ 0 ∧
  illegalNow x i = false ∧ (sh.priv = true → x.l.priv = true) ∧
  overBudget sh o x.p.limit = false ∧ countOver x i = false ∧
  (stepping s x.l = true → recordRoom s x.w.lid = true) ∧
  poolNeed x.st (newNames x sh o) ≤ poolFor s x ∧
  scoreboard x i sh o = false ∧ unmappedLanes x sh o &&& mustRead i = 0 ∧
  inWindow x c sh o = false

/-! ## What an instruction leaves in its strand -/

/-- The result `v` of `w` words stands in D in every lane of T: mapped and readable at once, or, of a long-latency instruction
(R77), outstanding behind its window until it returns (R79, R95). A null D takes nothing (R128). -/
def GotVec (s' : State) (x : Ctx) (i : Instr) (c : Ctl) (d : Opnd) (w : Nat) (v : Nat → Nat) : Prop :=
  ∃ t, strand? s' x.uid x.k = some t ∧
    match d with
    | .vec n =>
      if longLatency i = true then
        ∃ q ∈ t.pends, q.outs = [outVec n.val w x.tm v] ∧ q.lanes = x.tm ∧ q.ready = 0 ∧ q.todo = 0 ∧ q.bad = 0 ∧
          q.parked = [] ∧ q.instr = i ∧ q.win = winList x.tm c.la.val
      else
        ∀ l j, lane x.tm l = true → j < w →
          word t (n.val + j) l = BitVec.ofNat 32 (v l / 2 ^ (32 * j)) ∧ lane (vreg t (n.val + j)).mask l = true
    | _ => True

/-- The predicate D holds `f` in the lanes of T and what it held in the others; p7 and a null D take nothing (R67, R128). -/
def GotPred (s' : State) (x : Ctx) (d : Opnd) (f : Nat → Bool) : Prop :=
  ∃ t, strand? s' x.uid x.k = some t ∧
    match d with
    | .pred n => ∀ l, l < 32 → n.val < x.st.preds.length → n.val ≠ 7 →
        lane (nth t.preds n.val 0) l = if lane x.tm l then f l else lane (nth x.st.preds n.val 0) l
    | _ => t.preds = x.st.preds

/-- The part of an affine register that D names holds `r`, in the path entry of every lane that the issuing path held
(R182). -/
def GotAff (s' : State) (x : Ctx) (d : Opnd) (r : Aff) : Prop :=
  ∃ t, strand? s' x.uid x.k = some t ∧
    match d with
    | .aff n part => ∃ p ∈ t.paths, p.lanes = x.p.lanes ∧
        (n.val < x.p.aff.length → affReg p n.val = affWrite (affReg x.p n.val) part r)
    | _ => True

/-- The path has moved to the next instruction. -/
def PcPast (s' : State) (x : Ctx) : Prop :=
  ∃ t p, strand? s' x.uid x.k = some t ∧ p ∈ t.paths ∧ p.lanes = x.p.lanes ∧ p.pc = x.p.pc + 12

/-! ## The shapes of a result statement -/

/-- Issued with nothing to turn it away, instruction `i` answers a next state in which D holds `v` and the path has moved
on. -/
def VecResult (i : Instr) (c : Ctl) (o : Ops) (w : Nat) (v : Ctx → Nat → Nat) : Prop :=
  ∀ s x sh, Clear s x i c o sh → ∃ s', exec i s = .next s' ∧ GotVec s' x i c o.d w (v x) ∧ PcPast s' x

/-- The same for a predicate result. -/
def PredResult (i : Instr) (c : Ctl) (o : Ops) (f : Ctx → Nat → Bool) : Prop :=
  ∀ s x sh, Clear s x i c o sh → ∃ s', exec i s = .next s' ∧ GotPred s' x o.d (f x) ∧ PcPast s' x

/-- The same for an affine result. -/
def AffResult (i : Instr) (c : Ctl) (o : Ops) (r : Ctx → Aff) : Prop :=
  ∀ s x sh, Clear s x i c o sh → ∃ s', exec i s = .next s' ∧ GotAff s' x o.d (r x) ∧ PcPast s' x

/-- The value of source A, B or C, read as the integer type `t`, in lane `l`. -/
def intA (t : Ty) (o : Ops) (x : Ctx) (l : Nat) : Int := valI t (readSrc x (rdI t) o.a l)
def intB (t : Ty) (o : Ops) (x : Ctx) (l : Nat) : Int := valI t (readSrc x (rdI t) o.b l)
def intC (t : Ty) (o : Ops) (x : Ctx) (l : Nat) : Int := valI t (readSrc x (rdI t) o.c l)

/-- An exact integer in the type: wrapped, or clamped to its limits under `.sat` (R129). -/
def inType (t : Ty) (sat : Bool) (v : Int) : Nat :=
  placeI t (if sat then clampI (minT t) (maxT t) v else v)

/-- The natural that a mode of one result chooses of m/d, for a value of the given sign (R114, R117). -/
def nearest (r : Rnd) (neg : Bool) (m d : Nat) : Nat :=
  let up : Bool := match r with
    | .rne => decide (d < 2 * (m % d) ∨ (2 * (m % d) = d ∧ m / d % 2 = 1))
    | .rdn => neg && decide (m % d ≠ 0)
    | .rup => !neg && decide (m % d ≠ 0)
    | .rtz | .rs => false
  m / d + if up then 1 else 0

/-- Element `j` of a float source in lane `l`. -/
def fltA (t : Ty) (o : Ops) (x : Ctx) (l j : Nat) : Nat := elem t (readSrc x (.flt t) o.a l) j
def fltB (t : Ty) (o : Ops) (x : Ctx) (l j : Nat) : Nat := elem t (readSrc x (.flt t) o.b l) j
def fltC (t : Ty) (o : Ops) (x : Ctx) (l j : Nat) : Nat := elem t (readSrc x (.flt t) o.c l) j

/-! ## What an instruction leaves alone -/

/-- The state outside units and their records: all of it is as before, but for events posted in single-step mode (R422), the
function's count of records (R338), the energy meter (R417), the statistics (R338), which strand issued last in a quarter (R199), the progress of records (R403) and the model's counters. -/
structure Outside (s s' : State) : Prop where
  turns : s'.turns = s.turns
  actor : s'.actor = s.actor
  clock : s'.clock = s.clock
  time : s'.time = s.time
  ptm : s'.ptm = s.ptm
  dev : s'.dev = s.dev
  mem : s'.mem = s.mem
  hostMem : s'.hostMem = s.hostMem
  peerMem : s'.peerMem = s.peerMem
  latch : s'.latch = s.latch
  l2 : s'.l2 = s.l2
  sends : s'.sends = s.sends
  cores : s'.cores = s.cores
  dies : s'.dies = s.dies
  reclaim : s'.reclaim = s.reclaim
  images : s'.images = s.images
  ended : s'.ended = s.ended
  endedJobs : s'.endedJobs = s.endedJobs
  tasks : s'.tasks = s.tasks
  reqs : s'.reqs = s.reqs
  usedSlices : s'.usedSlices = s.usedSlices
  excludedSlices : s'.excludedSlices = s.excludedSlices
  retired : s'.retired = s.retired
  commons : s'.commons = s.commons
  syncs : s'.syncs = s.syncs
  halts : s'.halts = s.halts
  stops : s'.stops = s.stops
  pfPart : s'.pfPart = s.pfPart
  cxl : s'.cxl = s.cxl
  peerMap : s'.peerMap = s.peerMap
  mcast : s'.mcast = s.mcast
  links : s'.links = s.links
  attest : s'.attest = s.attest
  life : s'.life = s.life
  lifeFlash : s'.lifeFlash = s.lifeFlash
  lifeAt : s'.lifeAt = s.lifeAt
  pulls : s'.pulls = s.pulls
  peerRefuses : s'.peerRefuses = s.peerRefuses
  badSectors : s'.badSectors = s.badSectors
  repairs : s'.repairs = s.repairs
  vendor : s'.vendor = s.vendor
  receiptSeq : s'.receiptSeq = s.receiptSeq
  importKey : s'.importKey = s.importKey
  fns : ∀ n, { fnOf s' n with events := [], msix := [], faults := 0 } = { fnOf s n with events := [], msix := [], faults := 0 }
  parts : ∀ p, { partOf s' p with meters := [] } = { partOf s p with meters := [] }
  clusters : ∀ c, { clusterOf s' c with stats := [] } = { clusterOf s c with stats := [] }
  blocks : ∀ l, (launch? s' l).map (·.lpb) = (launch? s l).map (·.lpb)

/-- Every other strand is as before, and so are the scratchpad and the spans of every unit. -/
structure OtherStrands (s s' : State) (uid k : Nat) : Prop where
  strands : ∀ u j, ¬ (u = uid ∧ j = k) → strand? s' u j = strand? s u j
  units : ∀ u, (unit? s' u).map (fun w => (w.lid, w.u, w.core, w.slot, w.scratch, w.spans, w.ctx)) =
    (unit? s u).map (fun w => (w.lid, w.u, w.core, w.slot, w.scratch, w.spans, w.ctx))

/-- The vector registers that an instruction writes or, by a last-read bit, frees. -/
def touched (c : Ctl) (sh : Shape) (o : Ops) : List Nat :=
  regsOf (vecNames (writesOf sh o)) ++ regsOf (lastReads c sh o)

/-- In a register that the instruction neither writes nor frees, and that no outstanding result covers, each lane keeps its
word and its mapping; so does each lane outside T of a register it writes. -/
def RegsKept (s' : State) (x : Ctx) (c : Ctl) (sh : Shape) (o : Ops) : Prop :=
  ∃ t, strand? s' x.uid x.k = some t ∧ ∀ n l, l < 32 →
    (n ∉ touched c sh o ∨ (lane x.tm l = false ∧ n ∉ regsOf (lastReads c sh o))) →
    (∀ d ∈ x.st.pends, coversVec d n l = false) →
    word t n l = word x.st n l ∧ lane (vreg t n).mask l = lane (vreg x.st n).mask l

/-- Convergence registers, items, marks, batch counters and the reservation are as before; so is the seed unless the
instruction rounds stochastically. -/
def RestKept (s' : State) (x : Ctx) (seedMoves : Bool) : Prop :=
  ∃ t, strand? s' x.uid x.k = some t ∧ t.convs = x.st.convs ∧ t.items = x.st.items ∧ t.marked = x.st.marked ∧
    t.g = x.st.g ∧ t.batchCtr = x.st.batchCtr ∧ t.openBatch = x.st.openBatch ∧ t.completed = x.st.completed ∧
    (seedMoves = false → t.seed = x.st.seed)

/-- Predicates that the instruction does not write are as before. -/
def PredsKept (s' : State) (x : Ctx) (written : List Nat) : Prop :=
  ∃ t, strand? s' x.uid x.k = some t ∧ ∀ n, n ∉ written → nth t.preds n 0 = nth x.st.preds n 0

/-- Every path entry keeps its place, lanes, state, limit and call stack, and all but the issuing one their PC. An affine
register that the instruction does not write, and that no outstanding result covers, keeps its value. -/
def PathsKept (s' : State) (x : Ctx) (written : List Nat) : Prop :=
  ∃ t, strand? s' x.uid x.k = some t ∧ t.paths.length = x.st.paths.length ∧
    ∀ (j : Nat) (p : Path), x.st.paths[j]? = some p → ∃ q, t.paths[j]? = some q ∧
      q.lanes = p.lanes ∧ q.st = p.st ∧ q.limit = p.limit ∧ q.stack = p.stack ∧ (j ≠ x.pi → q.pc = p.pc) ∧
      ∀ n, (j = x.pi → n ∉ written) → (∀ e ∈ x.st.pends, coversAff e n p.lanes = false) → affReg q n = affReg p n

/-- The frame of an instruction that writes no register of its strand: nothing outside the strand changes but what counts
it; registers that it does not free, and all predicates, are as before. -/
def Framed (s s' : State) (x : Ctx) (c : Ctl) (sh : Shape) (o : Ops) : Prop :=
  Outside s s' ∧ OtherStrands s s' x.uid x.k ∧ RegsKept s' x c sh o ∧ PredsKept s' x []

/-! ## Where lanes stand -/

/-- Lane `l` of the strand stands in an entry with this PC, state, limit and call stack. -/
def LaneStands (s' : State) (x : Ctx) (l : Nat) (pc : DWord) (st : PathSt) (limit : Nat) (stack : List (DWord × Nat)) :
    Prop :=
  ∃ t p, strand? s' x.uid x.k = some t ∧ p ∈ t.paths ∧ lane p.lanes l = true ∧ p.pc = pc ∧ p.st = st ∧
    p.limit = limit ∧ p.stack = stack

/-- Lane `l` may issue at `pc`, at the call depth it had. -/
def LaneAt (s' : State) (x : Ctx) (l : Nat) (pc : DWord) : Prop := LaneStands s' x l pc .run x.p.limit x.p.stack

/-- Lane `l` has ended. -/
def LaneGone (s' : State) (x : Ctx) (l : Nat) : Prop :=
  ∃ t, strand? s' x.uid x.k = some t ∧ ∀ p ∈ t.paths, lane p.lanes l = false

/-- The strand carries a token of the given kind, and the path stands parked past the instruction (R422). -/
def ParkedWithToken (s' : State) (x : Ctx) (kind : TokenKind) (m : LaneMask) : Prop :=
  ∃ t tok p, strand? s' x.uid x.k = some t ∧ t.token = some tok ∧ tok.kind = kind ∧ tok.lanes = m ∧ tok.pc = x.p.pc ∧
    p ∈ t.paths ∧ p.lanes = x.p.lanes ∧ p.pc = x.p.pc + 12 ∧ p.st = .fault

/-- The record of a trap or break: code, lanes, PC, n, handle and the strand's token, posted last to its function's queue (R419, R422). -/
def PostedWithToken (s s' : State) (x : Ctx) (code n : Nat) (m : LaneMask) : Prop :=
  ∃ e t tok, (fnOf s' (queueOf x.l.fn)).events = (fnOf s (queueOf x.l.fn)).events ++ [e] ∧ e.code = code ∧ e.faulted = m ∧
    e.pc = x.p.pc.toNat ∧ e.aux = toBytes 4 n ∧ e.launch = x.l.handle ∧ e.strand = x.k ∧ e.token ≠ 0 ∧
    strand? s' x.uid x.k = some t ∧ t.token = some tok ∧ tok.num = e.token

/-- What the end of the lanes of `m` leaves in their strand (R197): no vector name mapped in them, no convergence register expecting
them, none still waiting that every lane has signed, no mark, and the strand complete when no lane is left. -/
def LanesEnded (s' : State) (x : Ctx) (m : LaneMask) : Prop :=
  ∃ t, strand? s' x.uid x.k = some t ∧ (∀ n l, lane m l = true → lane (vreg t n).mask l = false) ∧
    (∀ v ∈ t.convs, v.mask &&& m = 0#32) ∧ t.marked &&& m = 0#32 ∧ (t.completed = true ↔ t.paths = []) ∧
    ∀ k, k < 8 → (convOf t k).st = .waiting → (convOf t k).mask &&& liveLanes t &&& ~~~(convOf t k).signed ≠ 0#32

/-- No convergence register holds a matrix operation that waits for lanes (R206). -/
def NoMatrixWaits (t : Strand) : Prop := ∀ v ∈ t.convs, v.op = none

/-! ## Issuing with an effect beyond the strand -/

/-- The machine once instruction `i` has issued with effect `S`, the strand standing as `S` holds it. -/
def issuedNow (s : State) (x : Ctx) (i : Instr) (c : Ctl) (sh : Shape) (o : Ops) (S : State) : State :=
  applyGo s x i c sh o { s := S, t := (strand? S x.uid x.k).getD x.st }

/-- The same of an instruction that had waited: what the strand kept of it is dropped (R311, R319, R356). -/
def issuedKept (s : State) (x : Ctx) (i : Instr) (c : Ctl) (sh : Shape) (o : Ops) (S : State) : State :=
  applyGo s x i c sh o { s := S, t := dropProgress ((strand? S x.uid x.k).getD x.st) x i }

/-- The same with the strand as it stood before. -/
def issuedOver (s : State) (x : Ctx) (i : Instr) (c : Ctl) (sh : Shape) (o : Ops) (S : State) : State :=
  applyGo s x i c sh o { s := S, t := x.st }

/-- Instruction `i` issues with effect `S` and gives D the words of `v` in the lanes of T. -/
def IssuesGiving (s : State) (x : Ctx) (i : Instr) (c : Ctl) (sh : Shape) (o : Ops) (S : State) (t : Strand) (d : Opnd)
    (w : Nat) (v : Nat → Nat) : Prop :=
  ∃ g, giveVec x S t i c d w v = .go g ∧ exec i s = .next (applyGo s x i c sh o g)

/-- The strand of the context as a state holds it. -/
def strandIn (S : State) (x : Ctx) : Strand := (strand? S x.uid x.k).getD x.st

/-! ## Memory as a core sees it -/

/-- The byte that a location holds once the core has written back what it holds dirty: its own dirty byte, else the home's;
in the scratchpad, the unit's byte. -/
def memByte (s : State) (core uid : Nat) : Loc → Byte
  | .mem pa => match Tbl.find? (coreOf s core).l1 pa with
      | some e => if e.dirty then e.val else cellGet s.mem pa
      | none => cellGet s.mem pa
  | .host io => cellGet s.hostMem io
  | .peer i v ipa => cellGet s.peerMem (peerKey i v ipa)
  | .scratch o => match unit? s uid with | some w => cellGet w.scratch o | none => 0

/-- Two names of one byte: equal locations, or peer locations that the link forms one address of. -/
def sameByte : Loc → Loc → Prop
  | .peer i v a, .peer j u b => peerKey i v a = peerKey j u b
  | a, b => a = b

/-- No strand of the unit is held at a barrier. -/
def NoWaiters (s : State) (uid : Nat) : Prop :=
  ∃ w, unit? s uid = some w ∧ ∀ e ∈ w.strands, ∀ p ∈ e.2.paths, p.st ≠ .bwait

/-- The checks of R257 have passed in every lane: each has its location, nothing holds the access, and no uncorrectable
error is met (R214, R247, R258, R259). -/
structure LanesReady (s : State) (x : Ctx) (mk : MKind) (addr data : Nat → Nat) (locs : List (Nat × Loc)) (s1 : State) :
    Prop where
  checked : ∃ ls, checkLanes s x addr mk.size mk.size mk.rights mk.hostOk = (.ok ls, s1) ∧ missLanes ls = [] ∧
    okLanes ls = locs
  free : rangesHold s x locs mk.size = false ∧ drainHolds s x locs mk.size false = false ∧
    (mk.acc.rel = true → drainsOf s x.w.core x.uid x.k = [])
  performed : (performLanes s1 { x.who s with pc := x.p.pc } x.l.job mk addr data locs).stop = none

/-- What the lanes of a memory instruction leave, performed in ascending order. -/
def lanesPerformed (s s1 : State) (x : Ctx) (mk : MKind) (addr data : Nat → Nat) (locs : List (Nat × Loc)) : LanesDone :=
  performLanes s1 { x.who s with pc := x.p.pc } x.l.job mk addr data locs

/-- A memory instruction whose checks pass: the next state holds the memories, caches and stores under way that its lanes
leave, the PC has moved, and the values read are outstanding for the destinations. -/
def MemResult (i : Instr) (c : Ctl) (o : Ops) (mk : MKind) (addr data : Ctx → Nat → Nat)
    (outs : Ctx → (Nat → Nat) → List Out) : Prop :=
  ∀ s x sh locs s1, Clear s x i c o sh → LanesReady s x mk (addr x) (data x) locs s1 →
    let r := lanesPerformed s s1 x mk (addr x) (data x) locs
    ∃ s' t, exec i s = .next s' ∧ strand? s' x.uid x.k = some t ∧
      s'.mem = r.s.mem ∧ s'.hostMem = r.s.hostMem ∧ s'.peerMem = r.s.peerMem ∧ s'.sends = r.s.sends ∧
      s'.cores = r.s.cores ∧ s'.l2 = r.s.l2 ∧ OtherStrands r.s s' x.uid x.k ∧
      (returns i = true → ∃ d ∈ t.pends, d.outs = outs x (fun l => Tbl.getD r.vals l 0) ∧ d.lanes = x.tm ∧
        d.win = winList x.tm c.la.val)

/-- The address of each lane of a memory instruction (R253, R261, R265). -/
def memAddr (x : Ctx) : Instr → Nat → Nat
  | .ld _ _ _ o | .st _ _ _ o => readAddr x o.a o.b o.c
  | .ldu _ _ o => fun l => wrap 64 ((affLane (readPair x o.a) l : Int) + lduOffset o.b)
  | .atom _ _ _ o | .atomcas _ _ o | .red _ _ _ o => readSrc x (.int 2 false) o.a
  | _ => fun _ => 0

/-- What each lane of it brings to memory (R260, R266, R267). -/
def memData (x : Ctx) : Instr → Nat → Nat
  | .st _ _ t o => readSrc x (.int t.words false) o.d
  | .atom _ _ t o | .red _ _ t o => readSrc x (rdAtom t) o.b
  | .atomcas _ t o => readSrc x (.int (2 * t.words) false) o.b
  | _ => fun _ => 0

/-- The lanes that it takes to memory: those of T; of an `ldu`, the lowest (R261). -/
def memLanes (x : Ctx) : Instr → Ctx
  | .ldu _ _ _ => { x with tm := maskOf (· == x.low) }
  | _ => x

/-- A fault of its checks: an `ldu` raises it for the whole instruction (R261). -/
def memFault (x : Ctx) (f : FaultInfo) : Instr → FaultInfo
  | .ldu _ _ _ => { f with lanes := x.tm }
  | _ => f

/-- The instructions whose whole effect is on registers of the issuing strand. -/
def registerOnly : Instr → Bool
  | .iadd _ _ _ _ | .isub _ _ _ _ | .imul _ _ _ _ | .imulh _ _ _ | .imad _ _ _ _ | .imin _ _ _ | .imax _ _ _
  | .iabs _ _ _ _ | .ineg _ _ _ _ | .idiv _ _ _ | .irem _ _ _ | .iaddc _ _ _ _ | .isad _ _ _ | .idot4 _ _ _ _ _ _
  | .mov _ _ _ | .iclamp _ _ _ | .and _ _ _ | .or _ _ _ | .xor _ _ _ | .andn _ _ _ | .not _ _ _ | .shl _ _ _ _
  | .shr _ _ _ _ | .sar _ _ _ _ | .rotl _ _ _ | .popc _ _ _ | .clz _ _ _ | .brev _ _ _ | .bfe _ _ _ | .bfi _ _ _
  | .bmix _ _ _ _ | .bsel _ _ _ _ | .icmp _ _ _ _ | .fcmp _ _ _ _ | .sel _ _ _ | .pand _ _ _ _ | .por _ _ _ _
  | .pxor _ _ _ _ | .pnot _ _ | .pmov _ _ | .pagg _ _ _ | .pclass _ _ _ | .lxch _ _ _ _ | .lbcast _ _ _
  | .lred _ _ _ _ | .lscan _ _ _ _ | .lmatch _ _ _ | .fadd _ _ _ _ | .fsub _ _ _ _ | .fmul _ _ _ _ | .ffma _ _ _ _
  | .fmin _ _ _ | .fmax _ _ _ | .frnd _ _ _ _ | .fdiv _ _ _ _ | .fsqrt _ _ _ _ | .fclamp _ _ _ | .fscale _ _ _ _
  | .fdot2 _ _ _ _ | .frcp _ _ _ | .frsq _ _ _ | .fexp2 _ _ _ | .flog2 _ _ _ | .fsinpi _ _ _ | .fcospi _ _ _
  | .ftanh _ _ _ | .fsigm _ _ _ | .cvt _ _ _ _ | .qnt _ _ _ _ | .dqnt _ _ _ _ | .bfpack _ _ _ _ | .bfunpack _ _ _
  | .seed _ _ | .pack _ _ _ | .unpack _ _ _ | .aset _ _ | .aadd _ _ | .asub _ _ | .amul _ _ | .ashl _ _ | .aand _ _
  | .amov _ _ | .avec _ _ _ | .auni _ _ _ | .acmp _ _ _ _ | .aaddr _ _ _ | .nop _ _ => true
  | _ => false

/-- Does the instruction change `%seed` (R118, R174)? -/
def movesSeed : Instr → Bool
  | .fadd _ _ r _ | .fsub _ _ r _ | .fmul _ _ r _ | .ffma _ _ r _ | .frnd _ _ r _ | .fdiv _ _ r _ | .fsqrt _ _ r _
  | .fscale _ _ r _ | .fdot2 _ _ r _ | .cvt _ _ r _ | .qnt _ _ r _ | .dqnt _ _ r _ | .bfpack _ _ r _ => r == .rs
  | .lred _ t op _ | .lscan _ t op _ => t.isFloat && redRnd op.val == .rs
  | .seed _ _ => true
  | _ => false

/-- The predicates an instruction writes: its destination, and the carry of `iaddc`. -/
def predsWritten (i : Instr) (o : Ops) : List Nat :=
  (match o.d with | .pred n => [n.val] | _ => []) ++ (match i with | .iaddc _ _ cp _ => [cp.val] | _ => [])

/-- The affine register an instruction writes. -/
def affsWritten (o : Ops) : List Nat := match o.d with | .aff n _ => [n.val] | _ => []

/-! ## Reeves -/

/-- The reeve of cluster `cl` acts, its call standing at an instruction whose cycles lie within the allowance (R345). -/
abbrev RvStands (s : State) (cl : Nat) (c : RCall) (cost : Nat) : Prop :=
  s.actor = .reeve cl ∧ (clusterOf s cl).reeve.call = some c ∧ c.used + cost ≤ c.routine.allow ∧ c.g.length = 16

/-- A call after an instruction at the next word: gd holds `v`, g0 reads 0, and all else stands. -/
structure RvTook (c c' : RCall) (d : Fin 16) (v : DWord) (cost : Nat) : Prop where
  dest : greg c' d = if d = 0 then 0 else v
  others : ∀ n, n ≠ d → greg c' n = greg c n
  pc : c'.pc = c.pc + 1
  used : c'.used = c.used + cost
  loops : c'.loops = c.loops
  dx : c'.dx = c.dx
  rest : c'.rr = c.rr ∧ c'.routine = c.routine ∧ c'.cands = c.cands

/-- The instruction takes one cycle, writes `v` to gd and changes nothing but its call. -/
def RvResult (i : Instr) (d : Fin 16) (v : RCall → DWord) : Prop :=
  ∀ s cl c, RvStands s cl c 1 → ∃ c', exec i s = .next (setCall s cl c') ∧ RvTook c c' d (v c) 1

/-! ## Spans -/

/-- A span acts: its launch's, from the span table of a cluster, or its unit's. -/
abbrev SpanStands (s : State) (x : SpanCtx) : Prop :=
  spanCtx s x.pl x.slot = some x ∧
    s.actor = (match x.pl with | .table cl => .span cl x.slot | .unit u => .unitSpan u x.slot)

/-- In a span whose guard holds, with no window open, the instruction writes its affine register for the whole range, changes no
other and moves on; memory stands (R45, R182). Where the guard fails over the whole range it only moves on. A guard that differs over
the range, a window over the destination, and operands that the span cannot read or write are cut points (R45, R49, R78). -/
def SpanAffResult (i : Instr) (c : Ctl) (o : Ops) (r : SpanCtx → Option Aff) : Prop :=
  (∀ s x, SpanStands s x → (r x = none ∨ ∀ (n : Fin 32) part, o.d ≠ .aff n part) → exec i s = .next (spanCut s x)) ∧
  ∀ s x (n : Fin 32) part v, SpanStands s x → o.d = .aff n part → r x = some v →
    (spanGuard x.sp c = none → exec i s = .next (spanCut s x)) ∧
    (spanGuard x.sp c = some false → exec i s = .next (spanNext s (x.issues i) x.sp)) ∧
    (spanGuard x.sp c = some true → spanCovers x.sp n.val = true → exec i s = .next (spanCut s x)) ∧
    (spanGuard x.sp c = some true → x.sp.wins = [] → n.val < x.sp.aff.length →
      ∃ t sp, exec i s = .next t ∧ t.mem = s.mem ∧ Tbl.find? (spansAt t x.pl) x.slot = some sp ∧ sp.pc = x.sp.pc + 12 ∧
      sp.lo = x.sp.lo ∧ sp.hi = x.sp.hi ∧ sp.preds = x.sp.preds ∧ sp.st = x.sp.st ∧
      ∀ k, spanAff sp k = if k = n.val then affWrite (spanAff x.sp n.val) part v else spanAff x.sp k)

/-- The instruction leaves the table that holds the span as `tb`, and memory as it was. -/
def SpanPut (i : Instr) (s : State) (x : SpanCtx) (tb : Tbl Span) : Prop :=
  ∃ t, exec i s = .next t ∧ t.mem = s.mem ∧ spansAt t x.pl = tb

/-- The span advances past its instruction, changed as `f` says. -/
def SpanAdvances (i : Instr) (s : State) (x : SpanCtx) (f : Span → Span) : Prop :=
  SpanPut i s x (Tbl.put (spansAt s x.pl) x.slot (f { x.sp with pc := x.sp.pc + 12 }))

/-! ## Commands -/

/-- The routines of a function code (R331). -/
def routinesOf (s : State) (c : Nat) : Tbl Routine :=
  if isPf c then (partOf s (c - 128)).hostRoutines else (fnOf s c).routines

/-- The load under way for a function code, and the outcome of its last one (R343). -/
def loadingOf (s : State) (c : Nat) : Option DWord := if isPf c then (partOf s (c - 128)).hostLoading else (fnOf s c).loading
def lastcodeOf (s : State) (c : Nat) : Nat := if isPf c then (partOf s (c - 128)).hostLastcode else (fnOf s c).lastcode

/-- A partition that had no command waiting has taken this one off its queue again. -/
def cmdTaken (s : State) (p : Nat) (k : PartCmd) : State :=
  setPart (setPart s p (fun q => { q with cmds := q.cmds ++ [k] })) p (fun q => { q with cmds := [] })

/-! ## Words -/

/-- The instruction that the word of `i` decodes to: the two rows of `bulk` have one word, and the block's OP tells them apart
(R441). -/
def sameWord : Instr → Instr
  | .bulkReturn c o => .bulkEvict c o
  | i => i

end Sys2Proof.Machine
end

