-- ==== Sys2Proof/Certificates/Slice0/Obligations.lean ====
section
/-! DEFINITION. The statements for the provers. -/

open Sys2Proof Sys2Proof.Machine

/-! ## Results of the register instructions, and that they complete -/

/-- R134 with R129: the arithmetic instructions compute exactly on the values of the type, then wrap or clamp. R135: the sum
of A, B and the carry-in modulo 2^n goes to D, and whether it reached 2^n to the carry predicate. R136: quotient and
remainder toward zero; division by zero gives the limit of the type on A's side, and A. R137: the four byte products are
added to C exactly. -/
def Obligations.IntegerResults : Prop :=
  ((∀ c t sat o, VecResult (.iadd c t sat o) c o t.words (fun x l => inType t sat (intA t o x l + intB t o x l))) ∧
  (∀ c t sat o, VecResult (.isub c t sat o) c o t.words (fun x l => inType t sat (intA t o x l - intB t o x l))) ∧
  (∀ c t sat o, VecResult (.imul c t sat o) c o t.words (fun x l => inType t sat (intA t o x l * intB t o x l))) ∧
  (∀ c t o, VecResult (.imulh c t o) c o t.words (fun x l =>
    inType t false (intA t o x l * intB t o x l / ((2 ^ t.bits : Nat) : Int)))) ∧
  (∀ c t sat o, VecResult (.imad c t sat o) c o t.words (fun x l =>
    inType t sat (intA t o x l * intB t o x l + intC t o x l))) ∧
  (∀ c t o, VecResult (.imin c t o) c o t.words (fun x l =>
    inType t false (if intA t o x l ≤ intB t o x l then intA t o x l else intB t o x l))) ∧
  (∀ c t o, VecResult (.imax c t o) c o t.words (fun x l =>
    inType t false (if intA t o x l ≤ intB t o x l then intB t o x l else intA t o x l))) ∧
  (∀ c t sat o, VecResult (.iabs c t sat o) c o t.words (fun x l => inType t sat ((intA t o x l).natAbs : Int))) ∧
  (∀ c t sat o, VecResult (.ineg c t sat o) c o t.words (fun x l => inType t sat (- intA t o x l))) ∧
  (∀ c t o, VecResult (.isad c t o) c o t.words (fun x l =>
    inType t false (((intA t o x l - intB t o x l).natAbs : Int) + intC t o x l))) ∧
  (∀ c t o, VecResult (.iclamp c t o) c o t.words (fun x l =>
    inType t false (minI (maxI (intA t o x l) (intB t o x l)) (intC t o x l))))) ∧
  (∀ c t cp o s x sh, Clear s x (.iaddc c t cp o) c o sh →
    ∃ s', exec (.iaddc c t cp o) s = .next s' ∧ PcPast s' x ∧
      let sum := fun l => readSrc x (rdI t) o.a l % 2 ^ t.bits + readSrc x (rdI t) o.b l % 2 ^ t.bits +
        (if carryIn x o l then 1 else 0)
      GotVec s' x (.iaddc c t cp o) c o.d t.words (fun l => sum l % 2 ^ t.bits) ∧
      GotPred s' x (.pred cp) (fun l => decide (2 ^ t.bits ≤ sum l))) ∧
  ((∀ c t o, VecResult (.idiv c t o) c o t.words (fun x l =>
    inType t false (if intB t o x l = 0 then (if t.signed = true ∧ intA t o x l < 0 then minT t else maxT t)
      else (intA t o x l).tdiv (intB t o x l)))) ∧
  (∀ c t o, VecResult (.irem c t o) c o t.words (fun x l =>
    inType t false (if intB t o x l = 0 then intA t o x l else (intA t o x l).tmod (intB t o x l))))) ∧
  (∀ c t sa sb sat o, VecResult (.idot4 c t sa sb sat o) c o 1 (fun x l =>
    let byte := fun (sg : Bool) (v i : Nat) => if sg then sext 8 (v / 2 ^ (8 * i)) else ((v / 2 ^ (8 * i) % 256 : Nat) : Int)
    let a := readSrc x (rdI t) o.a l
    let b := readSrc x (rdI t) o.b l
    inType t sat (intC t o x l + byte sa a 0 * byte sb b 0 + byte sa a 1 * byte sb b 1 + byte sa a 2 * byte sb b 2 +
      byte sa a 3 * byte sb b 3)))

/-- R138: `mov` copies B to a vector in each lane of T, or a constant to a part of an affine register. -/
def Obligations.MovResult : Prop :=
  ∀ c t o s x sh, Clear s x (.mov c t o) c o sh →
    ∃ s', exec (.mov c t o) s = .next s' ∧ PcPast s' x ∧
      ((∃ n, o.d = .vec n) → GotVec s' x (.mov c t o) c o.d t.words (readSrc x (rdI t) o.b)) ∧
      ((∃ n part, o.d = .aff n part) → GotAff s' x o.d ⟨movValue t o.b, 0⟩)

/-- R140: the bitwise, shift and count instructions, for N bits and a 32-bit count. R141 to R143: field extract and insert,
`bmix` and `bsel`, whose bits and bytes `FieldBits` gives. -/
def Obligations.BitResults : Prop :=
  (let A := fun (t : Ty) (o : Ops) (x : Ctx) (l : Nat) => readSrc x (rdI t) o.a l
  let B := fun (t : Ty) (o : Ops) (x : Ctx) (l : Nat) => readSrc x (rdI t) o.b l
  let n := fun (o : Ops) (x : Ctx) (l : Nat) => readSrc x rd32 o.b l
  (∀ c t o, VecResult (.and c t o) c o t.words (fun x l => A t o x l &&& B t o x l)) ∧
  (∀ c t o, VecResult (.or c t o) c o t.words (fun x l => A t o x l ||| B t o x l)) ∧
  (∀ c t o, VecResult (.xor c t o) c o t.words (fun x l => A t o x l ^^^ B t o x l)) ∧
  (∀ c t o, VecResult (.not c t o) c o t.words (fun x l => 2 ^ t.bits - 1 - A t o x l % 2 ^ t.bits)) ∧
  (∀ c t o, VecResult (.andn c t o) c o t.words (fun x l => A t o x l &&& (2 ^ t.bits - 1 - B t o x l % 2 ^ t.bits))) ∧
  (∀ c t cl o, VecResult (.shl c t cl o) c o t.words (fun x l =>
    if cl = true ∧ t.bits ≤ n o x l then 0 else A t o x l * 2 ^ (n o x l % t.bits) % 2 ^ t.bits)) ∧
  (∀ c t cl o, VecResult (.shr c t cl o) c o t.words (fun x l =>
    if cl = true ∧ t.bits ≤ n o x l then 0 else A t o x l / 2 ^ (n o x l % t.bits))) ∧
  (∀ c t cl o, VecResult (.sar c t cl o) c o t.words (fun x l =>
    let k := if cl = true ∧ t.bits ≤ n o x l then t.bits else n o x l % t.bits
    wrap t.bits (sext t.bits (A t o x l) / ((2 ^ k : Nat) : Int)))) ∧
  (∀ c t o, VecResult (.rotl c t o) c o t.words (fun x l =>
    (A t o x l * 2 ^ (n o x l % t.bits) ||| A t o x l / 2 ^ (t.bits - n o x l % t.bits)) % 2 ^ t.bits)) ∧
  (∀ c t o, VecResult (.popc c t o) c o 1 (fun x l => popcount t.bits (A t o x l))) ∧
  (∀ c t o, VecResult (.clz c t o) c o 1 (fun x l =>
    if A t o x l = 0 then t.bits else t.bits - 1 - log2 (A t o x l))) ∧
  (∀ c t o, VecResult (.brev c t o) c o t.words (fun x l => revBits t.bits (A t o x l)))) ∧
  ((∀ c t o, VecResult (.bfe c t o) c o t.words (fun x l => fBfe t (readSrc x (rdI t) o.a l) (readSrc x rd32 o.b l))) ∧
  (∀ c t o, VecResult (.bfi c t o) c o t.words (fun x l =>
    fBfi t (readSrc x (rdI t) o.a l) (readSrc x (rdI t) o.b l) (readSrc x rd32 o.c l))) ∧
  (∀ c t f o, VecResult (.bmix c t f o) c o t.words (fun x l =>
    fBmix t f (readSrc x (rdI t) o.a l) (readSrc x (rdI t) o.b l) (readSrc x (rdI t) o.c l))) ∧
  (∀ c t m o, VecResult (.bsel c t m o) c o 1 (fun x l =>
    fBsel m (readSrc x rd32 o.a l) (readSrc x rd32 o.b l) (readSrc x rd32 o.c l))))

/-- R141, bit by bit: what `bfe` takes, what fills it, and what `bfi` leaves. R142: the function of `bmix` on each bit. R143: each
byte that `bsel` builds of the eight of (B:A). -/
def Obligations.FieldBits : Prop :=
  (∀ t f a b c i, i < t.bits →
    let p := a.testBit i
    let q := b.testBit i
    let r := c.testBit i
    (fBmix t f a b c).testBit i = match f with
      | .maj => (p && q) || (p && r) || (q && r)
      | .xor3 => Bool.xor (Bool.xor p q) r
      | .and3 => p && q && r
      | .or3 => p || q || r
      | .mux => (p && q) || (!p && r)
      | .andor => (p && q) || r
      | .andxor => Bool.xor (p && q) r
      | .orand => (p || q) && r) ∧
  (∀ m a b c i, i < 4 →
    let byte := fun k => if k < 4 then fld a (8 * k) 8 else if k < 8 then fld b (8 * (k - 4)) 8 else 0
    let k := fld c (4 * i) 4
    fBsel m a b c < 2 ^ 32 ∧ fld (fBsel m a b c) (8 * i) 8 = match m with
      | .pick => if k < 8 ∧ c.testBit (16 + i) = true then (if 128 ≤ byte k then 255 else 0) else byte k
      | .funnel => byte (c % 8 + i)
      | .rev => byte (3 - i)) ∧
  ∀ t a b f, t.bits = 32 ∨ t.bits = 64 → a < 2 ^ t.bits →
    let pos := f % 256
    let len := min (f / 256 % 256) t.bits
    (∀ i, i < t.bits → (fBfe t a f).testBit i =
      (if i < len then (if pos + i < t.bits then a.testBit (pos + i) else t.signed && a.testBit (t.bits - 1))
       else t.signed && decide (0 < len) &&
        (if pos + len - 1 < t.bits then a.testBit (pos + len - 1) else a.testBit (t.bits - 1)))) ∧
    (∀ i, i < t.bits → (fBfi t a b f).testBit i =
      (if pos ≤ i ∧ i < pos + len then b.testBit (i - pos) else a.testBit i))

/-- R145, R146 and R149: the compares and `pclass` write a predicate. -/
def Obligations.CompareResults : Prop :=
  (∀ c t q o, PredResult (.icmp c t q o) c o (fun x l => condI q (intA t o x l) (intB t o x l))) ∧
  (∀ c t q o, PredResult (.fcmp c t q o) c o (fun x l =>
    let a := decodeF (fmtOf t) (readSrc x (.flt t) o.a l % 2 ^ t.bits)
    let b := decodeF (fmtOf t) (readSrc x (.flt t) o.b l % 2 ^ t.bits)
    if a.isNaN = true ∨ b.isNaN = true then decide (q = .ne ∨ q = .nan)
    else
      match q with
      | .eq => decide (cmpX a b = 0) | .ne => decide (cmpX a b ≠ 0) | .lt => decide (cmpX a b < 0)
      | .le => decide (cmpX a b ≤ 0) | .gt => decide (0 < cmpX a b) | .ge => decide (0 ≤ cmpX a b)
      | .num => true | .nan => false)) ∧
  (∀ c t o, PredResult (.pclass c t o) c o (fun x l =>
    readSrc x rd32 o.b l / 2 ^ classOf (fmtOf t) (readSrc x (.flt t) o.a l % 2 ^ t.bits) % 2 == 1)) ∧
  (∀ c t q o, PredResult (.acmp c t q o) c o (fun x l =>
    condI q (valI t (affLane (readPair x o.a) l)) (valI t (affLane (readPair x o.b) l))))

/-- R147 and R148: select, the predicate forms, and the aggregates over T. -/
def Obligations.PredicateResults : Prop :=
  (∀ c t o, VecResult (.sel c t o) c o t.words (fun x l =>
    if readPred x o.c l then readSrc x (rdI t) o.a l else readSrc x (rdI t) o.b l)) ∧
  (∀ c na nb o, PredResult (.pand c na nb o) c o (fun x l =>
    Bool.and (Bool.xor na (readPred x o.a l)) (Bool.xor nb (readPred x o.b l)))) ∧
  (∀ c na nb o, PredResult (.por c na nb o) c o (fun x l =>
    Bool.or (Bool.xor na (readPred x o.a l)) (Bool.xor nb (readPred x o.b l)))) ∧
  (∀ c na nb o, PredResult (.pxor c na nb o) c o (fun x l =>
    Bool.xor (Bool.xor na (readPred x o.a l)) (Bool.xor nb (readPred x o.b l)))) ∧
  (∀ c o, PredResult (.pnot c o) c o (fun x l => !readPred x o.a l)) ∧
  (∀ c n m (d : Ops), let o : Ops := { d with d := .pred n, a := .pred m }
    PredResult (.pmov c o) c o (fun x l => readPred x (.pred m) l)) ∧
  (∀ c n m (d : Ops), let o : Ops := { d with d := .pred n, a := .vec m }
    PredResult (.pmov c o) c o (fun x l => decide (readSrc x rd32 (.vec m) l ≠ 0))) ∧
  (∀ c n m (d : Ops), let o : Ops := { d with d := .vec n, a := .pred m }
    VecResult (.pmov c o) c o 1 (fun x l => if readPred x (.pred m) l then 1 else 0)) ∧
  (∀ c o, PredResult (.pagg c .every o) c o (fun x _ => decide (∀ l ∈ x.lanes, readPred x o.a l = true))) ∧
  (∀ c o, PredResult (.pagg c .some o) c o (fun x _ => decide (∃ l ∈ x.lanes, readPred x o.a l = true))) ∧
  (∀ c o, PredResult (.pagg c .same o) c o (fun x _ =>
    decide (∀ l ∈ x.lanes, ∀ m ∈ x.lanes, readPred x o.a l = readPred x o.a m))) ∧
  (∀ c o, VecResult (.pagg c .mask o) c o 1 (fun x _ =>
    (maskOf (fun l => lane x.tm l && readPred x o.a l)).toNat)) ∧
  (∀ c o, VecResult (.pagg c .count o) c o 1 (fun x _ => (x.lanes.filter (fun l => readPred x o.a l)).length))

/-- R152 to R155: exchange, broadcast, reduction, prefix and match over the set T. R154: an integer reduction is the sum, wrapped or
clamped once, the least or greatest element, or the bitwise function of all. R121, R122: a float reduction is the top of the tree whose
nodes combine two halves of their lanes, a lane outside T being absent; a prefix folds the blocks that tile [0, j], from the largest
down. -/
def Obligations.CrossLaneResults : Prop :=
  (∀ c t m o, VecResult (.lxch c t m o) c o t.words (fun x l =>
    let b := readSrc x rd32 o.b l
    let from' : Int := match m with
      | .abs => b | .back => (l : Int) - b | .fwd => (l : Int) + b
      | .mir => ((l ^^^ b : Nat) : Int) | .rot => (((l + b) % 32 : Nat) : Int)
    if 0 ≤ from' ∧ from' ≤ 31 ∧ lane x.tm from'.toNat = true then readSrc x (rdI t) o.a from'.toNat
    else readSrc x (rdI t) o.a l)) ∧
  (∀ c t o, VecResult (.lbcast c t o) c o t.words (fun x l =>
    let from' := readSrc x rd32 o.b x.low
    if from' ≤ 31 ∧ lane x.tm from' = true then readSrc x (rdI t) o.a from' else readSrc x (rdI t) o.a l)) ∧
  (∀ c t o, VecResult (.lmatch c t o) c o 1 (fun x l =>
    (maskOf (fun m => lane x.tm m && (readSrc x (rdI t) o.a m == readSrc x (rdI t) o.a l))).toNat)) ∧
  (∀ c t op o, t.isFloat = false → VecResult (.lred c t op o) c o t.words (fun x _ =>
    redInt t op.val (x.lanes.map (readSrc x (rdI t) o.a)))) ∧
  (∀ c t op o, t.isFloat = false → VecResult (.lscan c t op o) c o t.words (fun x l =>
    redInt t op.val ((x.lanes.filter (fun m => decide (m ≤ l))).map (readSrc x (rdI t) o.a)))) ∧
  (∀ c t op o, t.isFloat = true → VecResult (.lred c t op o) c o 1 (fun x _ =>
    let y := seeded x (redRnd op.val)
    fLredF t op.val y.st.seed x.tm (readSrc y (.flt t) o.a))) ∧
  (∀ c t op o, t.isFloat = true → VecResult (.lscan c t op o) c o 1 (fun x =>
    let y := seeded x (redRnd op.val)
    fLscanF t op.val y.st.seed x.tm (readSrc y (.flt t) o.a))) ∧
  (∀ t ∈ [Ty.s32, .n32, .s64, .n64], ∀ xs : List Nat, xs ≠ [] → (∀ v ∈ xs, v < 2 ^ t.bits) →
    (redInt t 0 xs = inType t false (xs.map (valI t)).sum ∧ redInt t 1 xs = inType t true (xs.map (valI t)).sum) ∧
    (redInt t 2 xs ∈ xs ∧ ∀ v ∈ xs, valI t (redInt t 2 xs) ≤ valI t v) ∧
    (redInt t 3 xs ∈ xs ∧ ∀ v ∈ xs, valI t v ≤ valI t (redInt t 3 xs)) ∧
    ∀ i, (redInt t 4 xs).testBit i = xs.all (fun v => v.testBit i) ∧ (redInt t 5 xs).testBit i = xs.any (fun v => v.testBit i) ∧
      (redInt t 6 xs).testBit i = decide ((xs.filter (fun v => v.testBit i)).length % 2 = 1)) ∧
  (∀ t op sd (tm : LaneMask) a (N : Nat → Nat → Option Nat), op < 7 →
    let r := nth [Rnd.rne, .rtz, .rdn, .rup, .rs] op .rne
    let comb := fun (l : Nat) (x y : Option Nat) => match x, y with
      | none, y => y
      | x, none => x
      | some p, some q => some (perElem t (fun e =>
          if op < 5 then roundF (fmtOf t) r (rsOf sd l e) (addX r (dec t (elem t p e)) (dec t (elem t q e)))
          else if op = 5 then elMin t (elem t p e) (elem t q e) else elMax t (elem t p e) (elem t q e)))
    (∀ i, i < 32 → N 0 i = if lane tm i then some (a i % 2 ^ t.bits) else none) →
    (∀ k i, k < 5 → i < 2 ^ (4 - k) → N (k + 1) i = comb (2 ^ (k + 1) * i) (N k (2 * i)) (N k (2 * i + 1))) →
    fLredF t op sd tm a = (N 5 0).getD 0 ∧
    ∀ j, j < 32 → fLscanF t op sd tm a j =
      (([5, 4, 3, 2, 1, 0].filter (fun k => (j + 1).testBit k)).foldl
        (fun acc k => comb j acc (N k ((j + 1) / 2 ^ (k + 1) * 2))) none).getD 0)

/-- R160 to R164: the exact result of each element, rounded once in the mode; the seed has advanced first under RS (log 20).
R161 and R107: `fmin` and `fmax` give the other operand for one NaN, the canonical NaN for two. R162, R163: `frnd` and `fscale` keep
infinities and zeros, give the canonical NaN for a NaN, and round the integer the mode chooses, or the scaled value. R164: the special
cases of `fdot2`, its zero sign and its exact sum. A value of the format rounds to itself. -/
def Obligations.FloatArithmeticResults : Prop :=
  let sd := fun (r : Rnd) (x : Ctx) => (seeded x r).st.seed
  (∀ c t r o, VecResult (.fadd c t r o) c o 1 (fun x l => perElem t (fun j =>
    roundF (fmtOf t) r (rsOf (sd r x) l j) (addX r (dec t (fltA t o (seeded x r) l j)) (dec t (fltB t o (seeded x r) l j)))))) ∧
  (∀ c t r o, VecResult (.fsub c t r o) c o 1 (fun x l => perElem t (fun j =>
    roundF (fmtOf t) r (rsOf (sd r x) l j) (addX r (dec t (fltA t o (seeded x r) l j)) (dec t (fltB t o (seeded x r) l j)).neg)))) ∧
  (∀ c t r o, VecResult (.fmul c t r o) c o 1 (fun x l => perElem t (fun j =>
    roundF (fmtOf t) r (rsOf (sd r x) l j) (mulX (dec t (fltA t o (seeded x r) l j)) (dec t (fltB t o (seeded x r) l j)))))) ∧
  (∀ c t r o, VecResult (.fdiv c t r o) c o 1 (fun x l => perElem t (fun j =>
    roundF (fmtOf t) r (rsOf (sd r x) l j) (divX (dec t (fltA t o (seeded x r) l j)) (dec t (fltB t o (seeded x r) l j)))))) ∧
  (∀ c t r o, VecResult (.ffma c t r o) c o 1 (fun x l => perElem t (fun j =>
    roundF (fmtOf t) r (rsOf (sd r x) l j)
      (addX r (mulX (dec t (fltA t o (seeded x r) l j)) (dec t (fltB t o (seeded x r) l j))) (dec t (fltC t o (seeded x r) l j)))))) ∧
  (∀ c t r o, VecResult (.fsqrt c t r o) c o 1 (fun x l => perElem t (fun j =>
    roundF (fmtOf t) r (rsOf (sd r x) l j) (sqrtX (dec t (fltA t o (seeded x r) l j)))))) ∧
  (∀ c t o, VecResult (.fmin c t o) c o 1 (fun x l => perElem t (fun j => elMin t (fltA t o x l j) (fltB t o x l j)))) ∧
  (∀ c t o, VecResult (.fmax c t o) c o 1 (fun x l => perElem t (fun j => elMax t (fltA t o x l j) (fltB t o x l j)))) ∧
  (∀ c t o, VecResult (.fclamp c t o) c o 1 (fun x l => perElem t (fun j =>
    elMin t (elMax t (fltA t o x l j) (fltB t o x l j)) (fltC t o x l j)))) ∧
  (∀ c t r o, VecResult (.frnd c t r o) c o 1 (fun x l => perElem t (fun j =>
    elRnd t r (rsOf (sd r x) l j) (fltA t o (seeded x r) l j)))) ∧
  (∀ c t r o, VecResult (.fscale c t r o) c o 1 (fun x l => perElem t (fun j =>
    elScale t r (rsOf (sd r x) l j) (fltA t o (seeded x r) l j) (sext 32 (readSrc (seeded x r) (.int 1 true) o.b l))))) ∧
  (∀ c t r o, VecResult (.fdot2 c t r o) c o 1 (fun x l => let y := seeded x r
    fFdot2 t r (rsOf (sd r x) l 0) (readSrc y (.flt t) o.a l) (readSrc y (.flt t) o.b l) (readSrc y (.flt .f32) o.c l))) ∧
  (∀ t a b,
    ((dec t a).isNaN = true → (dec t b).isNaN = false → elMin t a b = b ∧ elMax t a b = b) ∧
    ((dec t a).isNaN = false → (dec t b).isNaN = true → elMin t a b = a ∧ elMax t a b = a) ∧
    ((dec t a).isNaN = true → (dec t b).isNaN = true → elMin t a b = (fmtOf t).nan ∧ elMax t a b = (fmtOf t).nan)) ∧
  (∀ t r rs a, let F := fmtOf t
    ((dec t a).isNaN = true → elRnd t r rs a = F.nan ∧ ∀ k, elScale t r rs a k = F.nan) ∧
    ((∃ n, dec t a = .inf n) ∨ (∃ n e, dec t a = .fin n 0 e false) → elRnd t r rs a = a ∧ ∀ k, elScale t r rs a k = a) ∧
    (∀ n m e, dec t a = .fin n m e false → m ≠ 0 →
      (0 ≤ e → a < 2 ^ F.bits → elRnd t r rs a = a) ∧
      (r ≠ .rs →
        elRnd t r rs a = roundF F .rtz rs (.fin n (nearest r n (m * 2 ^ e.toNat) (2 ^ (-e).toNat)) 0 false)) ∧
      (r = .rs → elRnd t r rs a = roundF F .rtz rs (.fin n (roundMag n m e false 0 .rs { rs with src := some e }) 0 false)) ∧
      ∀ k, elScale t r rs a k = roundF F r rs (.fin n m (e + k) false)) ∧
    ((dec t a).isNaN = false → a < 2 ^ F.bits → roundF F r rs (dec t a) = a)) ∧
  (∀ t r rs a b c,
    let p := mulX (dec t (elem t a 0)) (dec t (elem t b 0))
    let q := mulX (dec t (elem t a 1)) (dec t (elem t b 1))
    let z := decodeF fmtF32 c
    let y := fFdot2 t r rs a b c
    (p.isNaN = true ∨ q.isNaN = true ∨ z.isNaN = true → y = fmtF32.nan) ∧
    (∀ n, Ext.inf n ∈ [p, q, z] → Ext.inf (!n) ∈ [p, q, z] → y = fmtF32.nan) ∧
    (∀ n, Ext.inf n ∈ [p, q, z] → Ext.inf (!n) ∉ [p, q, z] → Ext.nan ∉ [p, q, z] → y = fmtF32.sign n + fmtF32.inf) ∧
    (∀ n0 m0 e0 n1 m1 e1 n2 m2 e2, p = .fin n0 m0 e0 false → q = .fin n1 m1 e1 false → z = .fin n2 m2 e2 false →
      (m0 = 0 → m1 = 0 → m2 = 0 → y = fmtF32.sign (if n0 = n1 ∧ n1 = n2 then n0 else r == .rdn)) ∧
      ((addX r p q).isZero = false → y = roundF fmtF32 r rs (addX r (addX r p q) z)) ∧
      ((addX r p q).isZero = true → m2 ≠ 0 → y = roundF fmtF32 r rs z) ∧
      ((addX r p q).isZero = true → m0 ≠ 0 → m2 = 0 → y = fmtF32.sign (r == .rdn))))

/-- R166: each special function, rounded once to nearest even, per element, and its fixed values. R168 to R176: conversion,
quantising and packing: an integer target saturates and takes 0 from a NaN, E4M3 saturates, widening is exact, and the blocks' exponents,
elements and strings are as the rules write them. The `.f32` of -2^128 that `bfunpack` forms is the model's free value (log 164). -/
def Obligations.SpecialAndConversionResults : Prop :=
  (let sp := fun (f : Ext → Ext) (t : Ty) (o : Ops) (x : Ctx) (l : Nat) =>
    perElem t (fun j => roundF (fmtOf t) .rne ⟨0, 0, none⟩ (f (dec t (fltA t o x l j))))
  (∀ c t o, VecResult (.frcp c t o) c o 1 (sp rcpX t o)) ∧
  (∀ c t o, VecResult (.frsq c t o) c o 1 (sp rsqX t o)) ∧
  (∀ c t o, VecResult (.fexp2 c t o) c o 1 (sp exp2X t o)) ∧
  (∀ c t o, VecResult (.flog2 c t o) c o 1 (sp log2X t o)) ∧
  (∀ c t o, VecResult (.fsinpi c t o) c o 1 (sp (trigPi true) t o)) ∧
  (∀ c t o, VecResult (.fcospi c t o) c o 1 (sp (trigPi false) t o)) ∧
  (∀ c t o, VecResult (.ftanh c t o) c o 1 (sp tanhX t o)) ∧
  (∀ c t o, VecResult (.fsigm c t o) c o 1 (sp sigmX t o))) ∧
  ((∀ c code r o, VecResult (.cvt c code r o) c o (cvtForm code.val).1 (fun x l => let y := seeded x r
    fCvt code.val r y.st.seed l (readSrc y (cvtForm code.val).2.1 o.a l) (readSrc y (.flt .f32) o.b l))) ∧
  (∀ c t r o, VecResult (.qnt c t r o) c o 1 (fun x l => let y := seeded x r
    fQnt t r y.st.seed l (readSrc y (.flt .f32) o.a l) (readSrc y (.flt .f32) o.b l))) ∧
  (∀ c t r o, VecResult (.dqnt c t r o) c o 1 (fun x l => let y := seeded x r
    fDqnt t r y.st.seed l (readSrc y (if t.isFloat then .flt t else rdI t) o.a l) (readSrc y (.flt .f32) o.b l))) ∧
  (∀ c t r o, VecResult (.bfpack c t r o) c o 1 (fun x => let y := seeded x r
    fBfpack t r y.st.seed x.tm (readSrc y (.flt .f32) o.a))) ∧
  (∀ c t o, VecResult (.bfunpack c t o) c o 1 (fun x l =>
    fBfunpack t (readSrc x rd32 o.a l)
      (if o.b = .null then readSrc x rd32 o.a l / 256 % 256 else readSrc x (.flt .f32) o.b l % 256))) ∧
  (∀ c t o, VecResult (.pack c t o) c o 1 (fun x =>
    fPack t x.tm (readSrc x rd32 o.a) (readSrc x rd32 o.b) (readSrc x rd32 o.c))) ∧
  (∀ c t o, VecResult (.unpack c t o) c o 1 (fun x => fUnpack t x.tm (readSrc x rd32 o.a) (readSrc x rd32 o.b))) ∧
  (∀ c o s x sh, Clear s x (.seed c o) c o sh → ∃ s' t, exec (.seed c o) s = .next s' ∧ PcPast s' x ∧
    strand? s' x.uid x.k = some t ∧ t.seed = BitVec.ofNat 32 (readSrc x rd32 o.b x.low))) ∧
  (∀ t a, let F := fmtOf t
    let V := fun (f : Ext → Ext) => roundF F .rne ⟨0, 0, none⟩ (f (dec t a))
    let one := F.bias * 2 ^ F.fb
    F.hasInf = true →
    ((dec t a).isNaN = true →
      ∀ f ∈ [rcpX, rsqX, exp2X, log2X, trigPi true, trigPi false, tanhX, sigmX], V f = F.nan) ∧
    (∀ n, dec t a = .inf n → V rcpX = F.sign n ∧ V rsqX = (if n then F.nan else 0) ∧ V exp2X = (if n then 0 else F.inf) ∧
      V log2X = (if n then F.nan else F.inf) ∧ V (trigPi true) = F.nan ∧ V (trigPi false) = F.nan ∧
      V tanhX = F.sign n + one ∧ V sigmX = if n then 0 else one) ∧
    (∀ n e, dec t a = .fin n 0 e false → V rcpX = F.sign n + F.inf ∧ V rsqX = F.sign n + F.inf ∧ V exp2X = one ∧
      V log2X = F.sign true + F.inf ∧ V (trigPi true) = F.sign n ∧ V (trigPi false) = one ∧ V tanhX = F.sign n ∧
      V sigmX = (F.bias - 1) * 2 ^ F.fb) ∧
    (∀ m e, dec t a = .fin true m e false → m ≠ 0 → V rsqX = F.nan ∧ V log2X = F.nan) ∧
    (∀ (l : Nat) (e : Int), dec t a = .fin false (2 ^ l) e false → log2X (dec t a) = if e + l = 0 then .fin false 0 0 false else extOfInt (e + l)) ∧
    (∀ n m e k, dec t a = .fin n m e false → m ≠ 0 →
      (m * 2 ^ e.toNat = k * 2 ^ (-e).toNat → (k < 2048 → exp2X (dec t a) = .fin false 1 (signedMag n k) false) ∧
        trigPi true (dec t a) = .fin n 0 0 false ∧ trigPi false (dec t a) = .fin (k % 2 == 1) 1 0 false) ∧
      (2 * (m * 2 ^ e.toNat) = (2 * k + 1) * 2 ^ (-e).toNat →
        trigPi true (dec t a) = .fin (n != (k % 2 == 1)) 1 0 false ∧ trigPi false (dec t a) = .fin false 0 0 false))) ∧
  (∀ r sd l a b, let x := decodeF fmtF32 a
    let cv := fun code => fCvt code r sd l a b
    (∀ q ∈ [(0, fmtF16), (1, fmtBF16), (2, fmtE4M3), (3, fmtE5M2)], cv q.1 = roundF q.2 r (rsConv sd l 0 x) x) ∧
    (∀ q ∈ [(4, Ty.f16), (5, .bf16), (6, .e4m3), (7, .e5m2)], let w := dec q.2 (a % 2 ^ q.2.bits)
      (w.isNaN = true → cv q.1 = 0x7FC00000) ∧ (∀ n, w = .inf n → decodeF fmtF32 (cv q.1) = .inf n) ∧
      ∀ n m e, w = .fin n m e false → ∃ j : Nat, decodeF fmtF32 (cv q.1) = .fin n (m * 2 ^ j) (e - j) false) ∧
    (∀ q ∈ [(8, Ty.s32), (9, .n32), (10, .s64), (11, .n64), (16, .s8), (17, .n8), (18, .s16), (19, .n16)],
      (x.isNaN = true → cv q.1 = 0) ∧
      (∀ n, x = .inf n → cv q.1 = inType q.2 true (if n then minT q.2 else maxT q.2)) ∧
      ∀ n m e, x = .fin n m e false → r ≠ .rs →
        cv q.1 = inType q.2 true (signedMag n (nearest r n (m * 2 ^ e.toNat) (2 ^ (-e).toNat)))) ∧
    (∀ q ∈ [(12, Ty.s32), (13, .n32), (14, .s64), (15, .n64)],
      cv q.1 = roundF fmtF32 r ⟨sd, l, some 0⟩ (.fin (decide (valI q.2 a < 0)) (valI q.2 a).natAbs 0 false)) ∧
    (∀ q ∈ [(20, Ty.s8, Ty.s32), (21, .n8, .s32), (22, .s16, .s32), (23, .n16, .s32), (24, .s32, .s64), (25, .n32, .n64)],
      cv q.1 = inType q.2.1 true (valI q.2.2 a)) ∧
    (∀ q ∈ [(26, fmtF16), (27, fmtBF16)], let z := decodeF fmtF32 b
      cv q.1 = roundF q.2 r (rsConv sd l 0 x) x + roundF q.2 r (rsConv sd l 1 z) z * 65536) ∧
    cv 28 = wrap 64 (sext 32 a) ∧ cv 29 = a % 2 ^ 32) ∧
  (∀ t r sd l a b, let q := divX (decodeF fmtF32 a) (decodeF fmtF32 b)
    (t.isFloat = true → fQnt t r sd l a b = roundF (fmtOf t) r ⟨sd, l, none⟩ q) ∧
    (t.isFloat = false → (q.isNaN = true → fQnt t r sd l a b = 0) ∧
      (∀ n, q = .inf n → minT t ≤ maxT t → fQnt t r sd l a b = inType t true (if n then minT t else maxT t)) ∧
      (∀ n m e ab, q = .fin n m e ab → fQnt t r sd l a b = inType t true (roundInt r ⟨sd, l, none⟩ n m e ab)) ∧
      (∀ n m e, q = .fin n m e false → r ≠ .rs →
        fQnt t r sd l a b = inType t true (signedMag n (nearest r n (m * 2 ^ e.toNat) (2 ^ (-e).toNat))))) ∧
    fDqnt t r sd l a b = roundF fmtF32 r ⟨sd, l, none⟩ (mulX (if t.isFloat then dec t (a % 2 ^ t.bits)
      else .fin (decide (valI t a < 0)) (valI t a).natAbs 0 false) (decodeF fmtF32 b))) ∧
  (∀ r rs n, roundF fmtE4M3 r rs (.inf n) = 0x7F ∧
    ∀ m e : Nat, 448 < m * 2 ^ e → roundF fmtE4M3 r rs (.fin n m e false) = (if n then 0x80 else 0) + 0x7E) ∧
  (∀ (tm : LaneMask) a b c l,
    fPack .b16 tm a b c l = a l % 65536 + b l % 65536 * 65536 ∧
    fPack .b8 tm a b c l = a l % 256 + b l % 256 * 256 + c l % 65536 * 65536 ∧
    fUnpack .s8 tm a b l = wrap 32 (sext 8 (a l / 2 ^ (8 * (b l % 4)))) ∧ fUnpack .n8 tm a b l = a l / 2 ^ (8 * (b l % 4)) % 256 ∧
    fUnpack .s16 tm a b l = wrap 32 (sext 16 (a l / 2 ^ (16 * (b l % 2)))) ∧
    fUnpack .n16 tm a b l = a l / 2 ^ (16 * (b l % 2)) % 65536) ∧
  (∀ t ∈ [Ty.bfp2, .bfp3, .bfp4, .bfp5, .bfp6, .bfp7, .bfp8], ∀ r sd (tm : LaneMask) a b c l, l < 32 →
    let m := t.bits
    let X := fun j => decodeF fmtF32 (a j)
    let half : Int := ((2 ^ (m - 1) : Nat) : Int)
    (l < m → ∀ i, i < 32 → let n := 32 * l + i
      (fPack t tm a b c l).testBit i = (lane tm (n / m) && (a (n / m)).testBit (n % m))) ∧
    (m ≤ l → fPack t tm a b c l = 0) ∧
    (∃ E, E < 2 ^ m ∧ fUnpack t tm a b l = wrap 32 (sext m E) ∧ ∀ i, i < m → let n := m * l + i
      E.testBit i = (lane tm (n / 32) && (a (n / 32)).testBit (n % 32))) ∧
    ((∃ j ∈ lanesOf tm, (X j).isNaN = true ∨ ∃ n, X j = .inf n) → fBfpack t r sd tm a l = 0xFF00) ∧
    (∀ e : Nat,
      ((∀ j ∈ lanesOf tm, ∃ n ee, X j = .fin n 0 ee false) ∧ e = 0 ∨
        ∃ P : Int, e = (clampI 0 254 (P + 127)).toNat ∧
          (∀ j ∈ lanesOf tm, ∃ n mm ee, X j = .fin n mm ee false ∧ (mm ≠ 0 → ee + log2 mm ≤ P)) ∧
          ∃ j ∈ lanesOf tm, ∃ n mm ee, X j = .fin n mm ee false ∧ mm ≠ 0 ∧ ee + log2 mm = P) →
      ∀ n mm ee, X l = .fin n mm ee false → let g : Int := (e : Int) - 125 - m
        ∃ k, fBfpack t r sd tm a l = wrap 8 (clampI (-half) (half - 1) (signedMag n k)) + e * 256 ∧
          (r ≠ .rs → k = nearest r n (mm * 2 ^ (ee - g).toNat) (2 ^ (g - ee).toNat)) ∧
          (r = .rs → k = roundMag n mm ee false g .rs (rsConv sd l 0 (X l)))) ∧
    (∀ e v, fBfunpack t v 255 = 0x7FC00000 ∧ (e < 255 → ¬ (e = 254 ∧ v % 2 ^ m = 2 ^ (m - 1)) → ∃ j : Nat,
      decodeF fmtF32 (fBfunpack t v e) =
        .fin (decide (sext m v < 0)) ((sext m v).natAbs * 2 ^ j) ((e : Int) - 125 - m - j) false)))

/-- R182 to R184: the affine instructions write the path's register once; `avec` writes the value of each lane. -/
def Obligations.AffineResults : Prop :=
  let lo := fun (v : DWord) => BitVec.ofNat 32 v.toNat
  (∀ c o, AffResult (.aset c o) c o (fun x => ⟨(readPair x o.a).base, lo (readPair x o.b).base⟩)) ∧
  (∀ c o, AffResult (.aadd c o) c o (fun x =>
    ⟨(readPair x o.a).base + (readPair x o.b).base, (readPair x o.a).stride + (readPair x o.b).stride⟩)) ∧
  (∀ c o, AffResult (.asub c o) c o (fun x =>
    ⟨(readPair x o.a).base - (readPair x o.b).base, (readPair x o.a).stride - (readPair x o.b).stride⟩)) ∧
  (∀ c o, AffResult (.amul c o) c o (fun x =>
    ⟨(readPair x o.a).base * (readPair x o.b).base, (readPair x o.a).stride * lo (readPair x o.b).base⟩)) ∧
  (∀ c o, AffResult (.ashl c o) c o (fun x => let n := (readPair x o.b).base.toNat % 64
    ⟨(readPair x o.a).base <<< n, (readPair x o.a).stride <<< n⟩)) ∧
  (∀ c o, AffResult (.aand c o) c o (fun x =>
    ⟨(readPair x o.a).base &&& (readPair x o.b).base, (readPair x o.a).stride &&& lo (readPair x o.b).base⟩)) ∧
  (∀ c o, AffResult (.amov c o) c o (fun x => readPair x o.a)) ∧
  (∀ c n o, AffResult (.aaddr c n o) c o (fun x =>
    ⟨(readPair x o.a).base + (readPair x o.b).base <<< n.val, (readPair x o.a).stride + (readPair x o.b).stride <<< n.val⟩)) ∧
  (∀ c t o, AffResult (.auni c t o) c o (fun x =>
    ⟨BitVec.ofNat 64 (auniValue t (readSrc x (rdI t) o.a x.low)), 0⟩)) ∧
  (∀ c t o, VecResult (.avec c t o) c o t.words (fun x l =>
    wrap 64 (((readPair x o.a).base.toNat : Int) + (readPair x o.a).stride.toInt * l)))

/-- The frame of every instruction whose whole effect is on registers: nothing beside its destinations, its last-read
registers, the seed where it rounds stochastically, and the PC changes. Nothing outside the strand changes but what
counts it. -/
def Obligations.RegisterOnlyFrame : Prop :=
  ∀ i s x c o sh, registerOnly i = true → Clear s x i c o sh →
    ∃ s', exec i s = .next s' ∧ Outside s s' ∧ OtherStrands s s' x.uid x.k ∧ PcPast s' x ∧ RegsKept s' x c sh o ∧
      RestKept s' x (movesSeed i) ∧ PredsKept s' x (predsWritten i o) ∧ PathsKept s' x (affsWritten o)

/-! ## Control -/

/-- R189 and R190: after `bra` the lanes of T stand at the target, and after `brx` each at its own; the path's other lanes
stand at the next instruction. A `brx` with a target that is no multiple of 12 raises ALIGN for those lanes. -/
def Obligations.BranchResults : Prop :=
  (∀ c o v s x sh, Clear s x (.bra c o) c o sh → o.b = .lit v → ∃ s', exec (.bra c o) s = .next s' ∧
    Framed s s' x c sh o ∧ ∀ l, lane x.p.lanes l = true →
      LaneAt s' x l (if lane x.tm l then x.p.pc + 12 * v.signExtend 64 else x.p.pc + 12)) ∧
  (∀ c o s x sh, Clear s x (.brx c o) c o sh → (∀ l ∈ x.lanes, readSrc x (.int 2 false) o.a l % 12 = 0) →
    ∃ s', exec (.brx c o) s = .next s' ∧ Framed s s' x c sh o ∧ ∀ l, lane x.p.lanes l = true →
      LaneAt s' x l (if lane x.tm l then BitVec.ofNat 64 (readSrc x (.int 2 false) o.a l) else x.p.pc + 12)) ∧
  (∀ c o s x sh, Clear s x (.brx c o) c o sh → (∃ l ∈ x.lanes, readSrc x (.int 2 false) o.a l % 12 ≠ 0) →
    ∃ m, exec (.brx c o) s = .next (takeFault s (passed x)
        { code := fAlign, lanes := m, addrs := addrList m (readSrc x (.int 2 false) o.a) }) ∧
      ∀ l, l < 32 → lane m l = (lane x.tm l && decide (readSrc x (.int 2 false) o.a l % 12 ≠ 0)))

/-- R191: a call whose targets pass their checks pushes the next PC and the limit for the lanes of T; the path's other lanes
go on at their own depth. The targets are checked one after another: BUDGET at depth 64, ALIGN, ICALL of an indirect call to a word
that is no `fent`, BUDGET of a `fent` above VREGS; the first that fails is the instruction's fault. -/
def Obligations.CallResults : Prop :=
  (∀ c o s x sh s1, Clear s x (.call c o) c o sh →
    callChecks x false (toBytes 8 (branchTarget x.p.pc o.b).toNat) s [((branchTarget x.p.pc o.b).toNat, x.tm)] = .ok s1 →
    ∃ s', exec (.call c o) s = .next s' ∧ ∀ l, lane x.p.lanes l = true →
      if lane x.tm l = true then
        LaneStands s' x l (branchTarget x.p.pc o.b) .run x.p.limit ((x.p.pc + 12, x.p.limit) :: x.p.stack)
      else LaneAt s' x l (x.p.pc + 12)) ∧
  (∀ c o s x sh s1, Clear s x (.calli c o) c o sh →
    callChecks x true (((targetsOf x (readSrc x (.int 2 false) o.a)).flatMap (fun e => toBytes 8 e.1)).take 64) s
      (targetsOf x (readSrc x (.int 2 false) o.a)) = .ok s1 →
    ∃ s', exec (.calli c o) s = .next s' ∧ ∀ l, lane x.p.lanes l = true →
      if lane x.tm l = true then
        LaneStands s' x l (BitVec.ofNat 64 (readSrc x (.int 2 false) o.a l)) .run x.p.limit
          ((x.p.pc + 12, x.p.limit) :: x.p.stack)
      else LaneAt s' x l (x.p.pc + 12)) ∧
  (∀ x ind all s a (m : LaneMask) rest,
    let bad := fun code aux =>
      (Except.error (.fault { code := code, lanes := m, addrs := addrList m (fun _ => a), aux2 := aux }) : Except Res State)
    let r := callChecks x ind all s ((a, m) :: rest)
    (64 ≤ x.p.stack.length → r = bad fBudget []) ∧
    (x.p.stack.length < 64 → a % 12 ≠ 0 → r = bad fAlign []) ∧
    (∀ bs s1, x.p.stack.length < 64 → a % 12 = 0 → fetchAt s x.w.core x.l.fn x.l.part (x.who s) a = (.ok bs, s1) →
      (∀ c o, decode bs = .ok (.fent c o) → (x.l.lpb.vregs < countOf o.b → r = bad fBudget []) ∧
        (countOf o.b ≤ x.l.lpb.vregs → r = callChecks x ind all s1 rest)) ∧
      ((∀ c o, decode bs ≠ .ok (.fent c o)) → (ind = true → r = bad fIcall all) ∧
        (ind = false → r = callChecks x ind all s1 rest)))) ∧
  (∀ c o s x sh f, Clear s x (.call c o) c o sh →
    callChecks (passed x) false (toBytes 8 (branchTarget x.p.pc o.b).toNat) s [((branchTarget x.p.pc o.b).toNat, x.tm)] =
      .error (.fault f) → exec (.call c o) s = .next (takeFault s (passed x) f)) ∧
  (∀ c o s x sh f, Clear s x (.calli c o) c o sh →
    callChecks (passed x) true (((targetsOf x (readSrc x (.int 2 false) o.a)).flatMap (fun e => toBytes 8 e.1)).take 64) s
      (targetsOf x (readSrc x (.int 2 false) o.a)) = .error (.fault f) →
    exec (.calli c o) s = .next (takeFault s (passed x) f))

/-- R192: `ret` pops the path's frame, PC and limit, for every lane of it; `fent` sets its limit. -/
def Obligations.FrameResults : Prop :=
  (∀ c o s x sh pc limit rest, Clear s x (.ret c o) c o sh → x.p.stack = (pc, limit) :: rest →
    ∃ s', exec (.ret c o) s = .next s' ∧ Framed s s' x c sh o ∧
      ∀ l, lane x.p.lanes l = true → LaneStands s' x l pc .run limit rest) ∧
  (∀ c o s x sh, Clear s x (.fent c o) c o sh →
    ∃ s', exec (.fent c o) s = .next s' ∧ Framed s s' x c sh o ∧
      ∀ l, lane x.p.lanes l = true → LaneStands s' x l (x.p.pc + 12) .run (countOf o.b) x.p.stack)

/-- R197, R192, R198: `exit`, `ret` at depth 0 and `itemdone` without refill end the lanes of T: what they held is freed, no convergence
register waits for them, and one that now has every lane releases; the path's others go on. -/
def Obligations.LaneEndResults : Prop :=
  let ends := fun (i : Instr) (c : Ctl) (o : Ops) (cond : Ctx → Prop) => ∀ s x sh, Clear s x i c o sh → cond x →
    NoMatrixWaits x.st → ∃ s', exec i s = .next s' ∧ Outside s s' ∧ OtherStrands s s' x.uid x.k ∧ LanesEnded s' x x.tm ∧
      ∀ l, lane x.p.lanes l = true → if lane x.tm l = true then LaneGone s' x l else LaneAt s' x l (x.p.pc + 12)
  (∀ c o, ends (.exit c o) c o (fun _ => True)) ∧
  (∀ c o, ends (.ret c o) c o (fun x => x.p.stack = [])) ∧
  (∀ c o, ends (.itemdone c o) c o (fun x => x.l.lpb.refill = false)) ∧
  (∀ c o s x sh, Clear s x (.itemdone c o) c o sh → x.l.lpb.refill = true →
    ∃ s' t, exec (.itemdone c o) s = .next s' ∧ Framed s s' x c sh o ∧ PcPast s' x ∧
      strand? s' x.uid x.k = some t ∧ t.marked = x.st.marked ||| x.tm)

/-- R198, R61: `refill` gives the marked lanes of T their items, in ascending order, each the lowest of the core's entries, and takes
their marks; lanes that found none for ever end; while the entries are empty and the pool is not, the rest wait; in a launch without refill
it only moves the PC. -/
def Obligations.RefillResult : Prop :=
  (∀ c o s x sh, Clear s x (.refill c o) c o sh → x.l.lpb.refill = false →
    ∃ s', exec (.refill c o) s = .next s' ∧ Framed s s' x c sh o ∧ PcPast s' x) ∧
  (∀ c o s x sh s1 t1 gone, Clear s x (.refill c o) c o sh → x.l.lpb.refill = true → NoMatrixWaits x.st →
    serveLanes x.w.core x.w.lid s { x.st with refilled := true } (lanesOf (x.tm &&& x.st.marked)) 0 =
      (s1, t1, gone, false) →
    ∃ s' t, exec (.refill c o) s = .next s' ∧ strand? s' x.uid x.k = some t ∧ t.items = t1.items ∧
      (∀ l, l < 32 → lane (x.tm &&& x.st.marked) l = true → lane t.marked l = false) ∧
      (∀ l, l < 32 → lane (x.tm &&& x.st.marked) l = false →
        lane t.marked l = lane x.st.marked l ∧ nth t.items l 0 = nth x.st.items l 0) ∧
      ∀ l, lane x.p.lanes l = true → if lane gone l = true then LaneGone s' x l else LaneAt s' x l (x.p.pc + 12)) ∧
  (∀ c o s x sh s1 t1 gone, Clear s x (.refill c o) c o sh → x.l.lpb.refill = true →
    serveLanes x.w.core x.w.lid s { (passed x).st with refilled := true } (lanesOf (x.tm &&& x.st.marked)) 0 =
      (s1, t1, gone, true) →
    exec (.refill c o) s = .next (holdPath s1 (passed x) t1 .hold)) ∧
  (∀ core lid s t l rest gone,
    let es := (coreOf s core).items
    let pool := match launch? s lid with | some q => q.pool | none => []
    let r := serveLanes core lid s t (l :: rest) gone
    (∀ i es', takeFirst es lid = some (i, es') → r = serveLanes core lid (setCore s core (fun c => { c with items := es' }))
      { t with items := setNth t.items l i, marked := t.marked &&& ~~~(maskOf (· == l)) } rest gone) ∧
    (takeFirst es lid = none → pool = [] → r = serveLanes core lid s t rest (gone ||| maskOf (· == l))) ∧
    (takeFirst es lid = none → pool ≠ [] → r = (s, t, gone, true))) ∧
  (∀ es lid, (takeFirst es lid = none ↔ ∀ e ∈ es, e.span.lid ≠ lid) ∧
    ∀ i es', takeFirst es lid = some (i, es') → ∃ e ∈ es, e.span.lid = lid ∧ e.span.lo = i ∧
      (∀ q ∈ es, q.span.lid = lid → i ≤ q.span.lo) ∧
      es' = (es.map (fun q => if q = e then
        { q with span := { q.span with lo := i + 1, aff := q.span.aff.map (fun a => rebase a 1) } } else q)).filter
          (fun q => decide (q.span.lo < q.span.hi)))

/-- R194: `ksign` arms a register that no lane has signed, on T; on one that has been signed it raises CONV. R195: `kwait` signs
and parks the lanes of T that its mask expects, and when the last of them signs every lane parked on the register goes on at the PC
after its own `kwait` and the register is idle; the path's other lanes go on; on a register of a matrix operation it raises CONV. -/
def Obligations.ConvergenceResults : Prop :=
  (∀ c (k : Fin 8) (q : Ops) s x sh, let o := { q with d := .conv k }
    Clear s x (.ksign c o) c o sh → k.val < x.st.convs.length →
    ((convOf x.st k.val).signed = 0#32 →
      ∃ s' t, exec (.ksign c o) s = .next s' ∧ Framed s s' x c sh o ∧ PcPast s' x ∧ strand? s' x.uid x.k = some t ∧
        (convOf t k.val).mask = x.tm ∧ (convOf t k.val).st = .armed ∧ (convOf t k.val).signed = 0#32 ∧
        ∀ j, j ≠ k.val → convOf t j = convOf x.st j) ∧
    ((convOf x.st k.val).signed ≠ 0#32 →
      exec (.ksign c o) s = .next (takeFault s (passed x) { code := fConv, lanes := x.tm }))) ∧
  (∀ c (k : Fin 8) (q : Ops) s x sh, let o := { q with d := .conv k }
    let v := convOf x.st k.val
    let mask := if v.st = .idle then liveLanes x.st else v.mask
    let signed := v.signed ||| (x.tm &&& mask)
    Clear s x (.kwait c o) c o sh → k.val < x.st.convs.length → v.st ≠ .matrix →
    ∃ s' t, exec (.kwait c o) s = .next s' ∧ Framed s s' x c sh o ∧ strand? s' x.uid x.k = some t ∧
      (∀ l, lane (x.p.lanes &&& ~~~(x.tm &&& mask)) l = true → LaneAt s' x l (x.p.pc + 12)) ∧
      (∀ j, j ≠ k.val → convOf t j = convOf x.st j) ∧
      (mask &&& liveLanes x.st &&& ~~~signed = 0#32 →
        (convOf t k.val).st = .idle ∧ (convOf t k.val).mask = 0#32 ∧ (convOf t k.val).signed = 0#32 ∧
        (∀ l, lane (x.tm &&& mask) l = true → LaneAt s' x l (x.p.pc + 12)) ∧
        ∀ p ∈ x.st.paths, p.st = .parked k → ∀ l, lane p.lanes l = true →
          LaneStands s' x l (p.pc + 12) .run p.limit p.stack) ∧
      (mask &&& liveLanes x.st &&& ~~~signed ≠ 0#32 → (convOf t k.val).st = .waiting ∧
        (convOf t k.val).mask = mask ∧ (convOf t k.val).signed = signed ∧
        ∀ l, lane (x.tm &&& mask) l = true → LaneStands s' x l x.p.pc (.parked k) x.p.limit x.p.stack)) ∧
  (∀ c (k : Fin 8) (q : Ops) s x sh, let o := { q with d := .conv k }
    Clear s x (.kwait c o) c o sh → (convOf x.st k.val).st = .matrix →
    exec (.kwait c o) s = .next (takeFault s (passed x) { code := fConv, lanes := x.tm }))

/-- R199, R200 and R100: `yield` moves the PC, gives up the issue slot and, but under NOPROG, makes the next ready path current; while
another strand of the quarter is able to issue and none has, the strand owes its slot. `trap` and, under BRKPARK, `brk` park the strand with
a token and post a record with n, the PC and the lanes; otherwise `brk` takes BREAK; `grow` and `shrink` set the registers the strand
reserves. That a `brk` parks and lists its whole path is the model's choice (DESIGN CHOICE, log 139); so is that a path held in `bwait` or
parked at a `kwait`, and an `mma` not fully signed, are no earlier work (DESIGN CHOICE, log 136). -/
def Obligations.YieldTrapAndPoolResults : Prop :=
  (∀ c o s x sh, Clear s x (.yield c o) c o sh →
    ∃ s' t, exec (.yield c o) s = .next s' ∧ Framed s s' x c sh o ∧ PcPast s' x ∧ strand? s' x.uid x.k = some t ∧
      t.yielded = true ∧
      (x.l.lpb.noprog = false → x.st.paths.Pairwise (fun p q => pathLow p < pathLow q) → t.timer = 0 ∧
        ∃ p ∈ x.st.paths, ready p = true ∧ t.cur = pathLow p ∧
          ((pathLow x.p < pathLow p ∧ ∀ q ∈ x.st.paths, ready q = true → pathLow x.p < pathLow q → pathLow p ≤ pathLow q) ∨
           ((∀ q ∈ x.st.paths, ready q = true → pathLow q ≤ pathLow x.p) ∧
            ∀ q ∈ x.st.paths, ready q = true → pathLow p ≤ pathLow q)))) ∧
  (∀ s uid k ts w t l, s.turns = .strand uid k :: ts →
    let s0 := { s with turns := ts }
    unit? s0 uid = some w → Tbl.find? w.strands k = some t → launch? s0 w.lid = some l → t.completed = false →
    (∀ y ∈ s0.stops, y.uid ≠ uid) → w.cancelled = false → lduLeft t = none → t.steps.any (stepDone t) = false →
    convStuck s0 w l t = false → owesSlot s0 uid k w t = true → step s = .next s0) ∧
  (∀ s uid k w t, owesSlot s uid k w t = true ↔ t.yielded = true ∧
    Tbl.find? s.lastIssue (4 * w.core + t.quarter) = some (uid, k) ∧ othersIssue s uid k w t = true) ∧
  (∀ c o s x sh, Clear s x (.trap c o) c o sh → earlierOpen s x = false → recordRoom s x.w.lid = true →
    ∃ s', exec (.trap c o) s = .next s' ∧ ParkedWithToken s' x .trap x.tm ∧
      (x.l.records < 16 → PostedWithToken s s' x fTrap (countOf o.b) x.tm)) ∧
  (∀ c o s x sh, Stands s x (.brk c o) c o sh → overBudget sh o x.p.limit = false → inWindow x c sh o = false →
    (stepping s x.l = true → recordRoom s x.w.lid = true) → brkPark s x.l = true → earlierOpen s x = false →
    recordRoom s x.w.lid = true → ∃ s', exec (.brk c o) s = .next s' ∧ ParkedWithToken s' x .brk x.p.lanes ∧
      (x.l.records < 16 → PostedWithToken s s' x fBreak (countOf o.b) x.p.lanes)) ∧
  (∀ c o s x sh, Stands s x (.brk c o) c o sh → overBudget sh o x.p.limit = false → inWindow x c sh o = false →
    (stepping s x.l = true → recordRoom s x.w.lid = true) → brkPark s x.l = false →
    exec (.brk c o) s = .next (takeFault s x { code := fBreak, lanes := x.p.lanes, aux := toBytes 4 (countOf o.b) })) ∧
  (∀ c o s x sh, Clear s x (.grow c o) c o sh → countOf o.b - holding x.st ≤ poolFor s x →
    ∃ s' t, exec (.grow c o) s = .next s' ∧ Framed s s' x c sh o ∧ PcPast s' x ∧ strand? s' x.uid x.k = some t ∧
      t.g = max x.st.g (countOf o.b)) ∧
  (∀ c o s x sh, Clear s x (.shrink c o) c o sh →
    ∃ s' t, exec (.shrink c o) s = .next s' ∧ Framed s s' x c sh o ∧ PcPast s' x ∧ strand? s' x.uid x.k = some t ∧
      t.g = max x.l.lpb.vfloor (min x.st.g (countOf o.b)))

/-! ## Memory -/

/-- R260, R264, R266, R267: loads, stores and read-modify-writes perform their lanes in ascending order; what they read is
outstanding for the destinations. -/
def Obligations.MemoryInstructionResults : Prop :=
  (∀ c acc t o, MemResult (.ld c acc t o) c o (.load (ldAcc acc.val) t) (fun x => readAddr x o.a o.b o.c)
    (fun _ _ => 0) (fun x v => vecOuts o.d t.words x.tm v)) ∧
  (∀ c acc t o, MemResult (.st c acc t o) c o (.store (stAcc acc.val) (t.bits / 8)) (fun x => readAddr x o.a o.b o.c)
    (fun x => readSrc x (.int t.words false) o.d) (fun _ _ => [])) ∧
  (∀ c f t o, MemResult (.atom c f t o) c o (.rmw (constAcc o.c) f t) (fun x => readSrc x (.int 2 false) o.a)
    (fun x => readSrc x (rdAtom t) o.b) (fun x v => vecOuts o.d t.words x.tm v)) ∧
  (∀ c t o, MemResult (.atomcas c t o) c o (.cas (constAcc o.c) (t.bits / 8)) (fun x => readSrc x (.int 2 false) o.a)
    (fun x => readSrc x (.int (2 * t.words) false) o.b) (fun x v => vecOuts o.d t.words x.tm v)) ∧
  (∀ c f t o, MemResult (.red c f t o) c o (.rmw (constAcc o.c) f t) (fun x => readSrc x (.int 2 false) o.a)
    (fun x => readSrc x (rdAtom t) o.b) (fun _ _ => []))

/-- R261: `ldu` reads once, at the address of the lowest lane of T, and its value is outstanding for the affine register of
the whole path. -/
def Obligations.UniformLoadResult : Prop :=
  ∀ c t o n part s x sh locs s1,
    let addr := fun l => wrap 64 ((affLane (readPair x o.a) l : Int) + lduOffset o.b)
    let y : Ctx := { x with tm := maskOf (· == x.low) }
    Clear s x (.ldu c t o) c o sh → o.d = .aff n part → LanesReady s y (.load {} t) addr (fun _ => 0) locs s1 →
    let r := lanesPerformed s s1 y (.load {} t) addr (fun _ => 0) locs
    ∃ s' u, exec (.ldu c t o) s = .next s' ∧ strand? s' x.uid x.k = some u ∧ s'.mem = r.s.mem ∧ s'.cores = r.s.cores ∧
      ∃ d ∈ u.pends, d.lanes = x.p.lanes ∧ d.win = winList x.p.lanes c.la.val ∧
        d.outs = [.aff n.val part (BitVec.ofNat 64 (lduValue t (Tbl.getD r.vals x.low 0))) x.p.lanes]

/-- R257, R83: a memory instruction some lane of which fails its checks, outside every window, misaligned, or without a translation that
permits it, takes its fault before anything is performed; an `ldu` raises it for the whole instruction (R261). R255 and R257: where every
lane lies in a window, an address that is no multiple of the access size makes the checks answer ALIGN, for exactly the misaligned lanes.
R262: `pvaddr` raises PROT for exactly the lanes whose address is in neither of its windows. R258, R365: a lane that has no translation parks
on the request that is posted for it; the others are performed.
R225, R445: a PF address is a page of its own partition, wherever it lies. R358 to R361: a VF's address goes through its two stages: an
entry that is not valid, has a reserved bit, a KIND that its level does not allow or a misaligned address is a miss; every stage-1 table is
translated at stage 2 first; the leaves of both stages must permit the access. What a VF reaches of device, host or peer memory is what a
leaf of its own stage-2 tables names. That a page is aligned within its channel group is the model's reading (DEDUCED, log 92), and so is
the order of the two permissions (log 11). -/
def Obligations.MemoryFaultsBeforeEffect : Prop :=
  (∀ s x sh i c o mk f s1, memKind i = some mk → Clear s x i c o sh →
    checkLanes s (memLanes x i) (memAddr x i) mk.size mk.size mk.rights mk.hostOk = (.error f, s1) →
    exec i s = .next (takeFault s (passed x) (memFault x f i))) ∧
  (∀ s x addr n need hostOk ws, windowLanes x addr n = .ok ws → (∃ l ∈ x.lanes, addr l % n ≠ 0) →
    ∃ f s1, checkLanes s x addr n n need hostOk = (.error f, s1) ∧ f.code = fAlign ∧ s1 = s ∧
      ∀ l, l < 32 → lane f.lanes l = (lane x.tm l && decide (addr l % n ≠ 0))) ∧
  (∀ c o s x sh, let a := readAddr x o.a o.b o.c
    let bad := fun l => lane x.tm l = true ∧ (∀ va, window (a l) 1 ≠ .global va) ∧
      ∀ off, window (a l) 1 = .priv off → x.l.lpb.priv ≤ off
    Clear s x (.pvaddr c o) c o sh → (∃ l, bad l) →
    ∃ f, exec (.pvaddr c o) s = .next (takeFault s (passed x) f) ∧ f.code = fProt ∧ ∀ l, lane f.lanes l = true ↔ bad l) ∧
  (∀ s x sh i c o mk ls s1, memKind i = some mk → Clear s x i c o sh →
    checkLanes s (memLanes x i) (memAddr x i) mk.size mk.size mk.rights mk.hostOk = (.ok ls, s1) → missLanes ls ≠ [] →
    rangesHold s x (okLanes ls) mk.size = false → drainsOf s x.w.core x.uid x.k = [] →
    let q := postReqs s1 x.l.fn (dieOfCore x.w.core) mk.rights (missLanes ls)
    (performLanes q.2 { x.who s with pc := x.p.pc } x.l.job mk (memAddr x i) (memData x i) (okLanes ls)).stop = none →
    ∃ s' t d, exec i s = .next s' ∧ strand? s' x.uid x.k = some t ∧ d ∈ t.pends ∧ d.instr = i ∧ d.parked = q.1 ∧
      ∀ l, Tbl.has d.parked l = true ↔ ∃ e, (l, e) ∈ missLanes ls) ∧
  (∀ s core fn part va n need charge, isPf fn = true →
    let g := partSpan (partOf s part)
    let pa := pageToPa (partOf s part) (va / 49152)
    let t := translate s core fn part va n need charge
    (87381 * g.2 ≤ va / 49152 → t = (.error (.prot 7), s)) ∧
    (va / 49152 < 87381 * g.2 → t = (if removedPa s (pa + va % 49152) n then .error (.prot 5)
        else if s.retired.contains pa then .error (.prot 4) else .ok (.mem (pa + va % 49152)), s) ∧
      (g.1 + g.2 ≤ 192 → ∃ sl, g.1 ≤ sl ∧ sl < g.1 + g.2 ∧ sliceOfPa (pa + va % 49152) = some sl ∧ pa % 2 ^ 32 % 49152 = 0))) ∧
  (∀ e a, s2Table e = some a ↔ e.testBit 0 = true ∧ fld e 1 2 = 0 ∧ fld e 6 2 = 0 ∧ fld e 61 3 = 0 ∧ fld e 40 21 = 0 ∧
    a = fld e 8 32 * 256 ∧ a % 2 ^ 32 % 49152 = 0) ∧
  (∀ e i2, let good := e.testBit 0 = true ∧ fld e 6 2 = 0 ∧ fld e 61 3 = 0
    let leaf := fun l => S2.leaf l (e.testBit 3) (e.testBit 4) (e.testBit 5)
    let pa := fld e 8 32 * 256
    (¬ good → s2Leaf e i2 1 = .miss ∧ s2Leaf e i2 2 = .miss) ∧
    (good → (fld e 1 2 = 0 → s2Leaf e i2 1 = .miss ∧ s2Leaf e i2 2 = .miss) ∧
      (fld e 1 2 = 1 → fld e 40 21 ≠ 0 → s2Leaf e i2 1 = .miss ∧ s2Leaf e i2 2 = .miss) ∧
      (fld e 1 2 = 1 → fld e 40 21 = 0 →
        s2Leaf e i2 2 = (if pa % 2 ^ 32 % 49152 = 0 then leaf (.page pa) else .miss) ∧
        s2Leaf e i2 1 = (if pa % 2 ^ 32 % 301989888 = 0 then leaf (.page (pa + i2 * 49152)) else .miss)) ∧
      (fld e 1 2 = 2 → e.testBit 60 = false →
        s2Leaf e i2 2 = leaf (.host (fld e 8 52 * 49152)) ∧
        s2Leaf e i2 1 = leaf (.host (fld e 8 52 * 49152 + i2 * 49152))) ∧
      (fld e 1 2 = 3 → s2Leaf e i2 1 = .miss ∧ s2Leaf e i2 2 = .evicted))) ∧
  (∀ e i2, let good := e.testBit 0 = true ∧ fld e 6 2 = 0 ∧ fld e 61 3 = 0 ∧ fld e 53 8 = 0
    let a := fld e 8 45 * 256
    (¬ good ∨ 2 ≤ fld e 1 2 → ∀ n, s1Entry e i2 n = .miss) ∧
    (good → fld e 1 2 = 0 → (∀ n, n ≠ 2 → s1Entry e i2 n = if a % 49152 = 0 then .table (a / 49152) else .miss) ∧
      s1Entry e i2 2 = .miss) ∧
    (good → fld e 1 2 = 1 → s1Entry e i2 0 = .miss ∧
      s1Entry e i2 1 = (if a % 301989888 = 0 then .leaf (a / 49152 + i2) (e.testBit 3) (e.testBit 4) (e.testBit 5) else .miss) ∧
      s1Entry e i2 2 = if a % 49152 = 0 then .leaf (a / 49152) (e.testBit 3) (e.testBit 4) (e.testBit 5) else .miss)) ∧
  (∀ s rd vf vpn need, let root2 := (fnOf s vf).s2root.toNat
    let tab := fun page => (tablePa rd s.retired root2 page).1
    let q0 := (fnOf s vf).s1root.toNat % 2 ^ 53 / 49152
    let e := fun p k => rd (p + 8 * k)
    let e1 := fun p => s1Entry (e p (vpn / (6144 * 6144))) (vpn % 6144) 0
    let e2 := fun p => s1Entry (e p (vpn / 6144 % 6144)) (vpn % 6144) 1
    let e3 := fun p => s1Entry (e p (vpn % 6144)) (vpn % 6144) 2
    let w := (walkVf s rd vf vpn need).1
    let ends := fun ipa (r wr x : Bool) =>
      let bad := (need.r = true ∧ r = false) ∨ (need.w = true ∧ wr = false) ∨ (need.x = true ∧ x = false)
      let last' := (walk2 rd root2 ipa).1
      (bad → w = .error (.prot 2)) ∧
      (¬ bad → (last' = .miss → w = .error (.miss true 0 false (ipa * 49152))) ∧
        (last' = .evicted → w = .error (.miss true 1 false (ipa * 49152))) ∧
        ∀ l a b c, last' = .leaf l a b c → ∃ y : Xlat, w = .ok y ∧ y.leaf = l ∧ y.ipa = ipa ∧
          (y.r1, y.w1, y.x1) = (r, wr, x) ∧ (y.r2, y.w2, y.x2) = (a, b, c))
    (∀ err, tab q0 = .error err → w = .error err) ∧
    (∀ p0, tab q0 = .ok p0 → (e1 p0 = .miss → w = .error (.miss false 0 false (vpn * 49152))) ∧
      ∀ q1, e1 p0 = .table q1 → (∀ err, tab q1 = .error err → w = .error err) ∧
        ∀ p1, tab q1 = .ok p1 → (e2 p1 = .miss → w = .error (.miss false 0 false (vpn * 49152))) ∧
          (∀ ipa r wr x, e2 p1 = .leaf ipa r wr x → ends ipa r wr x) ∧
          ∀ q2, e2 p1 = .table q2 → (∀ err, tab q2 = .error err → w = .error err) ∧
            ∀ p2, tab q2 = .ok p2 → (e3 p2 = .miss → w = .error (.miss false 0 false (vpn * 49152))) ∧
              ∀ ipa r wr x, e3 p2 = .leaf ipa r wr x → ends ipa r wr x)) ∧
  (∀ s (y : Xlat) need off n, let bad := fun (r w x : Bool) =>
      (need.r = true ∧ r = false) ∨ (need.w = true ∧ w = false) ∨ (need.x = true ∧ x = false)
    let c := checkXlat s y need off n
    (bad y.r1 y.w1 y.x1 → c = .error (.prot 2)) ∧
    (¬ bad y.r1 y.w1 y.x1 → bad y.r2 y.w2 y.x2 → c = .error (.prot 3)) ∧
    (¬ bad y.r1 y.w1 y.x1 → ¬ bad y.r2 y.w2 y.x2 → y.retired = true → c = .error (.prot 4)) ∧
    (∀ loc, c = .ok loc → ¬ bad y.r1 y.w1 y.x1 ∧ ¬ bad y.r2 y.w2 y.x2 ∧ y.retired = false)) ∧
  (∀ s core fn part va n need charge loc s1, isPf fn = false → Tbl.find? (coreOf s core).tlb (tlbKey fn (va / 49152)) = none →
    Tbl.find? (dieOf s (dieOfCore core)).tlb (tlbKey fn (va / 49152)) = none →
    translate s core fn part va n need charge = (.ok loc, s1) →
    ∃ ipa l r w x, (walk2 (walkEntry s core fn) (fnOf s fn).s2root.toNat ipa).1 = .leaf l r w x ∧
      match l with
      | .page pa => loc = .mem (pa + va % 49152) ∧ pa ∉ s.retired
      | .host io => loc = .host (io + va % 49152)
      | .peer i v p => loc = .peer i v (p * 49152 + va % 49152)) ∧
  (∀ s vf die need st cause tb page, let same := fun r => sameReq r vf die st page = true
    (∀ r, s.reqs.find? (fun r => sameReq r vf die st page) = some r →
      ∃ s', postReq s vf die need st cause tb page = some (r.tag, s') ∧ s'.reqs.length = s.reqs.length ∧ s'.mem = s.mem) ∧
    ((∀ r ∈ s.reqs, ¬ same r) → (s.reqs.filter (fun r => r.die == die)).length < 128 →
      (s.reqs.filter (fun r => r.vf == vf)).length < 256 →
      ∃ tag s' q, postReq s vf die need st cause tb page = some (tag, s') ∧ s'.reqs = s.reqs ++ [q] ∧ q.tag = tag ∧ q.vf = vf ∧
        q.stage2 = st ∧ q.cause = cause ∧ q.table = tb ∧ q.page = page ∧ q.access = need.code ∧ q.popped = false ∧ s'.mem = s.mem) ∧
    ((∀ r ∈ s.reqs, ¬ same r) → (128 ≤ (s.reqs.filter (fun r => r.die == die)).length ∨
        256 ≤ (s.reqs.filter (fun r => r.vf == vf)).length) → postReq s vf die need st cause tb page = none))

/-- R239, R242 and R245: what one lane's access leaves of memory as its core sees it. A load changes no byte; a store leaves
its bytes, at the location it computes, and no other; a read-modify-write leaves its new bytes and no other. Promotion,
which acts on other cores, and stores already on their way stand apart. -/
def Obligations.AccessFrame : Prop :=
  ∀ s w job mk loc v, MemoryInv s → ScratchWf s w.uid → s.sends = [] → mk.acc.promote = false → NoWaiters s w.uid →
    TableInv (coreOf s w.core).l1 →
    let s' := (performMem s w job mk loc v).2
    (∀ q, (∀ i, i < mk.size → ¬ sameByte q (loc.plus i)) → memByte s' w.core w.uid q = memByte s w.core w.uid q) ∧
    (∀ a t, mk = .load a t → ∀ q, memByte s' w.core w.uid q = memByte s w.core w.uid q) ∧
    (∀ a n i, mk = .store a n → i < n → (a.wide loc = false ∨ a.rel = true) →
      memByte s' w.core w.uid (loc.plus i) = BitVec.ofNat 8 (v / 2 ^ (8 * i)))

/-- R239 and R245: a weak store, then a weak load of the same bytes by the same core in the same world, gives the value
stored. R268 and R269: a read-modify-write answers the old bytes of its home and leaves the function of them there. -/
def Obligations.MemoryAsWritten : Prop :=
  (∀ s w loc bs, MemoryInv s → ScratchWf s w.uid → (unit? s w.uid).isSome = true →
    (weakRead (weakWrite s w loc bs) w loc bs.length).1 = bs) ∧
  (∀ (s : State) (w : Who) (job : JobRef) (f : AtomFn) (t : Ty) (off v : Nat), ScratchWf s w.uid → NoWaiters s w.uid →
    let old := scratchGet s w.uid off (t.bits / 8)
    let r := performMem s w job (.rmw {} f t) (.scratch off) v
    r.1 = ofBytes old ∧
      ∀ i, i < t.bits / 8 → memByte r.2 w.core w.uid (.scratch (off + i)) =
        BitVec.ofNat 8 (atomNew f t (ofBytes old) v / 2 ^ (8 * i))) ∧
  ScratchInv State.reset ∧ (∀ s s', ScratchInv s → step s = .next s' → ScratchInv s')

/-- R262: `pvaddr` gives each lane of T the address unchanged from the global window, and PRIVBASE + item·PRIV + o from offset o of
the private window; another address of some lane raises PROT. R263: `pf` completes whatever its lanes name, and changes no byte.
R270 with R232 and R237: a `fence` performs the strand's waiting loads, then the release and the acquire half of its constant; one
that releases waits for the strand's drains (R214). R237: after a release wider than the core no byte of its L1 is dirty and no
store of it is under way; after an acquire its L1 holds only bytes written there. -/
def Obligations.AddressesAndOrder : Prop :=
  ((∀ c o s x sh (place : Nat → Nat), Clear s x (.pvaddr c o) c o sh →
    (∀ l ∈ x.lanes,
      (∃ va, window (readAddr x o.a o.b o.c l) 1 = .global va ∧ place l = va) ∨
      (∃ off, window (readAddr x o.a o.b o.c l) 1 = .priv off ∧ off < x.l.lpb.priv ∧
        place l = x.l.lpb.privbase + itemOf x.st l * x.l.lpb.priv + off)) →
    ∃ s', exec (.pvaddr c o) s = .next s' ∧ PcPast s' x ∧ Framed s s' x c sh o ∧
      GotVec s' x (.pvaddr c o) c o.d 2 (fun l => place l % 2 ^ 64)) ∧
  (∀ c o s x sh, let a := readAddr x o.a o.b o.c
    Clear s x (.pvaddr c o) c o sh →
    (∃ l ∈ x.lanes, (∀ va, window (a l) 1 ≠ .global va) ∧ ∀ off, window (a l) 1 = .priv off → x.l.lpb.priv ≤ off) →
    ∃ f, exec (.pvaddr c o) s = .next (takeFault s (passed x) f) ∧ f.code = fProt) ∧
  (∀ c l2 o s x sh, Clear s x (.pf c l2 o) c o sh →
    ∃ s', exec (.pf c l2 o) s = .next s' ∧ PcPast s' x ∧ OtherStrands s s' x.uid x.k ∧
      (MemoryInv s → s.sends = [] → TableInv (coreOf s x.w.core).l1 →
        ∀ q, memByte s' x.w.core x.uid q = memByte s x.w.core x.uid q)) ∧
  (∀ c o s x sh, Clear s x (.fence c o) c o sh →
    let a := constAcc o.c
    let s1 := forceLoads s x.uid x.k (fun _ => true)
    let s2 := if a.rel && !a.core then releaseCore s1 x.w.core else s1
    let s3 := if a.acq && !a.core then acquireCore s2 x.w.core else s2
    (a.rel = false ∨ drainsOf s x.w.core x.uid x.k = [] →
      exec (.fence c o) s = .next (issuedNow s x (.fence c o) c sh o s3) ∧ PcPast (issuedNow s x (.fence c o) c sh o s3) x) ∧
    (a.rel = true → drainsOf s x.w.core x.uid x.k ≠ [] →
      exec (.fence c o) s = .next (holdPath s (passed x) (passed x).st .hold)))) ∧
  (∀ s core,
    (∀ e ∈ (coreOf (releaseCore s core) core).l1, e.2.dirty = false) ∧
    (∀ x ∈ (releaseCore s core).sends, x.core ≠ core) ∧
    (∀ e ∈ (coreOf (acquireCore s core) core).l1, e.2.dirty = true) ∧
    (acquireCore s core).mem = s.mem)

/-- R83: what an issue whose effect beyond its strand is `g.s` leaves. Outside units nothing differs from `g.s` but what
counts the issue; no other strand differs from it; the strand holds `g.t` with the PC moved past the instruction, unless
the instruction moved it itself. -/
def Obligations.IssueEffect : Prop :=
  ∀ s x i c sh o g, (strand? g.s x.uid x.k).isSome = true → g.after = id →
    let s' := applyGo s x i c sh o g
    Outside g.s s' ∧ OtherStrands g.s s' x.uid x.k ∧
      ∃ t, strand? s' x.uid x.k = some t ∧ t.preds = g.t.preds ∧ t.convs = g.t.convs ∧ t.seed = g.t.seed ∧
        t.items = g.t.items ∧ (g.moved = false → ∀ q, g.t.paths[x.pi]? = some q →
          ∃ p ∈ t.paths, p.lanes = q.lanes ∧ p.pc = x.p.pc + 12)

/-! ## Barriers and copies -/

/-- R397 to R400: with its barrier addresses good and nothing holding it, `barinit` performs its strand's waiting loads and
writes the object, `arrive` does the same and performs its arrivals in lane order, `bwait` passes or holds its path, and `barinv` clears the object. -/
def Obligations.BarrierResults : Prop :=
  (∀ c o s x sh off, Clear s x (.barinit c o) c o sh → barLanes x o.a = .ok off →
    rangeHolds s x (off x.low) 16 = false → drainsOf s x.w.core x.uid x.k = [] →
    let n := readSrc x rd32 o.b x.low
    n ≠ 0 → n ≤ 65535 → exec (.barinit c o) s = .next (issuedNow s x (.barinit c o) c sh o
      (scratchWrite (forceLoads s x.uid x.k (fun _ => true)) x.uid (off x.low) (toBytes 16 (barBits ⟨n, n, 0, 0⟩))))) ∧
  (∀ c one xb o s x sh off S, Clear s x (.arrive c one xb o) c o sh → barLanes x o.a = .ok off →
    let ls := if one = true then [x.low] else x.lanes
    (∀ l ∈ ls, rangeHolds s x (off l) 16 = false) → drainsOf s x.w.core x.uid x.k = [] →
    arriveLanes x off (fun l => if xb then readSrc x rd32 o.b l else 0) (forceLoads s x.uid x.k (fun _ => true)) ls 0 =
      (S, none) →
    exec (.arrive c one xb o) s = .next (issuedNow s x (.arrive c one xb o) c sh o S)) ∧
  (∀ c seq o s x sh off, Clear s x (.bwait c seq o) c o sh → barLanes x o.a = .ok off →
    (∀ l ∈ x.lanes, rangeHolds s x (off l) 16 = false) → (∀ l ∈ x.lanes, (readBar s x.uid (off l)).expect ≠ 0) →
    let seen := fun l => observed seq (readSrc x rd32 o.b l) (readBar s x.uid (off l))
    ((∀ l ∈ x.lanes, seen l = true) →
      ∃ s', exec (.bwait c seq o) s = .next s' ∧ Framed s s' x c sh o ∧ PcPast s' x) ∧
    ((∃ l ∈ x.lanes, seen l = false) →
      ∃ s' t, exec (.bwait c seq o) s = .next s' ∧ Framed s s' x c sh o ∧ strand? s' x.uid x.k = some t ∧
        (∀ l, lane x.p.lanes l = true → LaneStands s' x l x.p.pc .bwait x.p.limit x.p.stack) ∧
        ∃ d ∈ t.pends, d.lanes = x.tm ∧ d.instr = .bwait c seq o ∧ ∀ l ∈ x.lanes, lane d.done l = seen l)) ∧
  (∀ c o s x sh off, Clear s x (.barinv c o) c o sh → barLanes x o.a = .ok off →
    barBound s x (off x.low) = false → rangeHolds s x (off x.low) 16 = false →
    exec (.barinv c o) s = .next (issuedNow s x (.barinv c o) c sh o
      (scratchWrite s x.uid (off x.low) (List.replicate 16 0))))

/-- R389 and R390: a barrier object reads back as it was written; an arrival takes one from PENDING and adds its bytes, a
landing takes bytes away; when both are zero the phase ends: SEQ moves on and PENDING starts again at EXPECT. -/
def Obligations.BarrierObject : Prop :=
  (∀ s w uid off (b : Bar), unit? s uid = some w → cellsWf 0 w.scratch = true → b.expect < 65536 → b.pend < 65536 → b.seq < 65536 → -(2 ^ 31) ≤ b.bytes →
    b.bytes < 2 ^ 31 → readBar (scratchPut s uid off (toBytes 16 (barBits b))) uid off = b) ∧
  (∀ (n : Nat) (b : Bar), b.expect ≠ 0 → b.pend ≠ 0 → b.bytes + n < 2 ^ 31 → arrival n b = .ok
    (if b.pend = 1 ∧ b.bytes + n = 0 then ⟨b.expect, b.expect, 0, (b.seq + 1) % 65536⟩
     else ⟨b.expect, b.pend - 1, b.bytes + n, b.seq⟩)) ∧
  (∀ (m : Nat) (b : Bar), b.expect ≠ 0 → -(2 ^ 31) ≤ b.bytes - m → landing m b = .ok
    (if b.pend = 0 ∧ b.bytes - m = 0 then ⟨b.expect, b.expect, 0, (b.seq + 1) % 65536⟩
     else ⟨b.expect, b.pend, b.bytes - m, b.seq⟩)) ∧
  (∀ (n : Nat) (b : Bar), (b.expect = 0 → ∃ r, arrival n b = .error r) ∧ (b.pend = 0 → ∃ r, arrival n b = .error r) ∧
    (2 ^ 31 ≤ b.bytes + n → ∃ r, arrival n b = .error r))

/-- R316 to R322 and R327: a copy whose checks and probes pass enters one copy for each lane; `cpseal` seals each lane's open
batch and gives its number. -/
def Obligations.CopyResults : Prop :=
  let enters := fun (i : Instr) (c : Ctl) (o : Ops) (s : State) (x : Ctx) (sh : Shape) (q : CopyAsk) =>
    ∀ ok s1, probeLanes s x q.need q.lanes = (.ok (ok, []), s1) → copyRoom s x q.lanes q.into = true →
      drainsOf s x.w.core x.uid x.k = [] → sourceHeld s x q = false →
      exec i s = .next (issuedKept s x i c sh o (enterAll x q.into (forceLoads s1 x.uid x.k (fun _ => true)) ok))
  (∀ c co by' sg o s x sh q, Clear s x (.cpin c co by' sg o) c o sh → askCpin c co by' sg o x s = .ok q →
    q.into = true ∧ enters (.cpin c co by' sg o) c o s x sh q) ∧
  (∀ c co by' sg o s x sh q, Clear s x (.cpout c co by' sg o) c o sh → askCpout c co by' sg o x s = .ok q →
    q.into = false ∧ enters (.cpout c co by' sg o) c o s x sh q) ∧
  (∀ c co by' o s x sh q, Clear s x (.cpmc c co by' o) c o sh → askCpmc c co by' o x s = .ok q →
    q.into = true ∧ enters (.cpmc c co by' o) c o s x sh q) ∧
  (∀ c o s x sh bar, Clear s x (.cpseal c o) c o sh → copyBar x true o.a = .ok bar → progressOf x (.cpseal c o) = none →
    (coreOf s x.w.core).seals.length + x.lanes.length ≤ 64 →
    let S := x.lanes.foldl (sealLane x bar) s
    IssuesGiving s x (.cpseal c o) c sh o S (dropProgress (strandIn S x) x (.cpseal c o)) o.d 1 (fun l => nth x.st.batchCtr l 0))

/-! ## Cairn memory -/

/-- R284 to R291: with the domain bound, the rights held and every lane good, each instruction of group 11 performs its lanes
in ascending order and gives D their names, pieces or results. -/
def Obligations.CairnInstructionResults : Prop :=
  let gives := fun (i : Instr) (c : Ctl) (o : Ops) (d : Opnd) (s0 s : State) (x : Ctx) (sh : Shape)
      (f : State → Nat → NmLane) =>
    let r := nmLanes f { s := s0 } x.lanes
    r.wait = false → r.stop = none →
      IssuesGiving s x i c sh o r.s (strandIn r.s x) d 4 (fun l => Tbl.getD r.vals l 0)
  (∀ c (ds : Fin 8) o s x sh k off, Clear s x (.nmlook c ds o) c o sh → nmDomain s x ds.val .intern none = .ok k →
    nmScratch x (readAddr x o.a o.b .null) = .ok off → nmHeld s x off = false →
    gives (.nmlook c ds o) c o o.d s s x sh (internLane x k false off)) ∧
  (∀ c (ds : Fin 8) o s x sh k off, Clear s x (.nmnode c ds o) c o sh → nmDomain s x ds.val .intern none = .ok k →
    nmScratch x (readAddr x o.a o.b .null) = .ok off → nmHeld s x off = false →
    gives (.nmnode c ds o) c o o.d s s x sh (internLane x k true off)) ∧
  (∀ c (ds : Fin 8) rt o s x sh k off, Clear s x (.nmreadLine c ds rt o) c o sh →
    nmDomain s x ds.val .none (slotOf rt o.b) = .ok k → nmScratch x (readAddr x o.a .null .null) = .ok off →
    nmHeld s x off = false →
    gives (.nmreadLine c ds rt o) c o .null (nmOrder x rt s) s x sh (readLineLane x k rt o.b off)) ∧
  (∀ c (ds : Fin 8) rt o s x sh k, Clear s x (.nmreadPiece c ds rt o) c o sh →
    nmDomain s x ds.val .none (slotOf rt o.a) = .ok k →
    gives (.nmreadPiece c ds rt o) c o o.d (nmOrder x rt s) s x sh (readPieceLane x k rt o)) ∧
  (∀ c (ds : Fin 8) rt o s x sh k, Clear s x (.nmwalk c ds rt o) c o sh →
    nmDomain s x ds.val .none (slotOf rt o.a) = .ok k →
    gives (.nmwalk c ds rt o) c o o.d (nmOrder x rt s) s x sh (walkLane x k rt o)) ∧
  (∀ c (ds : Fin 8) o s x sh k, Clear s x (.nmswap c ds o) c o sh → nmDomain s x ds.val .swap (some o.a) = .ok k →
    drainsOf s x.w.core x.uid x.k = [] →
    gives (.nmswap c ds o) c o o.d (nmOrder x true s) s x sh (swapLane x k o)) ∧
  (∀ c (ds : Fin 8) rt o s x sh k, Clear s x (.nmref c ds rt o) c o sh →
    nmDomain s x ds.val .none (slotOf rt o.a) = .ok k →
    gives (.nmref c ds rt o) c o (if rt then o.d else .null) (nmOrder x rt s) s x sh (refLane x k rt o)) ∧
  (∀ c (ds : Fin 8) o s x sh k, Clear s x (.nmdrop c ds o) c o sh → nmDomain s x ds.val .none none = .ok k →
    gives (.nmdrop c ds o) c o .null s s x sh (dropLane x k o))

/-- R292: with its range, domain, destinations, probes and room good, `nmcopy` enters one copy for each lane of T. -/
def Obligations.CairnCopyResult : Prop :=
  ∀ c (ds : Fin 8) rt o s x sh k dst ls s1,
    let range := copyRange x o.c
    let runs := nmRuns x (192 * range.2) dst
    let into := dst.filter (fun e => match e.2 with | .inr _ => true | .inl _ => false)
    Clear s x (.nmcopy c ds rt o) c o sh → range.2 ≠ 0 → range.2 ≤ 65536 →
    nmDomain s x ds.val .none (slotOf rt o.b) = .ok k →
    nmDests x (192 * range.2) (readAddr x o.a .null .null) = .ok dst →
    probeLanes s x .write runs = (.ok (ls, []), s1) → copyRoom s x runs false = true →
    copyRoom s x (runs.filter (fun q => into.any (fun e => e.1 == q.lane))) true = true →
    drainsOf s x.w.core x.uid x.k = [] →
    let r := nmLanes (nmcopyLane x k rt o.b range dst ls) { s := forceLoads s1 x.uid x.k (fun _ => true) } x.lanes
    r.wait = false → r.stop = none →
      IssuesGiving s x (.nmcopy c ds rt o) c sh o r.s (strandIn r.s x) .null 4 (fun l => Tbl.getD r.vals l 0)

/-- R277, R279 and R280: the name that an interning gives names exactly the line it was given, and has its kind; the zero
line has the name Z. R289: `nmswap` answers the old name of the slot, and puts the new one there only where it met the
expected one. R281: taking a reference adds one to the count and dropping one takes it away; a saturated count stays; at
zero the entry is gone. None of them changes another domain, of any partition. -/
def Obligations.CairnNames : Prop :=
  (∀ s k kind line n s', kind < 15 → (domain? s k).isSome = true → intern s k kind line = .name n s' →
    known s' k n = true ∧ lineFor s' k n = line ∧ (line = zeroLine → n = 0#128 ∧ s' = s) ∧
      (line ≠ zeroLine → nameKind n = kind)) ∧
  (∀ s k i e n old s', swapSlot s k i e n = some (old, s') → old = slotName s k i ∧
    (old = e → known s k n = true ∧ slotName s' k i = n) ∧ (old ≠ e → s' = s) ∧
    (∀ j, j ≠ i → slotName s' k j = slotName s k j)) ∧
  (∀ s k n e, n ≠ 0#128 → entry? s k n = some e →
    entry? (addRef s k n) k n = some { e with count := if e.count = satCount then e.count else e.count + 1 } ∧
    (1 < e.count → e.count ≠ satCount → entry? (dropRef s k n) k n = some { e with count := e.count - 1 }) ∧
    (e.count = satCount → dropRef s k n = s) ∧
    (e.count ≤ 1 → entry? (dropRef s k n) k n = none)) ∧
  (∀ (s : State) (k j : DomKey) n, j ≠ k → domain? (addRef s k n) j = domain? s j ∧ (∀ u, domain? (dropRefBy u s k n) j = domain? s j) ∧
    (∀ i e old s', swapSlot s k i e n = some (old, s') → domain? s' j = domain? s j ∧ s'.mem = s.mem) ∧
    ∀ kind line m s', intern s k kind line = .name m s' → domain? s' j = domain? s j ∧ s'.mem = s.mem)

/-! ## The matrix engine -/


/-- R206 to R213: the lanes of T sign an `mma`, and the last one expected appends it to its context's queue; `mld` and
`mdrain` issue with the tile and the drain they describe. -/
def Obligations.MatrixIssueResults : Prop :=
  (∀ c (k : Fin 8) co o s x sh, Clear s x (.mma c k co o) c o sh →
    let v := convOf x.st k.val
    let n := mctxOf x.w x.k x.st.quarter
    let p := mmaOpOf x co.val o
    let v2 := mmaSigned x k.val p o
    v.st ≠ .waiting → (v.st = .matrix → v.pc = x.p.pc) → mmaUnmapped x (.mma c k co o) v = 0 → mmaPending s x.w.core x.st.quarter n (accNum o.d) = false →
    signPending x.st (accNum o.d) (some k.val) = false → snapPending s x.w.core x.st.quarter n (accNum o.d) = false →
    (fullySigned x.st v2 = false → k.val < x.st.convs.length →
      ∃ s' t, exec (.mma c k co o) s = .next s' ∧ Framed s s' x c sh o ∧ PcPast s' x ∧ strand? s' x.uid x.k = some t ∧
        convOf t k.val = v2) ∧
    (∀ a b, fullySigned x.st v2 = true → mmaCheck s x.w.core x.w.lid x.l.lpb p v2.signed v2.rows = .ok (a, b) →
      queueFull s x.w.core x.st.quarter n = false →
      exec (.mma c k co o) s = .next (applyGo s x (.mma c k co o) c sh o
        { s := appendMma s x.w x.uid x.k x.st.quarter p v2 a b, t := clearConv { x.st with convs := setNth x.st.convs k.val v2 } k.val })) ∧
    (∀ code, fullySigned x.st v2 = true → mmaCheck s x.w.core x.w.lid x.l.lpb p v2.signed v2.rows = .error code →
      exec (.mma c k co o) s = .next (takeFault s (passed x) { code := code, lanes := x.tm }))) ∧
  (∀ s core lid l (p : MmaOp) (m : LaneMask) rows,
    let fits := fun (a b : Tdesc) => tdUse s core lid p.tdA = some a ∧ tdUse s core lid p.tdB = some b ∧
      a.space = some .scratch ∧ b.space = some .scratch ∧
      (∃ F ∈ [[Ty.e4m3, .e5m2], [.s8], [.f16, .bf16], [.bfp2, .bfp3, .bfp4, .bfp5, .bfp6, .bfp7, .bfp8]],
        a.fmt ∈ F ∧ b.fmt ∈ F) ∧
      (a.sdir = 1 ∨ a.sdir = 0 ∧ a.fmt.isBfp = false) ∧ (b.sdir = 2 ∨ b.sdir = 0 ∧ b.fmt.isBfp = false) ∧
      p.koff % 32 = 0 ∧ p.koff + 96 ≤ a.cols ∧ p.koff + 96 ≤ b.rows ∧ 0 ≤ p.noff ∧ p.noff + 64 ≤ b.cols ∧
      ∀ i ∈ lanesOf m, (nth rows i 0).toNat < a.rows
    let inside := fun (a b : Tdesc) =>
      ∀ e ∈ mmaRanges a b ((lanesOf m).map (fun i => (nth rows i 0).toNat)) p.koff p.noff.toNat, inScratch l e.1 e.2 = true
    (∀ a b, fits a b → inside a b → mmaCheck s core lid l p m rows = .ok (a, b)) ∧
    (∀ a b, fits a b → ¬ inside a b → mmaCheck s core lid l p m rows = .error fScratch) ∧
    ((∀ a b, ¬ fits a b) → mmaCheck s core lid l p m rows = .error fTd)) ∧
  (∀ c co o s x sh d ls s1, Clear s x (.mld c co o) c o sh → tileTd x s (.mld c co o) (tdNum o.a) = some d →
    d.fmt ∈ [Ty.f32, .f16, .bf16] →
    let off := coords x co.val
    locRanges s x d .read ((boxRows d off.1 off.2).map (·.2)) = (.ok ls, s1) → tileLocked s x (accNum o.d) = false →
    (∀ e ∈ ls, drainHolds s x [(0, e.2.2)] e.2.1 false = false ∧ readUncorr s x e.2.2 e.2.1 = false) →
    exec (.mld c co o) s = .next (issuedKept s x (.mld c co o) c sh o (mldTile s1 x d off ls (accNum o.d)))) ∧
  (∀ s x d (off : Nat × Int) ls tile, d.fmt.isBfp = false →
    let r := readRanges (forceLoads s x.uid x.k (fun q => ls.any (fun e => sameLine q e.2.2))) (x.who s) ls
    let at' := fun (s : State) tile i j =>
      tileGet (nth (quarterOf s x.w.core x.st.quarter).ctxs (mctxOf x.w x.k x.st.quarter) {}).tiles tile i j
    let addr := fun i j => d.base.toNat + (off.1 + i) * d.pitch + d.esz * (off.2 + (j : Nat)).toNat
    let value := fun bs => BitVec.ofNat 32 (roundF fmtF32 .rne ⟨0, 0, none⟩ (dec d.fmt (ofBytes bs % 2 ^ d.fmt.bits)))
    x.st.quarter < (coreOf r.2 x.w.core).quarters.length →
    mctxOf x.w x.k x.st.quarter < (quarterOf r.2 x.w.core x.st.quarter).ctxs.length →
    let t := mldTile s x d off ls tile
    ∀ (i j : Nat), i < 32 → j < 64 →
      (off.1 + i < d.rows ∧ 0 ≤ off.2 + j ∧ off.2 + j < d.cols →
        at' t tile i j = value ((List.range d.esz).map (fun k => byteAt r.1 (addr i j + k))) ∧
        (strand? s x.uid x.k = some x.st → x.st.pends = [] → d.space = some .scratch →
          locRanges s x d .read ((boxRows d off.1 off.2).map (·.2)) = (.ok ls, s) →
          at' t tile i j = value (scratchGet s x.uid (scratchOff (addr i j)) d.esz))) ∧
      (¬ (off.1 + i < d.rows ∧ 0 ≤ off.2 + j ∧ off.2 + j < d.cols) → at' t tile i j = 0) ∧
      ∀ other, other ≠ tile → at' t other i j = at' r.2 other i j) ∧
  (∀ x r o d (off : Nat × Int) ls bar id, d.fmt.isBfp = false →
    let D := drainOf x r o d off ls bar id
    let sc := (readPair x o.b).base
    D.tile = accNum o.a ∧ D.td = d ∧ D.rnd = r ∧ D.seed = (seeded x r).st.seed ∧ D.bar = bar ∧ D.snapshot = none ∧ D.early = [] ∧
    D.sA = BitVec.ofNat 32 sc.toNat ∧ D.sB = BitVec.ofNat 32 (sc.toNat / 2 ^ 32) ∧
    ∀ (i j : Nat) loc, i < 32 → j < 64 → ((64 * i + j, loc) ∈ D.dst ↔
      (off.1 + i < d.rows ∧ 0 ≤ off.2 + j ∧ off.2 + j < d.cols) ∧
        locAt ls (d.base.toNat + (off.1 + i) * d.pitch + d.esz * (off.2 + j).toNat) = some loc)) ∧
  (∀ c r co o s x sh d ls s1 bar, Clear s x (.mdrain c r co o) c o sh →
    tileTd x s (.mdrain c r co o) (tdNum o.d) = some d → d.fmt ∈ drainFormats →
    let off := coords x co.val
    locRanges s x d .rmw ((boxRows d off.1 off.2).map (·.2)) = (.ok ls, s1) → drainBar x o.c = .ok bar →
    tileBusy s x (accNum o.a) = false → (quarterOf s x.w.core x.st.quarter).drains.length < 2 →
    exec (.mdrain c r co o) s = .next (applyGo s x (.mdrain c r co o) c sh o
      { s := setQuarter (fresh s1).2 x.w.core x.st.quarter (fun z =>
          { z with drains := z.drains ++ [drainOf x r o d off ls bar s1.serial] })
        t := dropProgress (seeded x r).st x (.mdrain c r co o) }))

/-- R211: `mzero` clears its tile and no other; `mput` writes its lanes' columns and nothing else; `mmov` reads them. -/
def Obligations.TileResults : Prop :=
  let tiles := fun (s : State) (x : Ctx) => (nth (quarterOf s x.w.core x.st.quarter).ctxs (mctxOf x.w x.k x.st.quarter) {}).tiles
  (∀ c o s x sh, Clear s x (.mzero c o) c o sh → tileLocked s x (accNum o.d) = false →
    ∃ s', exec (.mzero c o) s = .next s' ∧ PcPast s' x ∧ OtherStrands s s' x.uid x.k ∧ s'.mem = s.mem ∧
      ∀ tile i j, i < 32 → j < 64 → tileGet (tiles s' x) tile i j =
        if tile = accNum o.d then 0 else tileGet (tiles s x) tile i j) ∧
  (∀ c t o s x sh, Clear s x (.mput c t o) c o sh → tileLocked s x (accNum o.d) = false → colOf o.b + t.words ≤ 64 →
    x.st.quarter < (coreOf s x.w.core).quarters.length →
    mctxOf x.w x.k x.st.quarter < (quarterOf s x.w.core x.st.quarter).ctxs.length →
    ∃ s', exec (.mput c t o) s = .next s' ∧ PcPast s' x ∧ OtherStrands s s' x.uid x.k ∧ s'.mem = s.mem ∧
      ∀ tile i j, i < 32 → j < 64 → tileGet (tiles s' x) tile i j =
        if tile = accNum o.d ∧ lane x.tm i = true ∧ colOf o.b ≤ j ∧ j < colOf o.b + t.words then
          BitVec.ofNat 32 (readSrc x (.int t.words false) o.a i / 2 ^ (32 * (j - colOf o.b)))
        else tileGet (tiles s x) tile i j) ∧
  (∀ c t o s x sh, Clear s x (.mmov c t o) c o sh → tileBusy s x (accNum o.a) = false →
    ∃ s', exec (.mmov c t o) s = .next s' ∧ PcPast s' x ∧ Framed s s' x c sh o ∧
      GotVec s' x (.mmov c t o) c o.d t.words (fun l => (List.range t.words).foldl (fun a j =>
        a + (tileGet (tiles s x) (accNum o.a) l (colOf o.b + j)).toNat * 2 ^ (32 * j)) 0))

/-! ## Launches, tensor descriptors, counters -/

/-- R311 to R314: `launch` performs its lanes and gives each a handle; `trigger` releases and counts the unit once; `tsig`
decrements the tasks of its lanes; `cancel` ends what it names. That the lanes a held `launch` has performed keep their handles and are
not performed again, also after a page request, is the model's reading (DEDUCED, log 71). -/
def Obligations.LaunchGroupResults : Prop :=
  (∀ c o s x sh, Clear s x (.launch c o) c o sh →
    (∀ l ∈ x.lanes, ∃ va, window (readAddr x o.a .null .null l) 192 = .global va) →
    drainsOf s x.w.core x.uid x.k = [] →
    let r0 : LaneRun := match progressOf x (.launch c o) with
      | some d => pendRun s d
      | none => { s := s }
    let r := x.lanes.foldl (launchLane x (readAddr x o.a .null .null)) { r0 with s := forceLoads s x.uid x.k (fun _ => true) }
    r.held = false → r.parked = [] →
    IssuesGiving s x (.launch c o) c sh o r.s (dropProgress (strandIn r.s x) x (.launch c o)) o.d 1
      (fun l => Tbl.getD r.vals l 0)) ∧
  (∀ c o s x sh, Clear s x (.trigger c o) c o sh → drainsOf s x.w.core x.uid x.k = [] →
    let S := releaseCore (forceLoads s x.uid x.k (fun _ => true)) x.w.core
    let S' := if x.w.triggered then S else countTrigger (setUnit S x.uid (fun w => { w with triggered := true })) x.w.lid
    x.w.triggered = true ∨ rqFits S' = true →
    exec (.trigger c o) s = .next (issuedNow s x (.trigger c o) c sh o S')) ∧
  (∀ c o s x sh, Clear s x (.tsig c o) c o sh → (∀ l ∈ x.lanes, readSrc x rd32 o.b l < 4096) →
    drainsOf s x.w.core x.uid x.k = [] →
    let old : LaneMask := match progressOf x (.tsig c o) with | some d => d.done | none => 0
    let signal := fun (s : State) (l : Nat) =>
      taskDecrement (releaseCore s x.w.core) x.l.fn (readSrc x rd32 o.b l) (x.w.core / 2)
    let ls := x.lanes.filter (fun l => !lane old l)
    let s0 := forceLoads s x.uid x.k (fun _ => true)
    (∀ n, n < ls.length → rqFits ((ls.take (n + 1)).foldl signal s0) = true) →
    exec (.tsig c o) s = .next (issuedKept s x (.tsig c o) c sh o (ls.foldl signal s0))) ∧
  (∀ c lv o s x sh, Clear s x (.cancel c lv o) c o sh →
    ∃ act : State → State, exec (.cancel c lv o) s = .next (applyGo s x (.cancel c lv o) c sh o
        { s := s, t := x.st, after := act }) ∧
      (lv = .launch → act = fun s => cancelLaunch s (cancelTarget x o) .cancelled) ∧
      (lv = .job → act = fun s => cancelJob s x.l.job .cancelled) ∧
      (∀ g n, x.l.graph = some (g, n) → (lv = .graph → act = fun s => cancelGraph s x.l.job g) ∧
        (lv = .phase → act = fun s => cancelPhase s x.l.job)) ∧
      (x.l.graph = none → lv = .graph ∨ lv = .phase → act = fun s => cancelLaunch s x.w.lid .cancelled))

/-- R353 to R355: `tdset` reads a descriptor into its entry, `tdmod` changes one field of it, `tdinv` invalidates the
launch's entries; `cread` gives every lane of T the value it reads. -/
def Obligations.DescriptorAndCounterResults : Prop :=
  (∀ c o s x sh l loc ls s1 d, Clear s x (.tdset c o) c o sh →
    checkLanes s { x with tm := maskOf (· == x.low) } (readAddr x o.a .null .null) 32 32 .read true = (.ok ls, s1) →
    missLanes ls = [] → okLanes ls = [(l, loc)] → rangesHold s x [(l, loc)] 32 = false →
    drainHolds s x [(l, loc)] 32 false = false → readUncorr s1 x loc 32 = false →
    let r := weakRead (forceLoads s1 x.uid x.k (fun q => sameLine q loc)) (x.who s) loc 32
    tdescOf (ofBytes r.1) = some d → d.valid = true → tdHeld s x.w.core x.w.lid (tdNum o.d) = false →
    exec (.tdset c o) s = .next (issuedNow s x (.tdset c o) c sh o (putTd r.2 x.w.core (tdNum o.d) ⟨d, x.w.lid, true⟩))) ∧
  (∀ c f o s x sh d e, Clear s x (.tdmod c f o) c o sh → tdUse s x.w.core x.w.lid (tdNum o.d) = some d →
    tdChange d f (tdValue x f o) = some e → e.valid = true →
    ∃ s', exec (.tdmod c f o) s = .next s' ∧ PcPast s' x ∧ OtherStrands s s' x.uid x.k ∧ s'.mem = s.mem ∧
      tdUse s' x.w.core x.w.lid (tdNum o.d) = some e ∧
      ∀ n, n ≠ tdNum o.d → Tbl.find? (coreOf s' x.w.core).td n = Tbl.find? (coreOf s x.w.core).td n) ∧
  (∀ c all o s x sh, Clear s x (.tdinv c all o) c o sh →
    ∃ s', exec (.tdinv c all o) s = .next s' ∧ PcPast s' x ∧ OtherStrands s s' x.uid x.k ∧ s'.mem = s.mem ∧
      ∀ n, tdUse s' x.w.core x.w.lid n =
        if all = true ∨ n = tdNum o.d then none else tdUse s x.w.core x.w.lid n) ∧
  (∀ c sp o s x sh v, Clear s x (.cread c sp o) c o sh → creadValue s x sp o.b = some v →
    ∃ s', exec (.cread c sp o) s = .next s' ∧ PcPast s' x ∧
      GotVec s' x (.cread c sp o) c o.d (match sp with | .record _ => 4 | _ => 2) (fun _ => v))

/-! ## System instructions -/

/-- R434 to R442, R295: in a privileged launch, with their operands good, the system instructions have their effects. -/
def Obligations.SystemInstructionResults : Prop :=
  (∀ c o s x sh r, Clear s x (.sget c o) c o sh → sysSel (lowB x o) = some r →
    ∃ s', exec (.sget c o) s = .next s' ∧ PcPast s' x ∧ Framed s s' x c sh o ∧
      GotVec s' x (.sget c o) c o.d 2 (fun _ => sysRead s x.l.part r)) ∧
  (∀ c o s x sh r S, Clear s x (.sset c o) c o sh → sysSel (lowB x o) = some r →
    sysWrite s x.l.part r (readSrc x (.int 2 false) o.d x.low) = some S →
    exec (.sset c o) s = .next (applyGo s x (.sset c o) c sh o
      { s := S, t := x.st, after := fun s => if r.reg = 0 then recheckWaiting s r.core else s })) ∧
  (∀ c o s x sh, Clear s x (.zsig c o) c o sh → x.l.sweep = true →
    exec (.zsig c o) s = .next (applyGo s x (.zsig c o) c sh o
      { s := setQuarter s x.w.core x.st.quarter (fun u => { u with zsig := some (u.zsig.getD false || strandWords x.st) })
        t := endAll x.st, moved := true, cur := .next, close := true
        after := fun s => checkSig (tryMatrix s x.uid x.k) x.w.core x.st.quarter })) ∧
  (∀ c t o s x sh, Clear s x (.tlbinv c t o) c o sh → lowB x o ≤ 127 ∨ t = .all →
    let page := readAddr x o.a .null .null x.low / pageBytes
    copiesHold (dropXlat s t (lowB x o) page) t (lowB x o) page = false →
    exec (.tlbinv c t o) s = .next (issuedOver s x (.tlbinv c t o) c sh o (dropXlat s t (lowB x o) page))) ∧
  (∀ c o s x sh, Clear s x (.wsel c o) c o sh → progressOf x (.wsel c o) = none →
    let v := lowB x o
    let w := fld v 13 4
    fld v 17 15 = 0 → fld v 0 9 ≤ 383 → (coreOf s (fld v 0 9)).wTgt.length = 4 →
    (∀ q, q < 4 → v / 2 ^ (9 + q) % 2 = 1 → nth (coreOf s (fld v 0 9)).wCur q 0 = w) →
    ∃ s', exec (.wsel c o) s = .next s' ∧ PcPast s' x ∧ GotVec s' x (.wsel c o) c o.d 1 (fun _ => 0) ∧
      ∀ q, q < 4 → v / 2 ^ (9 + q) % 2 = 1 → nth (coreOf s' (fld v 0 9)).wTgt q 0 = w) ∧
  (∀ c (ds : Fin 8) o s x sh k loc s1 n, Clear s x (.nmsync c ds o) c o sh →
    fld (readSrc x rd32 o.c x.low) 24 7 = 0 → nmDomain s x ds.val .none none = .ok k →
    blockLoc x s (readSrc x (.int 2 false) o.b x.low) 16 16 .write = (.ok loc, s1) →
    nameArg x o.a x.low = some n → known s1 k n = true →
    exec (.nmsync c ds o) s = .next (issuedOver s x (.nmsync c ds o) c sh o
      (let S := (fresh (addRef s1 k n)).2
       { S with syncs := S.syncs ++ [{ id := (addRef s1 k n).serial, part := k.part, dom := k.dom, root := n, status := loc
                                       handle := readSrc x rd32 o.c x.low, start := S.time, issuer := x.l.part
                                       offers := if n = 0 then [] else [n] }] })))

/-- R439: `cmaint` writes back the core's L1, also drops it, or drops the L2 sectors of one page; where the core has no store on its
way, no byte of memory that it sees changes. That the page is counted by the offset within the channel group is the model's reading
(DEDUCED, log 93). -/
def Obligations.CacheMaintenanceResults : Prop :=
  ∀ c t o s x sh, Clear s x (.cmaint c t o) c o sh →
    let wb := l1WriteBack (performSends s (fun y => y.core == x.w.core)) x.w.core (fun _ => true)
    let a := readAddr x o.a .null .null x.low
    let lo := a / 2 ^ 32 * 2 ^ 32 + a % 2 ^ 32 / pageBytes * pageBytes
    (t = .l1wb → exec (.cmaint c t o) s = .next (issuedOver s x (.cmaint c t o) c sh o wb)) ∧
    (t = .l1inv → exec (.cmaint c t o) s = .next (issuedOver s x (.cmaint c t o) c sh o
      (setCore wb x.w.core (fun k => { k with l1 := [], cairn := [] })))) ∧
    (t = .l2page → a < 2 ^ 40 → (sliceOfPa a).isSome = true → exec (.cmaint c t o) s = .next
      (issuedOver s x (.cmaint c t o) c sh o
        (l2Drop s (pageSectors lo)))) ∧
    (MemoryInv s → s.sends = [] → TableInv (coreOf s x.w.core).l1 →
      ∀ S ∈ [wb, setCore wb x.w.core (fun k => { k with l1 := [], cairn := [] }), l2Drop s (pageSectors lo)],
        ∀ q, memByte S x.w.core x.uid q = memByte s x.w.core x.uid q)

/-- R440: `halt` of an unbound VF, a resume, and a halt that starts. That a resume answers DONE for an unbound VF too is the model's
reading (DEDUCED, log 95). -/
def Obligations.HaltResults : Prop :=
  ∀ c bnd gang o s x sh loc s1, Clear s x (.halt c bnd gang o) c o sh →
    let v := lowB x o
    let vf := fld v 0 7
    let i : Instr := .halt c bnd gang o
    fld v 8 24 = 0 → blockLoc x s (readAddr x o.a .null .null x.low) 64 64 .rmw = (.ok loc, s1) →
    (∀ h ∈ s1.halts, h.vf ≠ vf) →
    let r := strongRead s1 (x.who s1) loc 64
    let b := ofBytes r.1
    let part := (fnOf r.2 vf).part
    ((fnOf r.2 vf).bound = false → fld v 7 1 = 0 → exec i s = .next (issuedOver s x i c sh o (putStatus r.2 loc haltUnbound 0 []))) ∧
    (fld v 7 1 = 1 → exec i s = .next (issuedOver s x i c sh o
      (putStatus (setFn r.2 vf (fun f => { f with halted := false })) loc haltDone 0 []))) ∧
    ((fnOf r.2 vf).bound = true → fld v 7 1 = 0 → exec i s = .next (issuedOver s x i c sh o
      (startHalt (putBlock r.2 loc 0 (toBytes 4 0)) part vf bnd (gang && wholeDies r.2 part) loc
        (deadlineOf (fld b 64 32)) (if fld b 96 32 < 128 then some (fld b 96 32) else none))))

/-- R441: `bulk` writes STATE 3 for a command that its engine may not take, else hands the block to the engine of its die. That an OP or
VF out of range answers STATE 3, and that the engine is one of the issuing core's die, are the model's readings (DEDUCED, log 99). -/
def Obligations.BulkResults : Prop :=
  ∀ c o s x sh loc s1 (i : Instr), i = .bulkEvict c o ∨ i = .bulkReturn c o → Clear s x i c o sh →
    blockLoc x s (readAddr x o.a .null .null x.low) 64 64 .rmw = (.ok loc, s1) →
    let r := strongRead s1 (x.who s1) loc 64
    let v := ofBytes r.1
    let die := dieOfCore x.w.core
    let b : BulkOp := { engine := fld v 16 8, part := x.l.part, evict := fld v 0 8 == 1, vf := fld v 8 8, rwx := fld v 24 3
                        ipa := fld v 64 64, frame := fld v 128 64, io := fld v 192 64, slot := fld v 256 16, block := loc }
    let good := b.engine ≤ 6 ∧ nth (dieOf r.2 die).engines b.engine none = some x.l.part ∧
      (fld v 0 8 = 1 ∨ fld v 0 8 = 2) ∧ b.vf ≤ 127
    (¬ good → exec i s = .next (issuedOver s x i c sh o (putState r.2 b bulkBad))) ∧
    (good → exec i s = .next (issuedOver s x i c sh o (bulkPump die b.engine 64
      (setDie (putState r.2 b 0) die (fun d => { d with bulk := d.bulk ++ [b] })))))

/-- R434 to R436: a system register reads back what was written to it, without the bits that are reserved. R228: targets of ARRAY_SPLIT
that break its rules are ignored, and its current fields keep. R382: a write of WORLD_MAP replaces its targets alone. R414: a LANE_RATIO of
3, and R436 a SAVE_AREA while the VF holds an image, are ignored. A write reaches no register of another core, cluster, VF or partition. -/
def Obligations.SystemRegisterReadBack : Prop :=
  ∀ s part core vf v,
    (∀ S, sysWrite s part ⟨0, core, vf⟩ v = some S →
      let ok := 4 * fld v 0 4 + fld v 4 6 + fld v 10 6 = 48 ∧ 8 ≤ fld v 10 6 ∧ fld v 0 4 ≤ 10
      (ok → sysRead S part ⟨0, core, vf⟩ % 65536 = v % 65536 ∧ (coreOf S core).xq = (coreOf s core).xq ∧
        (coreOf S core).sc = (coreOf s core).sc ∧ (coreOf S core).lc = (coreOf s core).lc) ∧
      (¬ ok → S = s)) ∧
    (∀ S, sysWrite s part ⟨1, core, vf⟩ v = some S →
      (v % 4 ≠ 3 → sysRead S part ⟨1, core, vf⟩ % 4 = v % 4) ∧ (v % 4 = 3 → S = s)) ∧
    (∀ S, sysWrite s part ⟨3, core, vf⟩ v = some S →
      sysRead S part ⟨3, core, vf⟩ + nibbles (coreOf s core).wTgt = v % 65536 + sysRead s part ⟨3, core, vf⟩ ∧
      ∀ q, q < 4 → nth (coreOf S core).wTgt q 0 = fld v (4 * q) 4) ∧
    (∀ S, sysWrite s part ⟨13, core, vf⟩ v = some S → sysRead S part ⟨13, core, vf⟩ = v % 4) ∧
    (∀ S, sysWrite s part ⟨14, core, vf⟩ v = some S → sysRead S part ⟨14, core, vf⟩ = v % 8) ∧
    (∀ S, sysWrite s part ⟨15, core, vf⟩ v = some S → sysRead S part ⟨15, core, vf⟩ = v % 512) ∧
    (sysWrite s part ⟨2, core, vf⟩ v = none) ∧
    (∀ S, sysWrite s part ⟨12, core, vf⟩ v = some S →
      ((∀ e ∈ s.images, e.2.fn ≠ vf) → sysRead S part ⟨12, core, vf⟩ = v % 2 ^ 64) ∧
      ((∃ e ∈ s.images, e.2.fn = vf) → S = s)) ∧
    (∀ n S, 4 ≤ n → n ≤ 11 → (fnOf s vf).cairnBind.length = 8 → sysWrite s part ⟨n, core, vf⟩ v = some S →
      sysRead S part ⟨n, core, vf⟩ = v % 2048) ∧
    (∀ n S, sysWrite s part ⟨n, core, vf⟩ v = some S → S.mem = s.mem ∧ (∀ p, p ≠ part → partOf S p = partOf s p) ∧
      (∀ f, f ≠ vf → fnOf S f = fnOf s f) ∧ (∀ c, c ≠ core → coreOf S c = coreOf s c) ∧
      ∀ c, c ≠ core / 2 → clusterOf S c = clusterOf s c)

/-! ## Reeve code -/

/-- R335 and R336: the arithmetic of a reeve, on 64-bit registers of which g0 reads 0 and discards writes. -/
def Obligations.ReeveArithmeticResults : Prop :=
  let A := fun (o : RvOps) (c : RCall) => greg c o.a
  let B := fun (o : RvOps) (c : RCall) => greg c o.b
  (∀ o, RvResult (.rvLi o) o.d (fun _ => o.imm.signExtend 64)) ∧
  (∀ o, RvResult (.rvMov o) o.d (fun c => A o c)) ∧
  (∀ o, RvResult (.rvAdd o) o.d (fun c => A o c + B o c)) ∧
  (∀ o, RvResult (.rvSub o) o.d (fun c => A o c - B o c)) ∧
  (∀ o, RvResult (.rvAnd o) o.d (fun c => A o c &&& B o c)) ∧
  (∀ o, RvResult (.rvOr o) o.d (fun c => A o c ||| B o c)) ∧
  (∀ o, RvResult (.rvXor o) o.d (fun c => A o c ^^^ B o c)) ∧
  (∀ o, RvResult (.rvShl o) o.d (fun c => BitVec.ofNat 64 ((A o c).toNat * 2 ^ ((B o c).toNat % 64)))) ∧
  (∀ o, RvResult (.rvShr o) o.d (fun c => BitVec.ofNat 64 ((A o c).toNat / 2 ^ ((B o c).toNat % 64)))) ∧
  (∀ o, RvResult (.rvMul o) o.d (fun c => BitVec.ofNat 64 ((A o c).toNat * (B o c).toNat))) ∧
  (∀ o, RvResult (.rvMin o) o.d (fun c => if (A o c).toInt ≤ (B o c).toInt then A o c else B o c)) ∧
  (∀ o, RvResult (.rvMax o) o.d (fun c => if (B o c).toInt ≤ (A o c).toInt then A o c else B o c)) ∧
  (∀ o, RvResult (.rvSlt o) o.d (fun c => if (A o c).toInt < (B o c).toInt then 1 else 0)) ∧
  (∀ o, RvResult (.rvSltn o) o.d (fun c => if (A o c).toNat < (B o c).toNat then 1 else 0)) ∧
  (∀ o, RvResult (.rvSeq o) o.d (fun c => if A o c = B o c then 1 else 0)) ∧
  (∀ o, RvResult (.rvSel o) o.d (fun c => if greg c o.d ≠ 0 then A o c else B o c)) ∧
  (∀ o, RvResult (.rvAddi o) o.d (fun c => A o c + o.imm.signExtend 64)) ∧
  (∀ o, RvResult (.rvAndi o) o.d (fun c => A o c &&& o.imm.signExtend 64))

/-- R336, R338, R340, R344 and R345: counters, the commons, loops, branches and the end of a call; what is over the allowance
ends it. -/
def Obligations.ReeveControlAndCommons : Prop :=
  (∀ o s cl c, RvStands s cl c 3 →
    ∃ c', exec (.rvCget o) s = .next (setCall s cl c') ∧ RvTook c c' o.d (cgetValue c o) 3) ∧
  (∀ o s cl c, let off := rvOffset s c o
    RvStands s cl c (1 + commonsCost s cl off false) →
    ∃ c' t, exec (.rvCld o) s = .next t ∧ (clusterOf t cl).reeve.call = some c' ∧
      RvTook c c' o.d (commonsGet s off) (1 + commonsCost s cl off false) ∧ t.commons = s.commons) ∧
  (∀ o s cl c, let off := rvOffset s c o
    RvStands s cl c (1 + commonsCost s cl off true) →
    ∃ c' t, exec (.rvCst o) s = .next t ∧ (clusterOf t cl).reeve.call = some c' ∧
      RvTook c c' 0 0 (1 + commonsCost s cl off true) ∧
      (∀ a, commonsGet t a = if a = off then greg c o.d else commonsGet s a)) ∧
  (∀ o s cl c, let off := rvOffset s c o
    RvStands s cl c (1 + commonsCost s cl off true) →
    ∃ c' t, exec (.rvCcas o) s = .next t ∧ (clusterOf t cl).reeve.call = some c' ∧
      RvTook c c' o.d (commonsGet s off) (1 + commonsCost s cl off true) ∧
      (∀ a, commonsGet t a =
        if a = off ∧ commonsGet s off = greg c o.d then greg c o.b else commonsGet s a)) ∧
  (∀ o s cl c, RvStands s cl c 1 → let n := (min (max (greg c o.a).toInt 0) o.imm.toInt).toNat
    ∃ c', exec (.rvLoop o) s = .next (setCall s cl c') ∧ greg c' o.d = 0 ∧ (∀ k, k ≠ o.d → greg c' k = greg c k) ∧
      (n ≠ 0 → c'.pc = c.pc + 1 ∧ c'.loops = ⟨c.pc + 1, o.d.val, n⟩ :: c.loops) ∧
      (n = 0 → c'.loops = c.loops ∧ c'.pc = matchLend (c.routine.code.drop (c.pc + 1)) (c.pc + 1) 0 + 1)) ∧
  (∀ o s cl c (d : Fin 16) start left rest, RvStands s cl c 1 → c.loops = ⟨start, d.val, left⟩ :: rest →
    ∃ c', exec (.rvLend o) s = .next (setCall s cl c') ∧ greg c' d = (if d = 0 then 0 else greg c d + 1) ∧
      (∀ k, k ≠ d → greg c' k = greg c k) ∧
      (1 < left → c'.pc = start ∧ c'.loops = ⟨start, d.val, left - 1⟩ :: rest) ∧
      (left ≤ 1 → c'.pc = c.pc + 1 ∧ c'.loops = rest)) ∧
  (∀ o s cl c, RvStands s cl c 1 → ∃ c', exec (.rvBf o) s = .next (setCall s cl c') ∧ c'.g = c.g ∧
    c'.pc = if greg c o.a = 0 then ((c.pc : Int) + o.imm.toInt).toNat else c.pc + 1) ∧
  (∀ o s cl c, RvStands s cl c 1 → ∃ c', exec (.rvJf o) s = .next (setCall s cl c') ∧ c'.g = c.g ∧
    c'.pc = ((c.pc : Int) + o.imm.toInt).toNat) ∧
  (∀ o s cl c, RvStands s cl c 1 → o.d.val < c.dx.length → ∃ c', exec (.rvDset o) s = .next (setCall s cl c') ∧
    c'.g = c.g ∧ c'.pc = c.pc + 1 ∧ (∀ k, nth c'.dx k 0 = if k = o.d.val then greg c o.a else nth c.dx k 0)) ∧
  (∀ o s cl c, RvStands s cl c 1 → exec (.rvDone o) s = .next (endCall s cl { c with used := c.used + 1 })) ∧
  (∀ i s cl c, (reeveUses i).isSome = true → s.actor = .reeve cl → (clusterOf s cl).reeve.call = some c →
    c.routine.allow ≤ c.used → exec i s = .next (overrun s cl c))

/-! ## Words and their instructions -/

/-- Decoding the encoding of a well-formed instruction gives it back, with every operand at every value the encoding admits;
and what decodes is well-formed and is the encoding of nothing else (R63, R80, R82, R335). -/
def Obligations.DecodeOfEncode : Prop :=
  (∀ i, (opcode i).isSome = true → wellFormed i = true → decode (encode i) = .ok (sameWord i)) ∧
  (∀ i, (reeveOp i).isSome = true → wellFormed i = true → decodeReeveBytes (encode i) = .ok i) ∧
  (∀ bs i, decode bs = .ok i → wellFormed i = true ∧ (opcode i).isSome = true ∧ encode i = bs.take 12)

/-- Words that the spec writes out decode to the instructions it gives for them. -/
def Obligations.SpecWordsDecode : Prop :=
  let word := fun (hi mid lo : Nat) => (decode (toBytes 12 (hi * 2 ^ 64 + mid * 2 ^ 32 + lo))).toOption
  let c : Ctl := ⟨false, 7, 0, false, false, false, false⟩
  word 0x00080202 0x00050003 0x00000064 =
    some (.iadd ⟨false, 2, 0, false, false, false, false⟩ .s32 false ⟨.vec 5, .vec 3, .lit 100, .null⟩) ∧
  word 0x401C000D 0x00080004 0xE0000005 = some (.fadd c .f32 .rne ⟨.vec 8, .vec 4, .vec 5, .null⟩) ∧
  word 0xF15C0000 0xE000000A 0xE0006005 = some (.halt c false false ⟨.null, .vec 10, .inline 5, .null⟩) ∧
  word 0xC19C0000 0xE0002009 0xE0006000 = some (.bwait c false ⟨.null, .aff 9 .pair, .inline 0, .null⟩) ∧
  word 0 0 0 = none ∧ word 0xFFFFFFFF 0xFFFFFFFF 0xFFFFFFFF = none ∧
  (decodeReeve 0x41400009).toOption = some (.rvCget ⟨5, 0, 0, 9⟩) ∧
  (decodeReeve 0x58140004).toOption = some (.rvBf ⟨0, 5, 0, 4⟩) ∧
  (decodeReeve 0x64000000).toOption = some (.rvDone ⟨0, 0, 0, 0⟩)

/-! ## Issue and faults -/

/-- R83 with R81, R70, R98, R79 and R96: what turns an instruction of a strand away before its own effect, in order, WINDOW last, of a
register or memory instruction whose own checks pass; with no lane taking part only the PC moves (R65). That a single-stepped instruction
waits before its effect while its record has no room is the model's reading (DEDUCED, log 12), and so is BUDGET of a count whatever the
guard (log 22). -/
def Obligations.IssueChecks : Prop :=
  ∀ s x i c o sh, Stands s x i c o sh →
    let noCtx : Bool := illegalNow x i
    let noRight : Bool := sh.priv && !x.l.priv
    let beyond : Bool := overBudget sh o x.p.limit || countOver x i
    let full : Bool := stepping s x.l && !recordRoom s x.w.lid
    let need := poolNeed x.st (newNames x sh o)
    let u := unmappedLanes x sh o &&& mustRead i
    (noCtx = true → exec i s = .next (takeFault s x { code := fIllegal, lanes := x.p.lanes })) ∧
    (noCtx = false → noRight = true → exec i s = .next (takeFault s x { code := fPriv, lanes := x.p.lanes })) ∧
    (noCtx = false → noRight = false → beyond = true →
      exec i s = .next (takeFault s x { code := fBudget, lanes := x.p.lanes })) ∧
    (noCtx = false → noRight = false → beyond = false → full = true → exec i s = .next (holdPath s x x.st .hold)) ∧
    (noCtx = false → noRight = false → beyond = false → full = false → unguarded i = false →
      (x.tm = 0#32 → ∃ t, exec i s = .next t ∧ Framed s t x c sh o ∧ PcPast t x ∧ (t.mem = s.mem ∧ t.hostMem = s.hostMem)) ∧
      (x.tm ≠ 0#32 → poolFor s x < need →
        exec i s = .next (holdPath s x (stalled s x need) .hold)) ∧
      (x.tm ≠ 0#32 → need ≤ poolFor s x → scoreboard x i sh o = true →
        exec i s = .next (holdPath s (passed x) (passed x).st .hold)) ∧
      (x.tm ≠ 0#32 → need ≤ poolFor s x → scoreboard x i sh o = false → u ≠ 0#32 →
        exec i s = .next (takeFault s (passed x) { code := fUnmapped, lanes := u })) ∧
      (x.tm ≠ 0#32 → need ≤ poolFor s x → scoreboard x i sh o = false → u = 0#32 →
        inWindow x c sh o = true →
        (registerOnly i = true ∨ ∃ mk locs s1, memKind i = some mk ∧
          LanesReady s (memLanes x i) mk (memAddr x i) (memData x i) locs s1) →
        exec i s = .next (takeFault s (passed x) { code := fWindow, lanes := x.tm })))

/-- R419, R420 and R83: a fault of a strand posts one record to its function's event queue, counts it, ends its launch FAULTED and
cancels its unit; memory is as before. A precise fault waits while an earlier instruction of the strand is not complete, and any
fault while its queue has no room. That a path held in `bwait` or parked at a `kwait`, and an `mma` not fully signed, are no such
instruction is the model's choice (DESIGN CHOICE, log 136). -/
def Obligations.TakingAFault : Prop :=
  (∀ s x f, preciseCode f.code = true → earlierWork s x.w.core x.uid x.k x.st = true →
    takeFault s x f = holdPath s x x.st .hold) ∧
  (∀ s x f, (preciseCode f.code = true → earlierWork s x.w.core x.uid x.k x.st = false) → recordRoom s x.w.lid = false →
    takeFault s x f = setStrand s x.uid x.k (fun t => setPath t x.pi (fun p => { p with st := .hold }))) ∧
  ∀ s x f, unit? s x.uid = some x.w → launch? s x.w.lid = some x.l → x.l.ending = none → recordRoom s x.w.lid = true →
    (preciseCode f.code = true → earlierWork s x.w.core x.uid x.k x.st = false) →
    let t := takeFault s x f
    let e := strandRecord s x f
    let posted : List Event := if x.l.records < 16 then
      [{ e with time := s.time, flags := e.flags + if x.l.records = 15 then 4 else 0 }] else []
    e.code = f.code ∧ e.reason = f.reason ∧ e.pc = x.p.pc.toNat ∧ e.faulted = f.lanes ∧ e.launch = x.l.handle ∧
    t.mem = s.mem ∧ t.hostMem = s.hostMem ∧ t.peerMem = s.peerMem ∧
    (∃ later, (fnOf t (queueOf x.l.fn)).events = (fnOf s (queueOf x.l.fn)).events ++ posted ++ later) ∧
    (∃ w, unit? t x.uid = some w ∧ w.cancelled = true) ∧
    (∃ l, launch? t x.w.lid = some l ∧ l.ending = some .faulted ∧ l.faults = x.l.faults + 1 ∧
      l.records = x.l.records + (if x.l.records < 16 then 1 else 0) ∧
      l.dropped = x.l.dropped + (if x.l.records < 16 then 0 else 1))

/-! ## The step -/

/-- A step whose turn is a strand's, a span's or a reeve's runs the instruction that its word decodes to (R64, R335); a word
that is no instruction raises ILLEGAL (R82); an event of the machine runs as it is. -/
def Obligations.StepRunsTheInstruction : Prop :=
  (∀ s uid k ts w l t0 x bs s2, s.turns = .strand uid k :: ts →
    let s0 := { s with turns := ts }
    let s1 := setStrand s0 uid k (fun t => { issuePath t l.lpb.noprog with yielded := false })
    unit? s0 uid = some w → Tbl.find? w.strands k = some t0 → launch? s0 w.lid = some l → t0.completed = false →
    (∀ y ∈ s0.stops, y.uid ≠ uid) → w.cancelled = false → lduLeft t0 = none → t0.steps.any (stepDone t0) = false →
    strandOpen t0 = true → outranked s0 w t0 = false →
    convStuck s0 w l t0 = false → owesSlot s0 uid k w t0 = false → ctxOf s1 uid k noCtl = some x →
    fetchAt s1 w.core l.fn l.part (x.who s1) x.p.pc.toNat = (.ok bs, s2) →
    (∀ i, decode bs = .ok i → step s = exec i { s2 with actor := .strand uid k }) ∧
    (∀ e, decode bs = .error e → step s = .next (takeFault s2 x { code := fIllegal, lanes := x.p.lanes }))) ∧
  (∀ s cl slot ts x bs s2 i, s.turns = .span cl slot :: ts →
    let s0 := { s with turns := ts }
    spanCtx s0 (.table cl) slot = some x → (isPf x.l.fn = true ∨ (fnOf s0 x.l.fn).halted = false) → x.l.cutting = false →
    nextSpan s0 cl = some slot →
    fetchSpan (setCluster s0 cl (fun c => { c with cursor := slot })) cl x.l x.sp.pc.toNat = (.ok bs, s2) → decode bs = .ok i →
    step s = exec i { s2 with actor := .span cl slot }) ∧
  (∀ s uid slot ts x w bs s2 i, s.turns = .unitSpan uid slot :: ts →
    let s0 := { s with turns := ts }
    spanCtx s0 (.unit uid) slot = some x → x.w = some w → w.cancelled = false → (∀ y ∈ s0.stops, y.uid ≠ uid) →
    w.cutting = false → (∀ e ∈ w.spans, ∀ v ∈ e.2.wins, v.stale = false) → nextUnitSpan s0 w.core (spanQuarter w) = some (uid, slot) →
    let s1 := setQuarter s0 w.core (spanQuarter w) (fun r => { r with lastSpan := some (uid, slot) })
    fetchAt s1 w.core x.l.fn x.l.part (spanWho s1 x uid w) x.sp.pc.toNat = (.ok bs, s2) → decode bs = .ok i →
    step s = exec i { s2 with actor := .unitSpan uid slot }) ∧
  (∀ s cl ts c w i, s.turns = .reeve cl :: ts → (clusterOf s cl).reeve.call = some c → c.routine.code[c.pc]? = some w →
    decodeReeve w.toNat = .ok i → step s = exec i { s with turns := ts, actor := .reeve cl }) ∧
  (∀ s ts i, s.turns = .event i :: ts → fieldsOf i = none → reeveUses i = none →
    step s = exec i { s with turns := ts, actor := .none })

/-- No instruction, event or turn of the schedule stops the machine: from every state a step goes on to a next state. -/
def Obligations.EveryStepGoesOn : Prop := ∀ s, StepGoesOn s

/-- Every step keeps the three memories in their canonical form: addresses strictly rising, and no byte listed that reads as
an unlisted one. -/
def Obligations.MemoryStaysCanonical : Prop := ∀ s s', MemoryInv s → step s = .next s' → MemoryInv s'

/-- The machine after reset: what the spec gives a reset value for has it, nothing runs, and memory reads 0 in its canonical
form. -/
def Obligations.ResetState : Prop :=
  let s := State.reset
  (s.dev.stage = 0 ∧ s.dev.ready = false ∧ s.dev.failcode = 0) ∧
  (∀ a, cellGet s.mem a = 0) ∧ MemoryInv s ∧ s.units = [] ∧ s.launches = [] ∧ s.jobs = [] ∧ s.usedSlices = [] ∧
  (∀ p, (partOf s p).st = .free ∧ (partOf s p).railVote = 3 ∧ (partOf s p).usage = []) ∧
  (∀ v, (fnOf s v).bound = false ∧ (fnOf s v).s1root = 0 ∧ (fnOf s v).saveArea = 0 ∧ (fnOf s v).debugWord = 0 ∧
    (fnOf s v).events = [] ∧ ∀ k, nth (fnOf s v).cairnBind k 0 = 0) ∧
  (∀ c, (coreOf s c).xt = 0 ∧ (coreOf s c).st = 32 ∧ (coreOf s c).lt = 16 ∧ (coreOf s c).sc = 32 ∧ (coreOf s c).lc = 16 ∧
    (coreOf s c).l1 = [] ∧ (coreOf s c).tlb = [] ∧ (coreOf s c).td = []) ∧
  (∀ cl, (clusterOf s cl).quantum = 2000 ∧ (clusterOf s cl).rq = [] ∧ (clusterOf s cl).table = [] ∧
    (clusterOf s cl).reeve.call = none) ∧
  (∀ off, commonsGet s off = 0) ∧ (∀ g, s.pfPart = 0 ∧ (Tbl.getD s.cxl g {}).valid = false ∧ Tbl.getD s.peerMap g 0 = 0)

/-! ## Spans -/

/-- R45 to R49 and R183: in a span the affine instructions write for the whole range at once; a guard that fails everywhere
leaves only the PC's advance; an operand that the span cannot read or write, a guard that differs over the range, and an
instruction that only strands execute are cut points. R45, R46, R48, R55, R57, R58: so `mov`, `acmp`, `bra`, whose affine guard splits
the span, `exit`, `kwait`, which parks and rejoins, and `ldu`. -/
def Obligations.SpanResults : Prop :=
  let two := fun (o : Ops) (f : Aff → Aff → Aff) (x : SpanCtx) =>
    (spanPair x o.a).bind (fun a => (spanPair x o.b).map (f a))
  let lo := fun (v : DWord) => BitVec.ofNat 32 v.toNat
  (∀ c o, SpanAffResult (.aset c o) c o (two o (fun a b => ⟨a.base, lo b.base⟩))) ∧
  (∀ c o, SpanAffResult (.aadd c o) c o (two o (fun a b => ⟨a.base + b.base, a.stride + b.stride⟩))) ∧
  (∀ c o, SpanAffResult (.asub c o) c o (two o (fun a b => ⟨a.base - b.base, a.stride - b.stride⟩))) ∧
  (∀ c o, SpanAffResult (.amul c o) c o (two o (fun a b => ⟨a.base * b.base, a.stride * lo b.base⟩))) ∧
  (∀ c o, SpanAffResult (.aand c o) c o (two o (fun a b => ⟨a.base &&& b.base, a.stride &&& lo b.base⟩))) ∧
  (∀ c o, SpanAffResult (.amov c o) c o (fun x => spanPair x o.a)) ∧
  (∀ c o, SpanAffResult (.ashl c o) c o (two o (fun a b =>
    ⟨a.base <<< (b.base.toNat % 64), BitVec.ofNat 32 (a.stride.toNat * 2 ^ (b.base.toNat % 64))⟩))) ∧
  (∀ c (n : Fin 5) o, SpanAffResult (.aaddr c n o) c o (two o (fun a b =>
    ⟨a.base + BitVec.ofNat 64 (2 ^ n.val * b.base.toNat), a.stride + BitVec.ofNat 32 (2 ^ n.val * b.stride.toNat)⟩))) ∧
  (∀ c o s x, SpanStands s x → exec (.nop c o) s = .next (spanNext s (x.issues (.nop c o)) x.sp)) ∧
  (∀ i s x, SpanStands s x → (opcode i).isSome = true → isSpanOp i = false → exec i s = .next (spanCut s x)) ∧
  (∀ c t o, SpanAffResult (.mov c t o) c o (fun _ => some ⟨movValue t o.b, 0⟩)) ∧
  (∀ c t q o s x a b, SpanStands s x → spanPair x o.a = some a → spanPair x o.b = some b → x.sp.wins = [] →
    (spanGuard x.sp c = none → exec (.acmp c t q o) s = .next (spanCut s x)) ∧
    (spanGuard x.sp c = some false → SpanAdvances (.acmp c t q o) s x id) ∧
    (spanGuard x.sp c = some true → spanSet t q a b x.sp.lo x.sp.hi = none → exec (.acmp c t q o) s = .next (spanCut s x)) ∧
    (∀ p (n : Fin 8), spanGuard x.sp c = some true → spanSet t q a b x.sp.lo x.sp.hi = some p → o.d = .pred n →
      SpanAdvances (.acmp c t q o) s x (fun sp => { sp with preds := if n = 7 then sp.preds else setNth sp.preds n.val p }))) ∧
  (∀ t q a b lo hi, lo < hi → a.stride = 0 → b.stride = 0 →
    spanSet t q a b lo hi = some ⟨if icmpFlag t q (affLane a 0) (affLane b 0) then 1 else 0, 0⟩) ∧
  (∀ c o s x, SpanStands s x → x.sp.wins = [] →
    let i : Instr := .bra c o
    let target := branchTarget x.sp.pc o.b
    let p := nth x.sp.preds c.gpred.val {}
    let first := (p.kind == 2) != c.gneg
    (spanGuard x.sp c = some false → SpanAdvances i s x id) ∧
    (spanGuard x.sp c = some true → SpanAdvances i s x (fun sp => { sp with pc := target })) ∧
    (spanGuard x.sp c = none → splitRoom s x = true → x.sp.lo < p.c ∧ p.c < x.sp.hi ∧
      SpanPut i s x (insertSpan (keepSpan (spansAt s x.pl) x.slot
          { x.sp with hi := p.c, pc := if first then target else x.sp.pc + 12 })
        { x.sp with lo := p.c, pc := if first then x.sp.pc + 12 else target, loc := x.sp.loc + (p.c - x.sp.lo)
                    aff := x.sp.aff.map (fun r => rebase r ((p.c : Int) - x.sp.lo)) })) ∧
    (∀ u, spanGuard x.sp c = none → splitRoom s x = false → x.pl = .unit u → exec i s = .next (strandCut s u)) ∧
    (∀ cl, spanGuard x.sp c = none → splitRoom s x = false → x.pl = .table cl → exec i s =
      .next (unitCut (setSpans s x.pl (fun t => Tbl.put t x.slot { x.sp with owed := true })) x.lid))) ∧
  (∀ c o s x, SpanStands s x → x.sp.wins = [] →
    let rest := Tbl.del (spansAt s x.pl) x.slot
    (spanGuard x.sp c = none → exec (.exit c o) s = .next (spanCut s x)) ∧
    (spanGuard x.sp c = some false → SpanAdvances (.exit c o) s x id) ∧
    (spanGuard x.sp c = some true → rest.any (fun e => e.2.lid == x.lid) = true → SpanPut (.exit c o) s x rest) ∧
    (∀ u w, spanGuard x.sp c = some true → rest = [] → x.pl = .unit u → unit? s u = some w → w.lid = x.lid → rqFits s = true →
      ∃ t v, exec (.exit c o) s = .next t ∧ t.mem = s.mem ∧ unit? t u = some v ∧ v.spans = [] ∧
        ∀ e ∈ v.strands, e.2.paths = [] ∧ e.2.completed = true)) ∧
  (∀ c o s x, SpanStands s x → x.sp.wins = [] →
    let i : Instr := .kwait c o
    let t := spansAt s x.pl
    let low := t.find? (fun e => parkedAt x.sp e.2 && canRejoin { e.2 with st := .run } x.sp)
    let up := fun (sp : Span) (t : Tbl Span) => t.find? (fun e => parkedAt sp e.2 && canRejoin sp { e.2 with st := .run })
    (spanGuard x.sp c = some false → SpanAdvances i s x id) ∧
    (spanGuard x.sp c ≠ some false → low = none → up x.sp t = none →
      SpanPut i s x (Tbl.put t x.slot { x.sp with st := .kwait })) ∧
    (∀ e, spanGuard x.sp c ≠ some false → low = none → up x.sp t = some e →
      SpanPut i s x (Tbl.put (Tbl.del t e.1) x.slot { x.sp with hi := e.2.hi, pc := x.sp.pc + 12 })) ∧
    (∀ e, spanGuard x.sp c ≠ some false → low = some e →
      up { e.2 with st := .run, hi := x.sp.hi } (Tbl.del t x.slot) = none →
      SpanPut i s x (Tbl.put (Tbl.del t x.slot) e.1 { e.2 with st := .run, hi := x.sp.hi, pc := e.2.pc + 12 }))) ∧
  (∀ c t o s x b (n : Fin 32) part, SpanStands s x → x.sp.wins = [] → spanPair x o.a = some b → b.stride = 0 → o.d = .aff n part →
    let i : Instr := .ldu c t o
    let a := wrap 64 ((b.base.toNat : Int) + lduOffset o.b)
    lduWindow x (t.bits / 8) a = true →
    (spanGuard x.sp c = none → exec i s = .next (spanCut s x)) ∧
    (spanGuard x.sp c = some false → SpanAdvances i s x id) ∧
    (spanGuard x.sp c = some true → lduHeld s x (t.bits / 8) a = false → lduRead s x t a = none → exec i s = .next (spanCut s x)) ∧
    (∀ v s1, spanGuard x.sp c = some true → lduHeld s x (t.bits / 8) a = false → lduRead s x t a = some (v, s1) →
      ∃ s2 w, exec i s = .next s2 ∧ s2.mem = s1.mem ∧ w.n = n.val ∧ w.part = part ∧ w.data = BitVec.ofNat 64 (lduValue t v) ∧
        w.returned = false ∧ w.left = c.la.val ∧
        spansAt s2 x.pl = Tbl.put (spansAt s1 x.pl) x.slot
          { x.sp with pc := x.sp.pc + 12, wins := [w], st := if c.la.val = 0 then .ldu else .run }))

/-! ## Commands of guests -/

/-- R299, R445: a free entry takes the job and its number is the handle; a full or closed queue drops the write and says so. R444:
S1ROOT and TLB_INV drop translations. R343: REEVE_LOAD and REEVE_CTL. R366, R367: requests and replies. R446: EVQ_PULL writes the
oldest record. R422: trap replies. R443: register writes. R386, R387: FLR. R21, R387: a function whose file is closed takes none.
The model's readings and choices: a JOB_SUBMIT to a closed function sets DROPPED and posts JOB_FULL (log 61), a one-page TLB_INV drops
the walk-cache entries of all pages (log 130), a REGISTER_WRITE to a command register does nothing (log 117), a FAIL reply is not taken
while the queue has no room for its records (log 12), the free entry that a job takes (log 2). -/
def Obligations.GuestCommands : Prop :=
  (∀ s fn addr sealed, let c := fnNow s fn
    fnOpen s c = true → ((fnOf s (queueOf c)).ide = true → sealed = true) →
    (submitOpen s c = true → (∃ e, e < 16 ∧ Tbl.has s.jobs (jobKey ⟨c, e⟩) = false) →
      ∃ t e, exec (.evJobSubmit fn addr sealed) s = .next t ∧ e < 16 ∧ Tbl.has s.jobs (jobKey ⟨c, e⟩) = false ∧
        job? t ⟨c, e⟩ = some { addr := addr.toNat, part := partOfFn s c, recd := { handle := e } } ∧
        (∀ k, k ≠ jobKey ⟨c, e⟩ → Tbl.find? t.jobs k = Tbl.find? s.jobs k) ∧ t.mem = s.mem ∧ t.fns = s.fns) ∧
    ((submitOpen s c = false ∨ ∀ e, e < 16 → Tbl.has s.jobs (jobKey ⟨c, e⟩) = true) →
      ∃ t, exec (.evJobSubmit fn addr sealed) s = .next t ∧ t.jobs = s.jobs ∧ t.mem = s.mem ∧
        (fld (jobStatus t c) 5 1 = 1) ∧ ∃ e, (fnOf t (queueOf c)).events = (fnOf s (queueOf c)).events ++ [e] ∧ e.code = evJobFull)) ∧
  (∀ s fn addr, let c := fnNow s fn
    fnOpen s c = true → (fnOf s (queueOf c)).ide = true →
    ∃ t, exec (.evJobSubmit fn addr false) s = .next t ∧ t.jobs = s.jobs ∧ t.mem = s.mem ∧ fld (jobStatus t c) 5 1 = 1) ∧
  (∀ s (vf : Fin 128) v, fnOpen s vf.val = true →
    (∃ t, exec (.evS1rootWrite vf v) s = .next t ∧ (fnOf t vf.val).s1root = BitVec.ofNat 64 (v.toNat % 2 ^ 53) ∧ t.mem = s.mem ∧
      (∀ core k, Tbl.find? (coreOf t core).tlb k = if k / 2 ^ 40 = vf.val then none else Tbl.find? (coreOf s core).tlb k) ∧
      (∀ d k, Tbl.find? (dieOf t d).tlb k = if k / 2 ^ 40 = vf.val then none else Tbl.find? (dieOf s d).tlb k) ∧
      ∀ core d k, k / 2 ^ 40 = vf.val → Tbl.find? (coreOf t core).walks k = none ∧ Tbl.find? (dieOf t d).walks k = none) ∧
    (∃ t, exec (.evTlbInv vf v) s = .next t ∧ t.mem = s.mem ∧ (fnOf t vf.val).s1root = (fnOf s vf.val).s1root ∧
      (∀ core d k, let gone := k / 2 ^ 40 = vf.val ∧ (v.getLsbD 63 = true ∨ k % 2 ^ 40 = v.toNat % 2 ^ 53 / pageBytes)
        Tbl.find? (coreOf t core).tlb k = (if gone then none else Tbl.find? (coreOf s core).tlb k) ∧
        Tbl.find? (dieOf t d).tlb k = if gone then none else Tbl.find? (dieOf s d).tlb k) ∧
      (∀ core d k, k / 2 ^ 40 = vf.val → Tbl.find? (coreOf t core).walks k = none ∧ Tbl.find? (dieOf t d).walks k = none) ∧
      tlbInvBusy t vf.val = (tlbInvBusy s vf.val ||
        copiesHold s (if v.getLsbD 63 then .vf else .va) vf.val (v.toNat % 2 ^ 53 / pageBytes)))) ∧
  (∀ s fn a, let c := fnNow s fn
    fnOpen s c = true →
    ∃ t, exec (.evReeveLoad fn a) s = .next t ∧ loadingOf t c = some ((loadingOf s c).getD a) ∧ routinesOf t c = routinesOf s c ∧
      t.mem = s.mem) ∧
  (∀ s fn (a : DWord), let c := loadingFn s fn
    (loadingOf s c = some a →
      let r := loadedInto (routinesOf s c) (loadResult s c (partOfFn s c) a.toNat).1
      ∃ t, exec (.evReeveLoadComplete fn) s = .next t ∧ loadingOf t c = none ∧ routinesOf t c = r.1 ∧ lastcodeOf t c = r.2) ∧
    (loadingOf s c = none → exec (.evReeveLoadComplete fn) s = .next s)) ∧
  (∀ s fn v, let c := fnNow s fn
    fnOpen s c = true →
    (v.getLsbD 8 = false → ∃ t, exec (.evReeveCtlArm fn v) s = .next t ∧ t.mem = s.mem ∧ ∀ p,
      Tbl.find? (routinesOf t c) p = (Tbl.find? (routinesOf s c) p).map (fun r =>
        if p < 6 ∧ v.getLsbD p = true then { r with suspended := false } else r)) ∧
    (v.getLsbD 8 = true → ∃ t, exec (.evReeveCtlUnload fn v) s = .next t ∧ t.mem = s.mem ∧ ∀ p,
      Tbl.find? (routinesOf t c) p = if p < 6 ∧ v.getLsbD p = true then none else Tbl.find? (routinesOf s c) p)) ∧
  (∀ s fn, let q := fnFile fn
    fnOpen s q = true →
    (prqOf s q = [] → exec (.evPrqPop fn) s = .next { s with latch := some (List.replicate 16 0) }) ∧
    (∀ r rest, prqOf s q = r :: rest → ∃ t, exec (.evPrqPop fn) s = .next t ∧ t.latch = some (toBytes 16 (requestBits r)) ∧
      prqOf t q = rest.filter (fun y => !(y.tag == r.tag && y.vf == r.vf)) ∧ t.mem = s.mem)) ∧
  (∀ s fn v, let q := fnFile fn
    fnOpen s q = true →
    (∀ r, repliedTo s fn v = some r → v.getLsbD 16 = false →
      exec (.evPrqReplyResolved fn v) s = .next (resolveRequest s r)) ∧
    (∀ r, repliedTo s fn v = some r → v.getLsbD 16 = true → eventRoom s r.vf = true →
      exec (.evPrqReplyFail fn v) s = .next (failRequest s r)) ∧
    (∀ r, repliedTo s fn v = some r → v.getLsbD 16 = true → eventRoom s r.vf = false →
      exec (.evPrqReplyFail fn v) s = .next s) ∧
    (repliedTo s fn v = none → ∃ t, (if v.getLsbD 16 then exec (.evPrqReplyFail fn v) s else exec (.evPrqReplyResolved fn v) s) =
      .next t ∧ t.reqs = s.reqs ∧ ∃ e, (fnOf t q).events = (fnOf s q).events ++ [e] ∧ e.code = evStrayReply)) ∧
  (∀ s fn v, let q := fnFile fn
    fnOpen s q = true →
    (∀ e rest, (fnOf s q).events = e :: rest → ∃ t, exec (.evEvqPull fn v) s = .next t ∧ (fnOf t q).events = rest ∧
      (eventBytes e).length = 384 ∧ t.hostMem = putBytes s.hostMem (v.toNat / 4096 * 4096) (eventBytes e) ∧ t.mem = s.mem) ∧
    ((fnOf s q).events = [] →
      exec (.evEvqPull fn v) s = .next { s with hostMem := putBytes s.hostMem (v.toNat / 4096 * 4096) [0] })) ∧
  (∀ s fn v, fnOpen s (fnFile fn) = true →
    (v.getLsbD 32 = false →
      exec (.evTrapReplyResume fn v) s = .next (answerToken s fn (v.toNat % 2 ^ 32) (fun t => resumeToken t (tokenLanes t)))) ∧
    (v.getLsbD 32 = true →
      exec (.evTrapReplyEnd fn v) s = .next (answerToken s fn (v.toNat % 2 ^ 32) (fun t =>
        exitLanes (resumeToken t (tokenLanes t)) (tokenLanes t))))) ∧
  (∀ s (v : BitVec 256), fnOpen s 128 = true →
    (exec (.evRegisterWrite .pf 0x70 v) s = .next { s with pfPart := v.toNat % 64 }) ∧
    (∀ w, w < 8 → ∃ t, exec (.evRegisterWrite .pf (0x100 + 16 * w) v) s = .next t ∧
      Tbl.getD t.cxl w {} = ⟨v.getLsbD 0, fld v.toNat 2 6, fld v.toNat 8 32, fld v.toNat 40 32⟩ ∧
      ∀ u, u ≠ w → Tbl.getD t.cxl u {} = Tbl.getD s.cxl u {}) ∧
    (∀ n, n < 256 → ∃ t, exec (.evRegisterWrite .pf (0x2000 + 8 * n) v) s = .next t ∧
      Tbl.getD t.peerMap n 0 = BitVec.ofNat 64 (v.toNat % 2 ^ 21) ∧
      ∀ u, u ≠ n → Tbl.getD t.peerMap u 0 = Tbl.getD s.peerMap u 0) ∧
    (∀ n, n < 64 → ∃ t, exec (.evRegisterWrite .pf (0x4000 + 32 * n) v) s = .next t ∧ Tbl.getD t.mcast n 0 = v ∧
      ∀ u, u ≠ n → Tbl.getD t.mcast u 0 = Tbl.getD s.mcast u 0) ∧
    (∀ off, off ≠ 0x10 → off ≠ 0x70 → ¬ (0x100 ≤ off ∧ off < 0x180 ∧ off % 16 = 0) → ¬ (0x2000 ≤ off ∧ off < 0x2800 ∧ off % 8 = 0) →
      ¬ (0x4000 ≤ off ∧ off < 0x4800 ∧ off % 32 = 0) → exec (.evRegisterWrite .pf off v) s = .next s)) ∧
  (∀ s fn (v : BitVec 256), let c := fnNow s fn
    fnOpen s (fnFile fn) = true →
    (v.getLsbD 5 = true → ∃ t, exec (.evRegisterWrite fn 0x10 v) s = .next t ∧ fld (jobStatus t c) 5 1 = 0 ∧
      fld (jobStatus t c) 0 5 = fld (jobStatus s c) 0 5 ∧ t.mem = s.mem) ∧
    (v.getLsbD 5 = false → exec (.evRegisterWrite fn 0x10 v) s = .next s)) ∧
  (∀ s (vf : Fin 128) off (v : BitVec 256), fnOpen s vf.val = true → off ≠ 0x10 → exec (.evRegisterWrite (.vf vf) off v) s = .next s) ∧
  (∀ s (vf : Fin 128), fnOpen s vf.val = true →
    let s1 := zeroImages (abandonHalts (setFn s vf.val (fun f => { f with flr := true })) vf.val) vf.val
    exec (.evFlr vf) s = .next (cancelJobsOf { s1 with reqs := s1.reqs.filter (fun r => r.vf != vf.val) } vf.val)) ∧
  (∀ s (vf : Fin 128), (fnOf s vf.val).flr = true →
    (vfBusy s vf.val = true → exec (.evFlrComplete vf) s = .next s) ∧
    (vfBusy s vf.val = false → ∃ t, exec (.evFlrComplete vf) s = .next t ∧
      (let sb := (fnOf s vf.val).resetHalts.foldl (fun s h => putStatus s h.block haltReset h.saved.length h.missed) s
       t.mem = sb.mem ∧ fnOf t vf.val = guestReset (fnOf sb vf.val)) ∧ ((fnOf s vf.val).resetHalts = [] → t.mem = s.mem) ∧
      ((guestReset (fnOf s vf.val)).flr = false ∧ (guestReset (fnOf s vf.val)).resetHalts = [] ∧
        (guestReset (fnOf s vf.val)).s1root = 0 ∧ (guestReset (fnOf s vf.val)).events = [] ∧
        (guestReset (fnOf s vf.val)).routines = [] ∧ (guestReset (fnOf s vf.val)).bound = (fnOf s vf.val).bound ∧
        (guestReset (fnOf s vf.val)).s2root = (fnOf s vf.val).s2root) ∧
      (∀ r ∈ t.reqs, r.vf ≠ vf.val) ∧ (∀ e ∈ t.images, e.2.fn ≠ vf.val) ∧
      (∀ k, k / 4096 = vf.val → Tbl.find? t.tasks k = none) ∧
      (∀ core d k, k / 2 ^ 40 = vf.val → Tbl.find? (coreOf t core).tlb k = none ∧ Tbl.find? (coreOf t core).walks k = none ∧
        Tbl.find? (dieOf t d).tlb k = none ∧ Tbl.find? (dieOf t d).walks k = none))) ∧
  (∀ s fn (vf : Fin 128) addr sealed v (w : BitVec 256) off, (fnOpen s (fnNow s fn) = false →
      ∀ i ∈ [Instr.evJobSubmit fn addr sealed, .evReeveLoad fn addr, .evReeveCtlArm fn v, .evReeveCtlUnload fn v],
        exec i s = .next s) ∧
    (fnOpen s (fnFile fn) = false →
      ∀ i ∈ [Instr.evPrqPop fn, .evPrqReplyResolved fn v, .evPrqReplyFail fn v, .evEvqPull fn v, .evTrapReplyResume fn v,
        .evTrapReplyEnd fn v, .evRegisterWrite fn off w], exec i s = .next s) ∧
    (fnOpen s vf.val = false → ∀ i ∈ [Instr.evS1rootWrite vf v, .evTlbInv vf v, .evFlr vf], exec i s = .next s) ∧
    ((fnOf s vf.val).flr = false → exec (.evFlrComplete vf) s = .next s))

/-! ## Jobs, launches and units -/

/-- R300 to R302, R477: JOB_START, GRAPH_EXPAND, LAUNCH_ACCEPT and PHASE_COMPLETE read their blocks and open what follows; a phase
entry that has been read is not read again. R35, R36, R50, R55, R59, R60, R243: units are cut, admitted, refilled and completed. An
event that would queue an entry for which a run queue has no room waits (R298). That a concurrent KIND 1 launch waits until all its tasks
are queued is the model's reading (DEDUCED, log 69), and so is what a graph keeps of a launch read that failed (log 63). -/
def Obligations.WorkEvents : Prop :=
  let opened := fun (s : State) (r : JobRef) (j : Job) (n : Nat) =>
    ∃ j', job? (openPhase s r) r = some j' ∧ j'.phaseOpen = true ∧ j'.graphs.length = n ∧ j'.phaseRec.total = n ∧
      j'.phaseRec.done = 0 ∧ j'.phase = j.phase ∧ j'.recd = j.recd ∧ j'.phaseEntry = none
  (∀ s fn (part : Fin 64) (entry : Fin 16) j bs s1, let r : JobRef := ⟨fnCode fn part.val, entry.val⟩
    let v := ofBytes bs
    job? s r = some j → j.failed = none → j.phaseOpen = false → j.started = false → readWaits j (0, 0) = false →
    j.addr % 64 = 0 → readBlock s (2 * jobHome s j.part) r.fn j.part j.addr 64 = (.ok bs, s1) →
    let s2 := setJob s1 r (fun j => { j with tag := fld v 96 32, recd := { j.recd with jobtag := fld v 96 32, total := fld v 64 16 } })
    (fld v 64 16 ≠ 0 → fld v 80 16 = 0 → fld v 128 384 = 0 →
      exec (.evJobStart fn part entry) s = .next (openPhase (setJob s2 r (fun j =>
        { j with started := true, phlist := fld v 0 64, nphase := fld v 64 16 })) r)) ∧
    ((fld v 64 16 = 0 ∨ fld v 80 16 ≠ 0 ∨ fld v 128 384 ≠ 0) →
      exec (.evJobStart fn part entry) s = .next (refuseJob s2 r j.addr))) ∧
  (∀ s r j a bs s1 gs s2, job? s r = some j → readWaits j (0, 0) = false → j.phaseEntry = none →
    (j.phlist + 16 * j.phase) % 16 = 0 →
    let v := ofBytes bs
    let n := fld v 64 7
    let j1 : Job := { j with phaseEntry := some (a, n) }
    readBlock s (2 * jobHome s j.part) r.fn j.part (j.phlist + 16 * j.phase) 16 = (.ok bs, s1) → job? s1 r = some j →
    1 ≤ n → n ≤ 64 → fld v 71 57 = 0 → a = fld v 0 64 → a % 16 = 0 →
    readBlock (setJob s1 r (fun j => { j with phaseEntry := some (a, n) })) (2 * jobHome s j.part) r.fn j.part a (16 * n) = (.ok gs, s2) →
    (∀ i, i < n → (parseGraph j.tag (ofBytes (slice gs (16 * i) 16))).isSome = true) → job? s2 r = some j1 → opened s r j n) ∧
  (∀ s r j a n gs s2, job? s r = some j → readWaits j (0, 0) = false → j.phaseEntry = some (a, n) →
    readBlock s (2 * jobHome s j.part) r.fn j.part a (16 * n) = (.ok gs, s2) →
    (∀ i, i < n → (parseGraph j.tag (ofBytes (slice gs (16 * i) 16))).isSome = true) → job? s2 r = some j → opened s r j n) ∧
  (∀ s fn (part : Fin 64) (entry : Fin 16) (g : Fin 64) j gr bs s1 rs s2,
    let r : JobRef := ⟨fnCode fn part.val, entry.val⟩
    let home := jobHome s j.part
    job? s r = some j → j.graphs[g.val]? = some gr → readWaits j (g.val + 1, 0) = false → j.failed = none →
    j.phaseOpen = true → gr.expanded = false → gr.recd.status.final = false →
    readBlock s (2 * home) r.fn j.part gr.list (8 * gr.nlaunch) = (.ok bs, s1) →
    readLaunches (2 * home) r.fn j.part home gr.nlaunch gr.failedReads s1
      ((List.range gr.nlaunch).map (fun i => (i, ofBytes (slice bs (8 * i) 8)))) [] = (.inl rs, s2) →
    exec (.evGraphExpand fn part entry g) s = .next (expandGraph s2 r g.val rs) ∧
    ((∀ e ∈ rs, ∃ l ds, e.2 = .ok l ds) → expandGraph s2 r g.val rs =
      setJob { s2 with serial := s2.serial + rs.length } r (fun j =>
        withGraph j g.val (fun q => { q with launches := graphLaunches s2.serial rs, expanded := true, failedReads := [] })))) ∧
  (∀ s (cl : Fin 192) w j ts s1, (waitingLaunches s cl.val).find? (acceptable s cl.val) = some w → job? s w.ref = some j →
    readTasks s (2 * cl.val) w.ref.fn j.part w.l.lpb = (.ok ts, s1) →
    let a := acceptLaunch s1 w.ref.fn j.part w.ref (some (w.g, w.i)) cl.val w.l.lpb w.l.deps ts
    let s2 := setJob a.2 w.ref (fun j =>
      { j with graphs := setNth j.graphs w.g (setGraphLaunch (nth j.graphs w.g blankGraph) w.i (fun l =>
          { l with handle := some a.1, ready := none })) })
    (rqFits s2 = true → exec (.evLaunchAccept cl) s = .next s2) ∧ (rqFits s2 = false → exec (.evLaunchAccept cl) s = .next s)) ∧
  (∀ s fn (part : Fin 64) (entry : Fin 16) j, let r : JobRef := ⟨fnCode fn part.val, entry.val⟩
    job? s r = some j → j.failed = none → j.phaseOpen = true → j.phaseRec.total ≤ j.phaseRec.done →
    (∃ j', job? (setJob s r closePhase) r = some j' ∧ j'.phaseOpen = false ∧ j'.phase = j.phase + 1 ∧
      j'.recd.done = j.recd.done + 1) ∧
    exec (.evPhaseComplete fn part entry) s = .next (if j.phase + 1 < j.nphase then openPhase (setJob s r closePhase) r
      else checkJobEnd (setJob s r closePhase) r)) ∧
  (∀ s lid l e, launch? s lid = some l → l.inTable = true → (isPf l.fn = true ∨ (fnOf s l.fn).halted = false) →
    e ∈ (clusterOf s l.home).table → e.2.lid = lid → (l.cutting = true ∨ nextSpan s l.home = some e.1) →
    atCut s l.home l e.2 = true → exec (.evUnitCut lid) s = .next (unitCut s lid)) ∧
  (∀ s lid l, launch? s lid = some l → l.inTable = true →
    (∃ e ∈ (clusterOf s l.home).table, e.2.lid = lid ∧ ∃ w ∈ e.2.wins, w.returned = false ∧ w.stale = false) →
    unitCut s lid = setLaunch s lid (fun l => { l with cutting := true })) ∧
  (∀ s lid l, launch? s lid = some l → fnOfLid lid = l.fn → l.inTable = true → l.lpb.progress ≠ 0 → l.lpb.refill = false →
    0 < unitSize l.lpb → dealClusters s l ≠ [] →
    (∀ e ∈ (clusterOf s l.home).table, e.2.lid = lid → ∀ w ∈ e.2.wins, w.waits = false) →
    let spans := sortSpans (((clusterOf s l.home).table.filter (fun e => e.2.lid == lid)).map (·.2))
    unitsTotal l.lpb ≤ liveUnits l spans → rqFits s = true → rqRoom s l.fn (cutEntries s l spans) = true →
    let t := unitCut s lid
    (∀ e ∈ (clusterOf t l.home).table, e.2.lid ≠ lid) ∧ t.mem = s.mem ∧
      (∃ l', launch? t lid = some l' ∧ l'.inTable = false ∧ l'.cutting = false) ∧
      (∀ cl e, e ∈ (clusterOf s cl).rq → e ∈ (clusterOf t cl).rq) ∧
      ∀ e ∈ (clusterOf s l.home).table, e.2.lid = lid → ∀ i, e.2.lo ≤ i → i < e.2.hi →
        let u := i / unitSize l.lpb
        ∃ q ∈ (clusterOf t (dealOf s l u)).rq, q.lid = lid ∧
          ((∃ first n, q.kind = .range first n e.2 ∧ first ≤ u ∧ n ≠ 0) ∨
            ∃ ps, q.kind = .unit u ps ∧ ∃ p ∈ ps, p.lo ≤ i ∧ i < p.hi ∧ p.unit = u ∧ p.pc = e.2.pc ∧ p.preds = e.2.preds ∧
              p.wins = e.2.wins)) ∧
  (∀ s (cl : Fin 192) eid core1 t,
    placeAhead cl.val (2 * cl.val + (if core1 then 1 else 0)) s (aheadEntries s cl.val) = (some eid, t) →
    exec (.evUnitAdmit cl eid core1) s = .next t) ∧
  (∀ s lid l, launch? s lid = some l → concReady s lid l = true → l.ending = none →
    (isPf l.fn = true ∨ (fnOf s l.fn).halted = false) →
    (∀ e ∈ s.launches, e.2.fn = l.fn → e.2.concWait = true → e.2.ending = none → l.seq ≤ e.2.seq) →
    let us := concUnits lid l
    let d := dealUnits lid l us.2 (setLaunch s lid (fun l => { l with concWait := false })) us.1
    (launchFits s l = false → exec (.evConcurrentAdmit lid) s = .next (refuseWaiting s lid)) ∧
    (launchFits s l = true → d = none → exec (.evConcurrentAdmit lid) s = .next s) ∧
    (∀ t, launchFits s l = true → d = some t →
      exec (.evConcurrentAdmit lid) s = .next (whenRqFits s (concAdmitted t lid l us.1)))) ∧
  (∀ s inUnit owner slot sp, let pl : Place := if inUnit then .unit owner else .table owner
    Tbl.find? (spansAt s pl) slot = some sp → sp.st = .kwait → neighbourRuns (spansAt s pl) sp = false →
    ∃ t sp', exec (.evSpanResumeAlone inUnit owner slot) s = .next t ∧ Tbl.find? (spansAt t pl) slot = some sp' ∧
      sp'.st = .run ∧ sp'.pc = sp.pc + 12 ∧ sp'.lo = sp.lo ∧ sp'.hi = sp.hi ∧ sp'.aff = sp.aff ∧ t.mem = s.mem) ∧
  (∀ s (core : Fin 384) lid w, w ∈ unitsOn s core.val → w.2.lid = lid →
    exec (.evItemQueueFetch core lid) s = .next (fetchChunk s core.val lid)) ∧
  (∀ s core lid l sp rest, launch? s lid = some l → sortSpans l.pool = sp :: rest →
    let mine := (coreOf s core).items.filter (fun e => e.span.lid == lid)
    let may := mine.length < 2 ∧ itemsLeft s core lid < 1024 ∧ (mine = [] → itemRoom s core l lid = true) ∧
      (mine ≠ [] → itemHeld s core < 16) ∧ l.lpb.refill = true ∧ l.concWait = false ∧ poolSaved s lid = false
    let t := fetchChunk s core lid
    (¬ may → t = s) ∧
    (may → (∃ e, (coreOf t core).items = (coreOf s core).items ++ [e] ∧ e.span.lid = sp.lid ∧ e.span.pc = sp.pc ∧
        e.span.lo = sp.lo ∧ e.span.hi = min sp.hi (sp.lo + 1024)) ∧ t.mem = s.mem ∧
      ∃ l', launch? t lid = some l' ∧ (sp.hi ≤ sp.lo + 1024 → l'.pool = rest) ∧
        (sp.lo + 1024 < sp.hi → ∃ r, l'.pool = r :: rest ∧ r.lo = sp.lo + 1024 ∧ r.hi = sp.hi ∧ r.pc = sp.pc))) ∧
  (∀ s uid w l, unit? s uid = some w → unitDone s uid w = true → launch? s w.lid = some l →
    let s1 := freeUnit (returnItems (releaseCore s w.core) w.core w.lid uid) uid
    (l.ending = none → l.lpb.kind = false →
      exec (.evUnitComplete uid) s = .next (whenRqFits s (countUnit s1 w.lid w.triggered))) ∧
    (l.ending = none → l.lpb.kind = true →
      exec (.evUnitComplete uid) s = .next (whenRqFits s (countUnit (taskDone s1 l w.u (w.core / 2)) w.lid w.triggered))) ∧
    (∀ st, l.ending = some st → exec (.evUnitComplete uid) s =
      .next (if (residentUnits s1 w.lid).isEmpty then finishLaunch s1 w.lid st else s1)))

/-! ## Values, holds and copies -/

/-- R37, R39, R58, R101, R102, R208, R210, R212, R242, R323 to R328: values return, holds end, strands spill and are
restored, matrix work runs, and copies land. The model's readings and choices: what a squeeze writes, and where (logs 82, 132), that a
restore grants the strand's waiting allocations, after those of others that fit (log 83), which strand is the youngest, one held in
`bwait` included (log 146), and when the arrival of a sealed batch is due (log 58). -/
def Obligations.HoldAndLandingEvents : Prop :=
  (∀ s uid k id gen t d, strand? s uid k = some t → t.pends.find? (fun d => d.id == id) = some d → awaits d = true →
    ((memKind d.instr).isSome = true → d.gen = gen) →
    (∀ s1, performWaiting s uid k d = some s1 → exec (.evMemoryResponse uid k id gen) s =
      .next (setStrand s1 uid k (fun t => settle (setPend t id (fun q => { q with ready := q.ready ||| returnable q }))))) ∧
    (performWaiting s uid k d = none → exec (.evMemoryResponse uid k id gen) s = .next s)) ∧
  (∀ s uid k id gen t d, strand? s uid k = some t → t.pends.find? (fun d => d.id == id) = some d →
    (memKind d.instr).isSome = true → d.gen ≠ gen → exec (.evMemoryResponse uid k id gen) s = .next s) ∧
  (∀ s inUnit owner slot, let pl : Place := if inUnit then .unit owner else .table owner
    ∃ t, exec (.evSpanResponse inUnit owner slot) s = .next t ∧ t.mem = s.mem ∧
      Tbl.find? (spansAt t pl) slot = (Tbl.find? (spansAt s pl) slot).map spanReturn ∧
      ∀ n, n ≠ slot → Tbl.find? (spansAt t pl) n = Tbl.find? (spansAt s pl) n) ∧
  (∀ s uid k t0, strand? s uid k = some t0 → NoMatrixWaits t0 → t0.pends = [] → t0.owed = [] → t0.isSpilled = false →
    ∃ t, exec (.evResourceHoldEnd uid k) s = .next t ∧ Outside s t ∧ OtherStrands s t uid k ∧
      strand? t uid k = some { t0 with paths := t0.paths.map (fun p => if p.st = .hold then { p with st := .run } else p) }) ∧
  (∀ s uid k w l t0, unit? s uid = some w → launch? s w.lid = some l → Tbl.find? w.strands k = some t0 → 64 ≤ t0.timer →
    l.lpb.noprog = false →
    ∃ t, exec (.evFairnessTimerExpiry uid k) s = .next t ∧ Outside s t ∧ OtherStrands s t uid k ∧
      strand? t uid k = some (rotate t0 t0.cur false)) ∧
  (∀ s (core : Fin 384) (q : Fin 4), squeezed s core.val q.val = true → someSatisfied s core.val q.val = false →
    (∀ uid k t0, youngest s core.val q.val = some (uid, k) → strand? s uid k = some t0 →
      someSatisfied (setStrand s uid k spill) core.val q.val = true →
      ∃ t, exec (.evSqueeze core q) s = .next t ∧ Outside { s with mem := t.mem, l2 := t.l2 } t ∧ OtherStrands s t uid k ∧
        strand? t uid k = some (spill t0) ∧ (MemoryInv s → ∀ a, (∀ e ∈ spillPieces (setStrand s uid k spill) uid k,
          ¬ (e.2.2 ≤ a ∧ a < e.2.2 + e.2.1)) → cellGet t.mem a = cellGet s.mem a)) ∧
    (youngest s core.val q.val = none → exec (.evSqueeze core q) s = .next s)) ∧
  (∀ (t : Strand), t.g < held t → held t = t.regs.length → (spill t).regs = t.regs.take t.g ∧
    (spill t).spilled = t.regs.drop t.g ∧ (spill t).isSpilled = true) ∧
  (∀ s (core : Fin 384) (q : Fin 4) e t0, (quarterStrands s core.val q.val).find? (fun e => e.2.2.isSpilled) = some e →
    takesNow s core.val q.val = false → e.2.2.spilled.length + stallNeed e.2.2 ≤ poolFree s core.val q.val →
    strand? s e.1 e.2.1 = some t0 →
    ∃ t, exec (.evSpillRestore core q) s = .next t ∧ Outside { s with l2 := t.l2 } t ∧ OtherStrands s t e.1 e.2.1 ∧
      ∃ t1, strand? t e.1 e.2.1 = some t1 ∧ t1.isSpilled = false ∧ t1.spilled = [] ∧
        t1.stalls = t0.stalls.map (fun a => if a.granted = 0 then { a with granted := a.need } else a) ∧
        ∀ p ∈ t1.paths, p.st ≠ .hold) ∧
  (∀ s (core : Fin 384) (q : Fin 4) c m rest, let r := quarterOf s core.val q.val
    let n := max (mmaCycles m.a.fmt) (mmaCycles m.b.fmt)
    r.running = none → nextCtx r = some c → (nth r.ctxs c {}).queue = m :: rest →
    snapPending s core.val q.val c m.tile = false → (0 < r.burst ∧ r.burst + n ≤ 512 ∨ holdsToken s core.val = true) →
    q.val < (coreOf s core.val).quarters.length →
    let rd := fun a n => scratchGet s m.uid (scratchOff a) n
    ∃ t g, exec (.evMmaStart core q) s = .next t ∧ (quarterOf t core.val q.val).running = some g ∧ g.m = m ∧ g.ctx = c ∧
      (m.early = [] →
        g.latch.rows = (lanesOf m.signed).map (fun i => let r := (nth m.rows i 0).toNat
          (i, (List.range 96).map (fun j => m.a.raw rd r (m.koff + j)),
              (List.range 3).map (fun b => m.a.scaleRaw rd r (m.koff + 32 * b)))) ∧
        g.latch.bElems = (List.range 6144).map (fun e => m.b.raw rd (m.koff + e / 64) (m.noff.toNat + e % 64)) ∧
        g.latch.bScales = (List.range 192).map (fun e => m.b.scaleRaw rd (m.koff + 32 * (e / 64)) (m.noff.toNat + e % 64))) ∧
      (quarterOf t core.val q.val).lastCtx = c ∧ t.mem = s.mem) ∧
  (∀ s (core : Fin 384) (q : Fin 4), (quarterOf s core.val q.val).running = none → exec (.evMmaComplete core q) s = .next s) ∧
  (∀ s (core : Fin 384) (q : Fin 4) g, let r := quarterOf s core.val q.val
    let A := g.m.a.fmt
    let B := g.m.b.fmt
    let elem := fun (t : Ty) (v scale : Nat) => if t.isBfp then (if scale = 255 then Ext.nan else extOfInt (sext t.bits v))
      else if t.isFloat then dec t v else extOfInt (valI t v)
    let scale := fun (t : Ty) (v : Nat) => if t.isBfp then
        (if v = 255 then Ext.nan else .fin false 1 ((v : Int) - 125 - t.bits) false)
      else decodeF fmtE4M3 v
    r.running = some g → q.val < (coreOf s core.val).quarters.length → g.ctx < r.ctxs.length →
    (g.latch.rows.map (fun e => e.1)).Nodup → (∀ e ∈ g.latch.rows, e.1 < 32 ∧ e.2.1.length = 96 ∧ e.2.2.length = 3) →
    g.latch.bElems.length = 6144 → g.latch.bScales.length = 192 →
    let at' := fun (s : State) tile i j => tileGet (nth (quarterOf s core.val q.val).ctxs g.ctx {}).tiles tile i j
    ∃ t, exec (.evMmaComplete core q) s = .next t ∧ t.mem = s.mem ∧ (quarterOf t core.val q.val).running = none ∧
      (∀ e ∈ g.latch.rows, ∀ j, j < 64 →
        let a := fun c => elem A (nth e.2.1 c 0) (nth e.2.2 (c / 32) 0)
        let bv := fun c => elem B (nth g.latch.bElems (64 * c + j) 0) (nth g.latch.bScales (64 * (c / 32) + j) 0)
        let sum := fun b => ((List.range 31).map (fun c => mulX (a (32 * b + c + 1)) (bv (32 * b + c + 1)))).foldl (addX .rne)
          (mulX (a (32 * b)) (bv (32 * b)))
        let blk := fun b x => roundF fmtF32 .rne ⟨0, 0, none⟩ (addX .rne (decodeF fmtF32 x)
          (mulX (mulX (sum b) (scale A (nth e.2.2 b 0))) (scale B (nth g.latch.bScales (64 * b + j) 0))))
        at' t g.m.tile e.1 j = BitVec.ofNat 32 (blk 2 (blk 1 (blk 0 (at' s g.m.tile e.1 j).toNat)))) ∧
      ∀ tile i j, i < 32 → j < 64 → (tile ≠ g.m.tile ∨ ∀ e ∈ g.latch.rows, e.1 ≠ i) → at' t tile i j = at' s tile i j) ∧
  (∀ s (d : Drain) snap w, unit? s d.uid = some w → cellsWf 0 w.scratch = true → d.early = [] →
    let n := elemSize d.td.fmt
    (∀ e ∈ d.dst, ∃ o, e.2 = .scratch o) →
    d.dst.Pairwise (fun a b => ∀ o u, a.2 = .scratch o → b.2 = .scratch u → o + n ≤ u ∨ u + n ≤ o) →
    let t := d.dst.foldl (fun s e => drainWrite s (whoOf s d.uid d.k) d snap e.1 e.2) s
    (∀ e ∈ d.dst, ∀ o, e.2 = .scratch o → scratchGet t d.uid o n = toBytes n (roundF (fmtOf d.td.fmt) d.rnd
      ⟨d.seed, e.1 / 64 + 8 * (e.1 % 64), none⟩ (addX d.rnd (dec d.td.fmt (ofBytes (scratchGet s d.uid o n)))
        (mulX (mulX (decodeF fmtF32 (Tbl.getD snap e.1 0).toNat) (decodeF fmtF32 d.sA.toNat)) (decodeF fmtF32 d.sB.toNat))))) ∧
    ∀ a, (∀ e ∈ d.dst, ∀ o, e.2 = .scratch o → a < o ∨ o + n ≤ a) → scratchGet t d.uid a 1 = scratchGet s d.uid a 1) ∧
  (∀ s (core : Fin 384) (q : Fin 4) id d, let r := quarterOf s core.val q.val
    d ∈ r.drains → d.id = id → d.snapshot = none → q.val < (coreOf s core.val).quarters.length →
    ∃ t, exec (.evMdrainSnapshot core q id) s = .next t ∧ t.mem = s.mem ∧
      { d with snapshot := some (tileOnly (nth r.ctxs d.ctx {}).tiles d.tile) } ∈ (quarterOf t core.val q.val).drains) ∧
  (∀ s (core : Fin 384) (q : Fin 4) id d snap w, let r := quarterOf s core.val q.val
    r.drains.find? (fun d => d.id == id) = some d → d.snapshot = some snap → unit? s d.uid = some w → drainWaits s d = false →
    (∀ e ∈ d.dst, reachable s (dieOfCore core.val) (portOfUnit s d.uid) e.2 (elemSize d.td.fmt) true true = true) →
    let s1 := d.dst.foldl (fun s e => drainWrite s (whoOf s d.uid d.k) d snap e.1 e.2) (drainForce s d)
    let s2 := setQuarter (if d.dst.any (fun e => isScratch e.2) then testWaiters s1 d.uid else s1) core.val q.val (fun r =>
      { r with drains := r.drains.filter (fun x => x.id != id) })
    (d.bar = none → exec (.evMdrainApply core q id) s = .next s2) ∧
    (∀ off s3, d.bar = some off → barStep s2 d.uid off (arrival 0) = .ok s3 → exec (.evMdrainApply core q id) s = .next s3)) ∧
  (∀ s (core : Fin 384) id y, copy? s core.val id = some y → y.failed = false → landRoom s y = true →
    (copyLive s core.val y = true → landsAfter s core.val y (pendingBytes y) = false → landsInImage s (pendingBytes y) = false →
      landReach s core.val y (pendingBytes y) = true →
      exec (.evCopyLand core id) s =
        .next (whenRqFits s (dropRoot (copyDone (landList s core.val y (pendingBytes y) true) core.val y) y))) ∧
    (∀ first n, let bs := landWords y (mayLand s core.val y (bytesFrom y first n))
      landsAfter s core.val y bs = false → landsInImage s bs = false → landReach s core.val y bs = true →
      exec (.evCopyBytesLanded core id first n) s = .next (landList s core.val y bs false))) ∧
  (∀ s (core : Fin 384) id first y, let bs := landWords y (bytesFrom y 0 first)
    copy? s core.val id = some y → copyLive s core.val y = true → y.failed = false → recordRoom s y.lid = true →
    landsAfter s core.val y bs = false → landsInImage s bs = false → landReach s core.val y bs = true →
    (pendingBytes y).all bs.contains = false →
    exec (.evCopyUncorr core id first) s =
      .next (endUncorr (landList s core.val y bs false) ((copy? (landList s core.val y bs false) core.val id).getD y))) ∧
  (∀ s (core : Fin 384) id b t, sealReady (coreOf s core.val) id = some b →
    barStep (setCore s core.val (fun c => { c with seals := c.seals.eraseIdx id })) b.uid b.bar (arrival 0) = .ok t →
    exec (.evBatchDeferredArrival core id) s = .next t)

/-! ## Commands over partitions -/

/-- R371 to R380: a well-formed command of a partition with none in progress starts at once; CREATE, BIND_VF, UNBIND_VF,
DESTROY and RECEIPT; and the phases REASSIGN, RELEASE, DRAIN and SCRUB end. That RAIL_VOTE and PF_CAIRN outlast a partition is the
model's reading (DEDUCED, log 42), and so is that a block or image is unreadable while H0 is down (DEDUCED, logs 41, 128). -/
def Obligations.PartitionCommands : Prop :=
  (∀ s addr b, let p := cmdPart b
    let k : PartCmd := { op := fld b 0 8, bits := b, seq := s.serial }
    let s0 := cmdTaken (fresh s).2 p k
    fnOpen s 128 = true → commandBlock s addr = some b → cmdWellFormed b = true → (partOf s p).cmd = none → (partOf s p).cmds = [] →
    (fld b 0 8 = 1 → createCode s0 b s.serial = 0 → ∃ t, exec (.evPartCreate addr) s = .next t ∧
      (partOf t p).st = .reassign ∧ (partOf t p).dir = false ∧ (partOf t p).cmd = some { op := 1, bits := b } ∧
      (partOf t p).key = some (s.serial + 1) ∧
      (partOf t p).meters = [0, 0, 0, 0, 0, 0, 0] ∧ partSpan (partOf t p) = partSpan (createdPart b) ∧
      t.usedSlices = s.usedSlices ++ partSlices (createdPart b) ∧ t.receiptSeq = s.receiptSeq + 1 ∧ t.mem = s.mem) ∧
    (fld b 0 8 = 1 → createCode s0 b s.serial ≠ 0 →
      exec (.evPartCreate addr) s = .next (partDoneEvent s0 1 p (createCode s0 b s.serial) 0)) ∧
    (fld b 0 8 = 2 → (partOf s p).st = .live → exec (.evPartDestroy addr) s =
      .next (pumpCmds p 1 (beginDrain (setPart s0 p (fun q => { q with cmd := some k })) p))) ∧
    (fld b 0 8 = 3 → bindCode s0 b = 0 → ∃ t, exec (.evBindVf addr) s = .next t ∧ t.mem = s.mem ∧
      (fnOf t (cmdVf b)).bound = true ∧ (fnOf t (cmdVf b)).part = p ∧ (fnOf t (cmdVf b)).world = fld b 200 4 ∧
      (fnOf t (cmdVf b)).share = fld b 204 8 ∧ (fnOf t (cmdVf b)).s2root = BitVec.ofNat 64 (fld b 212 40)) ∧
    (fld b 0 8 = 4 → (partOf s p).st = .live → (fnOf s (cmdVf b)).bound = true → (fnOf s (cmdVf b)).part = p →
      exec (.evUnbindVf addr) s =
        .next (pumpCmds p 1 (beginUnbind (setPart s0 p (fun q => { q with cmd := some k })) (cmdVf b)))) ∧
    (fld b 0 8 = 5 → (partOf s p).st = .scrub → (partOf s p).receipt.isSome = true → let d := deliver s0 p b
      exec (.evReceipt addr) s = .next (pumpCmds p 1 (if d.1 = codeShort then partDoneEvent d.2.2 5 p d.1 d.2.1
        else leaveScrub (partDoneEvent d.2.2 5 p d.1 d.2.1) p)))) ∧
  (∀ s addr, fnOpen s 128 = true →
    (commandBlock s addr = none ∨ ∃ b, commandBlock s addr = some b ∧ cmdWellFormed b = false) →
    ∃ e t, exec (.evPartCreate addr) s = .next t ∧ t.parts = s.parts ∧ t.mem = s.mem ∧
      (fnOf t 128).events = (fnOf s 128).events ++ [e] ∧ e.code = evPartDone) ∧
  (∀ s (vf : Fin 128), let f := fnOf s vf.val
    let s1 := setFn s vf.val (fun f =>
      { f with part := 0, bound := false, port := false, world := 0, share := 0, s2root := 0, saveArea := 0, debugWord := 0
               cairnBind := List.replicate 8 0, unbinding := false, barred := [], faults := 0 })
    f.unbinding = true → vfBusy s vf.val = false →
    ((∀ k, (partOf s f.part).cmd = some k → ¬ (k.op = 4 ∧ cmdVf k.bits = vf.val)) →
      exec (.evUnbindVfComplete vf) s = .next s1) ∧
    (∀ k, (partOf s f.part).cmd = some k → k.op = 4 → cmdVf k.bits = vf.val →
      exec (.evUnbindVfComplete vf) s = .next (endCmd s1 f.part 0 0))) ∧
  (∀ s (p : Fin 64), let q := partOf s p.val
    q.st = .reassign →
    (q.dir = true → ∃ t, exec (.evPartitionReassignDone p) s = .next t ∧ (partOf t p.val).st = .release ∧
      (partOf t p.val).key = none ∧ ∀ d e, nth (dieOf t d).engines e none ≠ some p.val) ∧
    (∀ k, q.dir = false → q.cmd = some k → hostUp s = true → ∃ t, exec (.evPartitionReassignDone p) s = .next t ∧
      (partOf t p.val).st = .release ∧ t.mem = (copyImage s p.val k.bits).mem ∧ t.hostMem = s.hostMem) ∧
    (∀ k, q.dir = false → q.cmd = some k → hostUp s = false → q.cmds = [] → ∃ t, exec (.evPartitionReassignDone p) s = .next t ∧
      (partOf t p.val).st = .scrub ∧ (partOf t p.val).cmd = none)) ∧
  (∀ s (p : Fin 64), let q := partOf s p.val
    q.st = .release → q.cmds = [] →
    (q.dir = true → ∃ t, exec (.evPartitionReleaseDone p) s = .next t ∧ (partOf t p.val).st = .free ∧
      (∀ x, x ∈ t.usedSlices ↔ x ∈ s.usedSlices ∧ x ∉ partSlices q) ∧
      (partOf t p.val).railVote = q.railVote ∧ (partOf t p.val).pfCairn = q.pfCairn) ∧
    (q.dir = false → ∃ t, exec (.evPartitionReleaseDone p) s = .next t ∧ (partOf t p.val).st = .live ∧
      (partOf t p.val).t0 = s.time ∧ (partOf t p.val).cmd = none ∧ (partOf t p.val).hostRoutines = [] ∧
      ∀ cl ∈ partSlices q, (clusterOf t cl).reeve.call = none ∧ (clusterOf t cl).quantum = 2000)) ∧
  (∀ s (p : Fin 64), (partOf s p.val).st = .drain → drained s p.val = true →
    ∃ t r, exec (.evDrainEnd p) s = .next t ∧ (partOf t p.val).st = .scrub ∧ t.mem = s.mem ∧
      (partOf t p.val).usage = (partOf s p.val).usage ++ [r] ∧ r.final = true ∧ r.seq = (partOf s p.val).nextSeq ∧
      r.time = s.time) ∧
  (∀ s (p : Fin 64) fails, let q := partOf s p.val
    q.st = .scrub → q.receipt = none → q.cmds = [] → ∃ t, exec (.evScrubEnd p fails) s = .next t ∧
      (∀ a, inSlices (partSlices q) a = true → cellGet t.mem a = 0) ∧
      (MemoryInv s → ∀ a, inSlices (partSlices q) a = false → cellGet t.mem a = cellGet s.mem a) ∧
      (∀ o, 4096 * q.cbase ≤ o → o < 4096 * q.cbase + 2 ^ q.clog → commonsGet t o = 0) ∧
      (partOf t p.val).region = none ∧ (partOf t p.val).domains = [] ∧
      (∀ e ∈ exclusionsOf s p.val fails, e.2 = 1 → e.1 ∈ t.retired))

/-! ## Records, time and power -/

/-- R404 to R410: meters and usage records. R406: PTM. R413, R451: lifetime histograms. R414 to R416: ratios, passes, tokens
and votes. That a new PTM offset replaces what is left of the last one is the model's reading (DEDUCED, log 110); the AUX bytes of
USAGE_DONE are log 38, and the ring places of new tokens log 40. -/
def Obligations.RecordAndPowerEvents : Prop :=
  (∀ s (p : Fin 64), recordDue s (partOf s p.val) = true →
    ((partOf s p.val).usage.length < 15 → ∃ t r, exec (.evUsageRecordPeriodic p) s = .next t ∧
      (partOf t p.val).usage = (partOf s p.val).usage ++ [r] ∧ r.final = false ∧ r.seq = (partOf s p.val).nextSeq ∧
      r.time = s.time ∧ r.skipped = (partOf s p.val).skipped ∧ (partOf t p.val).nextSeq = (partOf s p.val).nextSeq + 1 ∧
      (partOf t p.val).periods = (partOf s p.val).periods + 1 ∧ (partOf t p.val).skipped = 0) ∧
    (15 ≤ (partOf s p.val).usage.length → ∃ t, exec (.evUsageRecordPeriodic p) s = .next t ∧
      (partOf t p.val).usage = (partOf s p.val).usage ∧ (partOf t p.val).skipped = (partOf s p.val).skipped + 1 ∧
      (partOf t p.val).periods = (partOf s p.val).periods + 1)) ∧
  (∀ s (p : Fin 64), msDue s (partOf s p.val) = true → ∃ t, exec (.evMeterMs p) s = .next t ∧
    (partOf t p.val).msDone = (partOf s p.val).msDone + 1 ∧
    (6 < (partOf s p.val).meters.length → nth (partOf t p.val).meters 4 0 = (if (partOf s p.val).st = .live then
        min (2 ^ 64 - 1) (nth (partOf s p.val).meters 4 0 + 4 * (partSpan (partOf s p.val)).2) else nth (partOf s p.val).meters 4 0) ∧
      nth (partOf t p.val).meters 6 0 = min (2 ^ 64 - 1) (nth (partOf s p.val).meters 6 0 + liveLines s p.val))) ∧
  (∀ s p i n, frozen (partOf s p) = true → (partOf (meterAdd s p i n) p).meters = (partOf s p).meters) ∧
  (∀ s (v : DWord), fnOpen s 128 = true → s.pulls = [] →
    (∀ r rest, pullable (partOf s (v.toNat % 64)) = true → (partOf s (v.toNat % 64)).usage = r :: rest → ∃ t, exec (.evUsagePull v) s = .next t ∧
      t.hostMem = putBytes s.hostMem (v.toNat / 4096 * 4096) (usageBytes r) ∧
      t.pulls = [⟨v.toNat % 64, v.toNat / 4096 * 4096, some r.seq⟩] ∧ t.parts = s.parts) ∧
    (pullable (partOf s (v.toNat % 64)) = false ∨ (partOf s (v.toNat % 64)).usage = [] → ∃ t, exec (.evUsagePull v) s = .next t ∧ t.hostMem = s.hostMem ∧
      t.pulls = [⟨v.toNat % 64, v.toNat / 4096 * 4096, none⟩])) ∧
  (∀ s y, s.pulls = [y] →
    ∃ t e, exec .evUsageDone s = .next t ∧ t.pulls = [] ∧ (fnOf t 128).events = (fnOf s 128).events ++ [e] ∧
      e.code = evUsageDone ∧ e.aux = doneAux 0 y.part 0 (y.seq.getD (2 ^ 64 - 1)) ∧
      (∀ n, y.seq = some n → (partOf t y.part).usage = (partOf s y.part).usage.filter (fun r => r.seq != n))) ∧
  (∀ s (v : DWord), fnOpen s 128 = true → ∃ t e, exec (.evLifeRead v) s = .next t ∧
    t.hostMem = putBytes s.hostMem (v.toNat / 4096 * 4096) (fieldPart s) ∧ (fnOf t 128).events = (fnOf s 128).events ++ [e] ∧
    e.code = evUsageDone ∧ e.aux = doneAux 0 0 0 (2 ^ 64 - 2)) ∧
  (∀ s, s.dev.ready = true → s.lifeAt + 3600000000000 ≤ s.time → ∃ t, exec .evLifeHistogramWrite s = .next t ∧
    t.lifeFlash = t.life ∧ t.lifeAt = s.lifeAt + 3600000000000 ∧ t.life.hours = s.life.hours + 1) ∧
  (∀ s, s.dev.ready = true → ∃ t, exec .evOrderlyShutdown s = .next t ∧ t.lifeFlash = s.life ∧ t.lifeAt = s.lifeAt ∧
    t.mem = s.mem) ∧
  (∀ s o, s.dev.ready = true → exec (.evPtmAlign o) s = .next { s with ptm := o }) ∧
  (∀ ptm n, let e := elapsed ptm n
    n ≤ e.1 + n / 10000 ∧ e.1 ≤ n + n / 10000 ∧ (e.1 : Int) + e.2 = (n : Int) + ptm) ∧
  (∀ s (cl : Fin 192) p, partOfSlice s cl.val = some p → ∃ t, exec (.evLaneRatioApply cl) s = .next t ∧
    (clusterOf t cl.val).laneCur = min (clusterOf s cl.val).laneTgt (ratioCap (fld (partOf s p).railVote.toNat 0 3)) ∧
    ∀ c, c ≠ cl.val → clusterOf t c = clusterOf s c) ∧
  (∀ s (cl : Fin 192) (v : BitVec 2), (v ≠ 3#2 → ∃ t, exec (.evPassCountSet cl v) s = .next t ∧
      (clusterOf t cl.val).pass = v.toNat ∧ ∀ c, c ≠ cl.val → clusterOf t c = clusterOf s c) ∧
    exec (.evPassCountSet cl 3) s = .next s) ∧
  (∀ s (d : Fin 16) n, 1 ≤ n → n ≤ 12 → ∃ t, exec (.evPowerTokensSet d n) s = .next t ∧ (dieOf t d.val).tokens.length = n ∧
    (∀ i, i < min n (dieOf s d.val).tokens.length → nth (dieOf t d.val).tokens i 0 = nth (dieOf s d.val).tokens i 0) ∧
    ∀ x, x ∈ (dieOf t d.val).tokens → x < 12 ∨ x ∈ (dieOf s d.val).tokens) ∧
  (∀ s (d : Fin 16), (dieOf s d.val).tokenCycles + 64 ≤ s.clock → ∃ t, exec (.evMatrixTokenAdvance d) s = .next t ∧
    (dieOf t d.val).tokens = (dieOf s d.val).tokens.map (fun x => (x + 1) % 12) ∧
    (dieOf t d.val).tokenCycles = (dieOf s d.val).tokenCycles + 64 ∧ t.mem = s.mem) ∧
  (∀ s (p : Fin 64) (v : DWord), fnOpen s 128 = true → ∃ t, exec (.evRailVote p v) s = .next t ∧
    (partOf t p.val).railVote = BitVec.ofNat 64 (v.toNat % 8) ∧ ∀ q, q ≠ p.val → partOf t q = partOf s q)

/-! ## Cairn regions, domains and syncs -/

/-- R273 to R275, R448: CAIRN_CMD makes and removes regions, domains and links. R281: caches are invalidated and nodes
reclaimed. R295, R296: how an `nmsync` ends, and what a peer's lines meet. The model's readings and choices: the AUX bytes of CAIRN_DONE
(log 38), the numbers of the answers to a peer (log 3), the counts that a sync has reached (log 104), the order of the names it offers,
each once (log 154). A deleted domain's nodes leave the reclaim queues, and nodes that had overflowed take their places (R281). -/
def Obligations.CairnCommandsAndEvents : Prop :=
  (∀ s0 addr b, fnOpen s0 128 = true → ∀ s, cairnBlock s0 addr = (some b, s) →
    let p := cmdPart b
    let q := partOf s p
    fld b 36 28 = 0 → fld b 192 320 = 0 → q.st = .live →
    (fld b 0 8 = 1 → 0 < cLines b → q.region = none →
      cSlots b + regionPages ⟨cSlots b, cLines b, 0⟩ ≤ pagesPerGroup * (partSpan q).2 →
      ∃ t r, exec (.evCairnRegion addr) s0 = .next t ∧ (partOf t p).region = some r ∧ r.first = cSlots b ∧ r.units = cLines b ∧
        r.freeLines = cLines b * 67108864 / 192 ∧ t.mem = s.mem) ∧
    (∀ r, fld b 0 8 = 1 → cLines b = 0 → q.region = some r → domainBound s p (fun _ => true) = false →
      domainLinked s p (fun _ => true) = false → nmOutstanding s p = false →
      r.first + regionPages r ≤ pagesPerGroup * (partSpan q).2 →
      ∃ t, exec (.evCairnRegion addr) s0 = .next t ∧ (partOf t p).region = none ∧ (partOf t p).domains = [] ∧
        ∀ i o, i < regionPages r → o < pageBytes → cellGet t.mem (pageToPa q (r.first + i) + o) = 0) ∧
    (∀ r, fld b 0 8 = 2 → 1 ≤ cSlots b → cSlots b ≤ 65536 → Tbl.has q.domains (cDomain b) = false →
      Tbl.has q.links (cDomain b) = false → q.region = some r → domainLines (cLines b) (cSlots b) ≤ r.freeLines → cKeyAddr b = 0 →
      ∃ t d, exec (.evCairnCreate addr) s0 = .next t ∧ Tbl.find? (partOf t p).domains (cDomain b) = some d ∧
        d.budget = cLines b ∧ d.nslots = cSlots b ∧ d.roots = [] ∧ d.dir = [] ∧
        d.shards = newShards p (cDomain b) (cLines b) (partSpan q).2 ∧
        (partOf t p).region = some { r with freeLines := r.freeLines - domainLines (cLines b) (cSlots b) }) ∧
    (fld b 0 8 = 3 → Tbl.has q.domains (cDomain b) = true → domainBound s p (fun i => i == cDomain b) = false →
      domainLinked s p (fun i => i == cDomain b) = false → nmOutstanding s p = false →
      let but (d : Option Domain) : Option Domain := d.map (fun e => { e with overflow := [] })
      ∃ t, exec (.evCairnDelete addr) s0 = .next t ∧ Tbl.find? (partOf t p).domains (cDomain b) = none ∧
        ∀ d, d ≠ cDomain b → but (Tbl.find? (partOf t p).domains d) = but (Tbl.find? q.domains d)) ∧
    (fld b 0 8 = 4 → cHolder b ≠ p → (partOf s (cHolder b)).st = .live →
      Tbl.has (partOf s (cHolder b)).domains (cHdom b) = true → Tbl.has q.domains (cDomain b) = false →
      Tbl.has q.links (cDomain b) = false → q.owner = (partOf s (cHolder b)).owner →
      ∃ t, exec (.evCairnLink addr) s0 = .next t ∧ Tbl.find? (partOf t p).links (cDomain b) = some (cHolder b, cHdom b)) ∧
    (fld b 0 8 = 5 → Tbl.has q.links (cDomain b) = true →
      ∃ t, exec (.evCairnUnlink addr) s0 = .next t ∧ Tbl.find? (partOf t p).links (cDomain b) = none)) ∧
  (∀ s0 addr s, fnOpen s0 128 = true → cairnBlock s0 addr = (none, s) → ∃ t e, exec (.evCairnRegion addr) s0 = .next t ∧
    t.parts = s.parts ∧ (fnOf t 128).events = (fnOf s 128).events ++ [e] ∧ e.code = evCairnDone ∧ e.aux = doneAux 0 0 5 0) ∧
  (∀ s (core : Fin 384), ∃ t, exec (.evCairnCacheInvalidate core) s = .next t ∧ t.mem = s.mem ∧
    (coreOf t core.val).cairn = [] ∧ (∀ c, c ≠ core.val → coreOf t c = coreOf s c) ∧
    ∀ p d f, f ∈ (Tbl.getD (partOf t p).domains d { key := 0, budget := 0, nslots := 0, roots := [], free := [], lines := 0 }).freed →
      core.val ∉ f.cores) ∧
  (∀ s (p : Fin 64) (dom : Fin 256) (slice : Fin 192) x rest, Tbl.getD s.reclaim slice.val [] = x :: rest → x.part = p.val →
    x.dom = dom.val → let k : DomKey := ⟨p.val, dom.val⟩
    let s1 := { s with reclaim := if rest.isEmpty then Tbl.del s.reclaim slice.val else Tbl.put s.reclaim slice.val rest }
    exec (.evReclaimNode p dom slice) s = .next (freeLine ((childrenOf x.line).foldl (fun s c => dropRefBy x.by' s k c)
      (refillReclaim p.val slice.val 1 (cairnTraffic s1 true k))) k x.group)) ∧
  (∀ s (p : Fin 64) (dom : Fin 256) name line root k d, (partOf s p.val).st = .live → tableEntry s p.val dom.val = some k →
    domain? s k = some d → line.length = 192 →
    (receive d name line = .key → exec (.evNmsyncLineReceived p dom name line root) s = .next { s with latch := some [2] }) ∧
    (receive d name line = .collided →
      exec (.evNmsyncLineReceived p dom name line root) s = .next { s with latch := some [3] }) ∧
    (receive d name line = .full → exec (.evNmsyncLineReceived p dom name line root) s = .next { s with latch := some [4] }) ∧
    (receive d name line = .wait → exec (.evNmsyncLineReceived p dom name line root) s = .next s) ∧
    (receive d name line = .held → exec (.evNmsyncLineReceived p dom name line root) s =
      .next { (if root then addRef s k name else s) with latch := some [1] }) ∧
    (∀ g, receive d name line = .new → lineGroup d.free (homeGroup name d.free.length) = some g →
      let s1 := createEntry (countCollision (cairnTraffic s true k) k (hashMet d name)) k name (nameKind name) line g
      exec (.evNmsyncLineReceived p dom name line root) s = .next { (if root then addRef s1 k name else s1) with latch := some [1] })) ∧
  (∀ s (p : Fin 64) (dom : Fin 256) name, (∀ k, (partOf s p.val).st = .live → tableEntry s p.val dom.val = some k →
      exec (.evNmsyncOffer p dom name) s = .next { s with latch := some [if known s k name then 1 else 0] }) ∧
    ((partOf s p.val).st ≠ .live → exec (.evNmsyncOffer p dom name) s = .next { s with latch := none })) ∧
  (∀ s id y, s.syncs.find? (fun y => y.id == id) = some y →
    (∀ ts (state : Fin 6) target, syncTargets s y.handle = some ts → syncEnds y state.val = true →
      exec (.evNmsyncComplete id state y.sent y.held target) s =
        .next (endSync s y state.val y.sent y.held (if state.val = 1 then 0 else target))) ∧
    (∀ ts (state : Fin 6) sent supp target, syncTargets s y.handle = some ts →
      syncEnds y state.val = false ∨ sent ≠ y.sent ∨ supp ≠ y.held →
      exec (.evNmsyncComplete id state sent supp target) s = .next s) ∧
    (∀ state sent supp target, syncTargets s y.handle = none →
      exec (.evNmsyncComplete id state sent supp target) s = .next (endSync s y 5 0 0 (fld y.handle 0 16))) ∧
    (∀ target, y.start + 100000000 ≤ s.time →
      exec (.evNmsyncTimeout id target) s = .next (endSync s y 5 y.sent y.held target)) ∧
    (∀ target, s.time < y.start + 100000000 → exec (.evNmsyncTimeout id target) s = .next s)) ∧
  (∀ s (y : Sync) n rest, y.offers = n :: rest → (syncOffer s y true).offers = rest ∧ (syncOffer s y true).held = y.held + 1 ∧
    (syncOffer s y true).marked = y.marked ∧ (syncOffer s y false).marked = n :: y.marked ∧ (syncOffer s y false).held = y.held ∧
    ∀ m, m ∈ (syncOffer s y false).offers ↔ m ∈ rest ∨ (m ≠ 0 ∧ nameKind n ≠ 0 ∧ m ∈ childrenOf (lineFor s ⟨y.part, y.dom⟩ n) ∧
      m ∉ y.offered ∧ m ≠ n ∧ m ∉ rest)) ∧
  (∀ y : Sync, (y.offers ≠ [] → syncSend y = y) ∧
    (∀ m rest, y.offers = [] → y.marked = m :: rest → syncSend y = { y with marked := rest, sent := y.sent + 1 }))

/-! ## Saves, halts, banks and worlds -/

/-- R229: banks move between roles. R382: a quarter moves to another world. R423, R424, R431, R440: units of a halt are
saved, boundary stops end, and a halt ends with its status block. R441: a bulk command ends. R426: a saved unit is restored. The model's
readings and choices: a boundary stop waits for a `bwait` that holds its lanes and for reclaim (DEDUCED, logs 98, 168), banks are lent
and depart quarter by quarter (logs 103, 150), the L1 lines that leave with a bank (log 102), where the banks of an allocation lie
(log 33). -/
def Obligations.SaveAndWorldEvents : Prop :=
  (∀ s uid h w, s.halts.find? (fun h => h.todo.contains uid) = some h → unit? s uid = some w →
    midHalt s h.bnd h.gang w.core = true → rqRoom s h.vf [(w.core / 2, .resume uid)] = true →
    exec (.evUnitSave uid) s = .next (haltSave s h uid w true)) ∧
  (∀ s uid h w, s.halts.find? (fun h => h.todo.contains uid && s.stops.any (fun t => t.uid == uid && t.halt == h.id)) = some h →
    unit? s uid = some w →
    (issueDone s uid w = true → s.time ≤ h.deadline → rqRoom s h.vf [(w.core / 2, .resume uid)] = true →
      exec (.evBoundaryStopDone uid) s = .next (haltSave s h uid w false)) ∧
    (h.deadline < s.time → ∃ t, exec (.evBoundaryStopMiss uid) s = .next t ∧ t.units = s.units ∧ t.images = s.images ∧
      t.mem = s.mem ∧ (∀ y ∈ t.stops, y.uid ≠ uid) ∧
      ∃ h' ∈ t.halts, h'.id = h.id ∧ uid ∉ h'.todo ∧ dieOfCore w.core ∈ h'.missed)) ∧
  (∀ s h uid w mid s1, let s0 := dropStops s (fun t => t.uid == uid)
    saveUnit s0 uid mid (lastSave s0 h uid) = some s1 → haltSave s h uid w mid = mapHalts (queueResume s1 uid (w.core / 2) w.lid false) h.id (fun h =>
      { h with todo := h.todo.filter (· != uid), saved := h.saved ++ [uid] })) ∧
  (∀ s uid core prio im l, Tbl.find? s.images uid = some im → launch? s im.unit.lid = some l →
    (canRestore s core im l = false ∨ im.awaits ≠ [] → restoreUnit s uid core prio = (none, s)) ∧
    (canRestore s core im l = true → im.awaits = [] → im.copies = [] → im.incoming = [] → im.ctxs = [] → im.drains = [] →
      im.launchSpans = [] → im.unit.spans = [] → spillLen l.lpb = 0 →
      (∀ e ∈ im.unit.strands, e.2.pends = [] ∧ e.2.isSpilled = false ∧ ∀ p ∈ e.2.paths, p.st ≠ .bwait) →
      ∃ t w, (restoreUnit s uid core prio).1 = some t ∧ unit? t uid = some w ∧ w.core = core ∧ w.prio = prio ∧
        w.lid = im.unit.lid ∧ w.u = im.unit.u ∧ w.scratch = im.unit.scratch ∧
        (∀ k t0, Tbl.find? im.unit.strands k = some t0 →
          ∃ slot, strand? t uid k = some { t0 with slot := slot, spillUsed := false }) ∧
        Tbl.find? t.images uid = none ∧ t.mem = s.mem ∧ (∀ e ∈ (coreOf t core).l1, e.2.dirty = true) ∧
        ∀ u, u ≠ uid → Tbl.find? t.images u = Tbl.find? s.images u ∧ unit? t u = unit? s u)) ∧
  (∀ s id h, s.halts.find? (fun h => h.id == id) = some h → (∀ u ∈ h.todo, Tbl.has s.units u = false) →
    let s1 := dropStops { s with halts := s.halts.filter (fun k => k.id != id) } (fun t => t.halt == id)
    (∀ y ∈ s1.halts, y.id ≠ id) ∧ (∀ y ∈ s1.stops, y.halt ≠ id) ∧
    exec (.evHaltDone id) s = .next (putStatus (if h.gang then endGang s1 h else s1) h.block (haltState h) h.saved.length h.missed)) ∧
  (∀ s (die : Fin 16) (engine : Fin 8) i b, let bs := (dieOf s die.val).bulk
    bs.findIdx? (fun b => b.engine == engine.val) = some i → bs[i]? = some b → b.started = true →
    (b.evict = false → exec (.evBulkDone die engine) s =
      .next (bulkPump die.val engine.val 64 (setDie (bulkReturnNow s b) die.val (fun d => { d with bulk := d.bulk.eraseIdx i })))) ∧
    (b.evict = true → copiesHold s .ipa b.vf (b.ipa / pageBytes) = false → exec (.evBulkDone die engine) s =
      .next (bulkPump die.val engine.val 64 (setDie (bulkEvictNow (dropXlat s .ipa b.vf (b.ipa / pageBytes)) b) die.val
        (fun d => { d with bulk := d.bulk.eraseIdx i }))))) ∧
  (∀ s (core : Fin 384), let c := coreOf s core.val
    (∀ b, c.st < c.sc → freeScratch s core.val = some b → c.lc < c.lt →
      exec (.evBankMove core .scratch .l1) s = .next (recheckWaiting (setCore (dropScratch s core.val b) core.val (fun c =>
        { c with sc := c.sc - 1, lc := c.lc + 1 })) core.val)) ∧
    (c.lt < c.lc → c.sc < c.st → exec (.evBankMove core .l1 .scratch) s = .next (recheckWaiting (setCore (dropL1Bank s core.val)
      core.val (fun c => { c with lc := c.lc - 1, sc := c.sc + 1 })) core.val)) ∧
    (∀ (q : Fin 4) b, c.st < c.sc → freeScratch s core.val = some b → nth c.xq q.val 0 < c.xt →
      exec (.evBankMove core .scratch (.regext q)) s = .next (recheckWaiting (setCore (dropScratch s core.val b) core.val (fun c =>
        { c with sc := c.sc - 1, xq := setNth c.xq q.val (nth c.xq q.val 0 + 1) })) core.val)) ∧
    (∀ (q : Fin 4) b, emptyBank s core.val q.val = some b → c.lc < c.lt →
      exec (.evBankMove core (.regext q) .l1) s = .next (recheckWaiting (setCore (dropBank s core.val q.val b) core.val (fun c =>
        { c with xq := setNth c.xq q.val (nth c.xq q.val 0 - 1), lc := c.lc + 1 })) core.val)) ∧
    (∀ dst, freeScratch s core.val = none → exec (.evBankMove core .scratch dst) s = .next s) ∧
    (∀ (q : Fin 4) dst, emptyBank s core.val q.val = none → exec (.evBankMove core (.regext q) dst) s = .next s) ∧
    (c.sc ≤ c.st → exec (.evBankMove core .scratch .l1) s = .next s)) ∧
  (∀ s (core : Fin 384) (q : Fin 4), let c := coreOf s core.val
    (quarterOf s core.val q.val).zsig = none → nth c.wTgt q.val 0 ≠ nth c.wCur q.val 0 → nth c.wPend q.val false = false →
    nth c.wFail q.val false = false → quarterStrands s core.val q.val = [] → c.wCur.length = 4 → c.wPend.length = 4 →
    (nth c.wCur q.val 0 = 0 → ∃ t, exec (.evQuarterWorldMove core q) s = .next t ∧ t.mem = s.mem ∧
      nth (coreOf t core.val).wCur q.val 0 = nth c.wTgt q.val 0 ∧ nth (coreOf t core.val).wPend q.val false = false) ∧
    (nth c.wCur q.val 0 ≠ 0 → ∃ t, exec (.evQuarterWorldMove core q) s = .next t ∧ t.mem = s.mem ∧
      nth (coreOf t core.val).wCur q.val 0 = nth c.wCur q.val 0 ∧ nth (coreOf t core.val).wPend q.val false = true)) ∧
  (∀ s (core : Fin 384) (q : Fin 4) seen, (quarterOf s core.val q.val).zsig = some seen →
    exec (.evQuarterWorldMove core q) s = .next (checkSig s core.val q.val))

/-! ## Ports, links and start-up -/

/-- R248, R447: host accesses reach the bytes their window maps. R251, R449: accesses of peers. R259, R385: links and keys.
R452: start-up. Which physical cores a die's logical cores are is the model's choice (log 151), and so are the runs of tag failures by
direction (DEDUCED, log 105). -/
def Obligations.PortEvents : Prop :=
  (∀ s (w : Fin 8) off (data : List Byte), s.dev.ready = true →
    ((∀ e ∈ pagePieces off data.length, (windowPa s w.val e.1 e.2).isSome = true) →
      ∃ t, exec (.evHostWrite w off data) s = .next t ∧ t.hostMem = s.hostMem ∧ t.cores = s.cores ∧
        t.mem = (pagePieces off data.length).foldl (fun m e => match windowPa s w.val e.1 e.2 with
          | some pa => putBytes m pa (slice data (e.1 - off) e.2)
          | none => m) s.mem) ∧
    (∀ e ∈ pagePieces off data.length, windowPa s w.val e.1 e.2 = none → exec (.evHostWrite w off data) s = .next s)) ∧
  (∀ s (w : Fin 8) off n, s.dev.ready = true →
    ((∀ e ∈ pagePieces off n, (windowPa s w.val e.1 e.2).isSome = true) →
      ∃ t, exec (.evHostRead w off n) s = .next t ∧ t.mem = s.mem ∧
        t.latch = some ((pagePieces off n).flatMap (fun e => match windowPa s w.val e.1 e.2 with
          | some pa => getBytes s.mem pa e.2
          | none => []))) ∧
    (∀ e ∈ pagePieces off n, windowPa s w.val e.1 e.2 = none → exec (.evHostRead w off n) s = .next { s with latch := none })) ∧
  (∀ s (w : Fin 8) off (data : List Byte) n, s.dev.ready = false → exec (.evHostWrite w off data) s = .next s ∧
    exec (.evHostRead w off n) s = .next { s with latch := none }) ∧
  (∀ s (port : Fin 12) (vf : Fin 128) ipa, s.dev.ready = true →
    (∀ n pa, peerPa s port.val vf.val ipa n .read = some pa → ∃ t, exec (.evPeerAccess port vf ipa (.read n)) s = .next t ∧
      t.latch = some (getBytes s.mem pa n) ∧ t.mem = s.mem) ∧
    (∀ d pa, peerPa s port.val vf.val ipa d.length .write = some pa → ∃ t, exec (.evPeerAccess port vf ipa (.write d)) s = .next t ∧
      t.latch = some [] ∧ t.mem = putBytes s.mem pa d) ∧
    (∀ f (ty : Ty) v pa, let n := ty.bits / 8
      peerPa s port.val vf.val ipa n .rmw = some pa → pa % n = 0 →
      ∃ t, exec (.evPeerAccess port vf ipa (.atomic f ty v)) s = .next t ∧ t.latch = some (getBytes s.mem pa n) ∧
        t.mem = putBytes s.mem pa (toBytes n (atomNew f ty (ofBytes (getBytes s.mem pa n)) v.toNat))) ∧
    (∀ (wide : Bool) cmp new pa, let n := if wide then 8 else 4
      peerPa s port.val vf.val ipa n .rmw = some pa → pa % n = 0 →
      ∃ t, exec (.evPeerAccess port vf ipa (.cas wide cmp new)) s = .next t ∧ t.latch = some (getBytes s.mem pa n) ∧
        t.mem = if ofBytes (getBytes s.mem pa n) = cmp.toNat % 2 ^ (8 * n) then putBytes s.mem pa (toBytes n new.toNat)
          else s.mem)) ∧
  (∀ s (port : Fin 12) (vf : Fin 128) ipa op,
    (peerPa s port.val vf.val ipa (peerBytes op) (peerNeeds op) = none →
      exec (.evPeerAccess port vf ipa op) s = .next { s with latch := none }) ∧
    (∀ pa, peerPa s port.val vf.val ipa (peerBytes op) (peerNeeds op) = some pa → peerNeeds op = .rmw → pa % peerBytes op ≠ 0 →
      exec (.evPeerAccess port vf ipa op) s = .next { s with latch := none })) ∧
  (∀ s (way : LinkWay), let l := Tbl.getD s.links way.link.val {}
    (l.up = false → exec (.evFlitTagFail way) s = .next s) ∧
    (l.up = true → l.failsOf way.back < 2 → ∃ t, exec (.evFlitTagFail way) s = .next t ∧
      Tbl.getD t.links way.link.val {} = l.fail way.back ∧
      (∀ n, n ≠ way.link.val → Tbl.getD t.links n {} = Tbl.getD s.links n {}) ∧ t.units = s.units ∧ t.mem = s.mem) ∧
    (l.up = true → 2 ≤ l.failsOf way.back →
      exec (.evFlitTagFail way) s = .next (linkEvent (linkDown s way.link.val) way.link.val false)) ∧
    (Tbl.getD (goodFlit s way.link.val way.back).links way.link.val {}).failsOf way.back = 0) ∧
  (∀ s (link : Fin 38), linkUp s link.val = true →
    ∃ t, exec (.evColRekey link) s = .next t ∧ (Tbl.getD t.links link.val {}).keys = (Tbl.getD s.links link.val {}).keys + 1 ∧
      (Tbl.getD t.links link.val {}).up = true ∧ t.mem = s.mem) ∧
  (∀ s (port : Fin 12), (linkUp s (24 + port.val) = false → ∃ t e, exec (.evLink port true) s = .next t ∧
      linkUp t (24 + port.val) = true ∧
      (Tbl.getD t.links (24 + port.val) {}).keys = (Tbl.getD s.links (24 + port.val) {}).keys + 1 ∧
      (fnOf t 128).events = (fnOf s 128).events ++ [e] ∧ e.code = evLinkCode) ∧
    (linkUp s (24 + port.val) = true →
      exec (.evLink port false) s = .next (linkEvent (linkDown s (24 + port.val)) (24 + port.val) false)) ∧
    (∀ up, linkUp s (24 + port.val) = up → exec (.evLink port up) s = .next s)) ∧
  (∀ s, s.dev.ready = true → (∀ fn, ∃ t, exec (.evSpdmExchange (some fn)) s = .next t ∧ (fnOf t (fnFile fn)).ide = true ∧
      ∀ n, n ≠ fnFile fn → fnOf t n = fnOf s n) ∧
    exec (.evSpdmExchange none) s = .next { s with importKey := s.importKey + 1 }) ∧
  (∀ s r, (s.dev.ready = true ∨ s.dev.stage = 7 → exec (.evStartUp r) s = .next s) ∧
    (s.dev.ready = false →
      let s1 := if verified r.field then s else resetField s
      let few := ∃ d, d < 16 ∧ (coreMap s r d).length < 24
      (s.dev.stage = 0 → exec (.evStartUp r) s = .next (if verified r.firmware = false then startFails s 1
        else if r.version < s.vendor.floor then startFails s 2 else { s with dev := { s.dev with stage := 1 } })) ∧
      (s.dev.stage = 1 → exec (.evStartUp r) s = .next (if r.identity = false then startFails s 3
        else { s with dev := { s.dev with stage := 2 } })) ∧
      (s.dev.stage = 2 → (verified r.vendor = false → exec (.evStartUp r) s = .next (startFails s 4)) ∧
        (verified r.vendor = true → exec (.evStartUp r) s = .next { s1 with dev := { s1.dev with stage := 3 } }) ∧
        (verified r.field = false → s1.retired = [] ∧ s1.repairs = {} ∧ s1.attest = s.attest ++ [[3]])) ∧
      (s.dev.stage = 3 → (few ∨ r.beyond = true → exec (.evStartUp r) s = .next (startFails s 5)) ∧
        (¬ few → r.beyond = false → ∃ t, exec (.evStartUp r) s = .next t ∧ t.dev.stage = 4 ∧ t.repairs = (addRepairs s r).repairs ∧
          ∀ d c, d < 16 → c ∈ Tbl.getD s.repairs.cores d [] → c ∈ Tbl.getD t.repairs.cores d [] ∧ c ∉ coreMap s r d)) ∧
      (s.dev.stage = 4 → (r.memory = false → exec (.evStartUp r) s = .next (startFails s 6)) ∧
        (r.memory = true → ∃ t, exec (.evStartUp r) s = .next t ∧ t.dev = { s.dev with stage := 5 } ∧ t.time = 0 ∧ t.clock = 0 ∧
          t.mem = [] ∧ t.retired = s.retired ∧
          (∀ n, n < 24 → linkUp t n = true ∧ (Tbl.getD t.links n {}).keys = (Tbl.getD s.links n {}).keys + 1))) ∧
      (s.dev.stage = 5 → ∃ t, exec (.evStartUp r) s = .next t ∧ t.dev = { s.dev with ready := true } ∧ t.mem = s.mem ∧
        linkUp t 36 = true ∧ linkUp t 37 = true ∧ t.life.cycles = s.life.cycles + 1)))

/-! ## Decision points -/

/-- R332 to R334, R337, R346: an idle reeve takes its oldest event. Where a routine is loaded for the point, a call starts
with the captured values; where none is, the round-robin decision acts at once. R38, R332, R345: the quantum, the
watchdog, blocked units and overruns. -/
def Obligations.PolicyEvents : Prop :=
  (∀ s (cl : Fin 192) e rest p, (clusterOf s cl.val).reeve.call = none → (clusterOf s cl.val).reeve.queue = e :: rest →
    evPoint e = p → let s1 := startEvent (popReeve s cl.val) cl.val e
    (p = .enq → exec (.evEnq cl) s = .next s1) ∧ (p = .pick → exec (.evPick cl) s = .next s1) ∧
    (p = .tick → exec (.evTick cl) s = .next s1) ∧ (p = .block → exec (.evBlock cl) s = .next s1) ∧
    (p = .wake → exec (.evWake cl) s = .next s1) ∧ (p = .migr → exec (.evMigr cl) s = .next s1) ∧
    ((clusterOf s cl.val).reeve.waiting = [] → (clusterOf (popReeve s cl.val) cl.val).reeve.queue = rest)) ∧
  (∀ s cl part eid r k x, partOfSlice s cl = some part → homeOfEntry s eid = some k → entryOfQueue s k eid = some x →
    startEvent s cl (.enq eid r) = startTenant s cl part (fnOfLid x.lid) (.enq eid r) ∧
    startEvent s cl (.wake eid) = startTenant s cl part (fnOfLid x.lid) (.wake eid)) ∧
  (∀ s cl part uid w, partOfSlice s cl = some part → unit? s uid = some w → w.core / 2 = cl →
    startEvent s cl (.block uid) = startTenant s cl part (fnOfLid w.lid) (.block uid)) ∧
  (∀ s cl part, partOfSlice s cl = some part → startEvent s cl .tick =
    startHost (watchTick (setCluster s cl (fun c => { c with ticks := c.ticks + 1 })) cl) cl part .tick) ∧
  (∀ s cl part core, partOfSlice s cl = some part → aheadEntries s cl = [] → pickTenants s cl ≠ [] →
    startEvent s cl (.pick core) = startHost s cl part (.pick core)) ∧
  (∀ s cl part fn ev, routineFor s part fn false (evPoint ev) = none →
    startTenant s cl part fn ev = applyTenant s part cl fn ev (tenantCands s cl fn ev)
      (rrTenant s cl ev (tenantCands s cl fn ev)) none) ∧
  (∀ s cl part fn ev r, routineFor s part fn false (evPoint ev) = some r →
    ∃ c, (clusterOf (startTenant s cl part fn ev) cl).reeve.call = some c ∧ c.point = evPoint ev ∧ c.host = false ∧
      c.fn = some fn ∧ c.part = part ∧ c.routine = r ∧ c.pc = 0 ∧ c.used = 0 ∧ c.loops = [] ∧
      c.cands = tenantCands s cl fn ev ∧ c.dx = rrTenant s cl ev c.cands ∧ c.rr = c.dx ∧
      c.g = [0, dw c.cands.length, dw (entryG2 cl ev), dw fn, dw (clusterOf s cl).ticks, dw (entryG5 ev)] ++ List.replicate 10 0) ∧
  (∀ s (cl : Fin 192), let c := clusterOf s cl.val
    (partOfSlice s cl.val).isSome = true → c.quantumAt + 1000 * c.quantum ≤ s.time →
    ∃ t, exec (.evQuantumExpiry cl) s = .next t ∧ (clusterOf t cl.val).reeve = (clusterOf (pushReeve s cl.val .tick) cl.val).reeve ∧
      (clusterOf t cl.val).quantumAt = s.time ∧ (clusterOf t cl.val).lastStats = c.stats ∧ (clusterOf t cl.val).stats = [] ∧
      (∀ uid w, unit? t uid = some w → w.core / 2 = cl.val → w.used = 0) ∧ t.mem = s.mem) ∧
  (∀ s (cl : Fin 192), exec (.evTickWatchdog cl) s = .next (watchAct s cl.val)) ∧
  (∀ s cl, (∀ e ∈ (clusterOf s cl).rq, ∀ uid im, e.kind = .resume uid → Tbl.find? s.images uid = some im → im.unit.watch < 4) →
    let t := watchAct s cl
    t.images = s.images ∧ t.mem = s.mem ∧ t.clusters = s.clusters ∧
      ∀ uid, unit? t uid = (unit? s uid).map (fun w =>
        if w.core / 2 = cl then { w with boost := w.boost || decide (4 ≤ w.watch) } else w)) ∧
  (∀ s (cl : Fin 192) k, (clusterOf s cl.val).reeve.call ≠ none →
    (clusterOf s cl.val).rq.any (candidate s) = true →
    [2 * cl.val, 2 * cl.val + 1].find? (fun k => decide (0 < freeUnitSlots s k) &&
      !pending (clusterOf s cl.val).reeve (.pick k)) = some k →
    exec (.evPick cl) s = .next (pushReeve s cl.val (.pick k))) ∧
  (∀ s uid w, unit? s uid = some w → isPf (fnOfLid w.lid) = false → canIssue w = false →
    (∃ e ∈ w.strands, e.2.completed = false) → w.blockSent = false →
    ((∃ e ∈ w.strands, strandParked e.2 = true) → exec (.evBlockThreshold uid) s =
      .next (pushReeve (setUnit s uid (fun w => { w with blockSent := true })) (w.core / 2) (.block uid))) ∧
    (∀ t, (∀ e ∈ w.strands, strandParked e.2 = false) → w.heldSince = some t → t + 1000000 ≤ s.time →
      exec (.evBlockThreshold uid) s =
        .next (pushReeve (setUnit s uid (fun w => { w with blockSent := true })) (w.core / 2) (.block uid)))) ∧
  (∀ s (cl : Fin 192) c, (clusterOf s cl.val).reeve.call = some c → c.routine.allow < c.used + nextCost s cl.val c →
    exec (.evReeveOverrun cl) s = .next (overrun s cl.val c)) ∧
  (∀ s cl c, overrun s cl c = decideCall (reeveEvent (suspendRoutine (clearCall s cl) c) c evOverrun) cl c c.rr none)
end

