-- ==== Sys2Proof/Laws/Table.lean ====
section
/-! SUPPORT. The sparse table and the memory cells: what is read after a write, and the canonical form. -/

namespace Sys2Proof.Machine

open Sys2Proof

/-! ## Sparse tables -/

@[simp] theorem Tbl.find?_nil {α : Type} (i : Nat) : Tbl.find? ([] : Tbl α) i = none := rfl

@[simp] theorem Tbl.find?_put_self {α : Type} (t : Tbl α) (i : Nat) (v : α) : Tbl.find? (Tbl.put t i v) i = some v := by
  induction t with
  | nil => simp [Tbl.put, Tbl.find?]
  | cons e t ih =>
    obtain ⟨k, w⟩ := e
    by_cases h1 : i < k
    · simp [Tbl.put, h1, Tbl.find?]
    · by_cases h2 : i = k
      · simp [Tbl.put, h2, Tbl.find?]
      · simp [Tbl.put, h1, h2, Tbl.find?, Ne.symm h2, ih]

theorem Tbl.find?_put_other {α : Type} (t : Tbl α) {i j : Nat} (v : α) (h : j ≠ i) :
    Tbl.find? (Tbl.put t i v) j = Tbl.find? t j := by
  induction t with
  | nil => simp [Tbl.put, Tbl.find?, Ne.symm h]
  | cons e t ih =>
    obtain ⟨k, w⟩ := e
    by_cases h1 : i < k
    · simp [Tbl.put, h1, Tbl.find?, Ne.symm h]
    · by_cases h2 : i = k
      · subst h2; simp [Tbl.put, Tbl.find?, Ne.symm h]
      · simp only [Tbl.put, h1, h2, if_false, Tbl.find?, ih]

@[simp] theorem Tbl.find?_del_self {α : Type} (t : Tbl α) (i : Nat) : Tbl.find? (Tbl.del t i) i = none := by
  induction t with
  | nil => rfl
  | cons e t ih =>
    obtain ⟨k, w⟩ := e
    by_cases h : k = i
    · simpa [Tbl.del, h] using ih
    · have : Tbl.del ((k, w) :: t) i = (k, w) :: Tbl.del t i := by simp [Tbl.del, h]
      simp [this, Tbl.find?, h, ih]

theorem Tbl.find?_del_other {α : Type} (t : Tbl α) {i j : Nat} (h : j ≠ i) :
    Tbl.find? (Tbl.del t i) j = Tbl.find? t j := by
  induction t with
  | nil => rfl
  | cons e t ih =>
    obtain ⟨k, w⟩ := e
    by_cases hk : k = i
    · subst hk
      have : Tbl.del ((k, w) :: t) k = Tbl.del t k := by simp [Tbl.del]
      rw [this, ih]; simp [Tbl.find?, Ne.symm h]
    · have : Tbl.del ((k, w) :: t) i = (k, w) :: Tbl.del t i := by simp [Tbl.del, hk]
      simp [this, Tbl.find?, ih]

theorem Tbl.find?_upd {α : Type} (t : Tbl α) (i j : Nat) (d : α) (f : α → α) :
    Tbl.find? (Tbl.upd t i d f) j = if j = i then some (f (Tbl.getD t i d)) else Tbl.find? t j := by
  by_cases h : j = i
  · subst h; simp [Tbl.upd]
  · simp [Tbl.upd, Tbl.find?_put_other _ _ h, h]

theorem Tbl.find?_upd? {α : Type} (t : Tbl α) (i j : Nat) (f : α → α) :
    Tbl.find? (Tbl.upd? t i f) j = if j = i then (Tbl.find? t i).map f else Tbl.find? t j := by
  unfold Tbl.upd?
  cases h : Tbl.find? t i with
  | none => by_cases hj : j = i <;> simp [hj, h]
  | some v =>
    by_cases hj : j = i
    · subst hj; simp
    · simp [Tbl.find?_put_other _ _ hj, hj]

theorem Tbl.getD_put_other {α : Type} (t : Tbl α) {i j : Nat} (v d : α) (h : j ≠ i) :
    Tbl.getD (Tbl.put t i v) j d = Tbl.getD t j d := by simp [Tbl.getD, Tbl.find?_put_other _ _ h]

@[simp] theorem Tbl.getD_put_self {α : Type} (t : Tbl α) (i : Nat) (v d : α) : Tbl.getD (Tbl.put t i v) i d = v := by
  simp [Tbl.getD]

theorem Tbl.getD_upd {α : Type} (t : Tbl α) (i j : Nat) (d : α) (f : α → α) :
    Tbl.getD (Tbl.upd t i d f) j d = if j = i then f (Tbl.getD t i d) else Tbl.getD t j d := by
  by_cases h : j = i
  · subst h; simp [Tbl.getD, Tbl.find?_upd]
  · simp [Tbl.getD, Tbl.find?_upd, h]

theorem Tbl.has_put_other {α : Type} (t : Tbl α) {i j : Nat} (v : α) (h : j ≠ i) :
    Tbl.has (Tbl.put t i v) j = Tbl.has t j := by simp [Tbl.has, Tbl.find?_put_other _ _ h]

theorem Tbl.find?_map {α β : Type} (t : Tbl α) (f : Nat → α → β) (i : Nat) :
    Tbl.find? (Tbl.mapV t f) i = (Tbl.find? t i).map (f i) := by
  induction t with
  | nil => rfl
  | cons e t ih =>
    obtain ⟨k, w⟩ := e
    have : Tbl.mapV ((k, w) :: t) f = (k, f k w) :: Tbl.mapV t f := rfl
    by_cases h : k = i
    · subst h; simp [this, Tbl.find?]
    · simp [this, Tbl.find?, h, ih]

/-! The canonical form of a table is kept. -/

theorem Tbl.sortedFrom_mono {α : Type} (t : Tbl α) {a b : Nat} (h : a ≤ b) :
    Tbl.sortedFrom b t = true → Tbl.sortedFrom a t = true := by
  cases t with
  | nil => simp [Tbl.sortedFrom]
  | cons e t => simp [Tbl.sortedFrom]; intro h1 h2; exact ⟨by omega, h2⟩

theorem Tbl.sortedFrom_put {α : Type} (t : Tbl α) (i : Nat) (v : α) :
    ∀ lo, lo ≤ i → Tbl.sortedFrom lo t = true → Tbl.sortedFrom lo (Tbl.put t i v) = true := by
  induction t with
  | nil => intro lo hlo _; simp [Tbl.put, Tbl.sortedFrom, hlo]
  | cons e t ih =>
    obtain ⟨k, w⟩ := e
    intro lo hlo h
    simp [Tbl.sortedFrom] at h
    by_cases h1 : i < k
    · simp [Tbl.put, h1, Tbl.sortedFrom, hlo, h.2]
    · by_cases h2 : i = k
      · subst h2; simp [Tbl.put, Tbl.sortedFrom, hlo, h.2]
      · simp [Tbl.put, h1, h2, Tbl.sortedFrom, h.1]; exact ih (k + 1) (by omega) h.2

theorem Tbl.sorted_put {α : Type} (t : Tbl α) (i : Nat) (v : α) (h : Tbl.sorted t = true) :
    Tbl.sorted (Tbl.put t i v) = true := Tbl.sortedFrom_put t i v 0 (Nat.zero_le _) h

theorem Tbl.sortedFrom_filter {α : Type} (t : Tbl α) (p : Nat × α → Bool) :
    ∀ lo, Tbl.sortedFrom lo t = true → Tbl.sortedFrom lo (t.filter p) = true := by
  induction t with
  | nil => intro lo h; exact h
  | cons e t ih =>
    obtain ⟨k, w⟩ := e
    intro lo h
    simp [Tbl.sortedFrom] at h
    by_cases hp : p (k, w) = true
    · simp [List.filter, hp, Tbl.sortedFrom, h.1, ih (k + 1) h.2]
    · simp [List.filter, hp]; exact Tbl.sortedFrom_mono _ (by omega) (ih (k + 1) h.2)

theorem Tbl.sorted_del {α : Type} (t : Tbl α) (i : Nat) (h : Tbl.sorted t = true) : Tbl.sorted (Tbl.del t i) = true :=
  Tbl.sortedFrom_filter t _ 0 h

theorem Tbl.sorted_upd {α : Type} (t : Tbl α) (i : Nat) (d : α) (f : α → α) (h : Tbl.sorted t = true) :
    Tbl.sorted (Tbl.upd t i d f) = true := Tbl.sorted_put t i _ h

theorem Tbl.sorted_upd? {α : Type} (t : Tbl α) (i : Nat) (f : α → α) (h : Tbl.sorted t = true) :
    Tbl.sorted (Tbl.upd? t i f) = true := by
  unfold Tbl.upd?; split
  · exact Tbl.sorted_put t i _ h
  · exact h

/-! ## Memory cells -/

theorem cellsWf_mono (m : List Host.Cell) {a b : Nat} (h : a ≤ b) : cellsWf b m = true → cellsWf a m = true := by
  cases m with
  | nil => simp [cellsWf]
  | cons e t => simp [cellsWf]; intro h1 h2 h3; exact ⟨⟨by omega, h2⟩, h3⟩

theorem cellGet_below (m : List Host.Cell) : ∀ lo a, cellsWf lo m = true → a < lo → cellGet m a = 0 := by
  induction m with
  | nil => intros; rfl
  | cons e t ih =>
    obtain ⟨k, v⟩ := e
    intro lo a h ha
    simp [cellsWf] at h
    have : ¬ k = a := by omega
    have h2 : a < k := by omega
    simp [cellGet, this, h2]

theorem cellsWf_put (m : List Host.Cell) (a : Nat) (b : Byte) :
    ∀ lo, lo ≤ a → cellsWf lo m = true → cellsWf lo (cellPut m a b) = true := by
  induction m with
  | nil =>
    intro lo hlo _
    by_cases hb : b = 0#8 <;> simp [cellPut, cellsWf, hb, hlo]
  | cons e t ih =>
    obtain ⟨k, v⟩ := e
    intro lo hlo h
    simp only [cellsWf, Bool.and_eq_true, decide_eq_true_eq] at h
    by_cases h1 : a < k
    · by_cases hb : b = 0#8
      · simp [cellPut, h1, hb, cellsWf, h]; simpa using h.1.2
      · simp [cellPut, h1, hb, cellsWf, h, hlo]; simpa using h.1.2
    · by_cases h2 : a = k
      · subst h2
        by_cases hb : b = 0#8
        · simp [cellPut, hb]; exact cellsWf_mono _ (by omega) h.2
        · simp [cellPut, hb, cellsWf, h]
      · simp [cellPut, h1, h2, cellsWf, h.1.1, ih (k + 1) (by omega) h.2]; simpa using h.1.2

theorem cellGet_put (m : List Host.Cell) (a x : Nat) (b : Byte) :
    ∀ lo, cellsWf lo m = true → cellGet (cellPut m a b) x = if x = a then b else cellGet m x := by
  induction m with
  | nil =>
    intro lo _
    by_cases hb : b = 0#8
    · simp [cellPut, hb, cellGet]
    · by_cases hx : x = a
      · simp [cellPut, hb, cellGet, hx]
      · by_cases hl : x < a <;> simp [cellPut, hb, cellGet, hx, Ne.symm hx]
  | cons e t ih =>
    obtain ⟨k, v⟩ := e
    intro lo h
    simp only [cellsWf, Bool.and_eq_true, decide_eq_true_eq] at h
    by_cases h1 : a < k
    · by_cases hb : b = 0#8
      · subst hb
        by_cases hx : x = a
        · subst hx
          have : ¬ k = x := by omega
          simp [cellPut, h1, cellGet, this]
        · simp [cellPut, h1, cellGet, hx]
      · by_cases hx : x = a
        · subst hx; simp [cellPut, h1, hb, cellGet]
        · by_cases hl : x < a
          · have h3 : ¬ k = x := by omega
            have h4 : x < k := by omega
            simp [cellPut, h1, hb, cellGet, hx, Ne.symm hx, hl, h3, h4]
          · simp [cellPut, h1, hb, cellGet, hx, Ne.symm hx, hl]
    · by_cases h2 : a = k
      · subst h2
        by_cases hb : b = 0#8
        · subst hb
          have hp : cellPut ((a, v) :: t) a 0#8 = t := by simp [cellPut]
          rw [hp]
          by_cases hx : x = a
          · subst hx; rw [cellGet_below t (x + 1) x h.2 (by omega)]; simp
          · by_cases hl : x < a
            · rw [cellGet_below t (a + 1) x h.2 (by omega)]; simp [cellGet, Ne.symm hx, hl, hx]
            · simp [cellGet, Ne.symm hx, hl, hx]
        · by_cases hx : x = a
          · subst hx; simp [cellPut, hb, cellGet]
          · simp [cellPut, hb, cellGet, hx, Ne.symm hx]
      · have h3 : k < a := by omega
        simp only [cellPut, h1, h2, if_false, cellGet]
        by_cases hk : k = x
        · subst hk; simp [Ne.symm h2]
        · by_cases hl : x < k
          · have : ¬ x = a := by omega
            simp [hk, hl, this]
          · simp [hk, hl, ih (k + 1) h.2]

theorem cellsWf_putBytes (bs : List Byte) : ∀ (m : List Host.Cell) (a : Nat),
    cellsWf 0 m = true → cellsWf 0 (putBytes m a bs) = true := by
  induction bs with
  | nil => intro m a h; exact h
  | cons b bs ih => intro m a h; exact ih _ _ (cellsWf_put m a b 0 (Nat.zero_le _) h)

/-- A byte outside the written ones reads as before; the i-th written one reads what was written. -/
theorem cellGet_putBytes (bs : List Byte) : ∀ (m : List Host.Cell) (a x : Nat), cellsWf 0 m = true →
    cellGet (putBytes m a bs) x = if a ≤ x ∧ x < a + bs.length then (bs[x - a]?).getD 0 else cellGet m x := by
  induction bs with
  | nil => intro m a x _; simp [putBytes]
  | cons b bs ih =>
    intro m a x h
    have h' := cellsWf_put m a b 0 (Nat.zero_le _) h
    simp only [putBytes, ih _ _ _ h', List.length_cons, cellGet_put m a x b 0 h]
    by_cases hx : x = a
    · subst hx; simp
    · by_cases hlt : a + 1 ≤ x ∧ x < a + 1 + bs.length
      · have h2 : a ≤ x ∧ x < a + (bs.length + 1) := by omega
        have h3 : x - a = (x - (a + 1)) + 1 := by omega
        simp [hlt, h2, h3]
      · have h2 : ¬ (a ≤ x ∧ x < a + (bs.length + 1)) := by omega
        rw [if_neg hlt, if_neg h2, if_neg hx]

@[simp] theorem getBytes_length (m : List Host.Cell) : ∀ a n, (getBytes m a n).length = n := by
  intro a n; induction n generalizing a with
  | zero => rfl
  | succ n ih => simp [getBytes, ih]

theorem getBytes_eq (m : List Host.Cell) : ∀ n a, getBytes m a n = (List.range n).map (fun i => cellGet m (a + i)) := by
  intro n; induction n with
  | zero => intro a; rfl
  | succ n ih =>
    intro a
    rw [getBytes, ih, List.range_succ_eq_map]
    simp [Function.comp_def, Nat.add_assoc, Nat.add_comm 1]

/-- What is read from where bytes were written is what was written. -/
theorem getBytes_putBytes (m : List Host.Cell) (a : Nat) (bs : List Byte) (h : cellsWf 0 m = true) :
    getBytes (putBytes m a bs) a bs.length = bs := by
  rw [getBytes_eq]
  apply List.ext_getElem?
  intro i
  by_cases hi : i < bs.length
  · simp [hi, cellGet_putBytes bs m a _ h]
  · simp [hi]

theorem cellsWf_filter (m : List Host.Cell) (p : Host.Cell → Bool) :
    ∀ lo, cellsWf lo m = true → cellsWf lo (m.filter p) = true := by
  induction m with
  | nil => intro lo h; exact h
  | cons e t ih =>
    obtain ⟨k, v⟩ := e
    intro lo h
    simp [cellsWf] at h
    by_cases hp : p (k, v) = true
    · simp [List.filter, hp, cellsWf, h.1, ih (k + 1) h.2]
    · simp [List.filter, hp]; exact cellsWf_mono _ (by omega) (ih (k + 1) h.2)

theorem cellsWf_zeroBytes (m : List Host.Cell) (a n : Nat) (h : cellsWf 0 m = true) : cellsWf 0 (zeroBytes m a n) = true :=
  cellsWf_filter m _ 0 h

end Sys2Proof.Machine
end

