-- ==== Sys2Proof/Laws/State.lean ====
section
/-! SUPPORT. One lemma for each field under each update of the state: what an update of a table leaves alone, and what
it gives where it writes. -/

namespace Sys2Proof.Machine

open Sys2Proof

/-! ## `setCore` -/

@[simp] theorem setCore_turns (s : State) (c : Nat) (f : Core → Core) : (setCore s c f).turns = s.turns := rfl
@[simp] theorem setCore_actor (s : State) (c : Nat) (f : Core → Core) : (setCore s c f).actor = s.actor := rfl
@[simp] theorem setCore_free (s : State) (c : Nat) (f : Core → Core) : (setCore s c f).free = s.free := rfl
@[simp] theorem setCore_clock (s : State) (c : Nat) (f : Core → Core) : (setCore s c f).clock = s.clock := rfl
@[simp] theorem setCore_time (s : State) (c : Nat) (f : Core → Core) : (setCore s c f).time = s.time := rfl
@[simp] theorem setCore_ptm (s : State) (c : Nat) (f : Core → Core) : (setCore s c f).ptm = s.ptm := rfl
@[simp] theorem setCore_dev (s : State) (c : Nat) (f : Core → Core) : (setCore s c f).dev = s.dev := rfl
@[simp] theorem setCore_mem (s : State) (c : Nat) (f : Core → Core) : (setCore s c f).mem = s.mem := rfl
@[simp] theorem setCore_hostMem (s : State) (c : Nat) (f : Core → Core) : (setCore s c f).hostMem = s.hostMem := rfl
@[simp] theorem setCore_peerMem (s : State) (c : Nat) (f : Core → Core) : (setCore s c f).peerMem = s.peerMem := rfl
@[simp] theorem setCore_latch (s : State) (c : Nat) (f : Core → Core) : (setCore s c f).latch = s.latch := rfl
@[simp] theorem setCore_l2 (s : State) (c : Nat) (f : Core → Core) : (setCore s c f).l2 = s.l2 := rfl
@[simp] theorem setCore_sends (s : State) (c : Nat) (f : Core → Core) : (setCore s c f).sends = s.sends := rfl
@[simp] theorem setCore_clusters (s : State) (c : Nat) (f : Core → Core) : (setCore s c f).clusters = s.clusters := rfl
@[simp] theorem setCore_dies (s : State) (c : Nat) (f : Core → Core) : (setCore s c f).dies = s.dies := rfl
@[simp] theorem setCore_reclaim (s : State) (c : Nat) (f : Core → Core) : (setCore s c f).reclaim = s.reclaim := rfl
@[simp] theorem setCore_units (s : State) (c : Nat) (f : Core → Core) : (setCore s c f).units = s.units := rfl
@[simp] theorem setCore_images (s : State) (c : Nat) (f : Core → Core) : (setCore s c f).images = s.images := rfl
@[simp] theorem setCore_launches (s : State) (c : Nat) (f : Core → Core) : (setCore s c f).launches = s.launches := rfl
@[simp] theorem setCore_ended (s : State) (c : Nat) (f : Core → Core) : (setCore s c f).ended = s.ended := rfl
@[simp] theorem setCore_jobs (s : State) (c : Nat) (f : Core → Core) : (setCore s c f).jobs = s.jobs := rfl
@[simp] theorem setCore_endedJobs (s : State) (c : Nat) (f : Core → Core) : (setCore s c f).endedJobs = s.endedJobs := rfl
@[simp] theorem setCore_tasks (s : State) (c : Nat) (f : Core → Core) : (setCore s c f).tasks = s.tasks := rfl
@[simp] theorem setCore_reqs (s : State) (c : Nat) (f : Core → Core) : (setCore s c f).reqs = s.reqs := rfl
@[simp] theorem setCore_fns (s : State) (c : Nat) (f : Core → Core) : (setCore s c f).fns = s.fns := rfl
@[simp] theorem setCore_parts (s : State) (c : Nat) (f : Core → Core) : (setCore s c f).parts = s.parts := rfl
@[simp] theorem setCore_usedSlices (s : State) (c : Nat) (f : Core → Core) : (setCore s c f).usedSlices = s.usedSlices := rfl
@[simp] theorem setCore_excludedSlices (s : State) (c : Nat) (f : Core → Core) : (setCore s c f).excludedSlices = s.excludedSlices := rfl
@[simp] theorem setCore_retired (s : State) (c : Nat) (f : Core → Core) : (setCore s c f).retired = s.retired := rfl
@[simp] theorem setCore_commons (s : State) (c : Nat) (f : Core → Core) : (setCore s c f).commons = s.commons := rfl
@[simp] theorem setCore_syncs (s : State) (c : Nat) (f : Core → Core) : (setCore s c f).syncs = s.syncs := rfl
@[simp] theorem setCore_halts (s : State) (c : Nat) (f : Core → Core) : (setCore s c f).halts = s.halts := rfl
@[simp] theorem setCore_stops (s : State) (c : Nat) (f : Core → Core) : (setCore s c f).stops = s.stops := rfl
@[simp] theorem setCore_pfPart (s : State) (c : Nat) (f : Core → Core) : (setCore s c f).pfPart = s.pfPart := rfl
@[simp] theorem setCore_cxl (s : State) (c : Nat) (f : Core → Core) : (setCore s c f).cxl = s.cxl := rfl
@[simp] theorem setCore_peerMap (s : State) (c : Nat) (f : Core → Core) : (setCore s c f).peerMap = s.peerMap := rfl
@[simp] theorem setCore_mcast (s : State) (c : Nat) (f : Core → Core) : (setCore s c f).mcast = s.mcast := rfl
@[simp] theorem setCore_links (s : State) (c : Nat) (f : Core → Core) : (setCore s c f).links = s.links := rfl
@[simp] theorem setCore_attest (s : State) (c : Nat) (f : Core → Core) : (setCore s c f).attest = s.attest := rfl
@[simp] theorem setCore_life (s : State) (c : Nat) (f : Core → Core) : (setCore s c f).life = s.life := rfl
@[simp] theorem setCore_lifeFlash (s : State) (c : Nat) (f : Core → Core) : (setCore s c f).lifeFlash = s.lifeFlash := rfl
@[simp] theorem setCore_lifeAt (s : State) (c : Nat) (f : Core → Core) : (setCore s c f).lifeAt = s.lifeAt := rfl
@[simp] theorem setCore_pulls (s : State) (c : Nat) (f : Core → Core) : (setCore s c f).pulls = s.pulls := rfl
@[simp] theorem setCore_peerRefuses (s : State) (c : Nat) (f : Core → Core) : (setCore s c f).peerRefuses = s.peerRefuses := rfl
@[simp] theorem setCore_badSectors (s : State) (c : Nat) (f : Core → Core) : (setCore s c f).badSectors = s.badSectors := rfl
@[simp] theorem setCore_repairs (s : State) (c : Nat) (f : Core → Core) : (setCore s c f).repairs = s.repairs := rfl
@[simp] theorem setCore_lastIssue (s : State) (c : Nat) (f : Core → Core) : (setCore s c f).lastIssue = s.lastIssue := rfl
@[simp] theorem setCore_vendor (s : State) (c : Nat) (f : Core → Core) : (setCore s c f).vendor = s.vendor := rfl
@[simp] theorem setCore_receiptSeq (s : State) (c : Nat) (f : Core → Core) : (setCore s c f).receiptSeq = s.receiptSeq := rfl
@[simp] theorem setCore_importKey (s : State) (c : Nat) (f : Core → Core) : (setCore s c f).importKey = s.importKey := rfl
@[simp] theorem setCore_serial (s : State) (c : Nat) (f : Core → Core) : (setCore s c f).serial = s.serial := rfl

/-! ## `setCluster` -/

@[simp] theorem setCluster_turns (s : State) (c : Nat) (f : Cluster → Cluster) : (setCluster s c f).turns = s.turns := rfl
@[simp] theorem setCluster_actor (s : State) (c : Nat) (f : Cluster → Cluster) : (setCluster s c f).actor = s.actor := rfl
@[simp] theorem setCluster_free (s : State) (c : Nat) (f : Cluster → Cluster) : (setCluster s c f).free = s.free := rfl
@[simp] theorem setCluster_clock (s : State) (c : Nat) (f : Cluster → Cluster) : (setCluster s c f).clock = s.clock := rfl
@[simp] theorem setCluster_time (s : State) (c : Nat) (f : Cluster → Cluster) : (setCluster s c f).time = s.time := rfl
@[simp] theorem setCluster_ptm (s : State) (c : Nat) (f : Cluster → Cluster) : (setCluster s c f).ptm = s.ptm := rfl
@[simp] theorem setCluster_dev (s : State) (c : Nat) (f : Cluster → Cluster) : (setCluster s c f).dev = s.dev := rfl
@[simp] theorem setCluster_mem (s : State) (c : Nat) (f : Cluster → Cluster) : (setCluster s c f).mem = s.mem := rfl
@[simp] theorem setCluster_hostMem (s : State) (c : Nat) (f : Cluster → Cluster) : (setCluster s c f).hostMem = s.hostMem := rfl
@[simp] theorem setCluster_peerMem (s : State) (c : Nat) (f : Cluster → Cluster) : (setCluster s c f).peerMem = s.peerMem := rfl
@[simp] theorem setCluster_latch (s : State) (c : Nat) (f : Cluster → Cluster) : (setCluster s c f).latch = s.latch := rfl
@[simp] theorem setCluster_l2 (s : State) (c : Nat) (f : Cluster → Cluster) : (setCluster s c f).l2 = s.l2 := rfl
@[simp] theorem setCluster_sends (s : State) (c : Nat) (f : Cluster → Cluster) : (setCluster s c f).sends = s.sends := rfl
@[simp] theorem setCluster_cores (s : State) (c : Nat) (f : Cluster → Cluster) : (setCluster s c f).cores = s.cores := rfl
@[simp] theorem setCluster_dies (s : State) (c : Nat) (f : Cluster → Cluster) : (setCluster s c f).dies = s.dies := rfl
@[simp] theorem setCluster_reclaim (s : State) (c : Nat) (f : Cluster → Cluster) : (setCluster s c f).reclaim = s.reclaim := rfl
@[simp] theorem setCluster_units (s : State) (c : Nat) (f : Cluster → Cluster) : (setCluster s c f).units = s.units := rfl
@[simp] theorem setCluster_images (s : State) (c : Nat) (f : Cluster → Cluster) : (setCluster s c f).images = s.images := rfl
@[simp] theorem setCluster_launches (s : State) (c : Nat) (f : Cluster → Cluster) : (setCluster s c f).launches = s.launches := rfl
@[simp] theorem setCluster_ended (s : State) (c : Nat) (f : Cluster → Cluster) : (setCluster s c f).ended = s.ended := rfl
@[simp] theorem setCluster_jobs (s : State) (c : Nat) (f : Cluster → Cluster) : (setCluster s c f).jobs = s.jobs := rfl
@[simp] theorem setCluster_endedJobs (s : State) (c : Nat) (f : Cluster → Cluster) : (setCluster s c f).endedJobs = s.endedJobs := rfl
@[simp] theorem setCluster_tasks (s : State) (c : Nat) (f : Cluster → Cluster) : (setCluster s c f).tasks = s.tasks := rfl
@[simp] theorem setCluster_reqs (s : State) (c : Nat) (f : Cluster → Cluster) : (setCluster s c f).reqs = s.reqs := rfl
@[simp] theorem setCluster_fns (s : State) (c : Nat) (f : Cluster → Cluster) : (setCluster s c f).fns = s.fns := rfl
@[simp] theorem setCluster_parts (s : State) (c : Nat) (f : Cluster → Cluster) : (setCluster s c f).parts = s.parts := rfl
@[simp] theorem setCluster_usedSlices (s : State) (c : Nat) (f : Cluster → Cluster) : (setCluster s c f).usedSlices = s.usedSlices := rfl
@[simp] theorem setCluster_excludedSlices (s : State) (c : Nat) (f : Cluster → Cluster) : (setCluster s c f).excludedSlices = s.excludedSlices := rfl
@[simp] theorem setCluster_retired (s : State) (c : Nat) (f : Cluster → Cluster) : (setCluster s c f).retired = s.retired := rfl
@[simp] theorem setCluster_commons (s : State) (c : Nat) (f : Cluster → Cluster) : (setCluster s c f).commons = s.commons := rfl
@[simp] theorem setCluster_syncs (s : State) (c : Nat) (f : Cluster → Cluster) : (setCluster s c f).syncs = s.syncs := rfl
@[simp] theorem setCluster_halts (s : State) (c : Nat) (f : Cluster → Cluster) : (setCluster s c f).halts = s.halts := rfl
@[simp] theorem setCluster_stops (s : State) (c : Nat) (f : Cluster → Cluster) : (setCluster s c f).stops = s.stops := rfl
@[simp] theorem setCluster_pfPart (s : State) (c : Nat) (f : Cluster → Cluster) : (setCluster s c f).pfPart = s.pfPart := rfl
@[simp] theorem setCluster_cxl (s : State) (c : Nat) (f : Cluster → Cluster) : (setCluster s c f).cxl = s.cxl := rfl
@[simp] theorem setCluster_peerMap (s : State) (c : Nat) (f : Cluster → Cluster) : (setCluster s c f).peerMap = s.peerMap := rfl
@[simp] theorem setCluster_mcast (s : State) (c : Nat) (f : Cluster → Cluster) : (setCluster s c f).mcast = s.mcast := rfl
@[simp] theorem setCluster_links (s : State) (c : Nat) (f : Cluster → Cluster) : (setCluster s c f).links = s.links := rfl
@[simp] theorem setCluster_attest (s : State) (c : Nat) (f : Cluster → Cluster) : (setCluster s c f).attest = s.attest := rfl
@[simp] theorem setCluster_life (s : State) (c : Nat) (f : Cluster → Cluster) : (setCluster s c f).life = s.life := rfl
@[simp] theorem setCluster_lifeFlash (s : State) (c : Nat) (f : Cluster → Cluster) : (setCluster s c f).lifeFlash = s.lifeFlash := rfl
@[simp] theorem setCluster_lifeAt (s : State) (c : Nat) (f : Cluster → Cluster) : (setCluster s c f).lifeAt = s.lifeAt := rfl
@[simp] theorem setCluster_pulls (s : State) (c : Nat) (f : Cluster → Cluster) : (setCluster s c f).pulls = s.pulls := rfl
@[simp] theorem setCluster_peerRefuses (s : State) (c : Nat) (f : Cluster → Cluster) : (setCluster s c f).peerRefuses = s.peerRefuses := rfl
@[simp] theorem setCluster_badSectors (s : State) (c : Nat) (f : Cluster → Cluster) : (setCluster s c f).badSectors = s.badSectors := rfl
@[simp] theorem setCluster_repairs (s : State) (c : Nat) (f : Cluster → Cluster) : (setCluster s c f).repairs = s.repairs := rfl
@[simp] theorem setCluster_lastIssue (s : State) (c : Nat) (f : Cluster → Cluster) : (setCluster s c f).lastIssue = s.lastIssue := rfl
@[simp] theorem setCluster_vendor (s : State) (c : Nat) (f : Cluster → Cluster) : (setCluster s c f).vendor = s.vendor := rfl
@[simp] theorem setCluster_receiptSeq (s : State) (c : Nat) (f : Cluster → Cluster) : (setCluster s c f).receiptSeq = s.receiptSeq := rfl
@[simp] theorem setCluster_importKey (s : State) (c : Nat) (f : Cluster → Cluster) : (setCluster s c f).importKey = s.importKey := rfl
@[simp] theorem setCluster_serial (s : State) (c : Nat) (f : Cluster → Cluster) : (setCluster s c f).serial = s.serial := rfl

/-! ## `setDie` -/

@[simp] theorem setDie_turns (s : State) (d : Nat) (f : Die → Die) : (setDie s d f).turns = s.turns := rfl
@[simp] theorem setDie_actor (s : State) (d : Nat) (f : Die → Die) : (setDie s d f).actor = s.actor := rfl
@[simp] theorem setDie_free (s : State) (d : Nat) (f : Die → Die) : (setDie s d f).free = s.free := rfl
@[simp] theorem setDie_clock (s : State) (d : Nat) (f : Die → Die) : (setDie s d f).clock = s.clock := rfl
@[simp] theorem setDie_time (s : State) (d : Nat) (f : Die → Die) : (setDie s d f).time = s.time := rfl
@[simp] theorem setDie_ptm (s : State) (d : Nat) (f : Die → Die) : (setDie s d f).ptm = s.ptm := rfl
@[simp] theorem setDie_dev (s : State) (d : Nat) (f : Die → Die) : (setDie s d f).dev = s.dev := rfl
@[simp] theorem setDie_mem (s : State) (d : Nat) (f : Die → Die) : (setDie s d f).mem = s.mem := rfl
@[simp] theorem setDie_hostMem (s : State) (d : Nat) (f : Die → Die) : (setDie s d f).hostMem = s.hostMem := rfl
@[simp] theorem setDie_peerMem (s : State) (d : Nat) (f : Die → Die) : (setDie s d f).peerMem = s.peerMem := rfl
@[simp] theorem setDie_latch (s : State) (d : Nat) (f : Die → Die) : (setDie s d f).latch = s.latch := rfl
@[simp] theorem setDie_l2 (s : State) (d : Nat) (f : Die → Die) : (setDie s d f).l2 = s.l2 := rfl
@[simp] theorem setDie_sends (s : State) (d : Nat) (f : Die → Die) : (setDie s d f).sends = s.sends := rfl
@[simp] theorem setDie_cores (s : State) (d : Nat) (f : Die → Die) : (setDie s d f).cores = s.cores := rfl
@[simp] theorem setDie_clusters (s : State) (d : Nat) (f : Die → Die) : (setDie s d f).clusters = s.clusters := rfl
@[simp] theorem setDie_reclaim (s : State) (d : Nat) (f : Die → Die) : (setDie s d f).reclaim = s.reclaim := rfl
@[simp] theorem setDie_units (s : State) (d : Nat) (f : Die → Die) : (setDie s d f).units = s.units := rfl
@[simp] theorem setDie_images (s : State) (d : Nat) (f : Die → Die) : (setDie s d f).images = s.images := rfl
@[simp] theorem setDie_launches (s : State) (d : Nat) (f : Die → Die) : (setDie s d f).launches = s.launches := rfl
@[simp] theorem setDie_ended (s : State) (d : Nat) (f : Die → Die) : (setDie s d f).ended = s.ended := rfl
@[simp] theorem setDie_jobs (s : State) (d : Nat) (f : Die → Die) : (setDie s d f).jobs = s.jobs := rfl
@[simp] theorem setDie_endedJobs (s : State) (d : Nat) (f : Die → Die) : (setDie s d f).endedJobs = s.endedJobs := rfl
@[simp] theorem setDie_tasks (s : State) (d : Nat) (f : Die → Die) : (setDie s d f).tasks = s.tasks := rfl
@[simp] theorem setDie_reqs (s : State) (d : Nat) (f : Die → Die) : (setDie s d f).reqs = s.reqs := rfl
@[simp] theorem setDie_fns (s : State) (d : Nat) (f : Die → Die) : (setDie s d f).fns = s.fns := rfl
@[simp] theorem setDie_parts (s : State) (d : Nat) (f : Die → Die) : (setDie s d f).parts = s.parts := rfl
@[simp] theorem setDie_usedSlices (s : State) (d : Nat) (f : Die → Die) : (setDie s d f).usedSlices = s.usedSlices := rfl
@[simp] theorem setDie_excludedSlices (s : State) (d : Nat) (f : Die → Die) : (setDie s d f).excludedSlices = s.excludedSlices := rfl
@[simp] theorem setDie_retired (s : State) (d : Nat) (f : Die → Die) : (setDie s d f).retired = s.retired := rfl
@[simp] theorem setDie_commons (s : State) (d : Nat) (f : Die → Die) : (setDie s d f).commons = s.commons := rfl
@[simp] theorem setDie_syncs (s : State) (d : Nat) (f : Die → Die) : (setDie s d f).syncs = s.syncs := rfl
@[simp] theorem setDie_halts (s : State) (d : Nat) (f : Die → Die) : (setDie s d f).halts = s.halts := rfl
@[simp] theorem setDie_stops (s : State) (d : Nat) (f : Die → Die) : (setDie s d f).stops = s.stops := rfl
@[simp] theorem setDie_pfPart (s : State) (d : Nat) (f : Die → Die) : (setDie s d f).pfPart = s.pfPart := rfl
@[simp] theorem setDie_cxl (s : State) (d : Nat) (f : Die → Die) : (setDie s d f).cxl = s.cxl := rfl
@[simp] theorem setDie_peerMap (s : State) (d : Nat) (f : Die → Die) : (setDie s d f).peerMap = s.peerMap := rfl
@[simp] theorem setDie_mcast (s : State) (d : Nat) (f : Die → Die) : (setDie s d f).mcast = s.mcast := rfl
@[simp] theorem setDie_links (s : State) (d : Nat) (f : Die → Die) : (setDie s d f).links = s.links := rfl
@[simp] theorem setDie_attest (s : State) (d : Nat) (f : Die → Die) : (setDie s d f).attest = s.attest := rfl
@[simp] theorem setDie_life (s : State) (d : Nat) (f : Die → Die) : (setDie s d f).life = s.life := rfl
@[simp] theorem setDie_lifeFlash (s : State) (d : Nat) (f : Die → Die) : (setDie s d f).lifeFlash = s.lifeFlash := rfl
@[simp] theorem setDie_lifeAt (s : State) (d : Nat) (f : Die → Die) : (setDie s d f).lifeAt = s.lifeAt := rfl
@[simp] theorem setDie_pulls (s : State) (d : Nat) (f : Die → Die) : (setDie s d f).pulls = s.pulls := rfl
@[simp] theorem setDie_peerRefuses (s : State) (d : Nat) (f : Die → Die) : (setDie s d f).peerRefuses = s.peerRefuses := rfl
@[simp] theorem setDie_badSectors (s : State) (d : Nat) (f : Die → Die) : (setDie s d f).badSectors = s.badSectors := rfl
@[simp] theorem setDie_repairs (s : State) (d : Nat) (f : Die → Die) : (setDie s d f).repairs = s.repairs := rfl
@[simp] theorem setDie_lastIssue (s : State) (d : Nat) (f : Die → Die) : (setDie s d f).lastIssue = s.lastIssue := rfl
@[simp] theorem setDie_vendor (s : State) (d : Nat) (f : Die → Die) : (setDie s d f).vendor = s.vendor := rfl
@[simp] theorem setDie_receiptSeq (s : State) (d : Nat) (f : Die → Die) : (setDie s d f).receiptSeq = s.receiptSeq := rfl
@[simp] theorem setDie_importKey (s : State) (d : Nat) (f : Die → Die) : (setDie s d f).importKey = s.importKey := rfl
@[simp] theorem setDie_serial (s : State) (d : Nat) (f : Die → Die) : (setDie s d f).serial = s.serial := rfl

/-! ## `setFn` -/

@[simp] theorem setFn_turns (s : State) (n : Nat) (f : FnState → FnState) : (setFn s n f).turns = s.turns := rfl
@[simp] theorem setFn_actor (s : State) (n : Nat) (f : FnState → FnState) : (setFn s n f).actor = s.actor := rfl
@[simp] theorem setFn_free (s : State) (n : Nat) (f : FnState → FnState) : (setFn s n f).free = s.free := rfl
@[simp] theorem setFn_clock (s : State) (n : Nat) (f : FnState → FnState) : (setFn s n f).clock = s.clock := rfl
@[simp] theorem setFn_time (s : State) (n : Nat) (f : FnState → FnState) : (setFn s n f).time = s.time := rfl
@[simp] theorem setFn_ptm (s : State) (n : Nat) (f : FnState → FnState) : (setFn s n f).ptm = s.ptm := rfl
@[simp] theorem setFn_dev (s : State) (n : Nat) (f : FnState → FnState) : (setFn s n f).dev = s.dev := rfl
@[simp] theorem setFn_mem (s : State) (n : Nat) (f : FnState → FnState) : (setFn s n f).mem = s.mem := rfl
@[simp] theorem setFn_hostMem (s : State) (n : Nat) (f : FnState → FnState) : (setFn s n f).hostMem = s.hostMem := rfl
@[simp] theorem setFn_peerMem (s : State) (n : Nat) (f : FnState → FnState) : (setFn s n f).peerMem = s.peerMem := rfl
@[simp] theorem setFn_latch (s : State) (n : Nat) (f : FnState → FnState) : (setFn s n f).latch = s.latch := rfl
@[simp] theorem setFn_l2 (s : State) (n : Nat) (f : FnState → FnState) : (setFn s n f).l2 = s.l2 := rfl
@[simp] theorem setFn_sends (s : State) (n : Nat) (f : FnState → FnState) : (setFn s n f).sends = s.sends := rfl
@[simp] theorem setFn_cores (s : State) (n : Nat) (f : FnState → FnState) : (setFn s n f).cores = s.cores := rfl
@[simp] theorem setFn_clusters (s : State) (n : Nat) (f : FnState → FnState) : (setFn s n f).clusters = s.clusters := rfl
@[simp] theorem setFn_dies (s : State) (n : Nat) (f : FnState → FnState) : (setFn s n f).dies = s.dies := rfl
@[simp] theorem setFn_reclaim (s : State) (n : Nat) (f : FnState → FnState) : (setFn s n f).reclaim = s.reclaim := rfl
@[simp] theorem setFn_units (s : State) (n : Nat) (f : FnState → FnState) : (setFn s n f).units = s.units := rfl
@[simp] theorem setFn_images (s : State) (n : Nat) (f : FnState → FnState) : (setFn s n f).images = s.images := rfl
@[simp] theorem setFn_launches (s : State) (n : Nat) (f : FnState → FnState) : (setFn s n f).launches = s.launches := rfl
@[simp] theorem setFn_ended (s : State) (n : Nat) (f : FnState → FnState) : (setFn s n f).ended = s.ended := rfl
@[simp] theorem setFn_jobs (s : State) (n : Nat) (f : FnState → FnState) : (setFn s n f).jobs = s.jobs := rfl
@[simp] theorem setFn_endedJobs (s : State) (n : Nat) (f : FnState → FnState) : (setFn s n f).endedJobs = s.endedJobs := rfl
@[simp] theorem setFn_tasks (s : State) (n : Nat) (f : FnState → FnState) : (setFn s n f).tasks = s.tasks := rfl
@[simp] theorem setFn_reqs (s : State) (n : Nat) (f : FnState → FnState) : (setFn s n f).reqs = s.reqs := rfl
@[simp] theorem setFn_parts (s : State) (n : Nat) (f : FnState → FnState) : (setFn s n f).parts = s.parts := rfl
@[simp] theorem setFn_usedSlices (s : State) (n : Nat) (f : FnState → FnState) : (setFn s n f).usedSlices = s.usedSlices := rfl
@[simp] theorem setFn_excludedSlices (s : State) (n : Nat) (f : FnState → FnState) : (setFn s n f).excludedSlices = s.excludedSlices := rfl
@[simp] theorem setFn_retired (s : State) (n : Nat) (f : FnState → FnState) : (setFn s n f).retired = s.retired := rfl
@[simp] theorem setFn_commons (s : State) (n : Nat) (f : FnState → FnState) : (setFn s n f).commons = s.commons := rfl
@[simp] theorem setFn_syncs (s : State) (n : Nat) (f : FnState → FnState) : (setFn s n f).syncs = s.syncs := rfl
@[simp] theorem setFn_halts (s : State) (n : Nat) (f : FnState → FnState) : (setFn s n f).halts = s.halts := rfl
@[simp] theorem setFn_stops (s : State) (n : Nat) (f : FnState → FnState) : (setFn s n f).stops = s.stops := rfl
@[simp] theorem setFn_pfPart (s : State) (n : Nat) (f : FnState → FnState) : (setFn s n f).pfPart = s.pfPart := rfl
@[simp] theorem setFn_cxl (s : State) (n : Nat) (f : FnState → FnState) : (setFn s n f).cxl = s.cxl := rfl
@[simp] theorem setFn_peerMap (s : State) (n : Nat) (f : FnState → FnState) : (setFn s n f).peerMap = s.peerMap := rfl
@[simp] theorem setFn_mcast (s : State) (n : Nat) (f : FnState → FnState) : (setFn s n f).mcast = s.mcast := rfl
@[simp] theorem setFn_links (s : State) (n : Nat) (f : FnState → FnState) : (setFn s n f).links = s.links := rfl
@[simp] theorem setFn_attest (s : State) (n : Nat) (f : FnState → FnState) : (setFn s n f).attest = s.attest := rfl
@[simp] theorem setFn_life (s : State) (n : Nat) (f : FnState → FnState) : (setFn s n f).life = s.life := rfl
@[simp] theorem setFn_lifeFlash (s : State) (n : Nat) (f : FnState → FnState) : (setFn s n f).lifeFlash = s.lifeFlash := rfl
@[simp] theorem setFn_lifeAt (s : State) (n : Nat) (f : FnState → FnState) : (setFn s n f).lifeAt = s.lifeAt := rfl
@[simp] theorem setFn_pulls (s : State) (n : Nat) (f : FnState → FnState) : (setFn s n f).pulls = s.pulls := rfl
@[simp] theorem setFn_peerRefuses (s : State) (n : Nat) (f : FnState → FnState) : (setFn s n f).peerRefuses = s.peerRefuses := rfl
@[simp] theorem setFn_badSectors (s : State) (n : Nat) (f : FnState → FnState) : (setFn s n f).badSectors = s.badSectors := rfl
@[simp] theorem setFn_repairs (s : State) (n : Nat) (f : FnState → FnState) : (setFn s n f).repairs = s.repairs := rfl
@[simp] theorem setFn_lastIssue (s : State) (n : Nat) (f : FnState → FnState) : (setFn s n f).lastIssue = s.lastIssue := rfl
@[simp] theorem setFn_vendor (s : State) (n : Nat) (f : FnState → FnState) : (setFn s n f).vendor = s.vendor := rfl
@[simp] theorem setFn_receiptSeq (s : State) (n : Nat) (f : FnState → FnState) : (setFn s n f).receiptSeq = s.receiptSeq := rfl
@[simp] theorem setFn_importKey (s : State) (n : Nat) (f : FnState → FnState) : (setFn s n f).importKey = s.importKey := rfl
@[simp] theorem setFn_serial (s : State) (n : Nat) (f : FnState → FnState) : (setFn s n f).serial = s.serial := rfl

/-! ## `setPart` -/

@[simp] theorem setPart_turns (s : State) (p : Nat) (f : Partition → Partition) : (setPart s p f).turns = s.turns := rfl
@[simp] theorem setPart_actor (s : State) (p : Nat) (f : Partition → Partition) : (setPart s p f).actor = s.actor := rfl
@[simp] theorem setPart_free (s : State) (p : Nat) (f : Partition → Partition) : (setPart s p f).free = s.free := rfl
@[simp] theorem setPart_clock (s : State) (p : Nat) (f : Partition → Partition) : (setPart s p f).clock = s.clock := rfl
@[simp] theorem setPart_time (s : State) (p : Nat) (f : Partition → Partition) : (setPart s p f).time = s.time := rfl
@[simp] theorem setPart_ptm (s : State) (p : Nat) (f : Partition → Partition) : (setPart s p f).ptm = s.ptm := rfl
@[simp] theorem setPart_dev (s : State) (p : Nat) (f : Partition → Partition) : (setPart s p f).dev = s.dev := rfl
@[simp] theorem setPart_mem (s : State) (p : Nat) (f : Partition → Partition) : (setPart s p f).mem = s.mem := rfl
@[simp] theorem setPart_hostMem (s : State) (p : Nat) (f : Partition → Partition) : (setPart s p f).hostMem = s.hostMem := rfl
@[simp] theorem setPart_peerMem (s : State) (p : Nat) (f : Partition → Partition) : (setPart s p f).peerMem = s.peerMem := rfl
@[simp] theorem setPart_latch (s : State) (p : Nat) (f : Partition → Partition) : (setPart s p f).latch = s.latch := rfl
@[simp] theorem setPart_l2 (s : State) (p : Nat) (f : Partition → Partition) : (setPart s p f).l2 = s.l2 := rfl
@[simp] theorem setPart_sends (s : State) (p : Nat) (f : Partition → Partition) : (setPart s p f).sends = s.sends := rfl
@[simp] theorem setPart_cores (s : State) (p : Nat) (f : Partition → Partition) : (setPart s p f).cores = s.cores := rfl
@[simp] theorem setPart_clusters (s : State) (p : Nat) (f : Partition → Partition) : (setPart s p f).clusters = s.clusters := rfl
@[simp] theorem setPart_dies (s : State) (p : Nat) (f : Partition → Partition) : (setPart s p f).dies = s.dies := rfl
@[simp] theorem setPart_reclaim (s : State) (p : Nat) (f : Partition → Partition) : (setPart s p f).reclaim = s.reclaim := rfl
@[simp] theorem setPart_units (s : State) (p : Nat) (f : Partition → Partition) : (setPart s p f).units = s.units := rfl
@[simp] theorem setPart_images (s : State) (p : Nat) (f : Partition → Partition) : (setPart s p f).images = s.images := rfl
@[simp] theorem setPart_launches (s : State) (p : Nat) (f : Partition → Partition) : (setPart s p f).launches = s.launches := rfl
@[simp] theorem setPart_ended (s : State) (p : Nat) (f : Partition → Partition) : (setPart s p f).ended = s.ended := rfl
@[simp] theorem setPart_jobs (s : State) (p : Nat) (f : Partition → Partition) : (setPart s p f).jobs = s.jobs := rfl
@[simp] theorem setPart_endedJobs (s : State) (p : Nat) (f : Partition → Partition) : (setPart s p f).endedJobs = s.endedJobs := rfl
@[simp] theorem setPart_tasks (s : State) (p : Nat) (f : Partition → Partition) : (setPart s p f).tasks = s.tasks := rfl
@[simp] theorem setPart_reqs (s : State) (p : Nat) (f : Partition → Partition) : (setPart s p f).reqs = s.reqs := rfl
@[simp] theorem setPart_fns (s : State) (p : Nat) (f : Partition → Partition) : (setPart s p f).fns = s.fns := rfl
@[simp] theorem setPart_usedSlices (s : State) (p : Nat) (f : Partition → Partition) : (setPart s p f).usedSlices = s.usedSlices := rfl
@[simp] theorem setPart_excludedSlices (s : State) (p : Nat) (f : Partition → Partition) : (setPart s p f).excludedSlices = s.excludedSlices := rfl
@[simp] theorem setPart_retired (s : State) (p : Nat) (f : Partition → Partition) : (setPart s p f).retired = s.retired := rfl
@[simp] theorem setPart_commons (s : State) (p : Nat) (f : Partition → Partition) : (setPart s p f).commons = s.commons := rfl
@[simp] theorem setPart_syncs (s : State) (p : Nat) (f : Partition → Partition) : (setPart s p f).syncs = s.syncs := rfl
@[simp] theorem setPart_halts (s : State) (p : Nat) (f : Partition → Partition) : (setPart s p f).halts = s.halts := rfl
@[simp] theorem setPart_stops (s : State) (p : Nat) (f : Partition → Partition) : (setPart s p f).stops = s.stops := rfl
@[simp] theorem setPart_pfPart (s : State) (p : Nat) (f : Partition → Partition) : (setPart s p f).pfPart = s.pfPart := rfl
@[simp] theorem setPart_cxl (s : State) (p : Nat) (f : Partition → Partition) : (setPart s p f).cxl = s.cxl := rfl
@[simp] theorem setPart_peerMap (s : State) (p : Nat) (f : Partition → Partition) : (setPart s p f).peerMap = s.peerMap := rfl
@[simp] theorem setPart_mcast (s : State) (p : Nat) (f : Partition → Partition) : (setPart s p f).mcast = s.mcast := rfl
@[simp] theorem setPart_links (s : State) (p : Nat) (f : Partition → Partition) : (setPart s p f).links = s.links := rfl
@[simp] theorem setPart_attest (s : State) (p : Nat) (f : Partition → Partition) : (setPart s p f).attest = s.attest := rfl
@[simp] theorem setPart_life (s : State) (p : Nat) (f : Partition → Partition) : (setPart s p f).life = s.life := rfl
@[simp] theorem setPart_lifeFlash (s : State) (p : Nat) (f : Partition → Partition) : (setPart s p f).lifeFlash = s.lifeFlash := rfl
@[simp] theorem setPart_lifeAt (s : State) (p : Nat) (f : Partition → Partition) : (setPart s p f).lifeAt = s.lifeAt := rfl
@[simp] theorem setPart_pulls (s : State) (p : Nat) (f : Partition → Partition) : (setPart s p f).pulls = s.pulls := rfl
@[simp] theorem setPart_peerRefuses (s : State) (p : Nat) (f : Partition → Partition) : (setPart s p f).peerRefuses = s.peerRefuses := rfl
@[simp] theorem setPart_badSectors (s : State) (p : Nat) (f : Partition → Partition) : (setPart s p f).badSectors = s.badSectors := rfl
@[simp] theorem setPart_repairs (s : State) (p : Nat) (f : Partition → Partition) : (setPart s p f).repairs = s.repairs := rfl
@[simp] theorem setPart_lastIssue (s : State) (p : Nat) (f : Partition → Partition) : (setPart s p f).lastIssue = s.lastIssue := rfl
@[simp] theorem setPart_vendor (s : State) (p : Nat) (f : Partition → Partition) : (setPart s p f).vendor = s.vendor := rfl
@[simp] theorem setPart_receiptSeq (s : State) (p : Nat) (f : Partition → Partition) : (setPart s p f).receiptSeq = s.receiptSeq := rfl
@[simp] theorem setPart_importKey (s : State) (p : Nat) (f : Partition → Partition) : (setPart s p f).importKey = s.importKey := rfl
@[simp] theorem setPart_serial (s : State) (p : Nat) (f : Partition → Partition) : (setPart s p f).serial = s.serial := rfl

/-! ## `setUnit` -/

@[simp] theorem setUnit_turns (s : State) (u : Nat) (f : WUnit → WUnit) : (setUnit s u f).turns = s.turns := rfl
@[simp] theorem setUnit_actor (s : State) (u : Nat) (f : WUnit → WUnit) : (setUnit s u f).actor = s.actor := rfl
@[simp] theorem setUnit_free (s : State) (u : Nat) (f : WUnit → WUnit) : (setUnit s u f).free = s.free := rfl
@[simp] theorem setUnit_clock (s : State) (u : Nat) (f : WUnit → WUnit) : (setUnit s u f).clock = s.clock := rfl
@[simp] theorem setUnit_time (s : State) (u : Nat) (f : WUnit → WUnit) : (setUnit s u f).time = s.time := rfl
@[simp] theorem setUnit_ptm (s : State) (u : Nat) (f : WUnit → WUnit) : (setUnit s u f).ptm = s.ptm := rfl
@[simp] theorem setUnit_dev (s : State) (u : Nat) (f : WUnit → WUnit) : (setUnit s u f).dev = s.dev := rfl
@[simp] theorem setUnit_mem (s : State) (u : Nat) (f : WUnit → WUnit) : (setUnit s u f).mem = s.mem := rfl
@[simp] theorem setUnit_hostMem (s : State) (u : Nat) (f : WUnit → WUnit) : (setUnit s u f).hostMem = s.hostMem := rfl
@[simp] theorem setUnit_peerMem (s : State) (u : Nat) (f : WUnit → WUnit) : (setUnit s u f).peerMem = s.peerMem := rfl
@[simp] theorem setUnit_latch (s : State) (u : Nat) (f : WUnit → WUnit) : (setUnit s u f).latch = s.latch := rfl
@[simp] theorem setUnit_l2 (s : State) (u : Nat) (f : WUnit → WUnit) : (setUnit s u f).l2 = s.l2 := rfl
@[simp] theorem setUnit_sends (s : State) (u : Nat) (f : WUnit → WUnit) : (setUnit s u f).sends = s.sends := rfl
@[simp] theorem setUnit_cores (s : State) (u : Nat) (f : WUnit → WUnit) : (setUnit s u f).cores = s.cores := rfl
@[simp] theorem setUnit_clusters (s : State) (u : Nat) (f : WUnit → WUnit) : (setUnit s u f).clusters = s.clusters := rfl
@[simp] theorem setUnit_dies (s : State) (u : Nat) (f : WUnit → WUnit) : (setUnit s u f).dies = s.dies := rfl
@[simp] theorem setUnit_reclaim (s : State) (u : Nat) (f : WUnit → WUnit) : (setUnit s u f).reclaim = s.reclaim := rfl
@[simp] theorem setUnit_images (s : State) (u : Nat) (f : WUnit → WUnit) : (setUnit s u f).images = s.images := rfl
@[simp] theorem setUnit_launches (s : State) (u : Nat) (f : WUnit → WUnit) : (setUnit s u f).launches = s.launches := rfl
@[simp] theorem setUnit_ended (s : State) (u : Nat) (f : WUnit → WUnit) : (setUnit s u f).ended = s.ended := rfl
@[simp] theorem setUnit_jobs (s : State) (u : Nat) (f : WUnit → WUnit) : (setUnit s u f).jobs = s.jobs := rfl
@[simp] theorem setUnit_endedJobs (s : State) (u : Nat) (f : WUnit → WUnit) : (setUnit s u f).endedJobs = s.endedJobs := rfl
@[simp] theorem setUnit_tasks (s : State) (u : Nat) (f : WUnit → WUnit) : (setUnit s u f).tasks = s.tasks := rfl
@[simp] theorem setUnit_reqs (s : State) (u : Nat) (f : WUnit → WUnit) : (setUnit s u f).reqs = s.reqs := rfl
@[simp] theorem setUnit_fns (s : State) (u : Nat) (f : WUnit → WUnit) : (setUnit s u f).fns = s.fns := rfl
@[simp] theorem setUnit_parts (s : State) (u : Nat) (f : WUnit → WUnit) : (setUnit s u f).parts = s.parts := rfl
@[simp] theorem setUnit_usedSlices (s : State) (u : Nat) (f : WUnit → WUnit) : (setUnit s u f).usedSlices = s.usedSlices := rfl
@[simp] theorem setUnit_excludedSlices (s : State) (u : Nat) (f : WUnit → WUnit) : (setUnit s u f).excludedSlices = s.excludedSlices := rfl
@[simp] theorem setUnit_retired (s : State) (u : Nat) (f : WUnit → WUnit) : (setUnit s u f).retired = s.retired := rfl
@[simp] theorem setUnit_commons (s : State) (u : Nat) (f : WUnit → WUnit) : (setUnit s u f).commons = s.commons := rfl
@[simp] theorem setUnit_syncs (s : State) (u : Nat) (f : WUnit → WUnit) : (setUnit s u f).syncs = s.syncs := rfl
@[simp] theorem setUnit_halts (s : State) (u : Nat) (f : WUnit → WUnit) : (setUnit s u f).halts = s.halts := rfl
@[simp] theorem setUnit_stops (s : State) (u : Nat) (f : WUnit → WUnit) : (setUnit s u f).stops = s.stops := rfl
@[simp] theorem setUnit_pfPart (s : State) (u : Nat) (f : WUnit → WUnit) : (setUnit s u f).pfPart = s.pfPart := rfl
@[simp] theorem setUnit_cxl (s : State) (u : Nat) (f : WUnit → WUnit) : (setUnit s u f).cxl = s.cxl := rfl
@[simp] theorem setUnit_peerMap (s : State) (u : Nat) (f : WUnit → WUnit) : (setUnit s u f).peerMap = s.peerMap := rfl
@[simp] theorem setUnit_mcast (s : State) (u : Nat) (f : WUnit → WUnit) : (setUnit s u f).mcast = s.mcast := rfl
@[simp] theorem setUnit_links (s : State) (u : Nat) (f : WUnit → WUnit) : (setUnit s u f).links = s.links := rfl
@[simp] theorem setUnit_attest (s : State) (u : Nat) (f : WUnit → WUnit) : (setUnit s u f).attest = s.attest := rfl
@[simp] theorem setUnit_life (s : State) (u : Nat) (f : WUnit → WUnit) : (setUnit s u f).life = s.life := rfl
@[simp] theorem setUnit_lifeFlash (s : State) (u : Nat) (f : WUnit → WUnit) : (setUnit s u f).lifeFlash = s.lifeFlash := rfl
@[simp] theorem setUnit_lifeAt (s : State) (u : Nat) (f : WUnit → WUnit) : (setUnit s u f).lifeAt = s.lifeAt := rfl
@[simp] theorem setUnit_pulls (s : State) (u : Nat) (f : WUnit → WUnit) : (setUnit s u f).pulls = s.pulls := rfl
@[simp] theorem setUnit_peerRefuses (s : State) (u : Nat) (f : WUnit → WUnit) : (setUnit s u f).peerRefuses = s.peerRefuses := rfl
@[simp] theorem setUnit_badSectors (s : State) (u : Nat) (f : WUnit → WUnit) : (setUnit s u f).badSectors = s.badSectors := rfl
@[simp] theorem setUnit_repairs (s : State) (u : Nat) (f : WUnit → WUnit) : (setUnit s u f).repairs = s.repairs := rfl
@[simp] theorem setUnit_lastIssue (s : State) (u : Nat) (f : WUnit → WUnit) : (setUnit s u f).lastIssue = s.lastIssue := rfl
@[simp] theorem setUnit_vendor (s : State) (u : Nat) (f : WUnit → WUnit) : (setUnit s u f).vendor = s.vendor := rfl
@[simp] theorem setUnit_receiptSeq (s : State) (u : Nat) (f : WUnit → WUnit) : (setUnit s u f).receiptSeq = s.receiptSeq := rfl
@[simp] theorem setUnit_importKey (s : State) (u : Nat) (f : WUnit → WUnit) : (setUnit s u f).importKey = s.importKey := rfl
@[simp] theorem setUnit_serial (s : State) (u : Nat) (f : WUnit → WUnit) : (setUnit s u f).serial = s.serial := rfl

/-! ## `setLaunch` -/

@[simp] theorem setLaunch_turns (s : State) (l : Nat) (f : Launch → Launch) : (setLaunch s l f).turns = s.turns := rfl
@[simp] theorem setLaunch_actor (s : State) (l : Nat) (f : Launch → Launch) : (setLaunch s l f).actor = s.actor := rfl
@[simp] theorem setLaunch_free (s : State) (l : Nat) (f : Launch → Launch) : (setLaunch s l f).free = s.free := rfl
@[simp] theorem setLaunch_clock (s : State) (l : Nat) (f : Launch → Launch) : (setLaunch s l f).clock = s.clock := rfl
@[simp] theorem setLaunch_time (s : State) (l : Nat) (f : Launch → Launch) : (setLaunch s l f).time = s.time := rfl
@[simp] theorem setLaunch_ptm (s : State) (l : Nat) (f : Launch → Launch) : (setLaunch s l f).ptm = s.ptm := rfl
@[simp] theorem setLaunch_dev (s : State) (l : Nat) (f : Launch → Launch) : (setLaunch s l f).dev = s.dev := rfl
@[simp] theorem setLaunch_mem (s : State) (l : Nat) (f : Launch → Launch) : (setLaunch s l f).mem = s.mem := rfl
@[simp] theorem setLaunch_hostMem (s : State) (l : Nat) (f : Launch → Launch) : (setLaunch s l f).hostMem = s.hostMem := rfl
@[simp] theorem setLaunch_peerMem (s : State) (l : Nat) (f : Launch → Launch) : (setLaunch s l f).peerMem = s.peerMem := rfl
@[simp] theorem setLaunch_latch (s : State) (l : Nat) (f : Launch → Launch) : (setLaunch s l f).latch = s.latch := rfl
@[simp] theorem setLaunch_l2 (s : State) (l : Nat) (f : Launch → Launch) : (setLaunch s l f).l2 = s.l2 := rfl
@[simp] theorem setLaunch_sends (s : State) (l : Nat) (f : Launch → Launch) : (setLaunch s l f).sends = s.sends := rfl
@[simp] theorem setLaunch_cores (s : State) (l : Nat) (f : Launch → Launch) : (setLaunch s l f).cores = s.cores := rfl
@[simp] theorem setLaunch_clusters (s : State) (l : Nat) (f : Launch → Launch) : (setLaunch s l f).clusters = s.clusters := rfl
@[simp] theorem setLaunch_dies (s : State) (l : Nat) (f : Launch → Launch) : (setLaunch s l f).dies = s.dies := rfl
@[simp] theorem setLaunch_reclaim (s : State) (l : Nat) (f : Launch → Launch) : (setLaunch s l f).reclaim = s.reclaim := rfl
@[simp] theorem setLaunch_units (s : State) (l : Nat) (f : Launch → Launch) : (setLaunch s l f).units = s.units := rfl
@[simp] theorem setLaunch_images (s : State) (l : Nat) (f : Launch → Launch) : (setLaunch s l f).images = s.images := rfl
@[simp] theorem setLaunch_ended (s : State) (l : Nat) (f : Launch → Launch) : (setLaunch s l f).ended = s.ended := rfl
@[simp] theorem setLaunch_jobs (s : State) (l : Nat) (f : Launch → Launch) : (setLaunch s l f).jobs = s.jobs := rfl
@[simp] theorem setLaunch_endedJobs (s : State) (l : Nat) (f : Launch → Launch) : (setLaunch s l f).endedJobs = s.endedJobs := rfl
@[simp] theorem setLaunch_tasks (s : State) (l : Nat) (f : Launch → Launch) : (setLaunch s l f).tasks = s.tasks := rfl
@[simp] theorem setLaunch_reqs (s : State) (l : Nat) (f : Launch → Launch) : (setLaunch s l f).reqs = s.reqs := rfl
@[simp] theorem setLaunch_fns (s : State) (l : Nat) (f : Launch → Launch) : (setLaunch s l f).fns = s.fns := rfl
@[simp] theorem setLaunch_parts (s : State) (l : Nat) (f : Launch → Launch) : (setLaunch s l f).parts = s.parts := rfl
@[simp] theorem setLaunch_usedSlices (s : State) (l : Nat) (f : Launch → Launch) : (setLaunch s l f).usedSlices = s.usedSlices := rfl
@[simp] theorem setLaunch_excludedSlices (s : State) (l : Nat) (f : Launch → Launch) : (setLaunch s l f).excludedSlices = s.excludedSlices := rfl
@[simp] theorem setLaunch_retired (s : State) (l : Nat) (f : Launch → Launch) : (setLaunch s l f).retired = s.retired := rfl
@[simp] theorem setLaunch_commons (s : State) (l : Nat) (f : Launch → Launch) : (setLaunch s l f).commons = s.commons := rfl
@[simp] theorem setLaunch_syncs (s : State) (l : Nat) (f : Launch → Launch) : (setLaunch s l f).syncs = s.syncs := rfl
@[simp] theorem setLaunch_halts (s : State) (l : Nat) (f : Launch → Launch) : (setLaunch s l f).halts = s.halts := rfl
@[simp] theorem setLaunch_stops (s : State) (l : Nat) (f : Launch → Launch) : (setLaunch s l f).stops = s.stops := rfl
@[simp] theorem setLaunch_pfPart (s : State) (l : Nat) (f : Launch → Launch) : (setLaunch s l f).pfPart = s.pfPart := rfl
@[simp] theorem setLaunch_cxl (s : State) (l : Nat) (f : Launch → Launch) : (setLaunch s l f).cxl = s.cxl := rfl
@[simp] theorem setLaunch_peerMap (s : State) (l : Nat) (f : Launch → Launch) : (setLaunch s l f).peerMap = s.peerMap := rfl
@[simp] theorem setLaunch_mcast (s : State) (l : Nat) (f : Launch → Launch) : (setLaunch s l f).mcast = s.mcast := rfl
@[simp] theorem setLaunch_links (s : State) (l : Nat) (f : Launch → Launch) : (setLaunch s l f).links = s.links := rfl
@[simp] theorem setLaunch_attest (s : State) (l : Nat) (f : Launch → Launch) : (setLaunch s l f).attest = s.attest := rfl
@[simp] theorem setLaunch_life (s : State) (l : Nat) (f : Launch → Launch) : (setLaunch s l f).life = s.life := rfl
@[simp] theorem setLaunch_lifeFlash (s : State) (l : Nat) (f : Launch → Launch) : (setLaunch s l f).lifeFlash = s.lifeFlash := rfl
@[simp] theorem setLaunch_lifeAt (s : State) (l : Nat) (f : Launch → Launch) : (setLaunch s l f).lifeAt = s.lifeAt := rfl
@[simp] theorem setLaunch_pulls (s : State) (l : Nat) (f : Launch → Launch) : (setLaunch s l f).pulls = s.pulls := rfl
@[simp] theorem setLaunch_peerRefuses (s : State) (l : Nat) (f : Launch → Launch) : (setLaunch s l f).peerRefuses = s.peerRefuses := rfl
@[simp] theorem setLaunch_badSectors (s : State) (l : Nat) (f : Launch → Launch) : (setLaunch s l f).badSectors = s.badSectors := rfl
@[simp] theorem setLaunch_repairs (s : State) (l : Nat) (f : Launch → Launch) : (setLaunch s l f).repairs = s.repairs := rfl
@[simp] theorem setLaunch_lastIssue (s : State) (l : Nat) (f : Launch → Launch) : (setLaunch s l f).lastIssue = s.lastIssue := rfl
@[simp] theorem setLaunch_vendor (s : State) (l : Nat) (f : Launch → Launch) : (setLaunch s l f).vendor = s.vendor := rfl
@[simp] theorem setLaunch_receiptSeq (s : State) (l : Nat) (f : Launch → Launch) : (setLaunch s l f).receiptSeq = s.receiptSeq := rfl
@[simp] theorem setLaunch_importKey (s : State) (l : Nat) (f : Launch → Launch) : (setLaunch s l f).importKey = s.importKey := rfl
@[simp] theorem setLaunch_serial (s : State) (l : Nat) (f : Launch → Launch) : (setLaunch s l f).serial = s.serial := rfl

/-! ## `setStrand` -/

@[simp] theorem setStrand_turns (s : State) (u k : Nat) (f : Strand → Strand) : (setStrand s u k f).turns = s.turns := rfl
@[simp] theorem setStrand_actor (s : State) (u k : Nat) (f : Strand → Strand) : (setStrand s u k f).actor = s.actor := rfl
@[simp] theorem setStrand_free (s : State) (u k : Nat) (f : Strand → Strand) : (setStrand s u k f).free = s.free := rfl
@[simp] theorem setStrand_clock (s : State) (u k : Nat) (f : Strand → Strand) : (setStrand s u k f).clock = s.clock := rfl
@[simp] theorem setStrand_time (s : State) (u k : Nat) (f : Strand → Strand) : (setStrand s u k f).time = s.time := rfl
@[simp] theorem setStrand_ptm (s : State) (u k : Nat) (f : Strand → Strand) : (setStrand s u k f).ptm = s.ptm := rfl
@[simp] theorem setStrand_dev (s : State) (u k : Nat) (f : Strand → Strand) : (setStrand s u k f).dev = s.dev := rfl
@[simp] theorem setStrand_mem (s : State) (u k : Nat) (f : Strand → Strand) : (setStrand s u k f).mem = s.mem := rfl
@[simp] theorem setStrand_hostMem (s : State) (u k : Nat) (f : Strand → Strand) : (setStrand s u k f).hostMem = s.hostMem := rfl
@[simp] theorem setStrand_peerMem (s : State) (u k : Nat) (f : Strand → Strand) : (setStrand s u k f).peerMem = s.peerMem := rfl
@[simp] theorem setStrand_latch (s : State) (u k : Nat) (f : Strand → Strand) : (setStrand s u k f).latch = s.latch := rfl
@[simp] theorem setStrand_l2 (s : State) (u k : Nat) (f : Strand → Strand) : (setStrand s u k f).l2 = s.l2 := rfl
@[simp] theorem setStrand_sends (s : State) (u k : Nat) (f : Strand → Strand) : (setStrand s u k f).sends = s.sends := rfl
@[simp] theorem setStrand_cores (s : State) (u k : Nat) (f : Strand → Strand) : (setStrand s u k f).cores = s.cores := rfl
@[simp] theorem setStrand_clusters (s : State) (u k : Nat) (f : Strand → Strand) : (setStrand s u k f).clusters = s.clusters := rfl
@[simp] theorem setStrand_dies (s : State) (u k : Nat) (f : Strand → Strand) : (setStrand s u k f).dies = s.dies := rfl
@[simp] theorem setStrand_reclaim (s : State) (u k : Nat) (f : Strand → Strand) : (setStrand s u k f).reclaim = s.reclaim := rfl
@[simp] theorem setStrand_images (s : State) (u k : Nat) (f : Strand → Strand) : (setStrand s u k f).images = s.images := rfl
@[simp] theorem setStrand_launches (s : State) (u k : Nat) (f : Strand → Strand) : (setStrand s u k f).launches = s.launches := rfl
@[simp] theorem setStrand_ended (s : State) (u k : Nat) (f : Strand → Strand) : (setStrand s u k f).ended = s.ended := rfl
@[simp] theorem setStrand_jobs (s : State) (u k : Nat) (f : Strand → Strand) : (setStrand s u k f).jobs = s.jobs := rfl
@[simp] theorem setStrand_endedJobs (s : State) (u k : Nat) (f : Strand → Strand) : (setStrand s u k f).endedJobs = s.endedJobs := rfl
@[simp] theorem setStrand_tasks (s : State) (u k : Nat) (f : Strand → Strand) : (setStrand s u k f).tasks = s.tasks := rfl
@[simp] theorem setStrand_reqs (s : State) (u k : Nat) (f : Strand → Strand) : (setStrand s u k f).reqs = s.reqs := rfl
@[simp] theorem setStrand_fns (s : State) (u k : Nat) (f : Strand → Strand) : (setStrand s u k f).fns = s.fns := rfl
@[simp] theorem setStrand_parts (s : State) (u k : Nat) (f : Strand → Strand) : (setStrand s u k f).parts = s.parts := rfl
@[simp] theorem setStrand_usedSlices (s : State) (u k : Nat) (f : Strand → Strand) : (setStrand s u k f).usedSlices = s.usedSlices := rfl
@[simp] theorem setStrand_excludedSlices (s : State) (u k : Nat) (f : Strand → Strand) : (setStrand s u k f).excludedSlices = s.excludedSlices := rfl
@[simp] theorem setStrand_retired (s : State) (u k : Nat) (f : Strand → Strand) : (setStrand s u k f).retired = s.retired := rfl
@[simp] theorem setStrand_commons (s : State) (u k : Nat) (f : Strand → Strand) : (setStrand s u k f).commons = s.commons := rfl
@[simp] theorem setStrand_syncs (s : State) (u k : Nat) (f : Strand → Strand) : (setStrand s u k f).syncs = s.syncs := rfl
@[simp] theorem setStrand_halts (s : State) (u k : Nat) (f : Strand → Strand) : (setStrand s u k f).halts = s.halts := rfl
@[simp] theorem setStrand_stops (s : State) (u k : Nat) (f : Strand → Strand) : (setStrand s u k f).stops = s.stops := rfl
@[simp] theorem setStrand_pfPart (s : State) (u k : Nat) (f : Strand → Strand) : (setStrand s u k f).pfPart = s.pfPart := rfl
@[simp] theorem setStrand_cxl (s : State) (u k : Nat) (f : Strand → Strand) : (setStrand s u k f).cxl = s.cxl := rfl
@[simp] theorem setStrand_peerMap (s : State) (u k : Nat) (f : Strand → Strand) : (setStrand s u k f).peerMap = s.peerMap := rfl
@[simp] theorem setStrand_mcast (s : State) (u k : Nat) (f : Strand → Strand) : (setStrand s u k f).mcast = s.mcast := rfl
@[simp] theorem setStrand_links (s : State) (u k : Nat) (f : Strand → Strand) : (setStrand s u k f).links = s.links := rfl
@[simp] theorem setStrand_attest (s : State) (u k : Nat) (f : Strand → Strand) : (setStrand s u k f).attest = s.attest := rfl
@[simp] theorem setStrand_life (s : State) (u k : Nat) (f : Strand → Strand) : (setStrand s u k f).life = s.life := rfl
@[simp] theorem setStrand_lifeFlash (s : State) (u k : Nat) (f : Strand → Strand) : (setStrand s u k f).lifeFlash = s.lifeFlash := rfl
@[simp] theorem setStrand_lifeAt (s : State) (u k : Nat) (f : Strand → Strand) : (setStrand s u k f).lifeAt = s.lifeAt := rfl
@[simp] theorem setStrand_pulls (s : State) (u k : Nat) (f : Strand → Strand) : (setStrand s u k f).pulls = s.pulls := rfl
@[simp] theorem setStrand_peerRefuses (s : State) (u k : Nat) (f : Strand → Strand) : (setStrand s u k f).peerRefuses = s.peerRefuses := rfl
@[simp] theorem setStrand_badSectors (s : State) (u k : Nat) (f : Strand → Strand) : (setStrand s u k f).badSectors = s.badSectors := rfl
@[simp] theorem setStrand_repairs (s : State) (u k : Nat) (f : Strand → Strand) : (setStrand s u k f).repairs = s.repairs := rfl
@[simp] theorem setStrand_lastIssue (s : State) (u k : Nat) (f : Strand → Strand) : (setStrand s u k f).lastIssue = s.lastIssue := rfl
@[simp] theorem setStrand_vendor (s : State) (u k : Nat) (f : Strand → Strand) : (setStrand s u k f).vendor = s.vendor := rfl
@[simp] theorem setStrand_receiptSeq (s : State) (u k : Nat) (f : Strand → Strand) : (setStrand s u k f).receiptSeq = s.receiptSeq := rfl
@[simp] theorem setStrand_importKey (s : State) (u k : Nat) (f : Strand → Strand) : (setStrand s u k f).importKey = s.importKey := rfl
@[simp] theorem setStrand_serial (s : State) (u k : Nat) (f : Strand → Strand) : (setStrand s u k f).serial = s.serial := rfl

/-! ## `setQuarter` -/

@[simp] theorem setQuarter_turns (s : State) (c q : Nat) (f : Quarter → Quarter) : (setQuarter s c q f).turns = s.turns := rfl
@[simp] theorem setQuarter_actor (s : State) (c q : Nat) (f : Quarter → Quarter) : (setQuarter s c q f).actor = s.actor := rfl
@[simp] theorem setQuarter_free (s : State) (c q : Nat) (f : Quarter → Quarter) : (setQuarter s c q f).free = s.free := rfl
@[simp] theorem setQuarter_clock (s : State) (c q : Nat) (f : Quarter → Quarter) : (setQuarter s c q f).clock = s.clock := rfl
@[simp] theorem setQuarter_time (s : State) (c q : Nat) (f : Quarter → Quarter) : (setQuarter s c q f).time = s.time := rfl
@[simp] theorem setQuarter_ptm (s : State) (c q : Nat) (f : Quarter → Quarter) : (setQuarter s c q f).ptm = s.ptm := rfl
@[simp] theorem setQuarter_dev (s : State) (c q : Nat) (f : Quarter → Quarter) : (setQuarter s c q f).dev = s.dev := rfl
@[simp] theorem setQuarter_mem (s : State) (c q : Nat) (f : Quarter → Quarter) : (setQuarter s c q f).mem = s.mem := rfl
@[simp] theorem setQuarter_hostMem (s : State) (c q : Nat) (f : Quarter → Quarter) : (setQuarter s c q f).hostMem = s.hostMem := rfl
@[simp] theorem setQuarter_peerMem (s : State) (c q : Nat) (f : Quarter → Quarter) : (setQuarter s c q f).peerMem = s.peerMem := rfl
@[simp] theorem setQuarter_latch (s : State) (c q : Nat) (f : Quarter → Quarter) : (setQuarter s c q f).latch = s.latch := rfl
@[simp] theorem setQuarter_l2 (s : State) (c q : Nat) (f : Quarter → Quarter) : (setQuarter s c q f).l2 = s.l2 := rfl
@[simp] theorem setQuarter_sends (s : State) (c q : Nat) (f : Quarter → Quarter) : (setQuarter s c q f).sends = s.sends := rfl
@[simp] theorem setQuarter_clusters (s : State) (c q : Nat) (f : Quarter → Quarter) : (setQuarter s c q f).clusters = s.clusters := rfl
@[simp] theorem setQuarter_dies (s : State) (c q : Nat) (f : Quarter → Quarter) : (setQuarter s c q f).dies = s.dies := rfl
@[simp] theorem setQuarter_reclaim (s : State) (c q : Nat) (f : Quarter → Quarter) : (setQuarter s c q f).reclaim = s.reclaim := rfl
@[simp] theorem setQuarter_units (s : State) (c q : Nat) (f : Quarter → Quarter) : (setQuarter s c q f).units = s.units := rfl
@[simp] theorem setQuarter_images (s : State) (c q : Nat) (f : Quarter → Quarter) : (setQuarter s c q f).images = s.images := rfl
@[simp] theorem setQuarter_launches (s : State) (c q : Nat) (f : Quarter → Quarter) : (setQuarter s c q f).launches = s.launches := rfl
@[simp] theorem setQuarter_ended (s : State) (c q : Nat) (f : Quarter → Quarter) : (setQuarter s c q f).ended = s.ended := rfl
@[simp] theorem setQuarter_jobs (s : State) (c q : Nat) (f : Quarter → Quarter) : (setQuarter s c q f).jobs = s.jobs := rfl
@[simp] theorem setQuarter_endedJobs (s : State) (c q : Nat) (f : Quarter → Quarter) : (setQuarter s c q f).endedJobs = s.endedJobs := rfl
@[simp] theorem setQuarter_tasks (s : State) (c q : Nat) (f : Quarter → Quarter) : (setQuarter s c q f).tasks = s.tasks := rfl
@[simp] theorem setQuarter_reqs (s : State) (c q : Nat) (f : Quarter → Quarter) : (setQuarter s c q f).reqs = s.reqs := rfl
@[simp] theorem setQuarter_fns (s : State) (c q : Nat) (f : Quarter → Quarter) : (setQuarter s c q f).fns = s.fns := rfl
@[simp] theorem setQuarter_parts (s : State) (c q : Nat) (f : Quarter → Quarter) : (setQuarter s c q f).parts = s.parts := rfl
@[simp] theorem setQuarter_usedSlices (s : State) (c q : Nat) (f : Quarter → Quarter) : (setQuarter s c q f).usedSlices = s.usedSlices := rfl
@[simp] theorem setQuarter_excludedSlices (s : State) (c q : Nat) (f : Quarter → Quarter) : (setQuarter s c q f).excludedSlices = s.excludedSlices := rfl
@[simp] theorem setQuarter_retired (s : State) (c q : Nat) (f : Quarter → Quarter) : (setQuarter s c q f).retired = s.retired := rfl
@[simp] theorem setQuarter_commons (s : State) (c q : Nat) (f : Quarter → Quarter) : (setQuarter s c q f).commons = s.commons := rfl
@[simp] theorem setQuarter_syncs (s : State) (c q : Nat) (f : Quarter → Quarter) : (setQuarter s c q f).syncs = s.syncs := rfl
@[simp] theorem setQuarter_halts (s : State) (c q : Nat) (f : Quarter → Quarter) : (setQuarter s c q f).halts = s.halts := rfl
@[simp] theorem setQuarter_stops (s : State) (c q : Nat) (f : Quarter → Quarter) : (setQuarter s c q f).stops = s.stops := rfl
@[simp] theorem setQuarter_pfPart (s : State) (c q : Nat) (f : Quarter → Quarter) : (setQuarter s c q f).pfPart = s.pfPart := rfl
@[simp] theorem setQuarter_cxl (s : State) (c q : Nat) (f : Quarter → Quarter) : (setQuarter s c q f).cxl = s.cxl := rfl
@[simp] theorem setQuarter_peerMap (s : State) (c q : Nat) (f : Quarter → Quarter) : (setQuarter s c q f).peerMap = s.peerMap := rfl
@[simp] theorem setQuarter_mcast (s : State) (c q : Nat) (f : Quarter → Quarter) : (setQuarter s c q f).mcast = s.mcast := rfl
@[simp] theorem setQuarter_links (s : State) (c q : Nat) (f : Quarter → Quarter) : (setQuarter s c q f).links = s.links := rfl
@[simp] theorem setQuarter_attest (s : State) (c q : Nat) (f : Quarter → Quarter) : (setQuarter s c q f).attest = s.attest := rfl
@[simp] theorem setQuarter_life (s : State) (c q : Nat) (f : Quarter → Quarter) : (setQuarter s c q f).life = s.life := rfl
@[simp] theorem setQuarter_lifeFlash (s : State) (c q : Nat) (f : Quarter → Quarter) : (setQuarter s c q f).lifeFlash = s.lifeFlash := rfl
@[simp] theorem setQuarter_lifeAt (s : State) (c q : Nat) (f : Quarter → Quarter) : (setQuarter s c q f).lifeAt = s.lifeAt := rfl
@[simp] theorem setQuarter_pulls (s : State) (c q : Nat) (f : Quarter → Quarter) : (setQuarter s c q f).pulls = s.pulls := rfl
@[simp] theorem setQuarter_peerRefuses (s : State) (c q : Nat) (f : Quarter → Quarter) : (setQuarter s c q f).peerRefuses = s.peerRefuses := rfl
@[simp] theorem setQuarter_badSectors (s : State) (c q : Nat) (f : Quarter → Quarter) : (setQuarter s c q f).badSectors = s.badSectors := rfl
@[simp] theorem setQuarter_repairs (s : State) (c q : Nat) (f : Quarter → Quarter) : (setQuarter s c q f).repairs = s.repairs := rfl
@[simp] theorem setQuarter_lastIssue (s : State) (c q : Nat) (f : Quarter → Quarter) : (setQuarter s c q f).lastIssue = s.lastIssue := rfl
@[simp] theorem setQuarter_vendor (s : State) (c q : Nat) (f : Quarter → Quarter) : (setQuarter s c q f).vendor = s.vendor := rfl
@[simp] theorem setQuarter_receiptSeq (s : State) (c q : Nat) (f : Quarter → Quarter) : (setQuarter s c q f).receiptSeq = s.receiptSeq := rfl
@[simp] theorem setQuarter_importKey (s : State) (c q : Nat) (f : Quarter → Quarter) : (setQuarter s c q f).importKey = s.importKey := rfl
@[simp] theorem setQuarter_serial (s : State) (c q : Nat) (f : Quarter → Quarter) : (setQuarter s c q f).serial = s.serial := rfl

/-! ## `fresh` -/

@[simp] theorem fresh_turns (s : State) : (fresh s).2.turns = s.turns := rfl
@[simp] theorem fresh_actor (s : State) : (fresh s).2.actor = s.actor := rfl
@[simp] theorem fresh_free (s : State) : (fresh s).2.free = s.free := rfl
@[simp] theorem fresh_clock (s : State) : (fresh s).2.clock = s.clock := rfl
@[simp] theorem fresh_time (s : State) : (fresh s).2.time = s.time := rfl
@[simp] theorem fresh_ptm (s : State) : (fresh s).2.ptm = s.ptm := rfl
@[simp] theorem fresh_dev (s : State) : (fresh s).2.dev = s.dev := rfl
@[simp] theorem fresh_mem (s : State) : (fresh s).2.mem = s.mem := rfl
@[simp] theorem fresh_hostMem (s : State) : (fresh s).2.hostMem = s.hostMem := rfl
@[simp] theorem fresh_peerMem (s : State) : (fresh s).2.peerMem = s.peerMem := rfl
@[simp] theorem fresh_latch (s : State) : (fresh s).2.latch = s.latch := rfl
@[simp] theorem fresh_l2 (s : State) : (fresh s).2.l2 = s.l2 := rfl
@[simp] theorem fresh_sends (s : State) : (fresh s).2.sends = s.sends := rfl
@[simp] theorem fresh_cores (s : State) : (fresh s).2.cores = s.cores := rfl
@[simp] theorem fresh_clusters (s : State) : (fresh s).2.clusters = s.clusters := rfl
@[simp] theorem fresh_dies (s : State) : (fresh s).2.dies = s.dies := rfl
@[simp] theorem fresh_reclaim (s : State) : (fresh s).2.reclaim = s.reclaim := rfl
@[simp] theorem fresh_units (s : State) : (fresh s).2.units = s.units := rfl
@[simp] theorem fresh_images (s : State) : (fresh s).2.images = s.images := rfl
@[simp] theorem fresh_launches (s : State) : (fresh s).2.launches = s.launches := rfl
@[simp] theorem fresh_ended (s : State) : (fresh s).2.ended = s.ended := rfl
@[simp] theorem fresh_jobs (s : State) : (fresh s).2.jobs = s.jobs := rfl
@[simp] theorem fresh_endedJobs (s : State) : (fresh s).2.endedJobs = s.endedJobs := rfl
@[simp] theorem fresh_tasks (s : State) : (fresh s).2.tasks = s.tasks := rfl
@[simp] theorem fresh_reqs (s : State) : (fresh s).2.reqs = s.reqs := rfl
@[simp] theorem fresh_fns (s : State) : (fresh s).2.fns = s.fns := rfl
@[simp] theorem fresh_parts (s : State) : (fresh s).2.parts = s.parts := rfl
@[simp] theorem fresh_usedSlices (s : State) : (fresh s).2.usedSlices = s.usedSlices := rfl
@[simp] theorem fresh_excludedSlices (s : State) : (fresh s).2.excludedSlices = s.excludedSlices := rfl
@[simp] theorem fresh_retired (s : State) : (fresh s).2.retired = s.retired := rfl
@[simp] theorem fresh_commons (s : State) : (fresh s).2.commons = s.commons := rfl
@[simp] theorem fresh_syncs (s : State) : (fresh s).2.syncs = s.syncs := rfl
@[simp] theorem fresh_halts (s : State) : (fresh s).2.halts = s.halts := rfl
@[simp] theorem fresh_stops (s : State) : (fresh s).2.stops = s.stops := rfl
@[simp] theorem fresh_pfPart (s : State) : (fresh s).2.pfPart = s.pfPart := rfl
@[simp] theorem fresh_cxl (s : State) : (fresh s).2.cxl = s.cxl := rfl
@[simp] theorem fresh_peerMap (s : State) : (fresh s).2.peerMap = s.peerMap := rfl
@[simp] theorem fresh_mcast (s : State) : (fresh s).2.mcast = s.mcast := rfl
@[simp] theorem fresh_links (s : State) : (fresh s).2.links = s.links := rfl
@[simp] theorem fresh_attest (s : State) : (fresh s).2.attest = s.attest := rfl
@[simp] theorem fresh_life (s : State) : (fresh s).2.life = s.life := rfl
@[simp] theorem fresh_lifeFlash (s : State) : (fresh s).2.lifeFlash = s.lifeFlash := rfl
@[simp] theorem fresh_lifeAt (s : State) : (fresh s).2.lifeAt = s.lifeAt := rfl
@[simp] theorem fresh_pulls (s : State) : (fresh s).2.pulls = s.pulls := rfl
@[simp] theorem fresh_peerRefuses (s : State) : (fresh s).2.peerRefuses = s.peerRefuses := rfl
@[simp] theorem fresh_badSectors (s : State) : (fresh s).2.badSectors = s.badSectors := rfl
@[simp] theorem fresh_repairs (s : State) : (fresh s).2.repairs = s.repairs := rfl
@[simp] theorem fresh_lastIssue (s : State) : (fresh s).2.lastIssue = s.lastIssue := rfl
@[simp] theorem fresh_vendor (s : State) : (fresh s).2.vendor = s.vendor := rfl
@[simp] theorem fresh_receiptSeq (s : State) : (fresh s).2.receiptSeq = s.receiptSeq := rfl
@[simp] theorem fresh_importKey (s : State) : (fresh s).2.importKey = s.importKey := rfl
@[simp] theorem fresh_serial (s : State) : (fresh s).2.serial = s.serial + 1 := rfl

/-! ## `freeVal` -/

@[simp] theorem freeVal_turns (s : State) : (freeVal s).2.turns = s.turns := rfl
@[simp] theorem freeVal_actor (s : State) : (freeVal s).2.actor = s.actor := rfl
@[simp] theorem freeVal_clock (s : State) : (freeVal s).2.clock = s.clock := rfl
@[simp] theorem freeVal_time (s : State) : (freeVal s).2.time = s.time := rfl
@[simp] theorem freeVal_ptm (s : State) : (freeVal s).2.ptm = s.ptm := rfl
@[simp] theorem freeVal_dev (s : State) : (freeVal s).2.dev = s.dev := rfl
@[simp] theorem freeVal_mem (s : State) : (freeVal s).2.mem = s.mem := rfl
@[simp] theorem freeVal_hostMem (s : State) : (freeVal s).2.hostMem = s.hostMem := rfl
@[simp] theorem freeVal_peerMem (s : State) : (freeVal s).2.peerMem = s.peerMem := rfl
@[simp] theorem freeVal_latch (s : State) : (freeVal s).2.latch = s.latch := rfl
@[simp] theorem freeVal_l2 (s : State) : (freeVal s).2.l2 = s.l2 := rfl
@[simp] theorem freeVal_sends (s : State) : (freeVal s).2.sends = s.sends := rfl
@[simp] theorem freeVal_cores (s : State) : (freeVal s).2.cores = s.cores := rfl
@[simp] theorem freeVal_clusters (s : State) : (freeVal s).2.clusters = s.clusters := rfl
@[simp] theorem freeVal_dies (s : State) : (freeVal s).2.dies = s.dies := rfl
@[simp] theorem freeVal_reclaim (s : State) : (freeVal s).2.reclaim = s.reclaim := rfl
@[simp] theorem freeVal_units (s : State) : (freeVal s).2.units = s.units := rfl
@[simp] theorem freeVal_images (s : State) : (freeVal s).2.images = s.images := rfl
@[simp] theorem freeVal_launches (s : State) : (freeVal s).2.launches = s.launches := rfl
@[simp] theorem freeVal_ended (s : State) : (freeVal s).2.ended = s.ended := rfl
@[simp] theorem freeVal_jobs (s : State) : (freeVal s).2.jobs = s.jobs := rfl
@[simp] theorem freeVal_endedJobs (s : State) : (freeVal s).2.endedJobs = s.endedJobs := rfl
@[simp] theorem freeVal_tasks (s : State) : (freeVal s).2.tasks = s.tasks := rfl
@[simp] theorem freeVal_reqs (s : State) : (freeVal s).2.reqs = s.reqs := rfl
@[simp] theorem freeVal_fns (s : State) : (freeVal s).2.fns = s.fns := rfl
@[simp] theorem freeVal_parts (s : State) : (freeVal s).2.parts = s.parts := rfl
@[simp] theorem freeVal_usedSlices (s : State) : (freeVal s).2.usedSlices = s.usedSlices := rfl
@[simp] theorem freeVal_excludedSlices (s : State) : (freeVal s).2.excludedSlices = s.excludedSlices := rfl
@[simp] theorem freeVal_retired (s : State) : (freeVal s).2.retired = s.retired := rfl
@[simp] theorem freeVal_commons (s : State) : (freeVal s).2.commons = s.commons := rfl
@[simp] theorem freeVal_syncs (s : State) : (freeVal s).2.syncs = s.syncs := rfl
@[simp] theorem freeVal_halts (s : State) : (freeVal s).2.halts = s.halts := rfl
@[simp] theorem freeVal_stops (s : State) : (freeVal s).2.stops = s.stops := rfl
@[simp] theorem freeVal_pfPart (s : State) : (freeVal s).2.pfPart = s.pfPart := rfl
@[simp] theorem freeVal_cxl (s : State) : (freeVal s).2.cxl = s.cxl := rfl
@[simp] theorem freeVal_peerMap (s : State) : (freeVal s).2.peerMap = s.peerMap := rfl
@[simp] theorem freeVal_mcast (s : State) : (freeVal s).2.mcast = s.mcast := rfl
@[simp] theorem freeVal_links (s : State) : (freeVal s).2.links = s.links := rfl
@[simp] theorem freeVal_attest (s : State) : (freeVal s).2.attest = s.attest := rfl
@[simp] theorem freeVal_life (s : State) : (freeVal s).2.life = s.life := rfl
@[simp] theorem freeVal_lifeFlash (s : State) : (freeVal s).2.lifeFlash = s.lifeFlash := rfl
@[simp] theorem freeVal_lifeAt (s : State) : (freeVal s).2.lifeAt = s.lifeAt := rfl
@[simp] theorem freeVal_pulls (s : State) : (freeVal s).2.pulls = s.pulls := rfl
@[simp] theorem freeVal_peerRefuses (s : State) : (freeVal s).2.peerRefuses = s.peerRefuses := rfl
@[simp] theorem freeVal_badSectors (s : State) : (freeVal s).2.badSectors = s.badSectors := rfl
@[simp] theorem freeVal_repairs (s : State) : (freeVal s).2.repairs = s.repairs := rfl
@[simp] theorem freeVal_lastIssue (s : State) : (freeVal s).2.lastIssue = s.lastIssue := rfl
@[simp] theorem freeVal_vendor (s : State) : (freeVal s).2.vendor = s.vendor := rfl
@[simp] theorem freeVal_receiptSeq (s : State) : (freeVal s).2.receiptSeq = s.receiptSeq := rfl
@[simp] theorem freeVal_importKey (s : State) : (freeVal s).2.importKey = s.importKey := rfl
@[simp] theorem freeVal_serial (s : State) : (freeVal s).2.serial = s.serial := rfl
@[simp] theorem freeVal_free (s : State) : (freeVal s).2.free = s.free + 1 := rfl

/-! ## What an update gives -/

theorem coreOf_setCore (s : State) (c d : Nat) (f : Core → Core) :
    coreOf (setCore s c f) d = if d = c then f (coreOf s c) else coreOf s d := Tbl.getD_upd s.cores c d {} f

theorem clusterOf_setCluster (s : State) (c d : Nat) (f : Cluster → Cluster) :
    clusterOf (setCluster s c f) d = if d = c then f (clusterOf s c) else clusterOf s d :=
  Tbl.getD_upd s.clusters c d {} f

theorem dieOf_setDie (s : State) (c d : Nat) (f : Die → Die) :
    dieOf (setDie s c f) d = if d = c then f (dieOf s c) else dieOf s d := Tbl.getD_upd s.dies c d {} f

theorem fnOf_setFn (s : State) (c d : Nat) (f : FnState → FnState) :
    fnOf (setFn s c f) d = if d = c then f (fnOf s c) else fnOf s d := Tbl.getD_upd s.fns c d {} f

theorem partOf_setPart (s : State) (c d : Nat) (f : Partition → Partition) :
    partOf (setPart s c f) d = if d = c then f (partOf s c) else partOf s d := Tbl.getD_upd s.parts c d {} f

theorem unit?_setUnit (s : State) (u v : Nat) (f : WUnit → WUnit) :
    unit? (setUnit s u f) v = if v = u then (unit? s u).map f else unit? s v := Tbl.find?_upd? s.units u v f

theorem launch?_setLaunch (s : State) (u v : Nat) (f : Launch → Launch) :
    launch? (setLaunch s u f) v = if v = u then (launch? s u).map f else launch? s v := Tbl.find?_upd? s.launches u v f

theorem unit?_setStrand (s : State) (u k v : Nat) (f : Strand → Strand) :
    unit? (setStrand s u k f) v =
      if v = u then (unit? s u).map (fun w => { w with strands := Tbl.upd? w.strands k f }) else unit? s v :=
  unit?_setUnit s u v _

theorem strand?_setStrand_self (s : State) (u k : Nat) (f : Strand → Strand) :
    strand? (setStrand s u k f) u k = (strand? s u k).map f := by
  unfold strand?; rw [unit?_setStrand]
  cases unit? s u <;> simp [Tbl.find?_upd?]

theorem strand?_setStrand_other (s : State) {u k v j : Nat} (f : Strand → Strand) (h : ¬ (v = u ∧ j = k)) :
    strand? (setStrand s u k f) v j = strand? s v j := by
  unfold strand?; rw [unit?_setStrand]
  by_cases hv : v = u
  · subst hv
    have hj : j ≠ k := fun e => h ⟨rfl, e⟩
    cases unit? s v <;> simp [Tbl.find?_upd?, hj]
  · simp [hv]

/-- An update of a unit that leaves its strands alone. -/
theorem strand?_setUnit (s : State) (u v j : Nat) (f : WUnit → WUnit) (hf : ∀ w, (f w).strands = w.strands) :
    strand? (setUnit s u f) v j = strand? s v j := by
  unfold strand?; rw [unit?_setUnit]
  by_cases hv : v = u
  · subst hv; cases unit? s v <;> simp [hf]
  · simp [hv]

end Sys2Proof.Machine
end

