-- ==== Sys2Proof/Laws/Strand.lean ====
section
/-! SUPPORT. The registers of a strand under every operation that writes, frees or makes them visible, and what one
issue leaves of its strand. -/

namespace Sys2Proof.Machine

open Sys2Proof

/-! ## Lanes -/

@[simp] theorem lane_zero (l : Nat) : lane 0#32 l = false := by simp [lane]

theorem lane_and (a b : LaneMask) (l : Nat) : lane (a &&& b) l = (lane a l && lane b l) := by simp [lane]

theorem lane_or (a b : LaneMask) (l : Nat) : lane (a ||| b) l = (lane a l || lane b l) := by simp [lane]

theorem lane_lt {m : LaneMask} {l : Nat} (h : lane m l = true) : l < 32 := by
  unfold lane at h
  rcases Nat.lt_or_ge l 32 with hl | hl
  · exact hl
  · rw [BitVec.getLsbD_of_ge _ _ hl] at h; exact absurd h (by simp)

theorem mem_lanesOf (m : LaneMask) (l : Nat) : l ∈ lanesOf m ↔ lane m l = true := by
  simp only [lanesOf, lanes32, List.mem_filter, List.mem_range]
  exact ⟨fun h => h.2, fun h => ⟨lane_lt h, h⟩⟩

theorem nth_map_range {α : Type} (n l : Nat) (f : Nat → α) (d : α) (h : l < n) :
    nth ((List.range n).map f) l d = f l := by simp [nth, h]

/-! ## One register -/

/-- The register a write leaves: its lanes in the mask hold the new words, the others what they held. -/
theorem vreg_writeReg_self (t : Strand) (n : Nat) (m : LaneMask) (f : Nat → Word) (h : m ≠ 0) :
    vreg (writeReg t n m f) n =
      { (vreg t n) with
        mask := (vreg t n).mask ||| m
        words := (List.range 32).map (fun l => if lane m l then f l else nth (vreg t n).words l 0) } := by
  rw [writeReg, if_neg h]; simp [vreg]

theorem vreg_writeReg_other (t : Strand) {n k : Nat} (m : LaneMask) (f : Nat → Word) (h : k ≠ n) :
    vreg (writeReg t n m f) k = vreg t k := by
  unfold writeReg; split
  · rfl
  · simp [vreg, Tbl.getD_put_other _ _ _ h]

theorem word_writeReg_in (t : Strand) (n : Nat) (m : LaneMask) (f : Nat → Word) {l : Nat} (h : lane m l = true) :
    word (writeReg t n m f) n l = f l ∧ lane (vreg (writeReg t n m f) n).mask l = true := by
  have hm : m ≠ 0 := by intro e; subst e; exact absurd h (by simp [lane])
  rw [word, vreg_writeReg_self t n m f hm]
  exact ⟨by rw [nth_map_range _ _ _ _ (lane_lt h)]; simp [h], by simp [lane_or, h]⟩

/-- A lane outside the mask keeps its word and its mapping. -/
theorem word_writeReg_out (t : Strand) (n k : Nat) (m : LaneMask) (f : Nat → Word) {l : Nat} (hl : l < 32)
    (h : lane m l = false) :
    word (writeReg t n m f) k l = word t k l ∧ lane (vreg (writeReg t n m f) k).mask l = lane (vreg t k).mask l := by
  by_cases hk : k = n
  · subst hk
    by_cases hm : m = 0
    · simp [writeReg, hm]
    · rw [word, vreg_writeReg_self t k m f hm, word]
      exact ⟨by rw [nth_map_range _ _ _ _ hl]; simp [h], by simp [lane_or, h]⟩
  · simp [word, vreg_writeReg_other t m f hk]

/-- Same word and same mapping of one lane of one register. -/
def SameReg (t u : Strand) (n l : Nat) : Prop :=
  word u n l = word t n l ∧ lane (vreg u n).mask l = lane (vreg t n).mask l

theorem SameReg.rfl' (t : Strand) (n l : Nat) : SameReg t t n l := ⟨rfl, rfl⟩

theorem SameReg.trans {a b c : Strand} {n l : Nat} (h : SameReg a b n l) (k : SameReg b c n l) : SameReg a c n l :=
  ⟨k.1.trans h.1, k.2.trans h.2⟩

theorem SameReg.of_regs {a b : Strand} (h : b.regs = a.regs) (n l : Nat) : SameReg a b n l := by
  simp [SameReg, word, vreg, h]

/-- A write touches only its own register, in the lanes of its mask. -/
theorem sameReg_writeReg (t : Strand) (n k : Nat) (m : LaneMask) (f : Nat → Word) {l : Nat} (hl : l < 32)
    (h : k ≠ n ∨ lane m l = false) : SameReg t (writeReg t n m f) k l := by
  rcases h with h | h
  · simp [SameReg, word, vreg_writeReg_other t m f h]
  · exact word_writeReg_out t n k m f hl h

/-! ## Groups -/

theorem sameReg_writeGroup (w : Nat) : ∀ (t : Strand) (n k : Nat) (m : LaneMask) (f : Nat → Nat) {l : Nat}, l < 32 →
    (k < n ∨ n + w ≤ k ∨ lane m l = false) → SameReg t (writeGroup t n m f w) k l := by
  induction w with
  | zero => intro t n k m f l _ _; exact SameReg.rfl' t k l
  | succ w ih =>
    intro t n k m f l hl h
    refine SameReg.trans (sameReg_writeReg t n k m _ hl ?_) (ih _ _ _ _ _ hl ?_)
    · rcases h with h | h | h
      · left; omega
      · left; omega
      · exact .inr h
    · rcases h with h | h | h
      · left; omega
      · right; left; omega
      · exact .inr (.inr h)

/-- A written group holds the raw bits, low word lowest, mapped in the lanes of the mask. -/
theorem word_writeGroup (w : Nat) : ∀ (t : Strand) (n : Nat) (m : LaneMask) (f : Nat → Nat) {l j : Nat},
    lane m l = true → j < w →
    word (writeGroup t n m f w) (n + j) l = BitVec.ofNat 32 (f l / 2 ^ (32 * j)) ∧
      lane (vreg (writeGroup t n m f w) (n + j)).mask l = true := by
  induction w with
  | zero => intro t n m f l j _ hj; omega
  | succ w ih =>
    intro t n m f l j hl hj
    cases j with
    | zero =>
      have h := sameReg_writeGroup w (writeReg t n m (fun l => BitVec.ofNat 32 (f l))) (n + 1) n m
        (fun l => f l / 2 ^ 32) (lane_lt hl) (.inl (by omega))
      have h2 := word_writeReg_in t n m (fun l => BitVec.ofNat 32 (f l)) hl
      simp only [writeGroup, Nat.add_zero, Nat.mul_zero, Nat.pow_zero, Nat.div_one]
      exact ⟨h.1.trans h2.1, h.2.trans h2.2⟩
    | succ j =>
      have h := ih (writeReg t n m (fun l => BitVec.ofNat 32 (f l))) (n + 1) m (fun l => f l / 2 ^ 32) hl
        (Nat.lt_of_succ_lt_succ hj)
      have e : n + (j + 1) = n + 1 + j := by omega
      have e2 : f l / 2 ^ 32 / 2 ^ (32 * j) = f l / 2 ^ (32 * (j + 1)) := by
        rw [Nat.div_div_eq_div_mul, ← Nat.pow_add, Nat.mul_add, Nat.add_comm]
      rw [e, ← e2]
      exact h

/-! ## Freeing (R97) -/

theorem sameReg_freeReg_other (t : Strand) {n k : Nat} (m : LaneMask) (l : Nat) (h : k ≠ n) :
    SameReg t (freeReg t n m) k l := by
  have key : Tbl.find? (freeReg t n m).regs k = Tbl.find? t.regs k := by
    unfold freeReg
    cases Tbl.find? t.regs n with
    | none => rfl
    | some r =>
      by_cases hz : r.mask &&& ~~~m = 0
      · simp only [hz, if_true]; exact Tbl.find?_del_other _ h
      · simp only [hz, if_false]; exact Tbl.find?_put_other _ _ h
  simp only [SameReg, word, vreg, Tbl.getD, key, and_self]

theorem sameReg_freeRegs (ns : List Nat) (m : LaneMask) (k l : Nat) : ∀ t : Strand, k ∉ ns →
    SameReg t (ns.foldl (fun t n => freeReg t n m) t) k l := by
  induction ns with
  | nil => intro t _; exact SameReg.rfl' t k l
  | cons n ns ih =>
    intro t h
    simp only [List.mem_cons, not_or] at h
    exact SameReg.trans (sameReg_freeReg_other t m l h.1) (ih _ h.2)

/-! ## Results that become visible (R78, R79) -/

/-- Does a result of a pending instruction write register `n`? -/
def Out.names (o : Out) (n : Nat) : Bool :=
  match o with
  | .vec m ws => decide (m ≤ n) && decide (n < m + ws.length)
  | .aff _ _ _ _ => false

theorem sameReg_writeAll (m : LaneMask) (k l : Nat) (hl : l < 32) :
    ∀ (es : List (List Word × Nat)) (t : Strand) (n : Nat), (lane m l = false ∨ ∀ e ∈ es, n + e.2 ≠ k) →
    SameReg t (es.foldl (fun t e => writeReg t (n + e.2) m (fun l => nth e.1 l 0)) t) k l := by
  intro es
  induction es with
  | nil => intro t n _; exact SameReg.rfl' t k l
  | cons e es ih =>
    intro t n h
    refine SameReg.trans (sameReg_writeReg t (n + e.2) k m _ hl ?_) (ih _ n ?_)
    · rcases h with h | h
      · exact .inr h
      · exact .inl (Ne.symm (h e (by simp)))
    · rcases h with h | h
      · exact .inl h
      · exact .inr (fun e' he' => h e' (by simp [he']))

theorem sameReg_commitOut (t : Strand) (m : LaneMask) (o : Out) (k l : Nat) (hl : l < 32)
    (h : lane m l = false ∨ Out.names o k = false) : SameReg t (commitOut t m o) k l := by
  cases o with
  | aff _ _ _ _ => exact SameReg.rfl' t k l
  | vec n ws =>
    refine sameReg_writeAll m k l hl ws.zipIdx t n ?_
    rcases h with h | h
    · exact .inl h
    · refine .inr (fun e he hk => ?_)
      have : e.2 < ws.length := by
        obtain ⟨a, i⟩ := e
        rw [List.mem_zipIdx_iff_getElem?] at he
        have := (List.getElem?_eq_some_iff.1 he).1
        simpa using this
      simp [Out.names] at h
      omega

theorem sameReg_commitOuts (m : LaneMask) (k l : Nat) (hl : l < 32) : ∀ (os : List Out) (t : Strand),
    (lane m l = false ∨ ∀ o ∈ os, Out.names o k = false) →
    SameReg t (os.foldl (fun t o => commitOut t m o) t) k l := by
  intro os
  induction os with
  | nil => intro t _; exact SameReg.rfl' t k l
  | cons o os ih =>
    intro t h
    refine SameReg.trans (sameReg_commitOut t m o k l hl ?_) (ih _ ?_)
    · rcases h with h | h
      · exact .inl h
      · exact .inr (h o (by simp))
    · rcases h with h | h
      · exact .inl h
      · exact .inr (fun o' ho' => h o' (by simp [ho']))

@[simp] theorem mapPaths_regs (t : Strand) (m : LaneMask) (f : Path → Path) : (mapPaths t m f).regs = t.regs := rfl

@[simp] theorem commitAff_regs (m : LaneMask) (t : Strand) (o : Out) : (commitAff m t o).regs = t.regs := by
  cases o <;> rfl

theorem commitAffs_regs (m : LaneMask) : ∀ (os : List Out) (t : Strand), (os.foldl (commitAff m) t).regs = t.regs := by
  intro os
  induction os with
  | nil => intro t; rfl
  | cons o os ih => intro t; simp [ih]

/-- The lanes of a pending result that would become visible. -/
def dueLanes (d : Pend) : LaneMask :=
  maskOf (fun l => lane d.lanes l && lane d.ready l && !lane d.done l && winOf d l == 0)

theorem bitsum_lt (f : Nat → Bool) : ∀ n, (List.range n).foldl (fun acc i => if f i then acc + 2 ^ i else acc) 0 < 2 ^ n := by
  intro n
  induction n with
  | zero => simp
  | succ n ih =>
    rw [List.range_succ, List.foldl_append]
    simp only [List.foldl_cons, List.foldl_nil, Nat.pow_succ]
    split <;> omega

theorem testBit_bitsum (f : Nat → Bool) : ∀ n i, i < n →
    ((List.range n).foldl (fun acc i => if f i then acc + 2 ^ i else acc) 0).testBit i = f i := by
  intro n
  induction n with
  | zero => intro i h; omega
  | succ n ih =>
    intro i hi
    rw [List.range_succ, List.foldl_append]
    simp only [List.foldl_cons, List.foldl_nil]
    have hlt := bitsum_lt f n
    by_cases hin : i = n
    · subst hin
      split
      · next h => rw [Nat.add_comm, Nat.testBit_two_pow_add_eq, Nat.testBit_lt_two_pow hlt]; simp [h]
      · next h => rw [Nat.testBit_lt_two_pow hlt]; simp at h; simp [h]
    · have hi' : i < n := by omega
      split
      · next h => rw [Nat.add_comm, Nat.testBit_two_pow_add_gt hi']; exact ih i hi'
      · exact ih i hi'

/-- A mask built from a test holds exactly the lanes that pass it. -/
@[simp] theorem lane_maskOf (f : Nat → Bool) (l : Nat) : lane (maskOf f) l = (decide (l < 32) && f l) := by
  unfold lane maskOf lanes32
  by_cases h : l < 32
  · rw [BitVec.getLsbD_ofNat]
    simp [h, testBit_bitsum f 32 l h]
  · rw [BitVec.getLsbD_of_ge _ _ (by omega)]; simp [h]

theorem coversVec_eq (d : Pend) (n l : Nat) :
    coversVec d n l = (lane d.lanes l && !lane d.done l && d.outs.any (fun o => Out.names o n)) := by
  unfold coversVec
  congr 2
  funext o
  cases o <;> rfl

/-- A register in a lane that no pending result covers, or whose results are not due yet. -/
def NotDue (d : Pend) (k l : Nat) : Prop := coversVec d k l = false ∨ lane (dueLanes d) l = false

/-- The strand after one pending result: its words, then its affine writes, in the lanes that are due. -/
theorem settlePend_fst (t : Strand) (d : Pend) : (settlePend t d).1 =
    d.outs.foldl (commitAff (dueLanes d)) (d.outs.foldl (fun t o => commitOut t (dueLanes d) o) t) := by
  unfold settlePend dueLanes
  simp only
  split <;> rfl

theorem sameReg_settlePend (t : Strand) (d : Pend) (k l : Nat) (hl : l < 32) (h : NotDue d k l) :
    SameReg t (settlePend t d).1 k l := by
  have h1 : SameReg t (d.outs.foldl (fun t o => commitOut t (dueLanes d) o) t) k l := by
    apply sameReg_commitOuts _ _ _ hl
    rcases h with h | h
    · rw [coversVec_eq] at h
      by_cases hd : lane (dueLanes d) l = true
      · right
        simp [dueLanes] at hd
        have : d.outs.any (fun o => Out.names o k) = false := by
          simp [hd.2.1.1.1, hd.2.1.2] at h; simpa using h
        intro o ho
        simp at this
        exact this o ho
      · left; simpa using hd
    · exact .inl h
  have h2 := SameReg.trans h1 (SameReg.of_regs (commitAffs_regs (dueLanes d) d.outs _) k l)
  rw [settlePend_fst]
  exact h2

/-- The fold that settles a list of pending results, from a strand and those kept so far. -/
def settleList (ds : List Pend) (a : Strand × List Pend) : Strand × List Pend :=
  ds.foldl (fun (a : Strand × List Pend) d =>
    ((settlePend a.1 d).1, match (settlePend a.1 d).2 with | some d => a.2 ++ [d] | none => a.2)) a

theorem settle_eq (t : Strand) : settle t =
    { (settleList t.pends ({ t with pends := [] }, [])).1 with
      pends := (settleList t.pends ({ t with pends := [] }, [])).2 } := rfl

theorem sameReg_settleList (k l : Nat) (hl : l < 32) : ∀ (ds : List Pend) (a : Strand × List Pend),
    (∀ d ∈ ds, NotDue d k l) → SameReg a.1 (settleList ds a).1 k l := by
  intro ds
  induction ds with
  | nil => intro a _; exact SameReg.rfl' a.1 k l
  | cons d ds ih =>
    intro a h
    exact SameReg.trans (sameReg_settlePend a.1 d k l hl (h d (by simp)))
      (ih _ (fun d' hd' => h d' (by simp [hd'])))

/-- A register that no pending result covers, or whose results are not due, is not touched when results become
visible. -/
theorem sameReg_settle (t : Strand) (k l : Nat) (hl : l < 32) (h : ∀ d ∈ t.pends, NotDue d k l) :
    SameReg t (settle t) k l := by
  have := sameReg_settleList k l hl t.pends ({ t with pends := [] }, []) h
  rw [settle_eq]
  exact ⟨this.1, this.2⟩

/-! A result that is not due stays pending. -/

theorem mem_settleList_acc (d : Pend) : ∀ (ds : List Pend) (a : Strand × List Pend), d ∈ a.2 →
    d ∈ (settleList ds a).2 := by
  intro ds
  induction ds with
  | nil => intro a h; exact h
  | cons e ds ih =>
    intro a h
    apply ih
    dsimp only
    split
    · simp [h]
    · exact h

@[simp] theorem owedOut_zero (o : Out) : owedOut 0 o = o := by
  cases o with
  | vec n ws => rfl
  | aff n part v ls => exact congrArg (Out.aff n part v) (BitVec.and_allOnes (x := ls))

/-- A pending result none of whose lanes is due, and some of whose lanes are not done, is kept as it is. -/
theorem settlePend_kept (t : Strand) (d : Pend) (hd : dueLanes d = 0) (hn : d.lanes &&& ~~~d.done ≠ 0) :
    (settlePend t d).2 = some d := by
  have e : { d with done := d.done ||| 0, outs := d.outs.map (owedOut 0) } = d := by
    have ho : d.outs.map (owedOut 0) = d.outs := (congrArg (List.map · d.outs) (funext owedOut_zero)).trans (List.map_id _)
    rw [ho]; cases d; simp
  unfold settlePend
  simp only
  change (if _ then _ else _ : Strand × Option Pend).2 = _
  have hz : maskOf (fun l => lane d.lanes l && lane d.ready l && !lane d.done l && winOf d l == 0) = 0 := hd
  simp only [hz]
  have hn' : ¬ d.lanes &&& ~~~(d.done ||| 0) = 0 := by simpa using hn
  rw [if_neg hn']
  simp only [e]

theorem mem_settleList (d : Pend) (hd : dueLanes d = 0) (hn : d.lanes &&& ~~~d.done ≠ 0) :
    ∀ (ds : List Pend) (a : Strand × List Pend), d ∈ ds → d ∈ (settleList ds a).2 := by
  intro ds
  induction ds with
  | nil => intro a h; simp at h
  | cons e ds ih =>
    intro a h
    rcases List.mem_cons.1 h with h | h
    · subst h
      refine mem_settleList_acc d ds _ ?_
      simp only [settlePend_kept a.1 d hd hn]
      simp
    · exact ih _ h

theorem mem_settle (t : Strand) (d : Pend) (h : d ∈ t.pends) (hd : dueLanes d = 0) (hn : d.lanes &&& ~~~d.done ≠ 0) :
    d ∈ (settle t).pends := by
  rw [settle_eq]; exact mem_settleList d hd hn _ _ h

/-! ## What becoming visible leaves alone -/

/-- A path entry without its affine registers. -/
def Path.bare (p : Path) : Path := { p with aff := [] }

/-- Everything of a strand but registers, affine registers, pending results. -/
structure Alike (t u : Strand) : Prop where
  paths : u.paths.map Path.bare = t.paths.map Path.bare
  preds : u.preds = t.preds
  convs : u.convs = t.convs
  seed : u.seed = t.seed
  items : u.items = t.items
  marked : u.marked = t.marked
  g : u.g = t.g
  batchCtr : u.batchCtr = t.batchCtr
  openBatch : u.openBatch = t.openBatch
  completed : u.completed = t.completed
  token : u.token = t.token
  cur : u.cur = t.cur
  timer : u.timer = t.timer
  k : u.k = t.k
  quarter : u.quarter = t.quarter
  slot : u.slot = t.slot

theorem Alike.rfl' (t : Strand) : Alike t t := by constructor <;> rfl

theorem Alike.trans {a b c : Strand} (h : Alike a b) (k : Alike b c) : Alike a c where
  paths := k.paths.trans h.paths
  preds := k.preds.trans h.preds
  convs := k.convs.trans h.convs
  seed := k.seed.trans h.seed
  items := k.items.trans h.items
  marked := k.marked.trans h.marked
  g := k.g.trans h.g
  batchCtr := k.batchCtr.trans h.batchCtr
  openBatch := k.openBatch.trans h.openBatch
  completed := k.completed.trans h.completed
  token := k.token.trans h.token
  cur := k.cur.trans h.cur
  timer := k.timer.trans h.timer
  k := k.k.trans h.k
  quarter := k.quarter.trans h.quarter
  slot := k.slot.trans h.slot

theorem alike_writeReg (t : Strand) (n : Nat) (m : LaneMask) (f : Nat → Word) : Alike t (writeReg t n m f) := by
  unfold writeReg; split
  · exact Alike.rfl' t
  · constructor <;> rfl

theorem alike_writeGroup (w : Nat) : ∀ (t : Strand) (n : Nat) (m : LaneMask) (f : Nat → Nat),
    Alike t (writeGroup t n m f w) := by
  induction w with
  | zero => intro t n m f; exact Alike.rfl' t
  | succ w ih => intro t n m f; exact Alike.trans (alike_writeReg t n m _) (ih _ _ _ _)

theorem writeReg_pends (t : Strand) (n : Nat) (m : LaneMask) (f : Nat → Word) : (writeReg t n m f).pends = t.pends := by
  unfold writeReg; split <;> rfl

theorem writeGroup_pends (w : Nat) : ∀ (t : Strand) (n : Nat) (m : LaneMask) (f : Nat → Nat),
    (writeGroup t n m f w).pends = t.pends := by
  induction w with
  | zero => intro t n m f; rfl
  | succ w ih => intro t n m f; exact (ih _ _ _ _).trans (writeReg_pends t n m _)

theorem writeReg_paths (t : Strand) (n : Nat) (m : LaneMask) (f : Nat → Word) : (writeReg t n m f).paths = t.paths := by
  unfold writeReg; split <;> rfl

theorem writeGroup_paths (w : Nat) : ∀ (t : Strand) (n : Nat) (m : LaneMask) (f : Nat → Nat),
    (writeGroup t n m f w).paths = t.paths := by
  induction w with
  | zero => intro t n m f; rfl
  | succ w ih => intro t n m f; exact (ih _ _ _ _).trans (writeReg_paths t n m _)

theorem alike_freeReg (t : Strand) (n : Nat) (m : LaneMask) : Alike t (freeReg t n m) := by
  unfold freeReg; split
  · exact Alike.rfl' t
  · constructor <;> rfl

theorem freeReg_pends (t : Strand) (n : Nat) (m : LaneMask) : (freeReg t n m).pends = t.pends := by
  unfold freeReg; split <;> rfl

theorem freeReg_paths (t : Strand) (n : Nat) (m : LaneMask) : (freeReg t n m).paths = t.paths := by
  unfold freeReg; split <;> rfl

theorem alike_freeRegs (ns : List Nat) (m : LaneMask) : ∀ t : Strand,
    Alike t (ns.foldl (fun t n => freeReg t n m) t) ∧ (ns.foldl (fun t n => freeReg t n m) t).pends = t.pends ∧
      (ns.foldl (fun t n => freeReg t n m) t).paths = t.paths := by
  induction ns with
  | nil => intro t; exact ⟨Alike.rfl' t, rfl, rfl⟩
  | cons n ns ih =>
    intro t
    have h := ih (freeReg t n m)
    exact ⟨Alike.trans (alike_freeReg t n m) h.1, h.2.1.trans (freeReg_pends t n m), h.2.2.trans (freeReg_paths t n m)⟩

theorem alike_foldl {α : Type} (f : Strand → α → Strand) (hf : ∀ t a, Alike t (f t a)) : ∀ (as : List α) (t : Strand),
    Alike t (as.foldl f t) := by
  intro as
  induction as with
  | nil => intro t; exact Alike.rfl' t
  | cons a as ih => intro t; exact Alike.trans (hf t a) (ih _)

theorem foldl_paths {α : Type} (f : Strand → α → Strand) (hf : ∀ t a, (f t a).paths = t.paths) :
    ∀ (as : List α) (t : Strand), (as.foldl f t).paths = t.paths := by
  intro as
  induction as with
  | nil => intro t; rfl
  | cons a as ih => intro t; exact (ih _).trans (hf t a)

theorem alike_commitOut (t : Strand) (m : LaneMask) (o : Out) : Alike t (commitOut t m o) := by
  cases o with
  | aff _ _ _ _ => exact Alike.rfl' t
  | vec n ws => exact alike_foldl _ (fun t e => alike_writeReg t _ m _) _ t

theorem commitOut_paths (t : Strand) (m : LaneMask) (o : Out) : (commitOut t m o).paths = t.paths := by
  cases o with
  | aff _ _ _ _ => rfl
  | vec n ws => exact foldl_paths _ (fun t e => writeReg_paths t _ m _) _ t

theorem map_bare_mapPaths (t : Strand) (m : LaneMask) (f : Path → Path) (hf : ∀ p, (f p).bare = p.bare) :
    (mapPaths t m f).paths.map Path.bare = t.paths.map Path.bare := by
  simp only [mapPaths, List.map_map]
  apply List.map_congr_left
  intro p _
  simp only [Function.comp_apply]
  split
  · rfl
  · exact hf p

theorem alike_commitAff (m : LaneMask) (t : Strand) (o : Out) : Alike t (commitAff m t o) := by
  cases o with
  | vec _ _ => exact Alike.rfl' t
  | aff n part v ls =>
    constructor
    case paths => exact map_bare_mapPaths t (ls &&& m) _ (fun p => rfl)
    all_goals rfl

theorem alike_settlePend (t : Strand) (d : Pend) : Alike t (settlePend t d).1 := by
  have h1 := alike_foldl (fun t o => commitOut t (dueLanes d) o) (fun t o => alike_commitOut t _ o) d.outs t
  rw [settlePend_fst]
  exact Alike.trans h1 (alike_foldl (commitAff _) (alike_commitAff _) _ _)

theorem alike_settleList : ∀ (ds : List Pend) (a : Strand × List Pend), Alike a.1 (settleList ds a).1 := by
  intro ds
  induction ds with
  | nil => intro a; exact Alike.rfl' a.1
  | cons d ds ih =>
    intro a
    have h := ih ((settlePend a.1 d).1, match (settlePend a.1 d).2 with | some d => a.2 ++ [d] | none => a.2)
    exact Alike.trans (alike_settlePend a.1 d) h

theorem alike_settle (t : Strand) : Alike t (settle t) := by
  have h := alike_settleList t.pends ({ t with pends := [] }, [])
  rw [settle_eq]
  exact ⟨h.1, h.2, h.3, h.4, h.5, h.6, h.7, h.8, h.9, h.10, h.11, h.12, h.13, h.14, h.15, h.16⟩

/-! ## Affine registers that no pending result covers -/

/-- Affine register `n` of the i-th path entry. -/
def affAt (t : Strand) (i n : Nat) : Option Aff := (t.paths[i]?).map (fun p => affReg p n)

/-- The lanes of the i-th path entry. -/
def lanesAt (t : Strand) (i : Nat) : Option LaneMask := (t.paths[i]?).map (·.lanes)

theorem lanesAt_of_alike {t u : Strand} (h : Alike t u) (i : Nat) : lanesAt u i = lanesAt t i := by
  have e : ∀ ps : List Path, (ps[i]?).map (·.lanes) = ((ps.map Path.bare)[i]?).map (·.lanes) := by
    intro ps; cases h : ps[i]? <;> simp [h, Path.bare]
  unfold lanesAt; rw [e u.paths, e t.paths, h.paths]

theorem affAt_of_paths {t u : Strand} (h : u.paths = t.paths) (i n : Nat) : affAt u i n = affAt t i n := by
  simp [affAt, h]

theorem affReg_setNth_other (p : Path) {n k : Nat} (v : Aff) (h : k ≠ n) :
    affReg { p with aff := setNth p.aff k v } n = affReg p n := by
  simp [affReg, nth, setNth, h]

theorem affAt_commitAff (mm : LaneMask) (t : Strand) (o : Out) (i n : Nat) (m : LaneMask) (hm : lanesAt t i = some m)
    (h : (match o with | .aff k _ _ ls => k == n && (ls &&& m) != 0 | _ => false) = false) :
    affAt (commitAff mm t o) i n = affAt t i n := by
  cases o with
  | vec _ _ => rfl
  | aff k part v ls =>
    simp only [affAt, commitAff, mapPaths, List.getElem?_map]
    cases hp : t.paths[i]? with
    | none => rfl
    | some p =>
      have hpm : p.lanes = m := by simpa [lanesAt, hp] using hm
      simp only [Option.map_some]
      split
      · rfl
      · next hz =>
        simp only [Bool.and_eq_false_iff, beq_eq_false_iff_ne] at h
        rcases h with h | h
        · rw [affReg_setNth_other p _ h]
        · simp at h
          refine absurd ?_ hz
          rw [hpm, BitVec.and_comm, BitVec.and_assoc, BitVec.and_comm mm, ← BitVec.and_assoc, h]
          simp

theorem affAt_commitAffs (mm : LaneMask) (i n : Nat) (m : LaneMask) : ∀ (os : List Out) (t : Strand), lanesAt t i = some m →
    os.any (fun o => match o with | .aff k _ _ ls => k == n && (ls &&& m) != 0 | _ => false) = false →
    affAt (os.foldl (commitAff mm) t) i n = affAt t i n := by
  intro os
  induction os with
  | nil => intro t _ _; rfl
  | cons o os ih =>
    intro t hm h
    simp only [List.any_cons, Bool.or_eq_false_iff] at h
    rw [List.foldl_cons, ih _ ((lanesAt_of_alike (alike_commitAff mm t o) i).trans hm) h.2,
      affAt_commitAff mm t o i n m hm h.1]

theorem affAt_settlePend (t : Strand) (d : Pend) (i n : Nat) (m : LaneMask) (hm : lanesAt t i = some m)
    (h : coversAff d n m = false) : affAt (settlePend t d).1 i n = affAt t i n := by
  have e1 := foldl_paths (fun t o => commitOut t (dueLanes d) o) (fun t o => commitOut_paths t _ o) d.outs t
  have e2 := alike_foldl (fun t o => commitOut t (dueLanes d) o) (fun t o => alike_commitOut t _ o) d.outs t
  rw [settlePend_fst]
  exact (affAt_commitAffs _ i n m _ _ ((lanesAt_of_alike e2 i).trans hm) h).trans (affAt_of_paths e1 i n)

theorem affAt_settle (t : Strand) (i n : Nat) (m : LaneMask) (hm : lanesAt t i = some m)
    (h : ∀ d ∈ t.pends, coversAff d n m = false) : affAt (settle t) i n = affAt t i n := by
  have key : ∀ (ds : List Pend) (a : Strand × List Pend), lanesAt a.1 i = some m →
      (∀ d ∈ ds, coversAff d n m = false) → affAt (settleList ds a).1 i n = affAt a.1 i n := by
    intro ds
    induction ds with
    | nil => intro a _ _; rfl
    | cons d ds ih =>
      intro a ha hd
      have h1 := affAt_settlePend a.1 d i n m ha (hd d (by simp))
      have h2 := (lanesAt_of_alike (alike_settlePend a.1 d) i).trans ha
      exact (ih _ h2 (fun d' hd' => hd d' (by simp [hd']))).trans h1
  rw [settle_eq]
  exact key t.pends ({ t with pends := [] }, []) hm h

/-! ## `unstall` -/

@[simp] theorem unstall_k (t : Strand) (m : LaneMask) : (unstall t m).k = t.k := rfl
@[simp] theorem unstall_quarter (t : Strand) (m : LaneMask) : (unstall t m).quarter = t.quarter := rfl
@[simp] theorem unstall_slot (t : Strand) (m : LaneMask) : (unstall t m).slot = t.slot := rfl
@[simp] theorem unstall_paths (t : Strand) (m : LaneMask) : (unstall t m).paths = t.paths := rfl
@[simp] theorem unstall_cur (t : Strand) (m : LaneMask) : (unstall t m).cur = t.cur := rfl
@[simp] theorem unstall_timer (t : Strand) (m : LaneMask) : (unstall t m).timer = t.timer := rfl
@[simp] theorem unstall_regs (t : Strand) (m : LaneMask) : (unstall t m).regs = t.regs := rfl
@[simp] theorem unstall_spilled (t : Strand) (m : LaneMask) : (unstall t m).spilled = t.spilled := rfl
@[simp] theorem unstall_isSpilled (t : Strand) (m : LaneMask) : (unstall t m).isSpilled = t.isSpilled := rfl
@[simp] theorem unstall_preds (t : Strand) (m : LaneMask) : (unstall t m).preds = t.preds := rfl
@[simp] theorem unstall_convs (t : Strand) (m : LaneMask) : (unstall t m).convs = t.convs := rfl
@[simp] theorem unstall_seed (t : Strand) (m : LaneMask) : (unstall t m).seed = t.seed := rfl
@[simp] theorem unstall_g (t : Strand) (m : LaneMask) : (unstall t m).g = t.g := rfl
@[simp] theorem unstall_items (t : Strand) (m : LaneMask) : (unstall t m).items = t.items := rfl
@[simp] theorem unstall_hasItem (t : Strand) (m : LaneMask) : (unstall t m).hasItem = t.hasItem := rfl
@[simp] theorem unstall_marked (t : Strand) (m : LaneMask) : (unstall t m).marked = t.marked := rfl
@[simp] theorem unstall_refilled (t : Strand) (m : LaneMask) : (unstall t m).refilled = t.refilled := rfl
@[simp] theorem unstall_pends (t : Strand) (m : LaneMask) : (unstall t m).pends = t.pends := rfl
@[simp] theorem unstall_token (t : Strand) (m : LaneMask) : (unstall t m).token = t.token := rfl
@[simp] theorem unstall_openBatch (t : Strand) (m : LaneMask) : (unstall t m).openBatch = t.openBatch := rfl
@[simp] theorem unstall_batchCtr (t : Strand) (m : LaneMask) : (unstall t m).batchCtr = t.batchCtr := rfl
@[simp] theorem unstall_ending (t : Strand) (m : LaneMask) : (unstall t m).ending = t.ending := rfl
@[simp] theorem unstall_completed (t : Strand) (m : LaneMask) : (unstall t m).completed = t.completed := rfl

@[simp] theorem unstall_yielded (t : Strand) (m : LaneMask) : (unstall t m).yielded = t.yielded := rfl

/-! ## An allocation that has been made (R98, R102) -/

/-- A strand with other stalls. -/
def withStalls (ss : List Stall) (t : Strand) : Strand := { t with stalls := ss }

theorem passStall_eq (t : Strand) (m : LaneMask) : passStall t m = withStalls (passStall t m).stalls t := rfl

@[simp] theorem passStall_regs (t : Strand) (m : LaneMask) : (passStall t m).regs = t.regs := rfl
@[simp] theorem passStall_paths (t : Strand) (m : LaneMask) : (passStall t m).paths = t.paths := rfl
@[simp] theorem passStall_pends (t : Strand) (m : LaneMask) : (passStall t m).pends = t.pends := rfl

theorem foldl_withStalls {α : Type} (f : Strand → α → Strand) (ss : List Stall)
    (hf : ∀ t a, f (withStalls ss t) a = withStalls ss (f t a)) : ∀ (as : List α) (t : Strand),
    as.foldl f (withStalls ss t) = withStalls ss (as.foldl f t) := by
  intro as
  induction as with
  | nil => intro t; rfl
  | cons a as ih => intro t; rw [List.foldl_cons, hf, ih]; rfl

theorem writeReg_withStalls (ss : List Stall) (t : Strand) (n : Nat) (m : LaneMask) (f : Nat → Word) :
    writeReg (withStalls ss t) n m f = withStalls ss (writeReg t n m f) := by
  unfold writeReg; split <;> rfl

theorem freeReg_withStalls (ss : List Stall) (t : Strand) (n : Nat) (m : LaneMask) :
    freeReg (withStalls ss t) n m = withStalls ss (freeReg t n m) := by
  unfold freeReg
  simp only [withStalls]
  split <;> rfl

theorem commitOut_withStalls (ss : List Stall) (m : LaneMask) (t : Strand) (o : Out) :
    commitOut (withStalls ss t) m o = withStalls ss (commitOut t m o) := by
  cases o with
  | aff _ _ _ _ => rfl
  | vec n ws => exact foldl_withStalls _ ss (fun t e => writeReg_withStalls ss t _ m _) _ t

theorem commitAff_withStalls (ss : List Stall) (m : LaneMask) (t : Strand) (o : Out) :
    commitAff m (withStalls ss t) o = withStalls ss (commitAff m t o) := by
  cases o <;> rfl

theorem settlePend_withStalls (ss : List Stall) (t : Strand) (d : Pend) :
    settlePend (withStalls ss t) d = (withStalls ss (settlePend t d).1, (settlePend t d).2) := by
  have h1 : (settlePend (withStalls ss t) d).1 = withStalls ss (settlePend t d).1 := by
    rw [settlePend_fst, settlePend_fst,
      foldl_withStalls (fun t o => commitOut t (dueLanes d) o) ss (fun t o => commitOut_withStalls ss _ t o) d.outs,
      foldl_withStalls (commitAff (dueLanes d)) ss (fun t o => commitAff_withStalls ss _ t o) d.outs]
  have h2 : (settlePend (withStalls ss t) d).2 = (settlePend t d).2 := by
    unfold settlePend
    simp only
    split <;> rfl
  exact Prod.ext h1 h2

/-- What becomes visible does not depend on the stalls. -/
theorem settle_withStalls (ss : List Stall) (t : Strand) : settle (withStalls ss t) = withStalls ss (settle t) := by
  have key : ∀ (ds : List Pend) (a : Strand × List Pend),
      settleList ds (withStalls ss a.1, a.2) = (withStalls ss (settleList ds a).1, (settleList ds a).2) := by
    intro ds
    induction ds with
    | nil => intro a; rfl
    | cons d ds ih =>
      intro a
      unfold settleList at ih ⊢
      simp only [List.foldl_cons, settlePend_withStalls]
      exact ih ((settlePend a.1 d).1, _)
  rw [settle_eq, settle_eq, show ({ withStalls ss t with pends := [] } : Strand) = withStalls ss { t with pends := [] } from rfl,
    show (withStalls ss t).pends = t.pends from rfl, key t.pends ({ t with pends := [] }, [])]
  rfl

end Sys2Proof.Machine
end

