-- ==== Sys2Proof/Laws/Issue.lean ====
section
/-! SUPPORT. What one issue of a strand does: the gate when nothing turns the instruction away, the strand it leaves, and
the rest of the machine. -/

namespace Sys2Proof.Machine

open Sys2Proof

/-! ## The gate -/

/-- The context in which an instruction that nothing turns away comes to its own checks: its allocation has been made (R98);
`brk` allocates nothing (R200). -/
def issueCtx (i : Instr) (x : Ctx) : Ctx := if unguarded i then x else passed x

theorem issueCtx_guarded {i : Instr} (h : unguarded i = false) (x : Ctx) : issueCtx i x = passed x := by simp [issueCtx, h]

/-! What an instruction reads does not depend on the stalls of its strand. -/

@[simp] theorem group_passStall (m : LaneMask) (l : Nat) : ∀ (w : Nat) (t : Strand) (n : Nat),
    group (passStall t m) n l w = group t n l w := by
  intro w
  induction w with
  | zero => intro t n; rfl
  | succ w ih => intro t n; simp only [group, ih]; rfl

@[simp] theorem mappedGroup_passStall (m : LaneMask) (l : Nat) : ∀ (w : Nat) (t : Strand) (n : Nat),
    mappedGroup (passStall t m) n l w = mappedGroup t n l w := by
  intro w
  induction w with
  | zero => intro t n; rfl
  | succ w ih => intro t n; simp only [mappedGroup, ih]; rfl

@[simp] theorem unmappedLanes_passed (x : Ctx) (sh : Shape) (o : Ops) :
    unmappedLanes (passed x) sh o = unmappedLanes x sh o := by
  unfold unmappedLanes passed
  simp only [mappedGroup_passStall]

@[simp] theorem readSrc_passed (x : Ctx) (r : Rd) (o : Opnd) (l : Nat) : readSrc (passed x) r o l = readSrc x r o l := by
  cases o <;> simp only [readSrc, passed, group_passStall] <;> rfl

@[simp] theorem passed_tm (x : Ctx) : (passed x).tm = x.tm := rfl
@[simp] theorem passed_low (x : Ctx) : (passed x).low = x.low := rfl
@[simp] theorem passed_lanes (x : Ctx) : (passed x).lanes = x.lanes := rfl
@[simp] theorem passed_p (x : Ctx) : (passed x).p = x.p := rfl
@[simp] theorem readPair_passed (x : Ctx) (o : Opnd) : readPair (passed x) o = readPair x o := rfl

/-- With nothing to turn it away, an instruction comes to its own checks and effect (R83). -/
theorem gate_clear {s : State} {x : Ctx} {i : Instr} {c : Ctl} {o : Ops} {sh : Shape} (body : Ctx → State → Res)
    (h : Clear s x i c o sh) :
    gate s x i c sh o body = resolve s (issueCtx i x) i c sh o (body (issueCtx i x) s) := by
  obtain ⟨_, htm, hctx, hpriv, hb, hco, hst, hpool, hsb, hum, _⟩ := h
  have h2 : (sh.priv && !x.l.priv) = false := by
    cases hn : sh.priv with
    | false => rfl
    | true => simp [hpriv hn]
  have h4 : (stepping s x.l && !recordRoom s x.w.lid) = false := by
    cases hn : stepping s x.l with
    | false => rfl
    | true => simp [hst hn]
  have h5 : ¬ poolFor s x < poolNeed x.st (newNames x sh o) := by omega
  have hsb' : scoreboard (passed x) i sh o = false := hsb
  have hum' : unmappedLanes (passed x) sh o &&& mustRead i = 0 := by rw [unmappedLanes_passed]; exact hum
  unfold gate issueCtx
  simp only [hctx, h2, hb, hco, h4, hsb', hum', htm, h5, Bool.or_self, Bool.false_eq_true, if_false, ne_eq,
    not_true_eq_false]
  split <;> rfl

/-- It differs from the strand's context in the stalls at most. -/
theorem issueCtx_eq (i : Instr) (x : Ctx) : ∃ ss, issueCtx i x = { x with st := withStalls ss x.st } := by
  unfold issueCtx
  split
  · exact ⟨x.st.stalls, rfl⟩
  · exact ⟨(passed x).st.stalls, rfl⟩

@[simp] theorem readSrc_issueCtx (i : Instr) (x : Ctx) (r : Rd) (o : Opnd) (l : Nat) :
    readSrc (issueCtx i x) r o l = readSrc x r o l := by
  unfold issueCtx; split
  · rfl
  · exact readSrc_passed x r o l

/-- What an issue puts in place depends on its context only by what the allocation leaves alone. -/
theorem applyGo_issueCtx (s : State) (x : Ctx) (i : Instr) (c : Ctl) (sh : Shape) (o : Ops) (g : Go) :
    applyGo s (issueCtx i x) i c sh o g = applyGo s x i c sh o g := by
  unfold issueCtx; split <;> rfl

/-- Such an instruction, when its own checks pass too, issues. -/
theorem issue_go {s : State} {x : Ctx} {i : Instr} {c : Ctl} {o : Ops} {sh : Shape} {body : Ctx → State → Res} {g : Go}
    (h : Clear s x i c o sh) (hb : body (issueCtx i x) s = .go g) :
    issueStrand i s x.uid x.k body = applyGo s x i c sh o g := by
  obtain ⟨⟨_, hf, hs, hc⟩, h'⟩ := id h
  have hw : inWindow (issueCtx i x) c sh o = false := by
    unfold issueCtx; split <;> exact h'.2.2.2.2.2.2.2.2.2
  unfold issueStrand
  simp only [hf, hs, hc]
  rw [gate_clear body h, hb]
  simp only [resolve, hw, Bool.false_eq_true, if_false, applyGo_issueCtx]

theorem ramson_go {s : State} {x : Ctx} {i : Instr} {c : Ctl} {o : Ops} {sh : Shape} {body : Ctx → State → Res} {g : Go}
    (h : Clear s x i c o sh) (hb : body (issueCtx i x) s = .go g) : ramson i body s = .next (applyGo s x i c sh o g) := by
  unfold ramson
  simp only [h.1.1, issue_go h hb]

theorem ramsonS_go {s : State} {x : Ctx} {i : Instr} {c : Ctl} {o : Ops} {sh : Shape} {body : Ctx → State → Res} {g : Go}
    {span : State → SpanCtx → State} (h : Clear s x i c o sh) (hb : body (issueCtx i x) s = .go g) :
    ramsonS i body span s = .next (applyGo s x i c sh o g) := by
  unfold ramsonS
  simp only [h.1.1, issue_go h hb]

/-! ## The strand after an issue -/

theorem rotate_shape (t : Strand) (low : Nat) (b : Bool) : ∃ cu ti, rotate t low b = { t with cur := cu, timer := ti } := by
  unfold rotate; split
  · exact ⟨_, _, rfl⟩
  · exact ⟨t.cur, t.timer, rfl⟩

/-- Choosing the current path changes nothing else of the strand (R39, R40). -/
theorem chooseCur_shape (t : Strand) (old : Path) (cu : Cur) (y n : Bool) :
    ∃ a b, chooseCur t old cu y n = { t with cur := a, timer := b } := by
  have step : ∀ u : Strand, (∃ a b, u = { t with cur := a, timer := b }) → ∀ low,
      ∃ a b, rotate u low n = { t with cur := a, timer := b } := by
    rintro u ⟨a, b, rfl⟩ low
    obtain ⟨a', b', h⟩ := rotate_shape { t with cur := a, timer := b } low n
    exact ⟨a', b', h⟩
  have hself : ∃ a b, t = { t with cur := a, timer := b } := ⟨t.cur, t.timer, rfl⟩
  have hu : ∃ a b, pickCur t old cu n = { t with cur := a, timer := b } := by
    unfold pickCur
    cases cu with
    | keep =>
      simp only; split
      · exact ⟨_, _, rfl⟩
      · exact hself
    | toLane l =>
      simp only; split
      · exact ⟨_, _, rfl⟩
      · exact hself
    | next => exact step t hself _
  unfold chooseCur
  generalize pickCur t old cu n = u at hu ⊢
  simp only
  split
  · exact step u hu _
  · split
    · exact step u hu _
    · exact hu

/-- The registers that last-read bits free and the instruction does not write (R75). -/
def freed (c : Ctl) (sh : Shape) (o : Ops) : List Nat :=
  (regsOf (lastReads c sh o)).filter (fun n => !(regsOf (vecNames (writesOf sh o))).contains n)

/-- The strand of an issue before results become visible. -/
def beforeSettle (x : Ctx) (c : Ctl) (sh : Shape) (o : Ops) (g : Go) : Strand :=
  let t := (freed c sh o).foldl (fun t n => freeReg t n x.tm) g.t
  let t := countWindows t x.p.lanes
  let t := if g.close then closeWindows t x.p.lanes else t
  match g.pend with | some d => { t with pends := t.pends ++ [d] } | none => t

theorem finish_eq (x : Ctx) (c : Ctl) (sh : Shape) (o : Ops) (g : Go) : ∃ a b,
    finish x c sh o g =
      let t := unstall (settle (beforeSettle x c sh o g)) x.p.lanes
      { (if g.moved then t else setPath t x.pi (fun p => { p with pc := x.p.pc + 12 })) with cur := a, timer := b } :=
  chooseCur_shape _ _ _ _ _

/-- Same lanes, results and progress, whatever the window left. -/
def SamePend (d e : Pend) : Prop := e.lanes = d.lanes ∧ e.done = d.done ∧ e.outs = d.outs

theorem beforeSettle_pends (x : Ctx) (c : Ctl) (sh : Shape) (o : Ops) (g : Go) (e : Pend)
    (he : e ∈ (beforeSettle x c sh o g).pends) : (∃ d ∈ g.t.pends, SamePend d e) ∨ g.pend = some e := by
  have hp := (alike_freeRegs (freed c sh o) x.tm g.t).2.1
  have hin : ∀ t : Strand, t = (if g.close then closeWindows (countWindows
      ((freed c sh o).foldl (fun t n => freeReg t n x.tm) g.t) x.p.lanes) x.p.lanes
      else countWindows ((freed c sh o).foldl (fun t n => freeReg t n x.tm) g.t) x.p.lanes) →
      e ∈ t.pends → ∃ d ∈ g.t.pends, SamePend d e := by
    intro t ht hm
    subst ht
    by_cases hc : g.close = true
    · simp only [hc, if_true, closeWindows, countWindows, List.mem_map, hp] at hm
      obtain ⟨d, ⟨d', hd', rfl⟩, rfl⟩ := hm
      exact ⟨d', hd', rfl, rfl, rfl⟩
    · rw [if_neg hc] at hm
      simp only [countWindows, List.mem_map, hp] at hm
      obtain ⟨d, hd, rfl⟩ := hm
      exact ⟨d, hd, rfl, rfl, rfl⟩
  unfold beforeSettle at he
  simp only at he
  cases hg : g.pend with
  | none => rw [hg] at he; exact .inl (hin _ rfl he)
  | some d =>
    rw [hg] at he
    simp only [List.mem_append, List.mem_singleton] at he
    rcases he with he | he
    · exact .inl (hin _ rfl he)
    · exact .inr (by rw [he])

theorem beforeSettle_pend (x : Ctx) (c : Ctl) (sh : Shape) (o : Ops) (g : Go) (d : Pend) (h : g.pend = some d) :
    d ∈ (beforeSettle x c sh o g).pends := by
  unfold beforeSettle
  simp only [h]
  simp

theorem beforeSettle_regs (x : Ctx) (c : Ctl) (sh : Shape) (o : Ops) (g : Go) :
    (beforeSettle x c sh o g).regs = ((freed c sh o).foldl (fun t n => freeReg t n x.tm) g.t).regs := by
  unfold beforeSettle
  simp only
  split <;> split <;> rfl

theorem beforeSettle_paths (x : Ctx) (c : Ctl) (sh : Shape) (o : Ops) (g : Go) :
    (beforeSettle x c sh o g).paths = g.t.paths := by
  have hp := (alike_freeRegs (freed c sh o) x.tm g.t).2.2
  unfold beforeSettle
  simp only
  split <;> split <;> exact hp

theorem alike_countWindows (t : Strand) (m : LaneMask) : Alike t (countWindows t m) := by constructor <;> rfl

theorem alike_closeWindows (t : Strand) (m : LaneMask) : Alike t (closeWindows t m) := by constructor <;> rfl

theorem alike_addPend (t : Strand) (ds : List Pend) : Alike t { t with pends := ds } := by constructor <;> rfl

theorem beforeSettle_alike (x : Ctx) (c : Ctl) (sh : Shape) (o : Ops) (g : Go) : Alike g.t (beforeSettle x c sh o g) := by
  have h := (alike_freeRegs (freed c sh o) x.tm g.t).1
  refine Alike.trans h ?_
  unfold beforeSettle
  generalize (freed c sh o).foldl (fun t n => freeReg t n x.tm) g.t = t
  have h2 : Alike t (if g.close then closeWindows (countWindows t x.p.lanes) x.p.lanes else countWindows t x.p.lanes) := by
    split
    · exact Alike.trans (alike_countWindows t _) (alike_closeWindows _ _)
    · exact alike_countWindows t _
  simp only
  split
  · exact Alike.trans h2 (alike_addPend _ _)
  · exact h2

theorem samePend_covers {d e : Pend} (h : SamePend d e) (k l : Nat) : coversVec e k l = coversVec d k l := by
  unfold coversVec; rw [h.1, h.2.1, h.2.2]

theorem samePend_coversAff {d e : Pend} (h : SamePend d e) (k : Nat) (m : LaneMask) : coversAff e k m = coversAff d k m := by
  unfold coversAff; rw [h.2.2]

/-- A register that is not freed, and that no outstanding result covers, stands after the issue as the instruction's own
effect left it. -/
theorem finish_sameReg (x : Ctx) (c : Ctl) (sh : Shape) (o : Ops) (g : Go) (k l : Nat) (hl : l < 32)
    (hf : k ∉ freed c sh o) (hp : ∀ d ∈ g.t.pends, coversVec d k l = false) (hq : ∀ d, g.pend = some d → NotDue d k l) :
    SameReg g.t (finish x c sh o g) k l := by
  have h1 : SameReg g.t (beforeSettle x c sh o g) k l :=
    SameReg.trans (sameReg_freeRegs _ x.tm k l g.t hf) (SameReg.of_regs (beforeSettle_regs x c sh o g) k l)
  have h2 : SameReg (beforeSettle x c sh o g) (settle (beforeSettle x c sh o g)) k l := by
    apply sameReg_settle _ k l hl
    intro e he
    rcases beforeSettle_pends x c sh o g e he with ⟨d, hd, hs⟩ | h
    · left; rw [samePend_covers hs]; exact hp d hd
    · exact hq e h
  obtain ⟨a, b, e⟩ := finish_eq x c sh o g
  rw [e]
  refine SameReg.trans h1 (SameReg.trans h2 (SameReg.of_regs ?_ k l))
  simp only
  split
  · rfl
  · unfold setPath; split <;> rfl

/-- The i-th path entry after an issue that does not move the PC itself. -/
theorem finish_path (x : Ctx) (c : Ctl) (sh : Shape) (o : Ops) (g : Go) (hm : g.moved = false) (q : Path)
    (hq : g.t.paths[x.pi]? = some q) : ∃ q', (finish x c sh o g).paths[x.pi]? = some q' ∧ q'.lanes = q.lanes ∧
      q'.pc = x.p.pc + 12 ∧ ∀ n, (∀ d ∈ g.t.pends, coversAff d n q.lanes = false) →
        (∀ d, g.pend = some d → coversAff d n q.lanes = false) → affReg q' n = affReg q n := by
  obtain ⟨a, b, e⟩ := finish_eq x c sh o g
  have hb : (beforeSettle x c sh o g).paths[x.pi]? = some q := by rw [beforeSettle_paths]; exact hq
  have hl : lanesAt (beforeSettle x c sh o g) x.pi = some q.lanes := by simp [lanesAt, hb]
  have hl2 := (lanesAt_of_alike (alike_settle (beforeSettle x c sh o g)) x.pi).trans hl
  cases hu : (settle (beforeSettle x c sh o g)).paths[x.pi]? with
  | none => simp [lanesAt, hu] at hl2
  | some u =>
    have hul : u.lanes = q.lanes := by simpa [lanesAt, hu] using hl2
    refine ⟨{ u with pc := x.p.pc + 12 }, ?_, hul, rfl, ?_⟩
    · rw [e]
      simp only [hm, Bool.false_eq_true, if_false, setPath, unstall_paths, hu, setNth]
      rw [List.getElem?_set_self]
      exact (List.getElem?_eq_some_iff.1 hu).1
    · intro n h1 h2
      have h3 := affAt_settle (beforeSettle x c sh o g) x.pi n q.lanes hl (by
        intro d hd
        rcases beforeSettle_pends x c sh o g d hd with ⟨d', hd', hs⟩ | h
        · rw [samePend_coversAff hs]; exact h1 d' hd'
        · exact h2 d h)
      simp only [affAt, hu, hb, Option.map_some, Option.some.injEq] at h3
      exact h3

/-- A new outstanding result with a window stays outstanding. -/
theorem finish_pend (x : Ctx) (c : Ctl) (sh : Shape) (o : Ops) (g : Go) (d : Pend) (h : g.pend = some d)
    (hd : dueLanes d = 0) (hn : d.lanes &&& ~~~d.done ≠ 0) : d ∈ (finish x c sh o g).pends := by
  have h1 := mem_settle _ d (beforeSettle_pend x c sh o g d h) hd hn
  obtain ⟨a, b, e⟩ := finish_eq x c sh o g
  rw [e]
  simp only
  split
  · exact h1
  · unfold setPath; split
    · exact h1
    · exact h1

/-- What an issue leaves of its strand beside registers and paths. -/
theorem finish_rest (x : Ctx) (c : Ctl) (sh : Shape) (o : Ops) (g : Go) :
    let t := finish x c sh o g
    t.preds = g.t.preds ∧ t.convs = g.t.convs ∧ t.seed = g.t.seed ∧ t.items = g.t.items ∧ t.marked = g.t.marked ∧
      t.g = g.t.g ∧ t.batchCtr = g.t.batchCtr ∧ t.openBatch = g.t.openBatch ∧ t.completed = g.t.completed := by
  have h := Alike.trans (beforeSettle_alike x c sh o g) (alike_settle (beforeSettle x c sh o g))
  obtain ⟨a, b, e⟩ := finish_eq x c sh o g
  rw [e]
  simp only
  split
  · exact ⟨h.preds, h.convs, h.seed, h.items, h.marked, h.g, h.batchCtr, h.openBatch, h.completed⟩
  · unfold setPath; split
    · exact ⟨h.preds, h.convs, h.seed, h.items, h.marked, h.g, h.batchCtr, h.openBatch, h.completed⟩
    · exact ⟨h.preds, h.convs, h.seed, h.items, h.marked, h.g, h.batchCtr, h.openBatch, h.completed⟩

/-! ## The rest of the machine -/

theorem Outside.rfl' (s : State) : Outside s s := by constructor <;> first | rfl | (intro _; rfl)

theorem Outside.trans {a b c : State} (h : Outside a b) (k : Outside b c) : Outside a c where
  turns := k.turns.trans h.turns
  actor := k.actor.trans h.actor
  clock := k.clock.trans h.clock
  time := k.time.trans h.time
  ptm := k.ptm.trans h.ptm
  dev := k.dev.trans h.dev
  mem := k.mem.trans h.mem
  hostMem := k.hostMem.trans h.hostMem
  peerMem := k.peerMem.trans h.peerMem
  latch := k.latch.trans h.latch
  l2 := k.l2.trans h.l2
  sends := k.sends.trans h.sends
  cores := k.cores.trans h.cores
  dies := k.dies.trans h.dies
  reclaim := k.reclaim.trans h.reclaim
  images := k.images.trans h.images
  ended := k.ended.trans h.ended
  endedJobs := k.endedJobs.trans h.endedJobs
  tasks := k.tasks.trans h.tasks
  reqs := k.reqs.trans h.reqs
  usedSlices := k.usedSlices.trans h.usedSlices
  excludedSlices := k.excludedSlices.trans h.excludedSlices
  retired := k.retired.trans h.retired
  commons := k.commons.trans h.commons
  syncs := k.syncs.trans h.syncs
  halts := k.halts.trans h.halts
  stops := k.stops.trans h.stops
  pfPart := k.pfPart.trans h.pfPart
  cxl := k.cxl.trans h.cxl
  peerMap := k.peerMap.trans h.peerMap
  mcast := k.mcast.trans h.mcast
  links := k.links.trans h.links
  attest := k.attest.trans h.attest
  life := k.life.trans h.life
  lifeFlash := k.lifeFlash.trans h.lifeFlash
  lifeAt := k.lifeAt.trans h.lifeAt
  pulls := k.pulls.trans h.pulls
  peerRefuses := k.peerRefuses.trans h.peerRefuses
  badSectors := k.badSectors.trans h.badSectors
  repairs := k.repairs.trans h.repairs
  vendor := k.vendor.trans h.vendor
  receiptSeq := k.receiptSeq.trans h.receiptSeq
  importKey := k.importKey.trans h.importKey
  fns := fun n => (k.fns n).trans (h.fns n)
  parts := fun n => (k.parts n).trans (h.parts n)
  clusters := fun n => (k.clusters n).trans (h.clusters n)
  blocks := fun n => (k.blocks n).trans (h.blocks n)

theorem OtherStrands.rfl' (s : State) (u k : Nat) : OtherStrands s s u k := ⟨fun _ _ _ => rfl, fun _ => rfl⟩

theorem OtherStrands.trans {a b c : State} {u k : Nat} (h : OtherStrands a b u k) (g : OtherStrands b c u k) :
    OtherStrands a c u k :=
  ⟨fun v j n => (g.strands v j n).trans (h.strands v j n), fun v => (g.units v).trans (h.units v)⟩

theorem OtherStrands.of_units {a b : State} (h : b.units = a.units) (u k : Nat) : OtherStrands a b u k := by
  constructor <;> intros <;> simp [strand?, unit?, h]

theorem strand?_of_units {a b : State} (h : b.units = a.units) (u k : Nat) : strand? b u k = strand? a u k := by
  simp [strand?, unit?, h]

/-! One record at a time. -/

theorem outside_setUnit (s : State) (u : Nat) (f : WUnit → WUnit) : Outside s (setUnit s u f) := by
  constructor <;> first | rfl | (intro _; rfl)

theorem outside_setStrand (s : State) (u k : Nat) (f : Strand → Strand) : Outside s (setStrand s u k f) :=
  outside_setUnit s u _

theorem outside_setFn (s : State) (n : Nat) (f : FnState → FnState)
    (hf : ∀ a, { f a with events := [], msix := [], faults := 0 } = { a with events := [], msix := [], faults := 0 }) :
    Outside s (setFn s n f) := by
  constructor
  case fns =>
    intro m; rw [fnOf_setFn]
    by_cases h : m = n
    · subst h; rw [if_pos rfl]; exact hf _
    · rw [if_neg h]
  all_goals first | rfl | (intro _; rfl)

theorem outside_setPart (s : State) (n : Nat) (f : Partition → Partition)
    (hf : ∀ a, { f a with meters := [] } = { a with meters := [] }) : Outside s (setPart s n f) := by
  constructor
  case parts =>
    intro m; rw [partOf_setPart]
    by_cases h : m = n
    · subst h; rw [if_pos rfl]; exact hf _
    · rw [if_neg h]
  all_goals first | rfl | (intro _; rfl)

theorem outside_setCluster (s : State) (n : Nat) (f : Cluster → Cluster)
    (hf : ∀ a, { f a with stats := [] } = { a with stats := [] }) : Outside s (setCluster s n f) := by
  constructor
  case clusters =>
    intro m; rw [clusterOf_setCluster]
    by_cases h : m = n
    · subst h; rw [if_pos rfl]; exact hf _
    · rw [if_neg h]
  all_goals first | rfl | (intro _; rfl)

theorem outside_setLaunch (s : State) (n : Nat) (f : Launch → Launch) (hf : ∀ a, (f a).lpb = a.lpb) :
    Outside s (setLaunch s n f) := by
  constructor
  case blocks =>
    intro m; rw [launch?_setLaunch]
    by_cases h : m = n
    · subst h; rw [if_pos rfl]; cases launch? s m <;> simp [hf]
    · rw [if_neg h]
  all_goals first | rfl | (intro _; rfl)

theorem outside_setJob (s : State) (r : JobRef) (f : Job → Job) : Outside s (setJob s r f) := by
  constructor <;> first | rfl | (intro _; rfl)

theorem outside_postEvent (s : State) (fn : Nat) (e : Event) : Outside s (postEvent s fn e) := by
  unfold postEvent raiseMsix
  simp only
  split
  · refine Outside.trans (outside_setFn _ _ _ ?_) (outside_setFn _ _ _ ?_) <;> intro _ <;> rfl
  · exact outside_setFn s fn _ (fun _ => rfl)

theorem postEvent_units (s : State) (fn : Nat) (e : Event) : (postEvent s fn e).units = s.units := by
  unfold postEvent raiseMsix; simp only; split <;> rfl

theorem outside_postRecord (s : State) (lid : Nat) (e : Event) : Outside s (postRecord s lid e) := by
  unfold postRecord
  split
  · exact Outside.rfl' s
  · next l _ =>
    have h0 : Outside s (if isPf l.fn then s else setFn s l.fn (fun f => { f with faults := f.faults + 1 })) := by
      split
      · exact Outside.rfl' s
      · exact outside_setFn _ _ _ (fun _ => rfl)
    refine Outside.trans h0 ?_
    simp only
    generalize (if isPf l.fn then s else setFn s l.fn (fun f => { f with faults := f.faults + 1 })) = s1
    split
    · refine Outside.trans (outside_postEvent _ _ _) (outside_setLaunch _ _ _ ?_); intro _; rfl
    · exact outside_setLaunch _ _ _ (fun _ => rfl)

theorem postRecord_units (s : State) (lid : Nat) (e : Event) : (postRecord s lid e).units = s.units := by
  unfold postRecord
  split
  · rfl
  · next l _ =>
    have h0 : (if isPf l.fn then s else setFn s l.fn (fun f => { f with faults := f.faults + 1 })).units = s.units := by
      split <;> rfl
    rw [← h0]
    simp only
    generalize (if isPf l.fn then s else setFn s l.fn (fun f => { f with faults := f.faults + 1 })) = s1
    split
    · simp [postEvent_units]
    · rfl

theorem outside_markRunning (s : State) (lid : Nat) : Outside s (markRunning s lid) := by
  unfold markRunning
  split
  · exact Outside.rfl' s
  · split
    · refine Outside.trans (outside_setLaunch _ _ _ ?_) (outside_setJob _ _ _); intro _; rfl
    · exact Outside.rfl' s

theorem markRunning_units (s : State) (lid : Nat) : (markRunning s lid).units = s.units := by
  unfold markRunning
  split
  · rfl
  · split <;> rfl

theorem outside_countStat (s : State) (core lid : Nat) (f : Stat → Stat) : Outside s (countStat s core lid f) := by
  apply outside_setCluster
  intro a
  simp only
  split <;> rfl

theorem countStat_units (s : State) (core lid : Nat) (f : Stat → Stat) : (countStat s core lid f).units = s.units := rfl

theorem outside_countMisses (s0 s : State) (core lid : Nat) : Outside s (countMisses s0 s core lid) := by
  unfold countMisses
  simp only
  split
  · exact Outside.rfl' s
  · exact outside_countStat _ _ _ _

theorem countMisses_units (s0 s : State) (core lid : Nat) : (countMisses s0 s core lid).units = s.units := by
  unfold countMisses
  simp only
  split <;> rfl

theorem outside_chargeEnergy (s : State) (p k : Nat) : Outside s (chargeEnergy s p k) :=
  outside_setPart _ _ _ (fun _ => rfl)

theorem chargeEnergy_units (s : State) (p k : Nat) : (chargeEnergy s p k).units = s.units := rfl

theorem otherStrands_setUnit (s : State) (u k : Nat) (f : WUnit → WUnit) (hf : ∀ w, (f w).strands = w.strands)
    (hg : ∀ w, ((f w).lid, (f w).u, (f w).core, (f w).slot, (f w).scratch, (f w).spans, (f w).ctx) =
      (w.lid, w.u, w.core, w.slot, w.scratch, w.spans, w.ctx)) : OtherStrands s (setUnit s u f) u k := by
  constructor
  · intro v j _; exact strand?_setUnit s u v j f hf
  · intro v; rw [unit?_setUnit]
    by_cases h : v = u
    · subst h; rw [if_pos rfl]; cases unit? s v <;> simp only [Option.map_none, Option.map_some, hg]
    · rw [if_neg h]

theorem otherStrands_setStrand (s : State) (u k : Nat) (f : Strand → Strand) : OtherStrands s (setStrand s u k f) u k := by
  constructor
  · intro v j h; exact strand?_setStrand_other s f h
  · intro v; rw [unit?_setStrand]
    by_cases h : v = u
    · subst h; rw [if_pos rfl]; cases unit? s v <;> simp
    · rw [if_neg h]

/-! ## An issue put into place -/

theorem outside_noteIssuer (s : State) (q uid k : Nat) : Outside s (noteIssuer s q uid k) := by
  constructor <;> first | rfl | (intro _; rfl)

theorem outside_markIssue (s : State) (x : Ctx) (i : Instr) : Outside s (markIssue s x i) := by
  unfold markIssue
  simp only
  have h := Outside.trans (Outside.trans (outside_setUnit s x.uid _) (outside_noteIssuer (beginUnit s x.uid)
    (4 * x.w.core + x.st.quarter) x.uid x.k)) (outside_markRunning _ x.w.lid)
  generalize markRunning (noteIssuer (beginUnit s x.uid) (4 * x.w.core + x.st.quarter) x.uid x.k) x.w.lid = s1 at h
  replace h := Outside.trans h (outside_countStat s1 x.w.core x.w.lid (fun q =>
    { q with instrs := q.instrs + 1, used := q.used + issueTime s1 x.w.core }))
  split
  · exact h
  · exact Outside.trans h (outside_chargeEnergy _ _ _)

theorem markIssue_units (s : State) (x : Ctx) (i : Instr) : (markIssue s x i).units = (beginUnit s x.uid).units := by
  unfold markIssue
  simp only
  split
  · rw [countStat_units, markRunning_units]; rfl
  · rw [chargeEnergy_units, countStat_units, markRunning_units]; rfl

theorem otherStrands_begin (s : State) (u k : Nat) : OtherStrands s (beginUnit s u) u k :=
  otherStrands_setUnit s u k _ (fun _ => rfl) (fun _ => rfl)

theorem strand?_begin (s : State) (u v j : Nat) : strand? (beginUnit s u) v j = strand? s v j :=
  strand?_setUnit s u v j _ (fun _ => rfl)

/-- Taking a token changes the token of its strand, and posts its record. -/
theorem takeToken_spec (s : State) (x : Ctx) (t : Strand) (kind : TokenKind) (code reason : Nat) (m : LaneMask) (pc : DWord)
    (aux : List Byte) (hs : (strand? s x.uid x.k).isSome) :
    (∃ tok, strand? (takeToken s x t kind code reason m pc aux) x.uid x.k = some { t with token := tok }) ∧
      Outside s (takeToken s x t kind code reason m pc aux) ∧
      OtherStrands s (takeToken s x t kind code reason m pc aux) x.uid x.k := by
  have hfree : Outside s (freeVal s).2 := by constructor <;> first | rfl | (intro _; rfl)
  refine ⟨?_, ?_, ?_⟩
  · refine ⟨some ⟨freeToken (tokensOut (freeVal s).2) 65536 ((freeVal s).1 % (2 ^ 32 - 1) + 1), kind, m, pc⟩, ?_⟩
    unfold takeToken
    simp only
    rw [strand?_of_units (postRecord_units _ _ _), strand?_setStrand_self]
    have : strand? (freeVal s).2 x.uid x.k = strand? s x.uid x.k := rfl
    rw [this]
    cases h : strand? s x.uid x.k with
    | none => simp [h] at hs
    | some u => rfl
  · unfold takeToken
    exact Outside.trans hfree (Outside.trans (outside_setStrand _ _ _ _) (outside_postRecord _ _ _))
  · unfold takeToken
    have h0 : OtherStrands s (freeVal s).2 x.uid x.k := OtherStrands.of_units (freeVal_units s) _ _
    exact OtherStrands.trans h0 (OtherStrands.trans (otherStrands_setStrand _ _ _ _)
      (OtherStrands.of_units (postRecord_units _ _ _) _ _))

/-- An issue whose instruction changes nothing outside its strand. -/
theorem applyGo_spec (s0 : State) (x : Ctx) (i : Instr) (c : Ctl) (sh : Shape) (o : Ops) (g : Go)
    (hs : (strand? g.s x.uid x.k).isSome) (ha : g.after = id) :
    (∃ tok st, strand? (applyGo s0 x i c sh o g) x.uid x.k = some { finish x c sh o g with token := tok, steps := st }) ∧
      Outside g.s (applyGo s0 x i c sh o g) ∧ OtherStrands g.s (applyGo s0 x i c sh o g) x.uid x.k := by
  generalize ht : finish x c sh o g = t
  generalize hs1 : countMisses s0 (markIssue (setStrand g.s x.uid x.k (fun _ => t)) x i) x.w.core x.w.lid = s1
  have hu1 : s1.units = (beginUnit (setStrand g.s x.uid x.k (fun _ => t)) x.uid).units := by
    rw [← hs1, countMisses_units, markIssue_units]
  have hst : strand? s1 x.uid x.k = some t := by
    rw [strand?_of_units hu1, strand?_begin, strand?_setStrand_self]
    cases h : strand? g.s x.uid x.k with
    | none => simp [h] at hs
    | some u => rfl
  have hout : Outside g.s s1 := by
    rw [← hs1]
    exact Outside.trans (Outside.trans (outside_setStrand _ _ _ _) (outside_markIssue _ x i)) (outside_countMisses _ _ _ _)
  have hoth : OtherStrands g.s s1 x.uid x.k :=
    OtherStrands.trans (OtherStrands.trans (otherStrands_setStrand _ _ _ _) (otherStrands_begin _ _ _))
      (OtherStrands.of_units hu1 _ _)
  have hdone : (∃ tok st, strand? s1 x.uid x.k = some { t with token := tok, steps := st }) ∧ Outside g.s s1 ∧
      OtherStrands g.s s1 x.uid x.k := ⟨⟨t.token, t.steps, hst⟩, hout, hoth⟩
  unfold applyGo
  simp only [ht, hs1, ha, id_eq]
  split
  · simp only [hst]
    split
    · exact hdone
    · split
      · obtain ⟨⟨tok, h1⟩, h2, h3⟩ := takeToken_spec s1 x t .step fBreak 2 x.p.lanes x.p.pc [] (by simp [hst])
        exact ⟨⟨tok, t.steps, h1⟩, Outside.trans hout h2, OtherStrands.trans hoth h3⟩
      · refine ⟨⟨t.token, t.steps ++ [(x.p.pc, x.p.lanes)], ?_⟩, Outside.trans hout (outside_setStrand _ _ _ _),
          OtherStrands.trans hoth (otherStrands_setStrand _ _ _ _)⟩
        rw [strand?_setStrand_self, hst]
        rfl
  · exact hdone

end Sys2Proof.Machine
end

