-- ==== Sys2Proof/Laws/Results.lean ====
section
/-! SUPPORT. What each shape of result leaves when an instruction issues with nothing to turn it away: a vector result, a
predicate, an affine register, and the frame of an instruction that changes nothing outside its strand. -/

namespace Sys2Proof.Machine

open Sys2Proof

/-! ## The context -/

theorem ctxOf_some {s : State} {u k : Nat} {c : Ctl} {x : Ctx} (h : ctxOf s u k c = some x) :
    x.uid = u ∧ x.k = k ∧ unit? s u = some x.w ∧ (∃ t, Tbl.find? x.w.strands k = some t ∧ x.st = t ∧
      curPath t = some (x.pi, x.p)) ∧ launch? s x.w.lid = some x.l := by
  unfold ctxOf at h
  split at h
  · exact absurd h (by simp)
  · next w hw =>
    split at h
    · next t l ht hl =>
      split at h
      · next pi p hp =>
        simp only [Option.some.injEq] at h
        subst h
        exact ⟨rfl, rfl, hw, ⟨t, ht, rfl, hp⟩, hl⟩
      · exact absurd h (by simp)
    · exact absurd h (by simp)

theorem curPath_get {t : Strand} {i : Nat} {p : Path} (h : curPath t = some (i, p)) : t.paths[i]? = some p := by
  unfold curPath at h
  split at h
  · next q j hf =>
    simp only [Option.some.injEq, Prod.mk.injEq] at h
    obtain ⟨rfl, rfl⟩ := h
    have hm := List.mem_of_find?_eq_some hf
    exact (List.mem_zipIdx_iff_getElem?.1 hm)
  · exact absurd h (by simp)

theorem stands_strand {s : State} {x : Ctx} {i : Instr} {c : Ctl} {o : Ops} {sh : Shape} (h : Stands s x i c o sh) :
    (strand? s x.uid x.k).isSome = true := by
  obtain ⟨_, _, hu, ⟨t, ht, _, _⟩, _⟩ := ctxOf_some h.2.2.2
  simp [strand?, hu, ht]

theorem stands_path {s : State} {x : Ctx} {i : Instr} {c : Ctl} {o : Ops} {sh : Shape} (h : Stands s x i c o sh) :
    x.st.paths[x.pi]? = some x.p := by
  obtain ⟨_, _, _, ⟨t, _, hst, hp⟩, _⟩ := ctxOf_some h.2.2.2
  rw [hst]; exact curPath_get hp

/-! ## What the scoreboard and the windows leave uncovered (R79) -/

theorem uncovered_vec {s : State} {x : Ctx} {i : Instr} {c : Ctl} {o : Ops} {sh : Shape} (h : Clear s x i c o sh) {n l : Nat}
    (hn : n ∈ regsOf (vecNames (writesOf sh o))) (hl : lane x.tm l = true) : ∀ d ∈ x.st.pends, coversVec d n l = false := by
  obtain ⟨_, _, _, _, _, _, _, _, hsb, _, hw⟩ := h
  intro d hd
  have hl' : l ∈ x.lanes := (mem_lanesOf x.tm l).2 hl
  cases hc : coversVec d n l with
  | false => rfl
  | true =>
    simp only [scoreboard, List.any_eq_false, Bool.or_eq_true, not_or, List.any_eq_true, not_exists, not_and,
      Bool.and_eq_true, beq_iff_eq] at hsb
    simp only [inWindow, List.any_eq_false, Bool.or_eq_true, not_or, List.any_eq_true, not_exists, not_and,
      Bool.and_eq_true, decide_eq_true_eq] at hw
    have h0 := (hsb d hd).1.1.2 n (List.mem_append_left _ hn) l hl' hc
    have hmem : n ∈ regsOf (vecNames (writesOf sh o) ++ lastReads c sh o) := by
      simp only [regsOf, List.flatMap_append, List.mem_append] at hn ⊢
      exact .inl hn
    have h1 := (hw d hd).1 n hmem l hl' hc
    omega

theorem uncovered_aff {s : State} {x : Ctx} {i : Instr} {c : Ctl} {o : Ops} {sh : Shape} (h : Clear s x i c o sh) {n : Nat}
    (hn : n ∈ affNames (writesOf sh o)) : ∀ d ∈ x.st.pends, coversAff d n x.p.lanes = false := by
  obtain ⟨_, _, _, _, _, _, _, _, hsb, _, hw⟩ := h
  intro d hd
  cases hc : coversAff d n x.p.lanes with
  | false => rfl
  | true =>
    simp only [scoreboard, List.any_eq_false, Bool.or_eq_true, not_or, List.any_eq_true, not_exists, not_and,
      Bool.and_eq_true, beq_iff_eq] at hsb
    simp only [inWindow, List.any_eq_false, Bool.or_eq_true, not_or, List.any_eq_true, not_exists, not_and,
      Bool.and_eq_true, decide_eq_true_eq] at hw
    have hmem : n ∈ affNames (positions sh o) ++ modAff i := by
      simp only [affNames, writesOf, List.mem_filterMap, List.mem_filter, List.mem_append] at hn ⊢
      obtain ⟨e, ⟨he, _⟩, h2⟩ := hn
      exact .inl ⟨e, he, h2⟩
    have h0 := (hsb d hd).1.2 n hmem hc
    have h1 := (hw d hd).2 n hn hc
    omega

/-- The registers of a vector destination are among those the instruction writes. -/
theorem dest_written (sh : Shape) (o : Ops) (n : Fin 256) (w j : Nat) (hd : o.d = .vec n) (hw : sh.d.wr = true)
    (hv : sh.d.vec = w) (hj : j < w) : n.val + j ∈ regsOf (vecNames (writesOf sh o)) := by
  simp only [regsOf, vecNames, writesOf, positions, List.mem_flatMap, List.mem_filterMap, List.mem_map, List.mem_range,
    List.mem_filter]
  exact ⟨(n.val, w), ⟨(sh.d, o.d), ⟨by simp, hw⟩, by simp [hd, hv]⟩, j, hj, by omega⟩

theorem affDest_written (sh : Shape) (o : Ops) (n : Fin 32) (part : APart) (hd : o.d = .aff n part) (hw : sh.d.wr = true) :
    n.val ∈ affNames (writesOf sh o) := by
  simp only [affNames, writesOf, positions, List.mem_filterMap, List.mem_filter]
  exact ⟨(sh.d, o.d), ⟨by simp, hw⟩, by simp [hd]⟩

theorem freed_not_written (c : Ctl) (sh : Shape) (o : Ops) (n : Nat) (h : n ∈ regsOf (vecNames (writesOf sh o))) :
    n ∉ freed c sh o := by
  intro hf
  simp only [freed, List.mem_filter] at hf
  have : (regsOf (vecNames (writesOf sh o))).contains n = true := by simpa using h
  rw [this] at hf
  exact absurd hf.2 (by simp)

/-! ## An issue that changes nothing outside its strand -/

/-- What such an issue brings: the machine beside its strand is as before, the PC moves on by itself, and the strand's pending
results are those it had. -/
structure Plain (s : State) (x : Ctx) (g : Go) : Prop where
  outside : Outside s g.s
  units : g.s.units = s.units
  after : g.after = id
  moved : g.moved = false
  pends : g.t.pends = x.st.pends
  lanes : lanesAt g.t x.pi = some x.p.lanes
  rest : g.t.convs = x.st.convs ∧ g.t.items = x.st.items ∧ g.t.marked = x.st.marked ∧ g.t.g = x.st.g ∧
    g.t.batchCtr = x.st.batchCtr ∧ g.t.openBatch = x.st.openBatch ∧ g.t.completed = x.st.completed
  pend : ∀ d, g.pend = some d → dueLanes d = 0 ∧ d.lanes &&& ~~~d.done ≠ 0 ∧ ∀ n m, coversAff d n m = false

section
variable {s s' : State} {x : Ctx} {i : Instr} {c : Ctl} {o : Ops} {sh : Shape} {g : Go}

/-- Strands that differ in what single stepping keeps at most. -/
structure ButToken (t u : Strand) : Prop where
  regs : u.regs = t.regs
  paths : u.paths = t.paths
  pends : u.pends = t.pends
  preds : u.preds = t.preds
  convs : u.convs = t.convs
  seed : u.seed = t.seed
  items : u.items = t.items
  marked : u.marked = t.marked
  g : u.g = t.g
  batchCtr : u.batchCtr = t.batchCtr
  openBatch : u.openBatch = t.openBatch
  completed : u.completed = t.completed

theorem butToken (t : Strand) (tok : Option Token) (st : List (DWord × LaneMask)) : ButToken t { t with token := tok, steps := st } := by
  constructor <;> rfl

theorem plain_strand (h : Stands s x i c o sh) (hg : Plain s x g) (e : s' = applyGo s x i c sh o g) :
    (∃ u, strand? s' x.uid x.k = some u ∧ ButToken (finish x c sh o g) u) ∧ Outside s s' ∧
      OtherStrands s s' x.uid x.k := by
  have hs : (strand? g.s x.uid x.k).isSome = true := by rw [strand?_of_units hg.units]; exact stands_strand h
  obtain ⟨⟨tok, st, h1⟩, h2, h3⟩ := applyGo_spec s x i c sh o g hs hg.after
  subst e
  exact ⟨⟨_, h1, butToken _ tok st⟩, Outside.trans hg.outside h2, OtherStrands.trans (OtherStrands.of_units hg.units _ _) h3⟩

theorem notDue_pend (hg : Plain s x g) (k l : Nat) : ∀ d, g.pend = some d → NotDue d k l := by
  intro d hd
  right
  rw [(hg.pend d hd).1]
  exact lane_zero l

/-- The PC has moved past the instruction. -/
theorem plain_pc (h : Stands s x i c o sh) (hg : Plain s x g) (e : s' = applyGo s x i c sh o g) : PcPast s' x := by
  obtain ⟨⟨u, ht, hu⟩, _, _⟩ := plain_strand h hg e
  have hl := hg.lanes
  cases hq : g.t.paths[x.pi]? with
  | none => simp [lanesAt, hq] at hl
  | some q =>
    have hql : q.lanes = x.p.lanes := by simpa [lanesAt, hq] using hl
    obtain ⟨q', h1, h2, h3, _⟩ := finish_path x c sh o g hg.moved q hq
    exact ⟨u, q', ht, by rw [hu.paths]; exact List.mem_of_getElem? h1, h2.trans hql, h3⟩

/-- The rest of the strand. -/
theorem plain_rest (h : Stands s x i c o sh) (hg : Plain s x g) (e : s' = applyGo s x i c sh o g) (b : Bool)
    (hb : b = false → g.t.seed = x.st.seed) : RestKept s' x b := by
  obtain ⟨⟨u, ht, hu⟩, _, _⟩ := plain_strand h hg e
  obtain ⟨_, r2, r3, r4, r5, r6, r7, r8, r9⟩ := finish_rest x c sh o g
  obtain ⟨q1, q2, q3, q4, q5, q6, q7⟩ := hg.rest
  exact ⟨u, ht, hu.convs.trans (r2.trans q1), hu.items.trans (r4.trans q2), hu.marked.trans (r5.trans q3),
    hu.g.trans (r6.trans q4), hu.batchCtr.trans (r7.trans q5), hu.openBatch.trans (r8.trans q6),
    hu.completed.trans (r9.trans q7), fun hf => hu.seed.trans (r3.trans (hb hf))⟩

/-- The vector registers that the instruction leaves alone. -/
theorem plain_regs (h : Stands s x i c o sh) (hg : Plain s x g) (e : s' = applyGo s x i c sh o g)
    (hk : ∀ n l, l < 32 → (n ∉ regsOf (vecNames (writesOf sh o)) ∨ lane x.tm l = false) → SameReg x.st g.t n l) :
    RegsKept s' x c sh o := by
  obtain ⟨⟨u, ht, hu⟩, _, _⟩ := plain_strand h hg e
  refine ⟨u, ht, ?_⟩
  intro n l hl hn hc
  have hf : n ∉ freed c sh o := by
    rcases hn with hn | hn
    · simp only [touched, List.mem_append, not_or] at hn
      simp only [freed, List.mem_filter, not_and]
      exact fun h => absurd h hn.2
    · simp only [freed, List.mem_filter, not_and]
      exact fun h => absurd h hn.2
  have h1 : SameReg x.st g.t n l := by
    apply hk n l hl
    rcases hn with hn | hn
    · simp only [touched, List.mem_append, not_or] at hn; exact .inl hn.1
    · exact .inr hn.1
  have h2 := finish_sameReg x c sh o g n l hl hf (by rw [hg.pends]; exact hc) (notDue_pend hg n l)
  exact SameReg.trans h1 (SameReg.trans h2 (SameReg.of_regs hu.regs n l))

/-! ## A vector result -/

theorem and_not_zero (m : LaneMask) : m &&& ~~~(0 : LaneMask) = m := by
  have : ~~~(0 : LaneMask) = BitVec.allOnes 32 := by decide
  rw [this, BitVec.and_allOnes]

/-- A pending result that has not returned is due in no lane. -/
theorem dueLanes_unreturned (d : Pend) (h : d.ready = 0) : dueLanes d = 0 := by
  have : ∀ l, (lane d.lanes l && lane d.ready l && !lane d.done l && winOf d l == 0) = false := by
    intro l; rw [h]; simp
  unfold dueLanes
  simp only [this]
  decide

theorem plain_giveVec (h : Clear s x i c o sh) {y : Ctx} {t : Strand} {d : Opnd} {w : Nat} {v : Nat → Nat}
    (hy : y.tm = x.tm) (ht : t.pends = x.st.pends) (hl : lanesAt t x.pi = some x.p.lanes)
    (hr : t.convs = x.st.convs ∧ t.items = x.st.items ∧ t.marked = x.st.marked ∧ t.g = x.st.g ∧
      t.batchCtr = x.st.batchCtr ∧ t.openBatch = x.st.openBatch ∧ t.completed = x.st.completed)
    (hg : giveVec y s t i c d w v = .go g) :
    Plain s x g ∧ Alike t g.t ∧ (∀ n l, l < 32 → (lane x.tm l = false ∨ (match d with
      | .vec m => n < m.val ∨ m.val + w ≤ n | _ => True)) → SameReg t g.t n l) := by
  unfold giveVec at hg
  split at hg
  · next n =>
    split at hg
    · simp only [Res.go.injEq] at hg
      subst hg
      have ha := alike_writeGroup w t n.val y.tm v
      refine ⟨⟨Outside.rfl' s, rfl, rfl, rfl, ?_, ?_, ?_, ?_⟩, ha, ?_⟩
      · exact (writeGroup_pends w t n.val y.tm v).trans ht
      · rw [lanesAt_of_alike ha]; exact hl
      · exact ⟨ha.convs.trans hr.1, ha.items.trans hr.2.1, ha.marked.trans hr.2.2.1, ha.g.trans hr.2.2.2.1,
          ha.batchCtr.trans hr.2.2.2.2.1, ha.openBatch.trans hr.2.2.2.2.2.1, ha.completed.trans hr.2.2.2.2.2.2⟩
      · intro d hd; exact absurd hd (by simp)
      · intro k l hl' hk
        apply sameReg_writeGroup w t n.val k y.tm v hl'
        rcases hk with hk | hk | hk
        · exact .inr (.inr (by rw [hy]; exact hk))
        · exact .inl hk
        · exact .inr (.inl hk)
    · next hla =>
      simp only [fresh, Res.go.injEq] at hg
      subst hg
      refine ⟨⟨?_, rfl, rfl, rfl, ht, hl, hr, ?_⟩, Alike.rfl' t, fun n l _ _ => SameReg.rfl' t n l⟩
      · constructor <;> first | rfl | (intro _; rfl)
      · intro q hq
        simp only [Option.some.injEq] at hq
        subst hq
        refine ⟨dueLanes_unreturned _ rfl, ?_, ?_⟩
        · change y.tm &&& ~~~(0 : LaneMask) ≠ 0
          rw [hy, and_not_zero]; exact h.2.1
        · intro n m; rfl
  · simp only [Res.go.injEq] at hg
    subst hg
    refine ⟨⟨Outside.rfl' s, rfl, rfl, rfl, ht, hl, hr, ?_⟩, Alike.rfl' t, fun n l _ _ => SameReg.rfl' t n l⟩
    intro d hd; exact absurd hd (by simp)

theorem got_giveVec (h : Clear s x i c o sh) {y : Ctx} {t : Strand} {w : Nat} {v : Nat → Nat}
    (hy : y.tm = x.tm) (ht : t.pends = x.st.pends) (hl : lanesAt t x.pi = some x.p.lanes)
    (hr : t.convs = x.st.convs ∧ t.items = x.st.items ∧ t.marked = x.st.marked ∧ t.g = x.st.g ∧
      t.batchCtr = x.st.batchCtr ∧ t.openBatch = x.st.openBatch ∧ t.completed = x.st.completed)
    (hw : sh.d.wr = true) (hv : w ≤ sh.d.vec) (hg : giveVec y s t i c o.d w v = .go g)
    (e : s' = applyGo s x i c sh o g) : GotVec s' x i c o.d w v := by
  obtain ⟨hp, _, _⟩ := plain_giveVec h hy ht hl hr hg
  obtain ⟨⟨u, hs, hu⟩, _, _⟩ := plain_strand h.1 hp e
  refine ⟨u, hs, ?_⟩
  cases hd : o.d with
  | vec n =>
    simp only
    rw [hd] at hg
    simp only [giveVec] at hg
    cases hla : longLatency i with
    | false =>
      simp only [hla, Bool.not_false, if_true] at hg
      simp only [Bool.false_eq_true, if_false]
      have hgt : g.t = writeGroup t n.val y.tm v w := by
        simp only [Res.go.injEq] at hg; subst hg; rfl
      have hgp : g.pend = none := by simp only [Res.go.injEq] at hg; subst hg; rfl
      intro l j hl' hj
      have hmem := dest_written sh o n sh.d.vec j hd hw rfl (by omega)
      have h1 := finish_sameReg x c sh o g (n.val + j) l (lane_lt hl')
        (freed_not_written c sh o _ hmem) (by rw [hp.pends]; exact uncovered_vec h hmem hl')
        (by intro q hq; rw [hgp] at hq; exact absurd hq (by simp))
      have h2 := word_writeGroup w t n.val y.tm v (l := l) (j := j) (by rw [hy]; exact hl') hj
      rw [← hgt] at h2
      have h3 := SameReg.trans h1 (SameReg.of_regs hu.regs (n.val + j) l)
      exact ⟨h3.1.trans h2.1, h3.2.trans h2.2⟩
    | true =>
      simp only [hla, Bool.not_true, Bool.false_eq_true, if_false] at hg
      simp only [if_true]
      have hgp : ∃ q, g.pend = some q ∧ q.outs = [outVec n.val w x.tm v] ∧ q.lanes = x.tm ∧ q.ready = 0 ∧ q.todo = 0 ∧
          q.bad = 0 ∧ q.parked = [] ∧ q.instr = i ∧ q.win = winList x.tm c.la.val := by
        simp only [fresh, Res.go.injEq] at hg
        subst hg
        refine ⟨_, rfl, ?_, ?_, ?_, ?_, ?_, ?_, ?_, ?_⟩ <;> simp only [hy]
      obtain ⟨q, hq, hrest⟩ := hgp
      obtain ⟨hd1, hd2, _⟩ := hp.pend q hq
      exact ⟨q, by rw [hu.pends]; exact finish_pend x c sh o g q hq hd1 hd2, hrest⟩
  | _ => trivial

/-! ## A predicate result -/

theorem writePred_alike (t : Strand) (n : Nat) (m : LaneMask) (f : Nat → Bool) :
    (writePred t n m f).pends = t.pends ∧ (writePred t n m f).regs = t.regs ∧ (writePred t n m f).paths = t.paths ∧
      (writePred t n m f).convs = t.convs ∧ (writePred t n m f).items = t.items ∧ (writePred t n m f).marked = t.marked ∧
      (writePred t n m f).g = t.g ∧ (writePred t n m f).batchCtr = t.batchCtr ∧
      (writePred t n m f).openBatch = t.openBatch ∧ (writePred t n m f).completed = t.completed ∧
      (writePred t n m f).seed = t.seed := by
  unfold writePred; split <;> exact ⟨rfl, rfl, rfl, rfl, rfl, rfl, rfl, rfl, rfl, rfl, rfl⟩

theorem lanesAt_of_paths {t u : Strand} (h : u.paths = t.paths) (i : Nat) : lanesAt u i = lanesAt t i := by
  simp [lanesAt, h]

theorem stands_lanes (h : Stands s x i c o sh) : lanesAt x.st x.pi = some x.p.lanes := by
  simp [lanesAt, stands_path h]

theorem plain_givePred (h : Clear s x i c o sh) {d : Opnd} {f : Nat → Bool} (hg : givePred (issueCtx i x) s d f = .go g) :
    Plain s x g ∧ g.t.regs = x.st.regs ∧ g.t.seed = x.st.seed := by
  obtain ⟨ss, e⟩ := issueCtx_eq i x
  rw [e] at hg
  unfold givePred at hg
  split at hg
  · next n =>
    simp only [Res.go.injEq] at hg
    subst hg
    obtain ⟨a1, a2, a3, a4, a5, a6, a7, a8, a9, a10, a11⟩ := writePred_alike (withStalls ss x.st) n.val x.tm f
    refine ⟨⟨Outside.rfl' s, rfl, rfl, rfl, a1, ?_, ⟨a4, a5, a6, a7, a8, a9, a10⟩, ?_⟩, a2, a11⟩
    · rw [lanesAt_of_paths a3]; exact stands_lanes h.1
    · intro d hd; exact absurd hd (by simp)
  · simp only [Res.go.injEq] at hg
    subst hg
    refine ⟨⟨Outside.rfl' s, rfl, rfl, rfl, rfl, stands_lanes h.1, ⟨rfl, rfl, rfl, rfl, rfl, rfl, rfl⟩, ?_⟩, rfl, rfl⟩
    intro d hd; exact absurd hd (by simp)

theorem lane_not {m : LaneMask} {l : Nat} (h : l < 32) : lane (~~~m) l = !lane m l := by simp [lane, h]

theorem got_givePred (h : Clear s x i c o sh) {d : Opnd} {f : Nat → Bool} (hg : givePred (issueCtx i x) s d f = .go g)
    (e : s' = applyGo s x i c sh o g) : GotPred s' x d f := by
  obtain ⟨hp, _, _⟩ := plain_givePred h hg
  obtain ⟨⟨u, hs, hu⟩, _, _⟩ := plain_strand h.1 hp e
  refine ⟨u, hs, ?_⟩
  have hpr := hu.preds.trans (finish_rest x c sh o g).1
  obtain ⟨ss, he⟩ := issueCtx_eq i x
  rw [he] at hg
  unfold givePred at hg
  cases d with
  | pred n =>
    simp only [Res.go.injEq] at hg ⊢
    intro l hl hn h7
    rw [hpr, ← hg]
    simp only [writePred, withStalls, h7, if_false, nth, setNth, List.getElem?_set_self hn, Option.getD_some, lane_or, lane_and,
      lane_not hl, lane_maskOf, hl, decide_true, Bool.true_and]
    cases lane x.tm l <;> simp
  | _ => simp only [Res.go.injEq] at hg ⊢; rw [hpr, ← hg]; rfl

/-! ## An affine result -/

theorem plain_giveAff (h : Clear s x i c o sh) {d : Opnd} {r : Aff} (hg : giveAff (issueCtx i x) s d r = .go g) :
    Plain s x g ∧ g.t.regs = x.st.regs ∧ g.t.seed = x.st.seed := by
  obtain ⟨ss, e⟩ := issueCtx_eq i x
  rw [e] at hg
  unfold giveAff at hg
  split at hg
  · next n part =>
    simp only [Res.go.injEq] at hg
    subst hg
    have hpath := stands_path h.1
    have key : ∀ f : Path → Path, setPath (withStalls ss x.st) x.pi f =
        { withStalls ss x.st with paths := setNth x.st.paths x.pi (f x.p) } := by
      intro f; simp only [setPath, withStalls, hpath]
    rw [key]
    refine ⟨⟨Outside.rfl' s, rfl, rfl, rfl, rfl, ?_, ⟨rfl, rfl, rfl, rfl, rfl, rfl, rfl⟩, ?_⟩, rfl, rfl⟩
    · simp only [lanesAt, setNth]
      rw [List.getElem?_set_self (List.getElem?_eq_some_iff.1 hpath).1]; rfl
    · intro d hd; exact absurd hd (by simp)
  · simp only [Res.go.injEq] at hg
    subst hg
    refine ⟨⟨Outside.rfl' s, rfl, rfl, rfl, rfl, stands_lanes h.1, ⟨rfl, rfl, rfl, rfl, rfl, rfl, rfl⟩, ?_⟩, rfl, rfl⟩
    intro d hd; exact absurd hd (by simp)

theorem got_giveAff (h : Clear s x i c o sh) {r : Aff} (hw : sh.d.wr = true) (hg : giveAff (issueCtx i x) s o.d r = .go g)
    (e : s' = applyGo s x i c sh o g) : GotAff s' x o.d r := by
  obtain ⟨hp, _, _⟩ := plain_giveAff h hg
  obtain ⟨⟨u, hs, hu⟩, _, _⟩ := plain_strand h.1 hp e
  refine ⟨u, hs, ?_⟩
  cases hd : o.d with
  | aff n part =>
    simp only
    have hpath := stands_path h.1
    have hq : g.t.paths[x.pi]? =
        some { x.p with aff := setNth x.p.aff n.val (affWrite (affReg x.p n.val) part r) } := by
      obtain ⟨ss, he⟩ := issueCtx_eq i x
      rw [he, hd] at hg
      simp only [giveAff, Res.go.injEq] at hg
      subst hg
      simp only [setPath, withStalls, hpath, setNth]
      rw [List.getElem?_set_self (List.getElem?_eq_some_iff.1 hpath).1]
    obtain ⟨q', h1, h2, _, h4⟩ := finish_path x c sh o g hp.moved _ hq
    refine ⟨q', by rw [hu.paths]; exact List.mem_of_getElem? h1, h2, ?_⟩
    intro hn
    rw [h4 n.val (by rw [hp.pends]; exact uncovered_aff h (affDest_written sh o n part hd hw))
      (fun d hd => (hp.pend d hd).2.2 _ _)]
    simp [affReg, nth, setNth, List.getElem?_set_self hn]
  | _ => trivial

end

end Sys2Proof.Machine
end

