-- ==== Sys2Proof/Laws/Completion.lean ====
section
/-! SUPPORT. From the body of a meaning to its result: what an instruction answers when its body gives a vector, a predicate
or an affine register. -/

namespace Sys2Proof.Machine

open Sys2Proof

variable {i : Instr} {c : Ctl} {o : Ops}

theorem stands_fields {s : State} {x : Ctx} {sh : Shape} (h : Stands s x i c o sh) :
    fieldsOf i = some (c, o) ∧ shape i = some sh := ⟨h.2.1, h.2.2.1⟩

theorem strand_rest (t : Strand) : t.convs = t.convs ∧ t.items = t.items ∧ t.marked = t.marked ∧ t.g = t.g ∧
    t.batchCtr = t.batchCtr ∧ t.openBatch = t.openBatch ∧ t.completed = t.completed :=
  ⟨rfl, rfl, rfl, rfl, rfl, rfl, rfl⟩

theorem giveVec_go (x : Ctx) (s : State) (t : Strand) (i : Instr) (c : Ctl) (d : Opnd) (w : Nat) (v : Nat → Nat) :
    ∃ g, giveVec x s t i c d w v = .go g := by
  unfold giveVec
  split
  · split <;> exact ⟨_, rfl⟩
  · exact ⟨_, rfl⟩

theorem givePred_go (x : Ctx) (s : State) (d : Opnd) (f : Nat → Bool) : ∃ g, givePred x s d f = .go g := by
  unfold givePred; split <;> exact ⟨_, rfl⟩

theorem giveAff_go (x : Ctx) (s : State) (d : Opnd) (r : Aff) : ∃ g, giveAff x s d r = .go g := by
  unfold giveAff; split <;> exact ⟨_, rfl⟩

/-- Strands that may differ in their seed and predicates. -/
structure LikeBefore (t u : Strand) (pi : Nat) : Prop where
  pends : u.pends = t.pends
  paths : u.paths = t.paths
  rest : u.convs = t.convs ∧ u.items = t.items ∧ u.marked = t.marked ∧ u.g = t.g ∧
    u.batchCtr = t.batchCtr ∧ u.openBatch = t.openBatch ∧ u.completed = t.completed

theorem likeBefore_rfl (t : Strand) (pi : Nat) : LikeBefore t t pi := ⟨rfl, rfl, strand_rest t⟩

theorem LikeBefore.trans {a b c : Strand} {pi : Nat} (h : LikeBefore a b pi) (k : LikeBefore b c pi) : LikeBefore a c pi := by
  obtain ⟨h1, h2, h3, h4, h5, h6, h7, h8, h9⟩ := h
  obtain ⟨k1, k2, k3, k4, k5, k6, k7, k8, k9⟩ := k
  exact ⟨k1.trans h1, k2.trans h2, k3.trans h3, k4.trans h4, k5.trans h5, k6.trans h6, k7.trans h7, k8.trans h8,
    k9.trans h9⟩

theorem likeBefore_seed (t : Strand) (r : Rnd) (pi : Nat) : LikeBefore t (withSeed t r) pi := by
  unfold withSeed; split
  · exact ⟨rfl, rfl, strand_rest t⟩
  · exact likeBefore_rfl t pi

theorem likeBefore_issueCtx (i : Instr) (x : Ctx) : LikeBefore x.st (issueCtx i x).st x.pi := by
  obtain ⟨ss, e⟩ := issueCtx_eq i x
  rw [e]; exact ⟨rfl, rfl, strand_rest x.st⟩

theorem issueCtx_tm (i : Instr) (x : Ctx) : (issueCtx i x).tm = x.tm := by
  obtain ⟨ss, e⟩ := issueCtx_eq i x
  rw [e]

/-- An instruction whose body gives a vector result from a context with the same lanes. -/
theorem vecResult_of {w : Nat} {v : Ctx → Nat → Nat} {body : Ctx → State → Res}
    (he : ∀ s, exec i s = ramson i body s)
    (hsh : ∀ sh, shape i = some sh → sh.d.wr = true ∧ w ≤ sh.d.vec)
    (y : Ctx → Ctx) (t : Ctx → Strand) (hy : ∀ x, (y x).tm = x.tm) (ht : ∀ x, LikeBefore x.st (t x) x.pi)
    (hb : ∀ s x sh, Clear s x i c o sh → body (issueCtx i x) s = giveVec (y x) s (t x) i c o.d w (v x)) :
    VecResult i c o w v := by
  intro s x sh h
  obtain ⟨g, hg⟩ := giveVec_go (y x) s (t x) i c o.d w (v x)
  have hl : lanesAt (t x) x.pi = some x.p.lanes := by rw [lanesAt_of_paths (ht x).paths]; exact stands_lanes h.1
  have hgo : body (issueCtx i x) s = .go g := (hb s x sh h).trans hg
  obtain ⟨hw, hv⟩ := hsh sh h.1.2.2.1
  refine ⟨_, (he s).trans (ramson_go h hgo), ?_, ?_⟩
  · exact got_giveVec h (hy x) (ht x).pends hl (ht x).rest hw hv hg rfl
  · exact plain_pc h.1 (plain_giveVec h (hy x) (ht x).pends hl (ht x).rest hg).1 rfl

/-- The common case: no rounding. -/
theorem vecResult_plain {w : Nat} {v : Ctx → Nat → Nat} {body : Ctx → State → Res}
    (he : ∀ s, exec i s = ramson i body s)
    (hsh : ∀ sh, shape i = some sh → sh.d.wr = true ∧ w ≤ sh.d.vec)
    (hb : ∀ s x sh, Clear s x i c o sh →
      body (issueCtx i x) s = giveVec (issueCtx i x) s (issueCtx i x).st i c o.d w (v x)) : VecResult i c o w v :=
  vecResult_of he hsh (issueCtx i) (fun x => (issueCtx i x).st) (issueCtx_tm i) (likeBefore_issueCtx i) hb

/-- The case of a rounding mode: the seed has advanced (R118). -/
theorem vecResult_seeded {w : Nat} {v : Ctx → Nat → Nat} {body : Ctx → State → Res} (r : Rnd)
    (he : ∀ s, exec i s = ramson i body s)
    (hsh : ∀ sh, shape i = some sh → sh.d.wr = true ∧ w ≤ sh.d.vec)
    (hb : ∀ s x sh, Clear s x i c o sh → body (issueCtx i x) s =
      giveVec (seeded (issueCtx i x) r) s (seeded (issueCtx i x) r).st i c o.d w (v x)) : VecResult i c o w v :=
  vecResult_of he hsh (fun x => seeded (issueCtx i x) r) (fun x => (seeded (issueCtx i x) r).st) (issueCtx_tm i)
    (fun x => LikeBefore.trans (likeBefore_issueCtx i x) (likeBefore_seed _ r _)) hb

theorem vecResult_congr {w : Nat} {v v' : Ctx → Nat → Nat} (h : VecResult i c o w v) (e : ∀ x l, v x l = v' x l) :
    VecResult i c o w v' := by
  have : v = v' := by funext x l; exact e x l
  exact this ▸ h

theorem predResult_of {f : Ctx → Nat → Bool} {body : Ctx → State → Res}
    (he : ∀ s (_ : ∃ u k, s.actor = .strand u k), exec i s = ramson i body s)
    (hb : ∀ s x sh, Clear s x i c o sh → body (issueCtx i x) s = givePred (issueCtx i x) s o.d (f x)) : PredResult i c o f := by
  intro s x sh h
  obtain ⟨g, hg⟩ := givePred_go (issueCtx i x) s o.d (f x)
  refine ⟨_, (he s ⟨_, _, h.1.1⟩).trans (ramson_go h ((hb s x sh h).trans hg)), got_givePred h hg rfl, ?_⟩
  exact plain_pc h.1 (plain_givePred h hg).1 rfl

theorem predResult_congr {f f' : Ctx → Nat → Bool} (h : PredResult i c o f) (e : ∀ x l, f x l = f' x l) :
    PredResult i c o f' := by
  have : f = f' := by funext x l; exact e x l
  exact this ▸ h

theorem affResult_of {r : Ctx → Aff} {body : Ctx → State → Res}
    (he : ∀ s (_ : ∃ u k, s.actor = .strand u k), exec i s = ramson i body s)
    (hsh : ∀ sh, shape i = some sh → sh.d.wr = true)
    (hb : ∀ s x sh, Clear s x i c o sh → body (issueCtx i x) s = giveAff (issueCtx i x) s o.d (r x)) : AffResult i c o r := by
  intro s x sh h
  obtain ⟨g, hg⟩ := giveAff_go (issueCtx i x) s o.d (r x)
  refine ⟨_, (he s ⟨_, _, h.1.1⟩).trans (ramson_go h ((hb s x sh h).trans hg)),
    got_giveAff h (hsh sh h.1.2.2.1) hg rfl, ?_⟩
  exact plain_pc h.1 (plain_giveAff h hg).1 rfl

theorem affResult_congr {r r' : Ctx → Aff} (h : AffResult i c o r) (e : ∀ x, r x = r' x) : AffResult i c o r' := by
  have : r = r' := by funext x; exact e x
  exact this ▸ h

/-- A strand's instruction that a span may execute too is issued as any other. -/
theorem ramsonS_strand {s : State} {body : Ctx → State → Res} {sp : State → SpanCtx → State}
    (h : ∃ u k, s.actor = .strand u k) : ramsonS i body sp s = ramson i body s := by
  obtain ⟨u, k, hu⟩ := h
  unfold ramsonS ramson
  rw [hu]

theorem one_le_words (t : Ty) : 1 ≤ t.words := by cases t <;> decide

/-! ## The frame of an instruction whose whole effect is on registers -/

/-- What an issue brings that changes registers of its strand only. -/
structure RegGo (s : State) (x : Ctx) (i : Instr) (c : Ctl) (o : Ops) (sh : Shape) (g : Go) : Prop where
  plain : Plain s x g
  regs : ∀ n l, l < 32 → (n ∉ regsOf (vecNames (writesOf sh o)) ∨ lane x.tm l = false) → SameReg x.st g.t n l
  preds : ∀ n, n ∉ predsWritten i o → nth g.t.preds n 0 = nth x.st.preds n 0
  bare : g.t.paths.map Path.bare = x.st.paths.map Path.bare
  affs : ∀ j n, (j = x.pi → n ∉ affsWritten o) → affAt g.t j n = affAt x.st j n
  seed : movesSeed i = false → g.t.seed = x.st.seed

/-- The paths of a strand after an issue that leaves the PC to move on by itself. -/
theorem finish_paths (x : Ctx) (c : Ctl) (sh : Shape) (o : Ops) (g : Go) (hm : g.moved = false) (j : Nat) (q : Path)
    (hq : g.t.paths[j]? = some q) : ∃ q', (finish x c sh o g).paths[j]? = some q' ∧ q'.lanes = q.lanes ∧ q'.st = q.st ∧
      q'.limit = q.limit ∧ q'.stack = q.stack ∧ (j ≠ x.pi → q'.pc = q.pc) ∧
      ∀ n, (∀ d ∈ g.t.pends, coversAff d n q.lanes = false) → (∀ d, g.pend = some d → coversAff d n q.lanes = false) →
        affReg q' n = affReg q n := by
  obtain ⟨a, b, e⟩ := finish_eq x c sh o g
  have hb : (beforeSettle x c sh o g).paths[j]? = some q := by rw [beforeSettle_paths]; exact hq
  have hl : lanesAt (beforeSettle x c sh o g) j = some q.lanes := by simp [lanesAt, hb]
  have hal := (alike_settle (beforeSettle x c sh o g)).paths
  have hbare : ((settle (beforeSettle x c sh o g)).paths[j]?).map Path.bare = some q.bare := by
    rw [← List.getElem?_map, hal, List.getElem?_map, hb]; rfl
  cases hu : (settle (beforeSettle x c sh o g)).paths[j]? with
  | none => simp [hu] at hbare
  | some u =>
    rw [hu] at hbare
    simp only [Option.map_some, Option.some.injEq, Path.bare, Path.mk.injEq] at hbare
    obtain ⟨b1, b2, b3, b4, b5, _⟩ := hbare
    have haff : ∀ n, (∀ d ∈ g.t.pends, coversAff d n q.lanes = false) →
        (∀ d, g.pend = some d → coversAff d n q.lanes = false) → affReg u n = affReg q n := by
      intro n h1 h2
      have h3 := affAt_settle (beforeSettle x c sh o g) j n q.lanes hl (by
        intro d hd
        rcases beforeSettle_pends x c sh o g d hd with ⟨d', hd', hs⟩ | h
        · rw [samePend_coversAff hs]; exact h1 d' hd'
        · exact h2 d h)
      simpa only [affAt, hu, hb, Option.map_some, Option.some.injEq] using h3
    rw [e]
    simp only [hm, Bool.false_eq_true, if_false]
    by_cases hj : j = x.pi
    · subst hj
      refine ⟨{ u with pc := x.p.pc + 12 }, ?_, b2, b3, b4, b5, fun h => absurd rfl h, haff⟩
      simp only [setPath, unstall_paths, hu, setNth]
      rw [List.getElem?_set_self (List.getElem?_eq_some_iff.1 hu).1]
    · refine ⟨u, ?_, b2, b3, b4, b5, fun _ => b1, haff⟩
      simp only [setPath, unstall_paths, setNth]
      split
      · simp only; rw [List.getElem?_set_ne (fun h => hj h.symm)]; exact hu
      · exact hu

theorem finish_length (x : Ctx) (c : Ctl) (sh : Shape) (o : Ops) (g : Go) :
    (finish x c sh o g).paths.length = g.t.paths.length := by
  obtain ⟨a, b, e⟩ := finish_eq x c sh o g
  have hal := congrArg List.length (alike_settle (beforeSettle x c sh o g)).paths
  simp only [List.length_map] at hal
  rw [e]
  simp only
  split
  · show (settle (beforeSettle x c sh o g)).paths.length = _
    rw [hal, beforeSettle_paths]
  · simp only [setPath, unstall_paths, setNth]
    split
    · simp only [List.length_set]; rw [hal, beforeSettle_paths]
    · rw [unstall_paths, hal, beforeSettle_paths]

/-- All of the frame at once. -/
theorem frame_of {s : State} {x : Ctx} {sh : Shape} {g : Go} (h : Clear s x i c o sh) (hg : RegGo s x i c o sh g) :
    let s' := applyGo s x i c sh o g
    Outside s s' ∧ OtherStrands s s' x.uid x.k ∧ PcPast s' x ∧ RegsKept s' x c sh o ∧ RestKept s' x (movesSeed i) ∧
      PredsKept s' x (predsWritten i o) ∧ PathsKept s' x (affsWritten o) := by
  intro s'
  obtain ⟨⟨u, ht, hu⟩, h2, h3⟩ := plain_strand h.1 hg.plain (s' := s') rfl
  refine ⟨h2, h3, plain_pc h.1 hg.plain rfl, plain_regs h.1 hg.plain rfl hg.regs, plain_rest h.1 hg.plain rfl _ hg.seed,
    ⟨u, ht, ?_⟩, ⟨u, ht, ?_, ?_⟩⟩
  · intro n hn
    rw [hu.preds, (finish_rest x c sh o g).1]; exact hg.preds n hn
  · rw [hu.paths, finish_length]
    have := congrArg List.length hg.bare
    simpa using this
  · intro j p hp
    have hb : (g.t.paths[j]?).map Path.bare = some p.bare := by
      rw [← List.getElem?_map, hg.bare, List.getElem?_map, hp]; rfl
    cases hq : g.t.paths[j]? with
    | none => simp [hq] at hb
    | some q =>
      rw [hq] at hb
      simp only [Option.map_some, Option.some.injEq, Path.bare, Path.mk.injEq] at hb
      obtain ⟨b1, b2, b3, b4, b5, _⟩ := hb
      obtain ⟨q', k1, k2, k3, k4, k5, k6, k7⟩ := finish_paths x c sh o g hg.plain.moved j q hq
      refine ⟨q', by rw [hu.paths]; exact k1, k2.trans b2, k3.trans b3, k4.trans b4, k5.trans b5,
        fun hj => (k6 hj).trans b1, ?_⟩
      intro n hn hc
      have ha := hg.affs j n hn
      simp only [affAt, hq, hp, Option.map_some, Option.some.injEq] at ha
      rw [← ha]
      refine k7 n ?_ (fun d hd => (hg.plain.pend d hd).2.2 _ _)
      rw [hg.plain.pends, b2]; exact hc

theorem not_mem_dest {sh : Shape} {d : Opnd} {n : Nat} (hd : o.d = d) (hw : sh.d.wr = true) {m : Fin 256} (hm : d = .vec m)
    (hn : n ∉ regsOf (vecNames (writesOf sh o))) {w : Nat} (hv : w ≤ sh.d.vec) : n < m.val ∨ m.val + w ≤ n := by
  refine Classical.byContradiction fun hc => ?_
  have hj : n - m.val < sh.d.vec := by omega
  have := dest_written sh o m sh.d.vec (n - m.val) (hd.trans hm) hw rfl hj
  rw [show m.val + (n - m.val) = n by omega] at this
  exact hn this

theorem regGo_giveVec {s : State} {x y : Ctx} {sh : Shape} {g : Go} {t : Strand} {w : Nat} {v : Nat → Nat}
    (h : Clear s x i c o sh) (hy : y.tm = x.tm) (ht : LikeBefore x.st t x.pi) (hr : t.regs = x.st.regs)
    (hw : sh.d.wr = true) (hv : w ≤ sh.d.vec) (hp : ∀ n, n ∉ predsWritten i o → nth t.preds n 0 = nth x.st.preds n 0)
    (hsd : movesSeed i = false → t.seed = x.st.seed) (hg : giveVec y s t i c o.d w v = .go g) : RegGo s x i c o sh g := by
  have hl : lanesAt t x.pi = some x.p.lanes := by rw [lanesAt_of_paths ht.paths]; exact stands_lanes h.1
  obtain ⟨p1, p2, p3⟩ := plain_giveVec h hy ht.pends hl ht.rest hg
  refine ⟨p1, ?_, ?_, ?_, ?_, ?_⟩
  · intro n l hl' hn
    refine SameReg.trans (SameReg.of_regs hr n l) (p3 n l hl' ?_)
    rcases hn with hn | hn
    · right
      cases hd : o.d with
      | vec m => exact not_mem_dest hd hw rfl hn hv
      | _ => trivial
    · exact .inl hn
  · intro n hn; rw [p2.preds]; exact hp n hn
  · rw [p2.paths, ht.paths]
  · intro j n _
    have : g.t.paths = t.paths := by
      unfold giveVec at hg
      split at hg
      · split at hg
        · simp only [Res.go.injEq] at hg; subst hg; exact writeGroup_paths w t _ y.tm v
        · simp only [fresh, Res.go.injEq] at hg; subst hg; rfl
      · simp only [Res.go.injEq] at hg; subst hg; rfl
    rw [affAt_of_paths this, affAt_of_paths ht.paths]
  · intro hs; rw [p2.seed]; exact hsd hs

theorem regGo_givePred {s : State} {x : Ctx} {sh : Shape} {g : Go} {f : Nat → Bool} (h : Clear s x i c o sh)
    (hg : givePred (issueCtx i x) s o.d f = .go g) : RegGo s x i c o sh g := by
  obtain ⟨p1, p2, p3⟩ := plain_givePred h hg
  obtain ⟨ss, e⟩ := issueCtx_eq i x
  rw [e] at hg
  have hpaths : g.t.paths = x.st.paths := by
    unfold givePred at hg
    split at hg
    · simp only [Res.go.injEq] at hg; subst hg; exact (writePred_alike (withStalls ss x.st) _ x.tm f).2.2.1
    · simp only [Res.go.injEq] at hg; subst hg; rfl
  refine ⟨p1, fun n l _ _ => SameReg.of_regs p2 n l, ?_, by rw [hpaths], fun j n _ => affAt_of_paths hpaths j n, fun _ => p3⟩
  intro n hn
  unfold givePred at hg
  split at hg
  · next m hd =>
    simp only [Res.go.injEq] at hg; subst hg
    simp only [predsWritten, hd, List.mem_append, List.mem_singleton, not_or] at hn
    unfold writePred
    split
    · rfl
    · simp only [nth, setNth]; rw [List.getElem?_set_ne (fun h => hn.1 h.symm)]; rfl
  · simp only [Res.go.injEq] at hg; subst hg; rfl

theorem regGo_giveAff {s : State} {x : Ctx} {sh : Shape} {g : Go} {r : Aff} (h : Clear s x i c o sh)
    (hg : giveAff (issueCtx i x) s o.d r = .go g) : RegGo s x i c o sh g := by
  obtain ⟨p1, p2, p3⟩ := plain_giveAff h hg
  have hpath := stands_path h.1
  obtain ⟨ss, e⟩ := issueCtx_eq i x
  rw [e] at hg
  unfold giveAff at hg
  split at hg
  · next m part hd =>
    simp only [Res.go.injEq] at hg; subst hg
    refine ⟨p1, fun n l _ _ => SameReg.of_regs p2 n l, ?_, ?_, ?_, fun _ => p3⟩
    · intro n _; simp only [setPath, withStalls, hpath]
    · simp only [setPath, withStalls, hpath, setNth]
      apply List.ext_getElem?
      intro j
      by_cases hj : j = x.pi
      · subst hj
        simp only [List.getElem?_map]
        rw [List.getElem?_set_self (List.getElem?_eq_some_iff.1 hpath).1, hpath]
        rfl
      · simp only [List.getElem?_map]; rw [List.getElem?_set_ne (fun h => hj h.symm)]
    · intro j n hn
      simp only [affAt, setPath, withStalls, hpath, setNth]
      by_cases hj : j = x.pi
      · subst hj
        rw [List.getElem?_set_self (List.getElem?_eq_some_iff.1 hpath).1, hpath]
        have hn' := hn rfl
        simp only [affsWritten, hd, List.mem_singleton] at hn'
        simp only [Option.map_some, Option.some.injEq]
        exact affReg_setNth_other x.p _ (fun h => hn' h.symm)
      · rw [List.getElem?_set_ne (fun h => hj h.symm)]
  · simp only [Res.go.injEq] at hg; subst hg
    exact ⟨p1, fun n l _ _ => SameReg.rfl' _ n l, fun _ _ => rfl, rfl, fun _ _ _ => rfl, fun _ => rfl⟩

end Sys2Proof.Machine
end

