-- ==== Sys2Proof/Laws/Gates.lean ====
section
/-! SUPPORT. Every Ramson instruction of a strand goes through one gate; what the gate and the shared ways to stop leave. -/

namespace Sys2Proof.Machine

open Sys2Proof

theorem ramson_strand {s : State} {x : Ctx} {i : Instr} {c : Ctl} {o : Ops} {sh : Shape} {body : Ctx → State → Res}
    (h : Stands s x i c o sh) : ramson i body s = .next (gate s x i c sh o body) := by
  obtain ⟨ha, hf, hs, hc⟩ := h
  simp only [ramson, ha, issueStrand, hf, hs, hc]

theorem ramsonS_gate {s : State} {x : Ctx} {i : Instr} {c : Ctl} {o : Ops} {sh : Shape} {body : Ctx → State → Res}
    {sp : State → SpanCtx → State} (h : Stands s x i c o sh) : ramsonS i body sp s = .next (gate s x i c sh o body) := by
  obtain ⟨ha, hf, hs, hc⟩ := h
  simp only [ramsonS, ha, issueStrand, hf, hs, hc]

/-- One gate for every instruction of a strand: its meaning is a body behind it. -/
theorem exec_strand {s : State} {x : Ctx} {i : Instr} {c : Ctl} {o : Ops} {sh : Shape} (h : Stands s x i c o sh) :
    ∃ body, exec i s = .next (gate s x i c sh o body) := by
  cases i
  case nop => refine ⟨?_, ?_⟩; rotate_left; show execNop _ _ _ = _; unfold execNop; exact ramsonS_gate h
  case amov => refine ⟨?_, ?_⟩; rotate_left; show execAmov _ _ _ = _; unfold execAmov; exact ramsonS_gate h
  case mov => refine ⟨?_, ?_⟩; rotate_left; show execMov _ _ _ _ = _; unfold execMov; exact ramsonS_gate h
  all_goals first
    | (cases h.2.1; done)
    | exact ⟨_, ramson_strand h⟩
    | exact ⟨_, ramsonS_gate h⟩

end Sys2Proof.Machine
end

