-- ==== Sys2Proof/Laws/Memory.lean ====
section
/-! SUPPORT. Every operation over memory keeps its canonical form: the writes at a home, the stores on their way, the L2 and the
L1s, the accesses of a core, and what the barriers and orders of an access do around them. -/

namespace Sys2Proof.Machine

open Sys2Proof

theorem memoryInv_iff (s : State) : MemoryInv s ↔
    cellsWf 0 s.mem = true ∧ cellsWf 0 s.hostMem = true ∧ cellsWf 0 s.peerMem = true := by
  simp [MemoryInv, Memory.wf, and_assoc]

theorem memoryInv_reset : MemoryInv State.reset := rfl

/-- Only the three memories matter. -/
theorem memoryInv_of_same {s t : State} (h1 : t.mem = s.mem) (h2 : t.hostMem = s.hostMem) (h3 : t.peerMem = s.peerMem)
    (h : MemoryInv s) : MemoryInv t := by
  rw [memoryInv_iff] at h ⊢; rw [h1, h2, h3]; exact h

/-- A fold of steps that keep the form keeps it. -/
theorem memoryInv_foldl {α : Type} (f : State → α → State) (hf : ∀ s a, MemoryInv s → MemoryInv (f s a)) (l : List α) :
    ∀ s, MemoryInv s → MemoryInv (l.foldl f s) := by
  induction l with
  | nil => exact fun _ h => h
  | cons a l ih => exact fun s h => ih _ (hf s a h)

/-- A fold of steps that leave the memories alone leaves them alone. -/
theorem mems_foldl {α : Type} (f : State → α → State)
    (hf : ∀ s a, (f s a).mem = s.mem ∧ (f s a).hostMem = s.hostMem ∧ (f s a).peerMem = s.peerMem) (l : List α) :
    ∀ s, (l.foldl f s).mem = s.mem ∧ (l.foldl f s).hostMem = s.hostMem ∧ (l.foldl f s).peerMem = s.peerMem := by
  induction l with
  | nil => exact fun _ => ⟨rfl, rfl, rfl⟩
  | cons a l ih =>
    intro s
    obtain ⟨h1, h2, h3⟩ := ih (f s a)
    obtain ⟨g1, g2, g3⟩ := hf s a
    exact ⟨h1.trans g1, h2.trans g2, h3.trans g3⟩

/-! ## Updates of other fields -/

theorem memoryInv_setCore {s : State} (c : Nat) (f : Core → Core) (h : MemoryInv s) : MemoryInv (setCore s c f) := h
theorem memoryInv_setUnit {s : State} (u : Nat) (f : WUnit → WUnit) (h : MemoryInv s) : MemoryInv (setUnit s u f) := h
theorem memoryInv_setPart {s : State} (p : Nat) (f : Partition → Partition) (h : MemoryInv s) :
    MemoryInv (setPart s p f) := h

/-! ## The L2 -/

theorem chargeSector_mems (s : State) (b : Bool) (sec i : Nat) :
    (chargeSector s b sec i).mem = s.mem ∧ (chargeSector s b sec i).hostMem = s.hostMem ∧
      (chargeSector s b sec i).peerMem = s.peerMem := by
  unfold chargeSector
  split
  · split <;> exact ⟨rfl, rfl, rfl⟩
  · exact ⟨rfl, rfl, rfl⟩

theorem chargeL2_mems (s : State) (b : Bool) (sec : Nat) :
    (chargeL2 s b sec).mem = s.mem ∧ (chargeL2 s b sec).hostMem = s.hostMem ∧ (chargeL2 s b sec).peerMem = s.peerMem := by
  unfold chargeL2
  split
  · split <;> exact ⟨rfl, rfl, rfl⟩
  · exact ⟨rfl, rfl, rfl⟩

theorem l2Drop_mems (s : State) (p : Nat → Bool) :
    (l2Drop s p).mem = s.mem ∧ (l2Drop s p).hostMem = s.hostMem ∧ (l2Drop s p).peerMem = s.peerMem :=
  mems_foldl (fun s (e : Nat × L2Sector) => chargeSector s e.2.counted e.1 3) (fun s e => chargeSector_mems s e.2.counted e.1 3)
    (s.l2.filter (fun e => e.2.dirty && p e.1)) s

theorem l2Room_mems (s : State) (sec : Nat) :
    (l2Room s sec).mem = s.mem ∧ (l2Room s sec).hostMem = s.hostMem ∧ (l2Room s sec).peerMem = s.peerMem := by
  unfold l2Room
  dsimp only
  split
  · exact ⟨rfl, rfl, rfl⟩
  · exact l2Drop_mems (freeVal s).2 _

theorem l2Touch_mems (s : State) (b : Bool) (pa n : Nat) (w : Bool) :
    (l2Touch s b pa n w).mem = s.mem ∧ (l2Touch s b pa n w).hostMem = s.hostMem ∧
      (l2Touch s b pa n w).peerMem = s.peerMem := by
  refine mems_foldl _ (fun s sec => ?_) _ s
  dsimp only
  have hk := chargeL2_mems s b sec
  generalize chargeL2 s b sec = u at hk ⊢
  split
  · split <;> exact hk
  · obtain ⟨r1, r2, r3⟩ := l2Room_mems u sec
    split
    · exact ⟨r1.trans hk.1, r2.trans hk.2.1, r3.trans hk.2.2⟩
    · obtain ⟨c1, c2, c3⟩ := chargeSector_mems (l2Room u sec) b sec 2
      exact ⟨(c1.trans r1).trans hk.1, (c2.trans r2).trans hk.2.1, (c3.trans r3).trans hk.2.2⟩

@[simp] theorem l2Touch_mem (s : State) (b : Bool) (pa n : Nat) (w : Bool) : (l2Touch s b pa n w).mem = s.mem :=
  (l2Touch_mems s b pa n w).1

theorem memoryInv_l2Touch {s : State} (b : Bool) (pa n : Nat) (w : Bool) (h : MemoryInv s) :
    MemoryInv (l2Touch s b pa n w) :=
  have g := l2Touch_mems s b pa n w
  memoryInv_of_same g.1 g.2.1 g.2.2 h

theorem memoryInv_l2Drop {s : State} (p : Nat → Bool) (h : MemoryInv s) : MemoryInv (l2Drop s p) :=
  have g := l2Drop_mems s p
  memoryInv_of_same g.1 g.2.1 g.2.2 h

/-! ## Homes -/

/-- A write at a home keeps the form of every memory. -/
theorem memoryInv_writeHome {s : State} (b : Bool) (loc : Loc) (bs : List Byte) (h : MemoryInv s) :
    MemoryInv (writeHome s b loc bs) := by
  rw [memoryInv_iff] at h ⊢
  obtain ⟨h1, h2, h3⟩ := h
  cases loc with
  | mem pa =>
    have g := l2Touch_mems s b pa bs.length true
    exact ⟨cellsWf_putBytes bs _ _ h1, by simpa [writeHome, g.2.1] using h2, by simpa [writeHome, g.2.2] using h3⟩
  | host io => exact ⟨h1, cellsWf_putBytes bs _ _ h2, h3⟩
  | peer i v ipa => exact ⟨h1, h2, cellsWf_putBytes bs _ _ h3⟩
  | scratch o => exact ⟨h1, h2, h3⟩

/-- What a write at a memory home leaves at every address. -/
theorem writeHome_mem_get (s : State) (b : Bool) (pa a : Nat) (bs : List Byte) (h : MemoryInv s) :
    cellGet (writeHome s b (.mem pa) bs).mem a =
      if pa ≤ a ∧ a < pa + bs.length then (bs[a - pa]?).getD 0 else cellGet s.mem a :=
  cellGet_putBytes bs s.mem pa a ((memoryInv_iff s).1 h).1

theorem memoryInv_touchHome {s : State} (b : Bool) (loc : Loc) (n : Nat) (w : Bool) (h : MemoryInv s) :
    MemoryInv (touchHome s b loc n w) := by
  cases loc <;> first | exact memoryInv_l2Touch b _ n w h | exact h

theorem memoryInv_performSends {s : State} (p : Send → Bool) (h : MemoryInv s) :
    MemoryInv (performSends s p) :=
  memoryInv_foldl _ (fun _ x h => memoryInv_writeHome x.counted x.loc x.data h) _ _ h

theorem memoryInv_forceLine {s : State} (core : Nat) (loc : Loc) (h : MemoryInv s) :
    MemoryInv (forceLine s core loc) := memoryInv_performSends _ h

/-! ## The L1 -/

theorem memoryInv_l1WriteBack {s : State} (core : Nat) (p : Nat → Bool) (h : MemoryInv s) :
    MemoryInv (l1WriteBack s core p) := by
  unfold l1WriteBack
  dsimp only
  split
  · exact h
  · exact memoryInv_setCore _ _ (memoryInv_foldl _ (fun _ e h => memoryInv_writeHome e.2.counted (.mem e.1) [e.2.val] h) _ _
      (memoryInv_performSends _ h))

theorem memoryInv_l1Invalidate {s : State} (core : Nat) (p : Nat → Bool) (h : MemoryInv s) :
    MemoryInv (l1Invalidate s core p) := by
  unfold l1Invalidate; split <;> exact h

theorem memoryInv_releaseCore {s : State} (core : Nat) (h : MemoryInv s) : MemoryInv (releaseCore s core) :=
  memoryInv_l1WriteBack core _ (memoryInv_performSends _ h)

theorem memoryInv_acquireCore {s : State} (core : Nat) (h : MemoryInv s) : MemoryInv (acquireCore s core) :=
  memoryInv_l1Invalidate core _ h

theorem memoryInv_l1Refresh {s : State} (core : Nat) (p : Nat → Bool) (h : MemoryInv s) :
    MemoryInv (l1Refresh s core p) := by
  unfold l1Refresh; split <;> exact h

theorem memoryInv_l1Drop {s : State} (core : Nat) (p : Nat → Bool) (h : MemoryInv s) :
    MemoryInv (l1Drop s core p) := memoryInv_setCore _ _ (memoryInv_l1WriteBack core p h)

theorem memoryInv_l1Evict {s : State} (core : Nat) (w pa : Nat) (h : MemoryInv s) :
    MemoryInv (l1Evict s core w pa) := by
  unfold l1Evict
  split
  · exact memoryInv_l1Drop core _ h
  · exact h

theorem memoryInv_l1Leave {s : State} (core : Nat) (v : Nat) (h : MemoryInv s) :
    MemoryInv (l1Leave s core v) := by
  unfold l1Leave
  dsimp only
  split
  · exact memoryInv_setCore _ _ h
  · exact memoryInv_l1Drop core _ h

theorem memoryInv_l1Room {s : State} (core : Nat) (h : MemoryInv s) : MemoryInv (l1Room s core) := by
  unfold l1Room
  dsimp only
  split
  · exact h
  · exact memoryInv_l1Leave (s := (freeVal s).2) core _ h

theorem memoryInv_l1Place {s : State} (core : Nat) (w pa : Nat) (h : MemoryInv s) :
    MemoryInv (l1Place s core w pa) := by
  unfold l1Place
  dsimp only
  split
  · exact memoryInv_l1Evict core w pa h
  · exact memoryInv_l1Room core (memoryInv_l1Evict core w pa h)

theorem memoryInv_l1FillSector {s : State} (core : Nat) (b : Bool) (w sec : Nat) (h : MemoryInv s) :
    MemoryInv (l1FillSector core b w s sec) := by
  unfold l1FillSector
  dsimp only
  split
  · exact h
  · exact memoryInv_setCore _ _ (memoryInv_l2Touch b _ _ _ (memoryInv_l1Place core w _ (memoryInv_forceLine core _ h)))

theorem memoryInv_l1Fill {s : State} (core : Nat) (b : Bool) (w pa n : Nat) (h : MemoryInv s) :
    MemoryInv (l1Fill s core b w pa n) :=
  memoryInv_foldl _ (fun _ sec h => memoryInv_l1FillSector core b w sec h) _ _ h

theorem memoryInv_l1Read {s : State} (core : Nat) (b : Bool) (w pa n : Nat) (h : MemoryInv s) :
    MemoryInv (l1Read s core b w pa n).2 := by
  unfold l1Read
  dsimp only
  split
  · exact h
  · exact memoryInv_l1Fill core b w pa n h

theorem memoryInv_l1Write {s : State} (core : Nat) (b : Bool) (w pa : Nat) (bs : List Byte) (h : MemoryInv s) :
    MemoryInv (l1Write s core b w pa bs) :=
  memoryInv_setCore _ _ (memoryInv_l1Place core w _ h)

/-! ## Accesses of a core -/

theorem memoryInv_scratchPut {s : State} (uid o : Nat) (bs : List Byte) (h : MemoryInv s) :
    MemoryInv (scratchPut s uid o bs) := h

theorem memoryInv_weakRead {s : State} (x : Who) (loc : Loc) (n : Nat) (h : MemoryInv s) :
    MemoryInv (weakRead s x loc n).2 := by
  cases loc with
  | mem pa => exact memoryInv_l1Read _ _ _ pa n h
  | scratch o => exact h
  | host io => exact memoryInv_forceLine _ _ h
  | peer i v ipa => exact memoryInv_forceLine _ _ h

theorem memoryInv_weakWrite {s : State} (x : Who) (loc : Loc) (bs : List Byte) (h : MemoryInv s) :
    MemoryInv (weakWrite s x loc bs) := by
  cases loc with
  | mem pa => exact memoryInv_l1Write _ _ _ pa bs h
  | scratch o => exact h
  | host io => exact memoryInv_writeHome _ _ _ (memoryInv_forceLine _ _ h)
  | peer i v ipa => exact memoryInv_writeHome _ _ _ (memoryInv_forceLine _ _ h)

theorem memoryInv_strongRead {s : State} (x : Who) (loc : Loc) (n : Nat) (h : MemoryInv s) :
    MemoryInv (strongRead s x loc n).2 := by
  cases loc with
  | mem pa =>
    exact memoryInv_l1Refresh _ _ (memoryInv_l2Touch _ _ _ _
      (memoryInv_l1WriteBack _ _ (memoryInv_l1Evict _ _ _ (memoryInv_forceLine _ _ h))))
  | scratch o => exact h
  | host io => exact memoryInv_weakRead x _ n h
  | peer i v ipa => exact memoryInv_weakRead x _ n h

theorem memoryInv_forceBefore {s : State} (x : Who) (loc : Loc) (h : MemoryInv s) : MemoryInv (forceBefore s x loc) :=
  memoryInv_performSends _ h

theorem memoryInv_strongWrite {s : State} (x : Who) (loc : Loc) (bs : List Byte) (now : Bool) (h : MemoryInv s) :
    MemoryInv (strongWrite s x loc bs now) := by
  cases loc with
  | scratch o => exact h
  | mem pa =>
    have g := memoryInv_l1WriteBack x.core (inSectors pa bs.length)
      (memoryInv_l1Evict x.core x.world pa h)
    simp only [strongWrite]
    split
    · exact memoryInv_writeHome _ _ _ (memoryInv_forceBefore _ _ (memoryInv_setCore _ _ g))
    · exact memoryInv_setCore x.core (fun c => { c with l1 := updBytes c.l1 pa bs }) g
  | host io =>
    simp only [strongWrite]
    split
    · exact memoryInv_writeHome _ _ _ (memoryInv_forceBefore _ _ h)
    · exact h
  | peer i v ipa =>
    simp only [strongWrite]
    split
    · exact memoryInv_writeHome _ _ _ (memoryInv_forceBefore _ _ h)
    · exact h

theorem memoryInv_writeOption {s : State} (b : Bool) (loc : Loc) (o : Option (List Byte)) (h : MemoryInv s) :
    MemoryInv (match o with | some bs => writeHome s b loc bs | none => s) := by
  cases o with
  | none => exact h
  | some bs => exact memoryInv_writeHome b loc bs h

theorem memoryInv_rmw {s : State} (x : Who) (loc : Loc) (n : Nat) (f : List Byte → Option (List Byte)) (h : MemoryInv s) :
    MemoryInv (rmw s x loc n f).2 := by
  cases loc with
  | scratch o =>
    show MemoryInv (match f (scratchGet s x.uid o n) with | some bs => scratchPut s x.uid o bs | none => s)
    split <;> exact h
  | mem pa =>
    exact memoryInv_writeOption _ _ _ (memoryInv_touchHome _ _ _ _
      (memoryInv_l1Invalidate _ _ (memoryInv_l1WriteBack _ _ (memoryInv_forceBefore _ _ h))))
  | host io => exact memoryInv_writeOption _ _ _ (memoryInv_touchHome _ _ _ _ (memoryInv_forceBefore _ _ h))
  | peer i v ipa => exact memoryInv_writeOption _ _ _ (memoryInv_touchHome _ _ _ _ (memoryInv_forceBefore _ _ h))

/-! ## What an order does around an access -/

theorem memoryInv_promoteJob {s : State} (r : JobRef) (h : MemoryInv s) : MemoryInv (promoteJob s r) :=
  memoryInv_foldl _ (fun _ c h => memoryInv_releaseCore c h) _ _ h

theorem memoryInv_beforeAccess {s : State} (w : Who) (job : JobRef) (a : Acc) (loc : Loc) (h : MemoryInv s) :
    MemoryInv (beforeAccess s w job a loc) := by
  have g : MemoryInv (if a.promote && a.wide loc then promoteJob s job else s) := by
    split
    · exact memoryInv_promoteJob _ h
    · exact h
  unfold beforeAccess
  dsimp only
  split
  · exact memoryInv_releaseCore _ g
  · exact g

theorem memoryInv_afterAccess {s : State} (w : Who) (a : Acc) (loc : Loc) (h : MemoryInv s) :
    MemoryInv (afterAccess s w a loc) := by
  unfold afterAccess
  split
  · exact memoryInv_acquireCore _ h
  · exact h

end Sys2Proof.Machine
end

