-- ==== Sys2Proof/Laws/PerInstr.lean ====
section
/-! SUPPORT. What is shown of every instruction as syntax: the operation number and the modifier bits that the encoder writes
are the ones from which the decoder makes the instruction. -/

namespace Sys2Proof.Laws.Parses

open Sys2Proof Sys2Proof.Machine

/-- The modifiers of an instruction with legal ones survive the encoding tables. -/
def Statement (i : Instr) : Prop :=
  ∀ c o op sh, fieldsOf i = some (c, o) → opcode i = some op → shape i = some sh → sh.mods = true →
    modBits i < 256 ∧ op < 1024 ∧ parseOp op (modBits i) c o = some (sameWord i)

/-! ## Codes and fields -/

theorem tyCode_lt (t : Ty) : tyCode t < 27 := by cases t <;> decide
theorem rndCode_lt (r : Rnd) : rndCode r < 5 := by cases r <;> decide
theorem condCode_lt (q : Cond) : condCode q < 6 := by cases q <;> decide
theorem fcondCode_lt (q : FCond) : fcondCode q < 8 := by cases q <;> decide
theorem bmixCode_lt (f : BmixFn) : bmixCode f < 8 := by cases f <;> decide
theorem bselCode_lt (m : BselMode) : bselCode m < 3 := by cases m <;> decide
theorem paggCode_lt (m : PaggMode) : paggCode m < 5 := by cases m <;> decide
theorem xchCode_lt (m : XchMode) : xchCode m < 5 := by cases m <;> decide
theorem atomCode_lt (f : AtomFn) : atomCode f < 7 := by cases f <;> decide
theorem b2n_lt (b : Bool) : b2n b < 2 := by cases b <;> decide

@[simp] theorem tyOf_tyCode (t : Ty) : tyOf (tyCode t) = some t := by cases t <;> rfl
@[simp] theorem rndOf_rndCode (r : Rnd) : rndOf (rndCode r) = some r := by cases r <;> rfl
@[simp] theorem rndOf_zero : rndOf 0 = some .rne := rfl
@[simp] theorem condOf_condCode (q : Cond) : condOf (condCode q) = some q := by cases q <;> rfl
@[simp] theorem fcondOf_fcondCode (q : FCond) : fcondOf (fcondCode q) = some q := by cases q <;> rfl
@[simp] theorem bmixOf_bmixCode (f : BmixFn) : bmixOf (bmixCode f) = some f := by cases f <;> rfl
@[simp] theorem bselOf_bselCode (m : BselMode) : bselOf (bselCode m) = some m := by cases m <;> rfl
@[simp] theorem paggOf_paggCode (m : PaggMode) : paggOf (paggCode m) = some m := by cases m <;> rfl
@[simp] theorem xchOf_xchCode (m : XchMode) : xchOf (xchCode m) = some m := by cases m <;> rfl
@[simp] theorem atomOf_atomCode (f : AtomFn) : atomOf (atomCode f) = some f := by cases f <;> rfl

/-! ## The constructors -/

theorem iadd (c : Ctl) (t : Ty) (sat : Bool) (o : Ops) : Statement (.iadd c t sat o) := by
  intro _ _ _ _ hf ho hs hm; cases hf; cases ho
  have := tyCode_lt t; have := b2n_lt sat
  refine ⟨?_, Nat.le_of_ble_eq_true rfl, ?_⟩
  · show tyCode t + 32 * b2n sat < 256; omega
  · show parse0 0 (tyCode t + 32 * b2n sat) c o = some (.iadd c t sat o)
    have h0 : (tyCode t + 32 * b2n sat) % 32 = tyCode t := by omega
    have hbsat : bitAt (tyCode t + 32 * b2n sat) 5 = sat := by cases sat <;> simp [bitAt, b2n] <;> omega
    simp [parse0, h0, hbsat]
theorem isub (c : Ctl) (t : Ty) (sat : Bool) (o : Ops) : Statement (.isub c t sat o) := by
  intro _ _ _ _ hf ho hs hm; cases hf; cases ho
  have := tyCode_lt t; have := b2n_lt sat
  refine ⟨?_, Nat.le_of_ble_eq_true rfl, ?_⟩
  · show tyCode t + 32 * b2n sat < 256; omega
  · show parse0 1 (tyCode t + 32 * b2n sat) c o = some (.isub c t sat o)
    have h0 : (tyCode t + 32 * b2n sat) % 32 = tyCode t := by omega
    have hbsat : bitAt (tyCode t + 32 * b2n sat) 5 = sat := by cases sat <;> simp [bitAt, b2n] <;> omega
    simp [parse0, h0, hbsat]
theorem imul (c : Ctl) (t : Ty) (sat : Bool) (o : Ops) : Statement (.imul c t sat o) := by
  intro _ _ _ _ hf ho hs hm; cases hf; cases ho
  have := tyCode_lt t; have := b2n_lt sat
  refine ⟨?_, Nat.le_of_ble_eq_true rfl, ?_⟩
  · show tyCode t + 32 * b2n sat < 256; omega
  · show parse0 2 (tyCode t + 32 * b2n sat) c o = some (.imul c t sat o)
    have h0 : (tyCode t + 32 * b2n sat) % 32 = tyCode t := by omega
    have hbsat : bitAt (tyCode t + 32 * b2n sat) 5 = sat := by cases sat <;> simp [bitAt, b2n] <;> omega
    simp [parse0, h0, hbsat]
theorem imulh (c : Ctl) (t : Ty) (o : Ops) : Statement (.imulh c t o) := by
  intro _ _ _ _ hf ho hs hm; cases hf; cases ho
  have := tyCode_lt t
  refine ⟨?_, Nat.le_of_ble_eq_true rfl, ?_⟩
  · show tyCode t < 256; omega
  · show parse0 3 (tyCode t) c o = some (.imulh c t o)
    have h0 : (tyCode t) % 32 = tyCode t := by omega
    simp [parse0, h0]
theorem imad (c : Ctl) (t : Ty) (sat : Bool) (o : Ops) : Statement (.imad c t sat o) := by
  intro _ _ _ _ hf ho hs hm; cases hf; cases ho
  have := tyCode_lt t; have := b2n_lt sat
  refine ⟨?_, Nat.le_of_ble_eq_true rfl, ?_⟩
  · show tyCode t + 32 * b2n sat < 256; omega
  · show parse0 4 (tyCode t + 32 * b2n sat) c o = some (.imad c t sat o)
    have h0 : (tyCode t + 32 * b2n sat) % 32 = tyCode t := by omega
    have hbsat : bitAt (tyCode t + 32 * b2n sat) 5 = sat := by cases sat <;> simp [bitAt, b2n] <;> omega
    simp [parse0, h0, hbsat]
theorem imin (c : Ctl) (t : Ty) (o : Ops) : Statement (.imin c t o) := by
  intro _ _ _ _ hf ho hs hm; cases hf; cases ho
  have := tyCode_lt t
  refine ⟨?_, Nat.le_of_ble_eq_true rfl, ?_⟩
  · show tyCode t < 256; omega
  · show parse0 5 (tyCode t) c o = some (.imin c t o)
    have h0 : (tyCode t) % 32 = tyCode t := by omega
    simp [parse0, h0]
theorem imax (c : Ctl) (t : Ty) (o : Ops) : Statement (.imax c t o) := by
  intro _ _ _ _ hf ho hs hm; cases hf; cases ho
  have := tyCode_lt t
  refine ⟨?_, Nat.le_of_ble_eq_true rfl, ?_⟩
  · show tyCode t < 256; omega
  · show parse0 6 (tyCode t) c o = some (.imax c t o)
    have h0 : (tyCode t) % 32 = tyCode t := by omega
    simp [parse0, h0]
theorem iabs (c : Ctl) (t : Ty) (sat : Bool) (o : Ops) : Statement (.iabs c t sat o) := by
  intro _ _ _ _ hf ho hs hm; cases hf; cases ho
  have := tyCode_lt t; have := b2n_lt sat
  refine ⟨?_, Nat.le_of_ble_eq_true rfl, ?_⟩
  · show tyCode t + 32 * b2n sat < 256; omega
  · show parse0 7 (tyCode t + 32 * b2n sat) c o = some (.iabs c t sat o)
    have h0 : (tyCode t + 32 * b2n sat) % 32 = tyCode t := by omega
    have hbsat : bitAt (tyCode t + 32 * b2n sat) 5 = sat := by cases sat <;> simp [bitAt, b2n] <;> omega
    simp [parse0, h0, hbsat]
theorem ineg (c : Ctl) (t : Ty) (sat : Bool) (o : Ops) : Statement (.ineg c t sat o) := by
  intro _ _ _ _ hf ho hs hm; cases hf; cases ho
  have := tyCode_lt t; have := b2n_lt sat
  refine ⟨?_, Nat.le_of_ble_eq_true rfl, ?_⟩
  · show tyCode t + 32 * b2n sat < 256; omega
  · show parse0 8 (tyCode t + 32 * b2n sat) c o = some (.ineg c t sat o)
    have h0 : (tyCode t + 32 * b2n sat) % 32 = tyCode t := by omega
    have hbsat : bitAt (tyCode t + 32 * b2n sat) 5 = sat := by cases sat <;> simp [bitAt, b2n] <;> omega
    simp [parse0, h0, hbsat]
theorem idiv (c : Ctl) (t : Ty) (o : Ops) : Statement (.idiv c t o) := by
  intro _ _ _ _ hf ho hs hm; cases hf; cases ho
  have := tyCode_lt t
  refine ⟨?_, Nat.le_of_ble_eq_true rfl, ?_⟩
  · show tyCode t < 256; omega
  · show parse0 9 (tyCode t) c o = some (.idiv c t o)
    have h0 : (tyCode t) % 32 = tyCode t := by omega
    simp [parse0, h0]
theorem irem (c : Ctl) (t : Ty) (o : Ops) : Statement (.irem c t o) := by
  intro _ _ _ _ hf ho hs hm; cases hf; cases ho
  have := tyCode_lt t
  refine ⟨?_, Nat.le_of_ble_eq_true rfl, ?_⟩
  · show tyCode t < 256; omega
  · show parse0 10 (tyCode t) c o = some (.irem c t o)
    have h0 : (tyCode t) % 32 = tyCode t := by omega
    simp [parse0, h0]
theorem iaddc (c : Ctl) (t : Ty) (cp : Fin 8) (o : Ops) : Statement (.iaddc c t cp o) := by
  intro _ _ _ _ hf ho hs hm; cases hf; cases ho
  have := tyCode_lt t
  refine ⟨?_, Nat.le_of_ble_eq_true rfl, ?_⟩
  · show tyCode t + 32 * cp.val < 256; omega
  · show parse0 11 (tyCode t + 32 * cp.val) c o = some (.iaddc c t cp o)
    have h0 : (tyCode t + 32 * cp.val) % 32 = tyCode t := by omega
    have hfcp : Fin.ofNat 8 ((tyCode t + 32 * cp.val) / 32) = cp := by ext; simp [Fin.ofNat] <;> omega
    simp [-Fin.ofNat_eq_cast, parse0, h0, hfcp]
theorem isad (c : Ctl) (t : Ty) (o : Ops) : Statement (.isad c t o) := by
  intro _ _ _ _ hf ho hs hm; cases hf; cases ho
  have := tyCode_lt t
  refine ⟨?_, Nat.le_of_ble_eq_true rfl, ?_⟩
  · show tyCode t < 256; omega
  · show parse0 12 (tyCode t) c o = some (.isad c t o)
    have h0 : (tyCode t) % 32 = tyCode t := by omega
    simp [parse0, h0]
theorem idot4 (c : Ctl) (t : Ty) (sa : Bool) (sb : Bool) (sat : Bool) (o : Ops) : Statement (.idot4 c t sa sb sat o) := by
  intro _ _ _ _ hf ho hs hm; cases hf; cases ho
  have := tyCode_lt t; have := b2n_lt sa; have := b2n_lt sb; have := b2n_lt sat
  refine ⟨?_, Nat.le_of_ble_eq_true rfl, ?_⟩
  · show tyCode t + 32 * b2n sa + 64 * b2n sb + 128 * b2n sat < 256; omega
  · show parse0 13 (tyCode t + 32 * b2n sa + 64 * b2n sb + 128 * b2n sat) c o = some (.idot4 c t sa sb sat o)
    have h0 : (tyCode t + 32 * b2n sa + 64 * b2n sb + 128 * b2n sat) % 32 = tyCode t := by omega
    have hbsa : bitAt (tyCode t + 32 * b2n sa + 64 * b2n sb + 128 * b2n sat) 5 = sa := by cases sa <;> cases sb <;> cases sat <;> simp [bitAt, b2n] <;> omega
    have hbsb : bitAt (tyCode t + 32 * b2n sa + 64 * b2n sb + 128 * b2n sat) 6 = sb := by cases sa <;> cases sb <;> cases sat <;> simp [bitAt, b2n] <;> omega
    have hbsat : bitAt (tyCode t + 32 * b2n sa + 64 * b2n sb + 128 * b2n sat) 7 = sat := by cases sa <;> cases sb <;> cases sat <;> simp [bitAt, b2n] <;> omega
    simp [parse0, h0, hbsa, hbsb, hbsat]
theorem mov (c : Ctl) (t : Ty) (o : Ops) : Statement (.mov c t o) := by
  intro _ _ _ _ hf ho hs hm; cases hf; cases ho
  have := tyCode_lt t
  refine ⟨?_, Nat.le_of_ble_eq_true rfl, ?_⟩
  · show tyCode t < 256; omega
  · show parse0 14 (tyCode t) c o = some (.mov c t o)
    have h0 : (tyCode t) % 32 = tyCode t := by omega
    simp [parse0, h0]
theorem iclamp (c : Ctl) (t : Ty) (o : Ops) : Statement (.iclamp c t o) := by
  intro _ _ _ _ hf ho hs hm; cases hf; cases ho
  have := tyCode_lt t
  refine ⟨?_, Nat.le_of_ble_eq_true rfl, ?_⟩
  · show tyCode t < 256; omega
  · show parse0 15 (tyCode t) c o = some (.iclamp c t o)
    have h0 : (tyCode t) % 32 = tyCode t := by omega
    simp [parse0, h0]
theorem and (c : Ctl) (t : Ty) (o : Ops) : Statement (.and c t o) := by
  intro _ _ _ _ hf ho hs hm; cases hf; cases ho
  have := tyCode_lt t
  refine ⟨?_, Nat.le_of_ble_eq_true rfl, ?_⟩
  · show tyCode t < 256; omega
  · show parse1 0 (tyCode t) c o = some (.and c t o)
    have h0 : (tyCode t) % 32 = tyCode t := by omega
    simp [parse1, h0]
theorem or (c : Ctl) (t : Ty) (o : Ops) : Statement (.or c t o) := by
  intro _ _ _ _ hf ho hs hm; cases hf; cases ho
  have := tyCode_lt t
  refine ⟨?_, Nat.le_of_ble_eq_true rfl, ?_⟩
  · show tyCode t < 256; omega
  · show parse1 1 (tyCode t) c o = some (.or c t o)
    have h0 : (tyCode t) % 32 = tyCode t := by omega
    simp [parse1, h0]
theorem xor (c : Ctl) (t : Ty) (o : Ops) : Statement (.xor c t o) := by
  intro _ _ _ _ hf ho hs hm; cases hf; cases ho
  have := tyCode_lt t
  refine ⟨?_, Nat.le_of_ble_eq_true rfl, ?_⟩
  · show tyCode t < 256; omega
  · show parse1 2 (tyCode t) c o = some (.xor c t o)
    have h0 : (tyCode t) % 32 = tyCode t := by omega
    simp [parse1, h0]
theorem not (c : Ctl) (t : Ty) (o : Ops) : Statement (.not c t o) := by
  intro _ _ _ _ hf ho hs hm; cases hf; cases ho
  have := tyCode_lt t
  refine ⟨?_, Nat.le_of_ble_eq_true rfl, ?_⟩
  · show tyCode t < 256; omega
  · show parse1 3 (tyCode t) c o = some (.not c t o)
    have h0 : (tyCode t) % 32 = tyCode t := by omega
    simp [parse1, h0]
theorem andn (c : Ctl) (t : Ty) (o : Ops) : Statement (.andn c t o) := by
  intro _ _ _ _ hf ho hs hm; cases hf; cases ho
  have := tyCode_lt t
  refine ⟨?_, Nat.le_of_ble_eq_true rfl, ?_⟩
  · show tyCode t < 256; omega
  · show parse1 4 (tyCode t) c o = some (.andn c t o)
    have h0 : (tyCode t) % 32 = tyCode t := by omega
    simp [parse1, h0]
theorem shl (c : Ctl) (t : Ty) (clamp : Bool) (o : Ops) : Statement (.shl c t clamp o) := by
  intro _ _ _ _ hf ho hs hm; cases hf; cases ho
  have := tyCode_lt t; have := b2n_lt clamp
  refine ⟨?_, Nat.le_of_ble_eq_true rfl, ?_⟩
  · show tyCode t + 32 * b2n clamp < 256; omega
  · show parse1 5 (tyCode t + 32 * b2n clamp) c o = some (.shl c t clamp o)
    have h0 : (tyCode t + 32 * b2n clamp) % 32 = tyCode t := by omega
    have hbclamp : bitAt (tyCode t + 32 * b2n clamp) 5 = clamp := by cases clamp <;> simp [bitAt, b2n] <;> omega
    simp [parse1, h0, hbclamp]
theorem shr (c : Ctl) (t : Ty) (clamp : Bool) (o : Ops) : Statement (.shr c t clamp o) := by
  intro _ _ _ _ hf ho hs hm; cases hf; cases ho
  have := tyCode_lt t; have := b2n_lt clamp
  refine ⟨?_, Nat.le_of_ble_eq_true rfl, ?_⟩
  · show tyCode t + 32 * b2n clamp < 256; omega
  · show parse1 6 (tyCode t + 32 * b2n clamp) c o = some (.shr c t clamp o)
    have h0 : (tyCode t + 32 * b2n clamp) % 32 = tyCode t := by omega
    have hbclamp : bitAt (tyCode t + 32 * b2n clamp) 5 = clamp := by cases clamp <;> simp [bitAt, b2n] <;> omega
    simp [parse1, h0, hbclamp]
theorem sar (c : Ctl) (t : Ty) (clamp : Bool) (o : Ops) : Statement (.sar c t clamp o) := by
  intro _ _ _ _ hf ho hs hm; cases hf; cases ho
  have := tyCode_lt t; have := b2n_lt clamp
  refine ⟨?_, Nat.le_of_ble_eq_true rfl, ?_⟩
  · show tyCode t + 32 * b2n clamp < 256; omega
  · show parse1 7 (tyCode t + 32 * b2n clamp) c o = some (.sar c t clamp o)
    have h0 : (tyCode t + 32 * b2n clamp) % 32 = tyCode t := by omega
    have hbclamp : bitAt (tyCode t + 32 * b2n clamp) 5 = clamp := by cases clamp <;> simp [bitAt, b2n] <;> omega
    simp [parse1, h0, hbclamp]
theorem rotl (c : Ctl) (t : Ty) (o : Ops) : Statement (.rotl c t o) := by
  intro _ _ _ _ hf ho hs hm; cases hf; cases ho
  have := tyCode_lt t
  refine ⟨?_, Nat.le_of_ble_eq_true rfl, ?_⟩
  · show tyCode t < 256; omega
  · show parse1 8 (tyCode t) c o = some (.rotl c t o)
    have h0 : (tyCode t) % 32 = tyCode t := by omega
    simp [parse1, h0]
theorem popc (c : Ctl) (t : Ty) (o : Ops) : Statement (.popc c t o) := by
  intro _ _ _ _ hf ho hs hm; cases hf; cases ho
  have := tyCode_lt t
  refine ⟨?_, Nat.le_of_ble_eq_true rfl, ?_⟩
  · show tyCode t < 256; omega
  · show parse1 9 (tyCode t) c o = some (.popc c t o)
    have h0 : (tyCode t) % 32 = tyCode t := by omega
    simp [parse1, h0]
theorem clz (c : Ctl) (t : Ty) (o : Ops) : Statement (.clz c t o) := by
  intro _ _ _ _ hf ho hs hm; cases hf; cases ho
  have := tyCode_lt t
  refine ⟨?_, Nat.le_of_ble_eq_true rfl, ?_⟩
  · show tyCode t < 256; omega
  · show parse1 10 (tyCode t) c o = some (.clz c t o)
    have h0 : (tyCode t) % 32 = tyCode t := by omega
    simp [parse1, h0]
theorem brev (c : Ctl) (t : Ty) (o : Ops) : Statement (.brev c t o) := by
  intro _ _ _ _ hf ho hs hm; cases hf; cases ho
  have := tyCode_lt t
  refine ⟨?_, Nat.le_of_ble_eq_true rfl, ?_⟩
  · show tyCode t < 256; omega
  · show parse1 11 (tyCode t) c o = some (.brev c t o)
    have h0 : (tyCode t) % 32 = tyCode t := by omega
    simp [parse1, h0]
theorem bfe (c : Ctl) (t : Ty) (o : Ops) : Statement (.bfe c t o) := by
  intro _ _ _ _ hf ho hs hm; cases hf; cases ho
  have := tyCode_lt t
  refine ⟨?_, Nat.le_of_ble_eq_true rfl, ?_⟩
  · show tyCode t < 256; omega
  · show parse1 12 (tyCode t) c o = some (.bfe c t o)
    have h0 : (tyCode t) % 32 = tyCode t := by omega
    simp [parse1, h0]
theorem bfi (c : Ctl) (t : Ty) (o : Ops) : Statement (.bfi c t o) := by
  intro _ _ _ _ hf ho hs hm; cases hf; cases ho
  have := tyCode_lt t
  refine ⟨?_, Nat.le_of_ble_eq_true rfl, ?_⟩
  · show tyCode t < 256; omega
  · show parse1 13 (tyCode t) c o = some (.bfi c t o)
    have h0 : (tyCode t) % 32 = tyCode t := by omega
    simp [parse1, h0]
theorem bmix (c : Ctl) (t : Ty) (f : BmixFn) (o : Ops) : Statement (.bmix c t f o) := by
  intro _ _ _ _ hf ho hs hm; cases hf; cases ho
  have := tyCode_lt t; have := bmixCode_lt f
  refine ⟨?_, Nat.le_of_ble_eq_true rfl, ?_⟩
  · show tyCode t + 32 * bmixCode f < 256; omega
  · show parse1 14 (tyCode t + 32 * bmixCode f) c o = some (.bmix c t f o)
    have h0 : (tyCode t + 32 * bmixCode f) % 32 = tyCode t := by omega
    have h1 : (tyCode t + 32 * bmixCode f) / 32 = bmixCode f := by omega
    simp [parse1, h0, h1]
theorem bsel (c : Ctl) (t : Ty) (m : BselMode) (o : Ops) : Statement (.bsel c t m o) := by
  intro _ _ _ _ hf ho hs hm; cases hf; cases ho
  have := tyCode_lt t; have := bselCode_lt m
  refine ⟨?_, Nat.le_of_ble_eq_true rfl, ?_⟩
  · show tyCode t + 32 * bselCode m < 256; omega
  · show parse1 15 (tyCode t + 32 * bselCode m) c o = some (.bsel c t m o)
    have h0 : (tyCode t + 32 * bselCode m) % 32 = tyCode t := by omega
    have h1 : (tyCode t + 32 * bselCode m) / 32 = bselCode m := by omega
    simp [parse1, h0, h1]
theorem icmp (c : Ctl) (t : Ty) (cond : Cond) (o : Ops) : Statement (.icmp c t cond o) := by
  intro _ _ _ _ hf ho hs hm; cases hf; cases ho
  have := tyCode_lt t; have := condCode_lt cond
  refine ⟨?_, Nat.le_of_ble_eq_true rfl, ?_⟩
  · show tyCode t + 32 * condCode cond < 256; omega
  · show parse2 0 (tyCode t + 32 * condCode cond) c o = some (.icmp c t cond o)
    have h0 : (tyCode t + 32 * condCode cond) % 32 = tyCode t := by omega
    have h1 : (tyCode t + 32 * condCode cond) / 32 = condCode cond := by omega
    simp [parse2, h0, h1]
theorem fcmp (c : Ctl) (t : Ty) (cond : FCond) (o : Ops) : Statement (.fcmp c t cond o) := by
  intro _ _ _ _ hf ho hs hm; cases hf; cases ho
  have := tyCode_lt t; have := fcondCode_lt cond
  refine ⟨?_, Nat.le_of_ble_eq_true rfl, ?_⟩
  · show tyCode t + 32 * fcondCode cond < 256; omega
  · show parse2 1 (tyCode t + 32 * fcondCode cond) c o = some (.fcmp c t cond o)
    have h0 : (tyCode t + 32 * fcondCode cond) % 32 = tyCode t := by omega
    have h1 : (tyCode t + 32 * fcondCode cond) / 32 = fcondCode cond := by omega
    simp [parse2, h0, h1]
theorem sel (c : Ctl) (t : Ty) (o : Ops) : Statement (.sel c t o) := by
  intro _ _ _ _ hf ho hs hm; cases hf; cases ho
  have := tyCode_lt t
  refine ⟨?_, Nat.le_of_ble_eq_true rfl, ?_⟩
  · show tyCode t < 256; omega
  · show parse2 2 (tyCode t) c o = some (.sel c t o)
    have h0 : (tyCode t) % 32 = tyCode t := by omega
    simp [parse2, h0]
theorem pand (c : Ctl) (na : Bool) (nb : Bool) (o : Ops) : Statement (.pand c na nb o) := by
  intro _ _ _ _ hf ho hs hm; cases hf; cases ho
  have := b2n_lt na; have := b2n_lt nb
  refine ⟨?_, Nat.le_of_ble_eq_true rfl, ?_⟩
  · show 32 * b2n na + 64 * b2n nb < 256; omega
  · show parse2 3 (32 * b2n na + 64 * b2n nb) c o = some (.pand c na nb o)
    have hbna : bitAt (32 * b2n na + 64 * b2n nb) 5 = na := by cases na <;> cases nb <;> simp [bitAt, b2n]
    have hbnb : bitAt (32 * b2n na + 64 * b2n nb) 6 = nb := by cases na <;> cases nb <;> simp [bitAt, b2n]
    simp [parse2, hbna, hbnb]
theorem por (c : Ctl) (na : Bool) (nb : Bool) (o : Ops) : Statement (.por c na nb o) := by
  intro _ _ _ _ hf ho hs hm; cases hf; cases ho
  have := b2n_lt na; have := b2n_lt nb
  refine ⟨?_, Nat.le_of_ble_eq_true rfl, ?_⟩
  · show 32 * b2n na + 64 * b2n nb < 256; omega
  · show parse2 4 (32 * b2n na + 64 * b2n nb) c o = some (.por c na nb o)
    have hbna : bitAt (32 * b2n na + 64 * b2n nb) 5 = na := by cases na <;> cases nb <;> simp [bitAt, b2n]
    have hbnb : bitAt (32 * b2n na + 64 * b2n nb) 6 = nb := by cases na <;> cases nb <;> simp [bitAt, b2n]
    simp [parse2, hbna, hbnb]
theorem pxor (c : Ctl) (na : Bool) (nb : Bool) (o : Ops) : Statement (.pxor c na nb o) := by
  intro _ _ _ _ hf ho hs hm; cases hf; cases ho
  have := b2n_lt na; have := b2n_lt nb
  refine ⟨?_, Nat.le_of_ble_eq_true rfl, ?_⟩
  · show 32 * b2n na + 64 * b2n nb < 256; omega
  · show parse2 5 (32 * b2n na + 64 * b2n nb) c o = some (.pxor c na nb o)
    have hbna : bitAt (32 * b2n na + 64 * b2n nb) 5 = na := by cases na <;> cases nb <;> simp [bitAt, b2n]
    have hbnb : bitAt (32 * b2n na + 64 * b2n nb) 6 = nb := by cases na <;> cases nb <;> simp [bitAt, b2n]
    simp [parse2, hbna, hbnb]
theorem pnot (c : Ctl) (o : Ops) : Statement (.pnot c o) := by
  intro _ _ _ _ hf ho hs hm; cases hf; cases ho
  exact ⟨Nat.le_of_ble_eq_true rfl, Nat.le_of_ble_eq_true rfl, rfl⟩
theorem pmov (c : Ctl) (o : Ops) : Statement (.pmov c o) := by
  intro _ _ _ _ hf ho hs hm; cases hf; cases ho
  exact ⟨Nat.le_of_ble_eq_true rfl, Nat.le_of_ble_eq_true rfl, rfl⟩
theorem pagg (c : Ctl) (m : PaggMode) (o : Ops) : Statement (.pagg c m o) := by
  intro _ _ _ _ hf ho hs hm; cases hf; cases ho
  have := paggCode_lt m
  refine ⟨?_, Nat.le_of_ble_eq_true rfl, ?_⟩
  · show 32 * paggCode m < 256; omega
  · show parse2 8 (32 * paggCode m) c o = some (.pagg c m o)
    have h0 : (32 * paggCode m) / 32 = paggCode m := by omega
    simp [parse2, h0]
theorem pclass (c : Ctl) (t : Ty) (o : Ops) : Statement (.pclass c t o) := by
  intro _ _ _ _ hf ho hs hm; cases hf; cases ho
  have := tyCode_lt t
  refine ⟨?_, Nat.le_of_ble_eq_true rfl, ?_⟩
  · show tyCode t < 256; omega
  · show parse2 9 (tyCode t) c o = some (.pclass c t o)
    have h0 : (tyCode t) % 32 = tyCode t := by omega
    simp [parse2, h0]
theorem lxch (c : Ctl) (t : Ty) (m : XchMode) (o : Ops) : Statement (.lxch c t m o) := by
  intro _ _ _ _ hf ho hs hm; cases hf; cases ho
  have := tyCode_lt t; have := xchCode_lt m
  refine ⟨?_, Nat.le_of_ble_eq_true rfl, ?_⟩
  · show tyCode t + 32 * xchCode m < 256; omega
  · show parse3 0 (tyCode t + 32 * xchCode m) c o = some (.lxch c t m o)
    have h0 : (tyCode t + 32 * xchCode m) % 32 = tyCode t := by omega
    have h1 : (tyCode t + 32 * xchCode m) / 32 = xchCode m := by omega
    simp [parse3, h0, h1]
theorem lred (c : Ctl) (t : Ty) (op : Fin 7) (o : Ops) : Statement (.lred c t op o) := by
  intro _ _ _ _ hf ho hs hm; cases hf; cases ho
  have := tyCode_lt t
  refine ⟨?_, Nat.le_of_ble_eq_true rfl, ?_⟩
  · show tyCode t + 32 * op.val < 256; omega
  · show parse3 1 (tyCode t + 32 * op.val) c o = some (.lred c t op o)
    have h0 : (tyCode t + 32 * op.val) % 32 = tyCode t := by omega
    have h1 : (tyCode t + 32 * op.val) / 32 = op.val := by omega
    simp [parse3, h0, h1]
theorem lscan (c : Ctl) (t : Ty) (op : Fin 7) (o : Ops) : Statement (.lscan c t op o) := by
  intro _ _ _ _ hf ho hs hm; cases hf; cases ho
  have := tyCode_lt t
  refine ⟨?_, Nat.le_of_ble_eq_true rfl, ?_⟩
  · show tyCode t + 32 * op.val < 256; omega
  · show parse3 2 (tyCode t + 32 * op.val) c o = some (.lscan c t op o)
    have h0 : (tyCode t + 32 * op.val) % 32 = tyCode t := by omega
    have h1 : (tyCode t + 32 * op.val) / 32 = op.val := by omega
    simp [parse3, h0, h1]
theorem lbcast (c : Ctl) (t : Ty) (o : Ops) : Statement (.lbcast c t o) := by
  intro _ _ _ _ hf ho hs hm; cases hf; cases ho
  have := tyCode_lt t
  refine ⟨?_, Nat.le_of_ble_eq_true rfl, ?_⟩
  · show tyCode t < 256; omega
  · show parse3 3 (tyCode t) c o = some (.lbcast c t o)
    have h0 : (tyCode t) % 32 = tyCode t := by omega
    simp [parse3, h0]
theorem lmatch (c : Ctl) (t : Ty) (o : Ops) : Statement (.lmatch c t o) := by
  intro _ _ _ _ hf ho hs hm; cases hf; cases ho
  have := tyCode_lt t
  refine ⟨?_, Nat.le_of_ble_eq_true rfl, ?_⟩
  · show tyCode t < 256; omega
  · show parse3 4 (tyCode t) c o = some (.lmatch c t o)
    have h0 : (tyCode t) % 32 = tyCode t := by omega
    simp [parse3, h0]
theorem fadd (c : Ctl) (t : Ty) (r : Rnd) (o : Ops) : Statement (.fadd c t r o) := by
  intro _ _ _ _ hf ho hs hm; cases hf; cases ho
  have := tyCode_lt t; have := rndCode_lt r
  refine ⟨?_, Nat.le_of_ble_eq_true rfl, ?_⟩
  · show tyCode t + 32 * rndCode r < 256; omega
  · show parse4 0 (tyCode t + 32 * rndCode r) c o = some (.fadd c t r o)
    have h0 : (tyCode t + 32 * rndCode r) % 32 = tyCode t := by omega
    have h1 : (tyCode t + 32 * rndCode r) / 32 = rndCode r := by omega
    simp [parse4, h0, h1]
theorem fsub (c : Ctl) (t : Ty) (r : Rnd) (o : Ops) : Statement (.fsub c t r o) := by
  intro _ _ _ _ hf ho hs hm; cases hf; cases ho
  have := tyCode_lt t; have := rndCode_lt r
  refine ⟨?_, Nat.le_of_ble_eq_true rfl, ?_⟩
  · show tyCode t + 32 * rndCode r < 256; omega
  · show parse4 1 (tyCode t + 32 * rndCode r) c o = some (.fsub c t r o)
    have h0 : (tyCode t + 32 * rndCode r) % 32 = tyCode t := by omega
    have h1 : (tyCode t + 32 * rndCode r) / 32 = rndCode r := by omega
    simp [parse4, h0, h1]
theorem fmul (c : Ctl) (t : Ty) (r : Rnd) (o : Ops) : Statement (.fmul c t r o) := by
  intro _ _ _ _ hf ho hs hm; cases hf; cases ho
  have := tyCode_lt t; have := rndCode_lt r
  refine ⟨?_, Nat.le_of_ble_eq_true rfl, ?_⟩
  · show tyCode t + 32 * rndCode r < 256; omega
  · show parse4 2 (tyCode t + 32 * rndCode r) c o = some (.fmul c t r o)
    have h0 : (tyCode t + 32 * rndCode r) % 32 = tyCode t := by omega
    have h1 : (tyCode t + 32 * rndCode r) / 32 = rndCode r := by omega
    simp [parse4, h0, h1]
theorem ffma (c : Ctl) (t : Ty) (r : Rnd) (o : Ops) : Statement (.ffma c t r o) := by
  intro _ _ _ _ hf ho hs hm; cases hf; cases ho
  have := tyCode_lt t; have := rndCode_lt r
  refine ⟨?_, Nat.le_of_ble_eq_true rfl, ?_⟩
  · show tyCode t + 32 * rndCode r < 256; omega
  · show parse4 3 (tyCode t + 32 * rndCode r) c o = some (.ffma c t r o)
    have h0 : (tyCode t + 32 * rndCode r) % 32 = tyCode t := by omega
    have h1 : (tyCode t + 32 * rndCode r) / 32 = rndCode r := by omega
    simp [parse4, h0, h1]
theorem fmin (c : Ctl) (t : Ty) (o : Ops) : Statement (.fmin c t o) := by
  intro _ _ _ _ hf ho hs hm; cases hf; cases ho
  have := tyCode_lt t
  refine ⟨?_, Nat.le_of_ble_eq_true rfl, ?_⟩
  · show tyCode t < 256; omega
  · show parse4 4 (tyCode t) c o = some (.fmin c t o)
    have h0 : (tyCode t) % 32 = tyCode t := by omega
    have h1 : (tyCode t) / 32 = 0 := by omega
    simp [parse4, h0, h1]
theorem fmax (c : Ctl) (t : Ty) (o : Ops) : Statement (.fmax c t o) := by
  intro _ _ _ _ hf ho hs hm; cases hf; cases ho
  have := tyCode_lt t
  refine ⟨?_, Nat.le_of_ble_eq_true rfl, ?_⟩
  · show tyCode t < 256; omega
  · show parse4 5 (tyCode t) c o = some (.fmax c t o)
    have h0 : (tyCode t) % 32 = tyCode t := by omega
    have h1 : (tyCode t) / 32 = 0 := by omega
    simp [parse4, h0, h1]
theorem frnd (c : Ctl) (t : Ty) (r : Rnd) (o : Ops) : Statement (.frnd c t r o) := by
  intro _ _ _ _ hf ho hs hm; cases hf; cases ho
  have := tyCode_lt t; have := rndCode_lt r
  refine ⟨?_, Nat.le_of_ble_eq_true rfl, ?_⟩
  · show tyCode t + 32 * rndCode r < 256; omega
  · show parse4 6 (tyCode t + 32 * rndCode r) c o = some (.frnd c t r o)
    have h0 : (tyCode t + 32 * rndCode r) % 32 = tyCode t := by omega
    have h1 : (tyCode t + 32 * rndCode r) / 32 = rndCode r := by omega
    simp [parse4, h0, h1]
theorem fdiv (c : Ctl) (t : Ty) (r : Rnd) (o : Ops) : Statement (.fdiv c t r o) := by
  intro _ _ _ _ hf ho hs hm; cases hf; cases ho
  have := tyCode_lt t; have := rndCode_lt r
  refine ⟨?_, Nat.le_of_ble_eq_true rfl, ?_⟩
  · show tyCode t + 32 * rndCode r < 256; omega
  · show parse4 7 (tyCode t + 32 * rndCode r) c o = some (.fdiv c t r o)
    have h0 : (tyCode t + 32 * rndCode r) % 32 = tyCode t := by omega
    have h1 : (tyCode t + 32 * rndCode r) / 32 = rndCode r := by omega
    simp [parse4, h0, h1]
theorem fsqrt (c : Ctl) (t : Ty) (r : Rnd) (o : Ops) : Statement (.fsqrt c t r o) := by
  intro _ _ _ _ hf ho hs hm; cases hf; cases ho
  have := tyCode_lt t; have := rndCode_lt r
  refine ⟨?_, Nat.le_of_ble_eq_true rfl, ?_⟩
  · show tyCode t + 32 * rndCode r < 256; omega
  · show parse4 8 (tyCode t + 32 * rndCode r) c o = some (.fsqrt c t r o)
    have h0 : (tyCode t + 32 * rndCode r) % 32 = tyCode t := by omega
    have h1 : (tyCode t + 32 * rndCode r) / 32 = rndCode r := by omega
    simp [parse4, h0, h1]
theorem fclamp (c : Ctl) (t : Ty) (o : Ops) : Statement (.fclamp c t o) := by
  intro _ _ _ _ hf ho hs hm; cases hf; cases ho
  have := tyCode_lt t
  refine ⟨?_, Nat.le_of_ble_eq_true rfl, ?_⟩
  · show tyCode t < 256; omega
  · show parse4 9 (tyCode t) c o = some (.fclamp c t o)
    have h0 : (tyCode t) % 32 = tyCode t := by omega
    have h1 : (tyCode t) / 32 = 0 := by omega
    simp [parse4, h0, h1]
theorem fscale (c : Ctl) (t : Ty) (r : Rnd) (o : Ops) : Statement (.fscale c t r o) := by
  intro _ _ _ _ hf ho hs hm; cases hf; cases ho
  have := tyCode_lt t; have := rndCode_lt r
  refine ⟨?_, Nat.le_of_ble_eq_true rfl, ?_⟩
  · show tyCode t + 32 * rndCode r < 256; omega
  · show parse4 10 (tyCode t + 32 * rndCode r) c o = some (.fscale c t r o)
    have h0 : (tyCode t + 32 * rndCode r) % 32 = tyCode t := by omega
    have h1 : (tyCode t + 32 * rndCode r) / 32 = rndCode r := by omega
    simp [parse4, h0, h1]
theorem fdot2 (c : Ctl) (t : Ty) (r : Rnd) (o : Ops) : Statement (.fdot2 c t r o) := by
  intro _ _ _ _ hf ho hs hm; cases hf; cases ho
  have := tyCode_lt t; have := rndCode_lt r
  refine ⟨?_, Nat.le_of_ble_eq_true rfl, ?_⟩
  · show tyCode t + 32 * rndCode r < 256; omega
  · show parse4 11 (tyCode t + 32 * rndCode r) c o = some (.fdot2 c t r o)
    have h0 : (tyCode t + 32 * rndCode r) % 32 = tyCode t := by omega
    have h1 : (tyCode t + 32 * rndCode r) / 32 = rndCode r := by omega
    simp [parse4, h0, h1]
theorem frcp (c : Ctl) (t : Ty) (o : Ops) : Statement (.frcp c t o) := by
  intro _ _ _ _ hf ho hs hm; cases hf; cases ho
  have := tyCode_lt t
  refine ⟨?_, Nat.le_of_ble_eq_true rfl, ?_⟩
  · show tyCode t < 256; omega
  · show parse5 0 (tyCode t) c o = some (.frcp c t o)
    have h0 : (tyCode t) % 32 = tyCode t := by omega
    simp [parse5, h0]
theorem frsq (c : Ctl) (t : Ty) (o : Ops) : Statement (.frsq c t o) := by
  intro _ _ _ _ hf ho hs hm; cases hf; cases ho
  have := tyCode_lt t
  refine ⟨?_, Nat.le_of_ble_eq_true rfl, ?_⟩
  · show tyCode t < 256; omega
  · show parse5 1 (tyCode t) c o = some (.frsq c t o)
    have h0 : (tyCode t) % 32 = tyCode t := by omega
    simp [parse5, h0]
theorem fexp2 (c : Ctl) (t : Ty) (o : Ops) : Statement (.fexp2 c t o) := by
  intro _ _ _ _ hf ho hs hm; cases hf; cases ho
  have := tyCode_lt t
  refine ⟨?_, Nat.le_of_ble_eq_true rfl, ?_⟩
  · show tyCode t < 256; omega
  · show parse5 2 (tyCode t) c o = some (.fexp2 c t o)
    have h0 : (tyCode t) % 32 = tyCode t := by omega
    simp [parse5, h0]
theorem flog2 (c : Ctl) (t : Ty) (o : Ops) : Statement (.flog2 c t o) := by
  intro _ _ _ _ hf ho hs hm; cases hf; cases ho
  have := tyCode_lt t
  refine ⟨?_, Nat.le_of_ble_eq_true rfl, ?_⟩
  · show tyCode t < 256; omega
  · show parse5 3 (tyCode t) c o = some (.flog2 c t o)
    have h0 : (tyCode t) % 32 = tyCode t := by omega
    simp [parse5, h0]
theorem fsinpi (c : Ctl) (t : Ty) (o : Ops) : Statement (.fsinpi c t o) := by
  intro _ _ _ _ hf ho hs hm; cases hf; cases ho
  have := tyCode_lt t
  refine ⟨?_, Nat.le_of_ble_eq_true rfl, ?_⟩
  · show tyCode t < 256; omega
  · show parse5 4 (tyCode t) c o = some (.fsinpi c t o)
    have h0 : (tyCode t) % 32 = tyCode t := by omega
    simp [parse5, h0]
theorem fcospi (c : Ctl) (t : Ty) (o : Ops) : Statement (.fcospi c t o) := by
  intro _ _ _ _ hf ho hs hm; cases hf; cases ho
  have := tyCode_lt t
  refine ⟨?_, Nat.le_of_ble_eq_true rfl, ?_⟩
  · show tyCode t < 256; omega
  · show parse5 5 (tyCode t) c o = some (.fcospi c t o)
    have h0 : (tyCode t) % 32 = tyCode t := by omega
    simp [parse5, h0]
theorem ftanh (c : Ctl) (t : Ty) (o : Ops) : Statement (.ftanh c t o) := by
  intro _ _ _ _ hf ho hs hm; cases hf; cases ho
  have := tyCode_lt t
  refine ⟨?_, Nat.le_of_ble_eq_true rfl, ?_⟩
  · show tyCode t < 256; omega
  · show parse5 6 (tyCode t) c o = some (.ftanh c t o)
    have h0 : (tyCode t) % 32 = tyCode t := by omega
    simp [parse5, h0]
theorem fsigm (c : Ctl) (t : Ty) (o : Ops) : Statement (.fsigm c t o) := by
  intro _ _ _ _ hf ho hs hm; cases hf; cases ho
  have := tyCode_lt t
  refine ⟨?_, Nat.le_of_ble_eq_true rfl, ?_⟩
  · show tyCode t < 256; omega
  · show parse5 7 (tyCode t) c o = some (.fsigm c t o)
    have h0 : (tyCode t) % 32 = tyCode t := by omega
    simp [parse5, h0]
theorem cvt (c : Ctl) (code : Fin 30) (r : Rnd) (o : Ops) : Statement (.cvt c code r o) := by
  intro _ _ _ _ hf ho hs hm; cases hf; cases ho
  have := rndCode_lt r
  refine ⟨?_, Nat.le_of_ble_eq_true rfl, ?_⟩
  · show code.val + 32 * rndCode r < 256; omega
  · show parse6 0 (code.val + 32 * rndCode r) c o = some (.cvt c code r o)
    have h0 : (code.val + 32 * rndCode r) % 32 = code.val := by omega
    have h1 : (code.val + 32 * rndCode r) / 32 = rndCode r := by omega
    simp [parse6, h0, h1]
theorem qnt (c : Ctl) (t : Ty) (r : Rnd) (o : Ops) : Statement (.qnt c t r o) := by
  intro _ _ _ _ hf ho hs hm; cases hf; cases ho
  have := tyCode_lt t; have := rndCode_lt r
  refine ⟨?_, Nat.le_of_ble_eq_true rfl, ?_⟩
  · show tyCode t + 32 * rndCode r < 256; omega
  · show parse6 1 (tyCode t + 32 * rndCode r) c o = some (.qnt c t r o)
    have h0 : (tyCode t + 32 * rndCode r) % 32 = tyCode t := by omega
    have h1 : (tyCode t + 32 * rndCode r) / 32 = rndCode r := by omega
    simp [parse6, h0, h1]
theorem dqnt (c : Ctl) (t : Ty) (r : Rnd) (o : Ops) : Statement (.dqnt c t r o) := by
  intro _ _ _ _ hf ho hs hm; cases hf; cases ho
  have := tyCode_lt t; have := rndCode_lt r
  refine ⟨?_, Nat.le_of_ble_eq_true rfl, ?_⟩
  · show tyCode t + 32 * rndCode r < 256; omega
  · show parse6 2 (tyCode t + 32 * rndCode r) c o = some (.dqnt c t r o)
    have h0 : (tyCode t + 32 * rndCode r) % 32 = tyCode t := by omega
    have h1 : (tyCode t + 32 * rndCode r) / 32 = rndCode r := by omega
    simp [parse6, h0, h1]
theorem bfpack (c : Ctl) (t : Ty) (r : Rnd) (o : Ops) : Statement (.bfpack c t r o) := by
  intro _ _ _ _ hf ho hs hm; cases hf; cases ho
  have := tyCode_lt t; have := rndCode_lt r
  refine ⟨?_, Nat.le_of_ble_eq_true rfl, ?_⟩
  · show tyCode t + 32 * rndCode r < 256; omega
  · show parse6 3 (tyCode t + 32 * rndCode r) c o = some (.bfpack c t r o)
    have h0 : (tyCode t + 32 * rndCode r) % 32 = tyCode t := by omega
    have h1 : (tyCode t + 32 * rndCode r) / 32 = rndCode r := by omega
    simp [parse6, h0, h1]
theorem bfunpack (c : Ctl) (t : Ty) (o : Ops) : Statement (.bfunpack c t o) := by
  intro _ _ _ _ hf ho hs hm; cases hf; cases ho
  have := tyCode_lt t
  refine ⟨?_, Nat.le_of_ble_eq_true rfl, ?_⟩
  · show tyCode t < 256; omega
  · show parse6 4 (tyCode t) c o = some (.bfunpack c t o)
    have h0 : (tyCode t) % 32 = tyCode t := by omega
    simp [parse6, h0]
theorem seed (c : Ctl) (o : Ops) : Statement (.seed c o) := by
  intro _ _ _ _ hf ho hs hm; cases hf; cases ho
  exact ⟨Nat.le_of_ble_eq_true rfl, Nat.le_of_ble_eq_true rfl, rfl⟩
theorem pack (c : Ctl) (t : Ty) (o : Ops) : Statement (.pack c t o) := by
  intro _ _ _ _ hf ho hs hm; cases hf; cases ho
  have := tyCode_lt t
  refine ⟨?_, Nat.le_of_ble_eq_true rfl, ?_⟩
  · show tyCode t < 256; omega
  · show parse6 6 (tyCode t) c o = some (.pack c t o)
    have h0 : (tyCode t) % 32 = tyCode t := by omega
    simp [parse6, h0]
theorem unpack (c : Ctl) (t : Ty) (o : Ops) : Statement (.unpack c t o) := by
  intro _ _ _ _ hf ho hs hm; cases hf; cases ho
  have := tyCode_lt t
  refine ⟨?_, Nat.le_of_ble_eq_true rfl, ?_⟩
  · show tyCode t < 256; omega
  · show parse6 7 (tyCode t) c o = some (.unpack c t o)
    have h0 : (tyCode t) % 32 = tyCode t := by omega
    simp [parse6, h0]
theorem aset (c : Ctl) (o : Ops) : Statement (.aset c o) := by
  intro _ _ _ _ hf ho hs hm; cases hf; cases ho
  exact ⟨Nat.le_of_ble_eq_true rfl, Nat.le_of_ble_eq_true rfl, rfl⟩
theorem aadd (c : Ctl) (o : Ops) : Statement (.aadd c o) := by
  intro _ _ _ _ hf ho hs hm; cases hf; cases ho
  exact ⟨Nat.le_of_ble_eq_true rfl, Nat.le_of_ble_eq_true rfl, rfl⟩
theorem asub (c : Ctl) (o : Ops) : Statement (.asub c o) := by
  intro _ _ _ _ hf ho hs hm; cases hf; cases ho
  exact ⟨Nat.le_of_ble_eq_true rfl, Nat.le_of_ble_eq_true rfl, rfl⟩
theorem amul (c : Ctl) (o : Ops) : Statement (.amul c o) := by
  intro _ _ _ _ hf ho hs hm; cases hf; cases ho
  exact ⟨Nat.le_of_ble_eq_true rfl, Nat.le_of_ble_eq_true rfl, rfl⟩
theorem ashl (c : Ctl) (o : Ops) : Statement (.ashl c o) := by
  intro _ _ _ _ hf ho hs hm; cases hf; cases ho
  exact ⟨Nat.le_of_ble_eq_true rfl, Nat.le_of_ble_eq_true rfl, rfl⟩
theorem aand (c : Ctl) (o : Ops) : Statement (.aand c o) := by
  intro _ _ _ _ hf ho hs hm; cases hf; cases ho
  exact ⟨Nat.le_of_ble_eq_true rfl, Nat.le_of_ble_eq_true rfl, rfl⟩
theorem amov (c : Ctl) (o : Ops) : Statement (.amov c o) := by
  intro _ _ _ _ hf ho hs hm; cases hf; cases ho
  exact ⟨Nat.le_of_ble_eq_true rfl, Nat.le_of_ble_eq_true rfl, rfl⟩
theorem avec (c : Ctl) (t : Ty) (o : Ops) : Statement (.avec c t o) := by
  intro _ _ _ _ hf ho hs hm; cases hf; cases ho
  have := tyCode_lt t
  refine ⟨?_, Nat.le_of_ble_eq_true rfl, ?_⟩
  · show tyCode t < 256; omega
  · show parse7 7 (tyCode t) c o = some (.avec c t o)
    have h0 : (tyCode t) % 32 = tyCode t := by omega
    simp [parse7, h0]
theorem auni (c : Ctl) (t : Ty) (o : Ops) : Statement (.auni c t o) := by
  intro _ _ _ _ hf ho hs hm; cases hf; cases ho
  have := tyCode_lt t
  refine ⟨?_, Nat.le_of_ble_eq_true rfl, ?_⟩
  · show tyCode t < 256; omega
  · show parse7 8 (tyCode t) c o = some (.auni c t o)
    have h0 : (tyCode t) % 32 = tyCode t := by omega
    simp [parse7, h0]
theorem acmp (c : Ctl) (t : Ty) (cond : Cond) (o : Ops) : Statement (.acmp c t cond o) := by
  intro _ _ _ _ hf ho hs hm; cases hf; cases ho
  have := tyCode_lt t; have := condCode_lt cond
  refine ⟨?_, Nat.le_of_ble_eq_true rfl, ?_⟩
  · show tyCode t + 32 * condCode cond < 256; omega
  · show parse7 9 (tyCode t + 32 * condCode cond) c o = some (.acmp c t cond o)
    have h0 : (tyCode t + 32 * condCode cond) % 32 = tyCode t := by omega
    have h1 : (tyCode t + 32 * condCode cond) / 32 = condCode cond := by omega
    simp [parse7, h0, h1]
theorem aaddr (c : Ctl) (s : Fin 5) (o : Ops) : Statement (.aaddr c s o) := by
  intro _ _ _ _ hf ho hs hm; cases hf; cases ho
  refine ⟨?_, Nat.le_of_ble_eq_true rfl, ?_⟩
  · show s.val < 256; omega
  · show parse7 10 (s.val) c o = some (.aaddr c s o)

    simp [parse7, ]
theorem bra (c : Ctl) (o : Ops) : Statement (.bra c o) := by
  intro _ _ _ _ hf ho hs hm; cases hf; cases ho
  exact ⟨Nat.le_of_ble_eq_true rfl, Nat.le_of_ble_eq_true rfl, rfl⟩
theorem brx (c : Ctl) (o : Ops) : Statement (.brx c o) := by
  intro _ _ _ _ hf ho hs hm; cases hf; cases ho
  exact ⟨Nat.le_of_ble_eq_true rfl, Nat.le_of_ble_eq_true rfl, rfl⟩
theorem call (c : Ctl) (o : Ops) : Statement (.call c o) := by
  intro _ _ _ _ hf ho hs hm; cases hf; cases ho
  exact ⟨Nat.le_of_ble_eq_true rfl, Nat.le_of_ble_eq_true rfl, rfl⟩
theorem calli (c : Ctl) (o : Ops) : Statement (.calli c o) := by
  intro _ _ _ _ hf ho hs hm; cases hf; cases ho
  exact ⟨Nat.le_of_ble_eq_true rfl, Nat.le_of_ble_eq_true rfl, rfl⟩
theorem ret (c : Ctl) (o : Ops) : Statement (.ret c o) := by
  intro _ _ _ _ hf ho hs hm; cases hf; cases ho
  exact ⟨Nat.le_of_ble_eq_true rfl, Nat.le_of_ble_eq_true rfl, rfl⟩
theorem fent (c : Ctl) (o : Ops) : Statement (.fent c o) := by
  intro _ _ _ _ hf ho hs hm; cases hf; cases ho
  exact ⟨Nat.le_of_ble_eq_true rfl, Nat.le_of_ble_eq_true rfl, rfl⟩
theorem exit (c : Ctl) (o : Ops) : Statement (.exit c o) := by
  intro _ _ _ _ hf ho hs hm; cases hf; cases ho
  exact ⟨Nat.le_of_ble_eq_true rfl, Nat.le_of_ble_eq_true rfl, rfl⟩
theorem ksign (c : Ctl) (o : Ops) : Statement (.ksign c o) := by
  intro _ _ _ _ hf ho hs hm; cases hf; cases ho
  exact ⟨Nat.le_of_ble_eq_true rfl, Nat.le_of_ble_eq_true rfl, rfl⟩
theorem kwait (c : Ctl) (o : Ops) : Statement (.kwait c o) := by
  intro _ _ _ _ hf ho hs hm; cases hf; cases ho
  exact ⟨Nat.le_of_ble_eq_true rfl, Nat.le_of_ble_eq_true rfl, rfl⟩
theorem yield (c : Ctl) (o : Ops) : Statement (.yield c o) := by
  intro _ _ _ _ hf ho hs hm; cases hf; cases ho
  exact ⟨Nat.le_of_ble_eq_true rfl, Nat.le_of_ble_eq_true rfl, rfl⟩
theorem refill (c : Ctl) (o : Ops) : Statement (.refill c o) := by
  intro _ _ _ _ hf ho hs hm; cases hf; cases ho
  exact ⟨Nat.le_of_ble_eq_true rfl, Nat.le_of_ble_eq_true rfl, rfl⟩
theorem itemdone (c : Ctl) (o : Ops) : Statement (.itemdone c o) := by
  intro _ _ _ _ hf ho hs hm; cases hf; cases ho
  exact ⟨Nat.le_of_ble_eq_true rfl, Nat.le_of_ble_eq_true rfl, rfl⟩
theorem trap (c : Ctl) (o : Ops) : Statement (.trap c o) := by
  intro _ _ _ _ hf ho hs hm; cases hf; cases ho
  exact ⟨Nat.le_of_ble_eq_true rfl, Nat.le_of_ble_eq_true rfl, rfl⟩
theorem nop (c : Ctl) (o : Ops) : Statement (.nop c o) := by
  intro _ _ _ _ hf ho hs hm; cases hf; cases ho
  exact ⟨Nat.le_of_ble_eq_true rfl, Nat.le_of_ble_eq_true rfl, rfl⟩
theorem grow (c : Ctl) (o : Ops) : Statement (.grow c o) := by
  intro _ _ _ _ hf ho hs hm; cases hf; cases ho
  exact ⟨Nat.le_of_ble_eq_true rfl, Nat.le_of_ble_eq_true rfl, rfl⟩
theorem shrink (c : Ctl) (o : Ops) : Statement (.shrink c o) := by
  intro _ _ _ _ hf ho hs hm; cases hf; cases ho
  exact ⟨Nat.le_of_ble_eq_true rfl, Nat.le_of_ble_eq_true rfl, rfl⟩
theorem brk (c : Ctl) (o : Ops) : Statement (.brk c o) := by
  intro _ _ _ _ hf ho hs hm; cases hf; cases ho
  exact ⟨Nat.le_of_ble_eq_true rfl, Nat.le_of_ble_eq_true rfl, rfl⟩
theorem ld (c : Ctl) (acc : Fin 10) (t : Ty) (o : Ops) : Statement (.ld c acc t o) := by
  intro _ _ _ _ hf ho hs hm; cases hf; cases ho
  have : tyCode t < 16 := by cases t <;> first | decide | (cases hs; cases hm)
  refine ⟨?_, Nat.le_of_ble_eq_true rfl, ?_⟩
  · show tyCode t + 16 * acc.val < 256; omega
  · show parse9 0 (tyCode t + 16 * acc.val) c o = some (.ld c acc t o)
    have h0 : (tyCode t + 16 * acc.val) / 16 = acc.val := by omega
    have h1 : (tyCode t + 16 * acc.val) % 16 = tyCode t := by omega
    simp [parse9, h0, h1]
theorem st (c : Ctl) (acc : Fin 9) (t : Ty) (o : Ops) : Statement (.st c acc t o) := by
  intro _ _ _ _ hf ho hs hm; cases hf; cases ho
  have : tyCode t < 16 := by cases t <;> first | decide | (cases hs; cases hm)
  refine ⟨?_, Nat.le_of_ble_eq_true rfl, ?_⟩
  · show tyCode t + 16 * acc.val < 256; omega
  · show parse9 1 (tyCode t + 16 * acc.val) c o = some (.st c acc t o)
    have h0 : (tyCode t + 16 * acc.val) / 16 = acc.val := by omega
    have h1 : (tyCode t + 16 * acc.val) % 16 = tyCode t := by omega
    simp [parse9, h0, h1]
theorem ldu (c : Ctl) (t : Ty) (o : Ops) : Statement (.ldu c t o) := by
  intro _ _ _ _ hf ho hs hm; cases hf; cases ho
  have : tyCode t < 16 := by cases t <;> first | decide | (cases hs; cases hm)
  refine ⟨?_, Nat.le_of_ble_eq_true rfl, ?_⟩
  · show tyCode t < 256; omega
  · show parse9 2 (tyCode t) c o = some (.ldu c t o)
    have h0 : (tyCode t) % 16 = tyCode t := by omega
    simp [parse9, h0]
theorem pvaddr (c : Ctl) (o : Ops) : Statement (.pvaddr c o) := by
  intro _ _ _ _ hf ho hs hm; cases hf; cases ho
  exact ⟨Nat.le_of_ble_eq_true rfl, Nat.le_of_ble_eq_true rfl, rfl⟩
theorem pf (c : Ctl) (l2 : Bool) (o : Ops) : Statement (.pf c l2 o) := by
  intro _ _ _ _ hf ho hs hm; cases hf; cases ho
  have := b2n_lt l2
  refine ⟨?_, Nat.le_of_ble_eq_true rfl, ?_⟩
  · show 16 * b2n l2 < 256; omega
  · show parse9 4 (16 * b2n l2) c o = some (.pf c l2 o)
    have hbl2 : bitAt (16 * b2n l2) 4 = l2 := by cases l2 <;> simp [bitAt, b2n]
    simp [parse9, hbl2]
theorem atom (c : Ctl) (f : AtomFn) (t : Ty) (o : Ops) : Statement (.atom c f t o) := by
  intro _ _ _ _ hf ho hs hm; cases hf; cases ho
  have := atomCode_lt f; have := tyCode_lt t
  refine ⟨?_, Nat.le_of_ble_eq_true rfl, ?_⟩
  · show tyCode t + 32 * atomCode f < 256; omega
  · show parse10 0 (tyCode t + 32 * atomCode f) c o = some (.atom c f t o)
    have h0 : (tyCode t + 32 * atomCode f) / 32 = atomCode f := by omega
    have h1 : (tyCode t + 32 * atomCode f) % 32 = tyCode t := by omega
    simp [parse10, h0, h1]
theorem atomcas (c : Ctl) (t : Ty) (o : Ops) : Statement (.atomcas c t o) := by
  intro _ _ _ _ hf ho hs hm; cases hf; cases ho
  have := tyCode_lt t
  refine ⟨?_, Nat.le_of_ble_eq_true rfl, ?_⟩
  · show tyCode t < 256; omega
  · show parse10 1 (tyCode t) c o = some (.atomcas c t o)
    have h0 : (tyCode t) % 32 = tyCode t := by omega
    simp [parse10, h0]
theorem red (c : Ctl) (f : AtomFn) (t : Ty) (o : Ops) : Statement (.red c f t o) := by
  intro _ _ _ _ hf ho hs hm; cases hf; cases ho
  have := atomCode_lt f; have := tyCode_lt t
  refine ⟨?_, Nat.le_of_ble_eq_true rfl, ?_⟩
  · show tyCode t + 32 * atomCode f < 256; omega
  · show parse10 2 (tyCode t + 32 * atomCode f) c o = some (.red c f t o)
    have h0 : (tyCode t + 32 * atomCode f) / 32 = atomCode f := by omega
    have h1 : (tyCode t + 32 * atomCode f) % 32 = tyCode t := by omega
    simp [parse10, h0, h1]
theorem fence (c : Ctl) (o : Ops) : Statement (.fence c o) := by
  intro _ _ _ _ hf ho hs hm; cases hf; cases ho
  exact ⟨Nat.le_of_ble_eq_true rfl, Nat.le_of_ble_eq_true rfl, rfl⟩
theorem nmlook (c : Ctl) (dsel : Fin 8) (o : Ops) : Statement (.nmlook c dsel o) := by
  intro _ _ _ _ hf ho hs hm; cases hf; cases ho
  refine ⟨?_, Nat.le_of_ble_eq_true rfl, ?_⟩
  · show 32 * dsel.val < 256; omega
  · show parse11 0 (32 * dsel.val) c o = some (.nmlook c dsel o)
    simp [parse11]
theorem nmnode (c : Ctl) (dsel : Fin 8) (o : Ops) : Statement (.nmnode c dsel o) := by
  intro _ _ _ _ hf ho hs hm; cases hf; cases ho
  refine ⟨?_, Nat.le_of_ble_eq_true rfl, ?_⟩
  · show 32 * dsel.val < 256; omega
  · show parse11 1 (32 * dsel.val) c o = some (.nmnode c dsel o)
    simp [parse11]
theorem nmreadLine (c : Ctl) (dsel : Fin 8) (root : Bool) (o : Ops) : Statement (.nmreadLine c dsel root o) := by
  intro _ _ _ _ hf ho hs hm; cases hf; cases ho
  have := b2n_lt root
  refine ⟨?_, Nat.le_of_ble_eq_true rfl, ?_⟩
  · show 16 * b2n root + 32 * dsel.val < 256; omega
  · show parse11 2 (16 * b2n root + 32 * dsel.val) c o = some (.nmreadLine c dsel root o)
    have hfdsel : Fin.ofNat 8 ((16 * b2n root + 32 * dsel.val) / 32) = dsel := by ext; simp [Fin.ofNat] <;> omega
    have hbroot : bitAt (16 * b2n root + 32 * dsel.val) 4 = root := by cases root <;> simp [bitAt, b2n] <;> omega
    have h0 : bitAt (16 * b2n root + 32 * dsel.val) 0 = false := by cases root <;> simp [bitAt, b2n] <;> omega
    simp [-Fin.ofNat_eq_cast, parse11, hfdsel, hbroot, h0]
theorem nmreadPiece (c : Ctl) (dsel : Fin 8) (root : Bool) (o : Ops) : Statement (.nmreadPiece c dsel root o) := by
  intro _ _ _ _ hf ho hs hm; cases hf; cases ho
  have := b2n_lt root
  refine ⟨?_, Nat.le_of_ble_eq_true rfl, ?_⟩
  · show 1 + 16 * b2n root + 32 * dsel.val < 256; omega
  · show parse11 2 (1 + 16 * b2n root + 32 * dsel.val) c o = some (.nmreadPiece c dsel root o)
    have hfdsel : Fin.ofNat 8 ((1 + 16 * b2n root + 32 * dsel.val) / 32) = dsel := by ext; simp [Fin.ofNat] <;> omega
    have hbroot : bitAt (1 + 16 * b2n root + 32 * dsel.val) 4 = root := by cases root <;> simp [bitAt, b2n] <;> omega
    have h0 : bitAt (1 + 16 * b2n root + 32 * dsel.val) 0 = true := by cases root <;> simp [bitAt, b2n] <;> omega
    simp [-Fin.ofNat_eq_cast, parse11, hfdsel, hbroot, h0]
theorem nmwalk (c : Ctl) (dsel : Fin 8) (root : Bool) (o : Ops) : Statement (.nmwalk c dsel root o) := by
  intro _ _ _ _ hf ho hs hm; cases hf; cases ho
  have := b2n_lt root
  refine ⟨?_, Nat.le_of_ble_eq_true rfl, ?_⟩
  · show 16 * b2n root + 32 * dsel.val < 256; omega
  · show parse11 3 (16 * b2n root + 32 * dsel.val) c o = some (.nmwalk c dsel root o)
    have hfdsel : Fin.ofNat 8 ((16 * b2n root + 32 * dsel.val) / 32) = dsel := by ext; simp [Fin.ofNat] <;> omega
    have hbroot : bitAt (16 * b2n root + 32 * dsel.val) 4 = root := by cases root <;> simp [bitAt, b2n] <;> omega
    simp [-Fin.ofNat_eq_cast, parse11, hfdsel, hbroot]
theorem nmswap (c : Ctl) (dsel : Fin 8) (o : Ops) : Statement (.nmswap c dsel o) := by
  intro _ _ _ _ hf ho hs hm; cases hf; cases ho
  refine ⟨?_, Nat.le_of_ble_eq_true rfl, ?_⟩
  · show 32 * dsel.val < 256; omega
  · show parse11 4 (32 * dsel.val) c o = some (.nmswap c dsel o)
    simp [parse11]
theorem nmref (c : Ctl) (dsel : Fin 8) (root : Bool) (o : Ops) : Statement (.nmref c dsel root o) := by
  intro _ _ _ _ hf ho hs hm; cases hf; cases ho
  have := b2n_lt root
  refine ⟨?_, Nat.le_of_ble_eq_true rfl, ?_⟩
  · show 16 * b2n root + 32 * dsel.val < 256; omega
  · show parse11 5 (16 * b2n root + 32 * dsel.val) c o = some (.nmref c dsel root o)
    have hfdsel : Fin.ofNat 8 ((16 * b2n root + 32 * dsel.val) / 32) = dsel := by ext; simp [Fin.ofNat] <;> omega
    have hbroot : bitAt (16 * b2n root + 32 * dsel.val) 4 = root := by cases root <;> simp [bitAt, b2n] <;> omega
    simp [-Fin.ofNat_eq_cast, parse11, hfdsel, hbroot]
theorem nmdrop (c : Ctl) (dsel : Fin 8) (o : Ops) : Statement (.nmdrop c dsel o) := by
  intro _ _ _ _ hf ho hs hm; cases hf; cases ho
  refine ⟨?_, Nat.le_of_ble_eq_true rfl, ?_⟩
  · show 32 * dsel.val < 256; omega
  · show parse11 6 (32 * dsel.val) c o = some (.nmdrop c dsel o)
    simp [parse11]
theorem nmcopy (c : Ctl) (dsel : Fin 8) (root : Bool) (o : Ops) : Statement (.nmcopy c dsel root o) := by
  intro _ _ _ _ hf ho hs hm; cases hf; cases ho
  have := b2n_lt root
  refine ⟨?_, Nat.le_of_ble_eq_true rfl, ?_⟩
  · show 16 * b2n root + 32 * dsel.val < 256; omega
  · show parse11 7 (16 * b2n root + 32 * dsel.val) c o = some (.nmcopy c dsel root o)
    have hfdsel : Fin.ofNat 8 ((16 * b2n root + 32 * dsel.val) / 32) = dsel := by ext; simp [Fin.ofNat] <;> omega
    have hbroot : bitAt (16 * b2n root + 32 * dsel.val) 4 = root := by cases root <;> simp [bitAt, b2n] <;> omega
    simp [-Fin.ofNat_eq_cast, parse11, hfdsel, hbroot]
theorem cpin (c : Ctl) (coord : Fin 32) (bytes : Bool) (sig : Bool) (o : Ops) : Statement (.cpin c coord bytes sig o) := by
  intro _ _ _ _ hf ho hs hm; cases hf; cases ho
  have := b2n_lt bytes; have := b2n_lt sig
  refine ⟨?_, Nat.le_of_ble_eq_true rfl, ?_⟩
  · show coord.val + 32 * b2n bytes + 64 * b2n sig < 256; omega
  · show parse12 0 (coord.val + 32 * b2n bytes + 64 * b2n sig) c o = some (.cpin c coord bytes sig o)
    have hfcoord : Fin.ofNat 32 (coord.val + 32 * b2n bytes + 64 * b2n sig) = coord := by ext; simp [Fin.ofNat] <;> omega
    have hbbytes : bitAt (coord.val + 32 * b2n bytes + 64 * b2n sig) 5 = bytes := by cases bytes <;> cases sig <;> simp [bitAt, b2n] <;> omega
    have hbsig : bitAt (coord.val + 32 * b2n bytes + 64 * b2n sig) 6 = sig := by cases bytes <;> cases sig <;> simp [bitAt, b2n] <;> omega
    simp [-Fin.ofNat_eq_cast, parse12, hfcoord, hbbytes, hbsig]
theorem cpout (c : Ctl) (coord : Fin 32) (bytes : Bool) (sig : Bool) (o : Ops) : Statement (.cpout c coord bytes sig o) := by
  intro _ _ _ _ hf ho hs hm; cases hf; cases ho
  have := b2n_lt bytes; have := b2n_lt sig
  refine ⟨?_, Nat.le_of_ble_eq_true rfl, ?_⟩
  · show coord.val + 32 * b2n bytes + 64 * b2n sig < 256; omega
  · show parse12 1 (coord.val + 32 * b2n bytes + 64 * b2n sig) c o = some (.cpout c coord bytes sig o)
    have hfcoord : Fin.ofNat 32 (coord.val + 32 * b2n bytes + 64 * b2n sig) = coord := by ext; simp [Fin.ofNat] <;> omega
    have hbbytes : bitAt (coord.val + 32 * b2n bytes + 64 * b2n sig) 5 = bytes := by cases bytes <;> cases sig <;> simp [bitAt, b2n] <;> omega
    have hbsig : bitAt (coord.val + 32 * b2n bytes + 64 * b2n sig) 6 = sig := by cases bytes <;> cases sig <;> simp [bitAt, b2n] <;> omega
    simp [-Fin.ofNat_eq_cast, parse12, hfcoord, hbbytes, hbsig]
theorem cpmc (c : Ctl) (coord : Fin 32) (bytes : Bool) (o : Ops) : Statement (.cpmc c coord bytes o) := by
  intro _ _ _ _ hf ho hs hm; cases hf; cases ho
  have := b2n_lt bytes
  refine ⟨?_, Nat.le_of_ble_eq_true rfl, ?_⟩
  · show coord.val + 32 * b2n bytes < 256; omega
  · show parse12 2 (coord.val + 32 * b2n bytes) c o = some (.cpmc c coord bytes o)
    have hfcoord : Fin.ofNat 32 (coord.val + 32 * b2n bytes) = coord := by ext; simp [Fin.ofNat] <;> omega
    have hbbytes : bitAt (coord.val + 32 * b2n bytes) 5 = bytes := by cases bytes <;> simp [bitAt, b2n] <;> omega
    simp [-Fin.ofNat_eq_cast, parse12, hfcoord, hbbytes]
theorem cpseal (c : Ctl) (o : Ops) : Statement (.cpseal c o) := by
  intro _ _ _ _ hf ho hs hm; cases hf; cases ho
  exact ⟨Nat.le_of_ble_eq_true rfl, Nat.le_of_ble_eq_true rfl, rfl⟩
theorem barinit (c : Ctl) (o : Ops) : Statement (.barinit c o) := by
  intro _ _ _ _ hf ho hs hm; cases hf; cases ho
  exact ⟨Nat.le_of_ble_eq_true rfl, Nat.le_of_ble_eq_true rfl, rfl⟩
theorem arrive (c : Ctl) (one : Bool) (x : Bool) (o : Ops) : Statement (.arrive c one x o) := by
  intro _ _ _ _ hf ho hs hm; cases hf; cases ho
  have := b2n_lt one; have := b2n_lt x
  refine ⟨?_, Nat.le_of_ble_eq_true rfl, ?_⟩
  · show b2n one + 2 * b2n x < 256; omega
  · show parse12 5 (b2n one + 2 * b2n x) c o = some (.arrive c one x o)
    have hbone : bitAt (b2n one + 2 * b2n x) 0 = one := by cases one <;> cases x <;> simp [bitAt, b2n]
    have hbx : bitAt (b2n one + 2 * b2n x) 1 = x := by cases one <;> cases x <;> simp [bitAt, b2n]
    simp [parse12, hbone, hbx]
theorem bwait (c : Ctl) (seq : Bool) (o : Ops) : Statement (.bwait c seq o) := by
  intro _ _ _ _ hf ho hs hm; cases hf; cases ho
  have := b2n_lt seq
  refine ⟨?_, Nat.le_of_ble_eq_true rfl, ?_⟩
  · show b2n seq < 256; omega
  · show parse12 6 (b2n seq) c o = some (.bwait c seq o)
    have hbseq : bitAt (b2n seq) 0 = seq := by cases seq <;> simp [bitAt, b2n]
    simp [parse12, hbseq]
theorem barinv (c : Ctl) (o : Ops) : Statement (.barinv c o) := by
  intro _ _ _ _ hf ho hs hm; cases hf; cases ho
  exact ⟨Nat.le_of_ble_eq_true rfl, Nat.le_of_ble_eq_true rfl, rfl⟩
theorem mma (c : Ctl) (k : Fin 8) (coord : Fin 32) (o : Ops) : Statement (.mma c k coord o) := by
  intro _ _ _ _ hf ho hs hm; cases hf; cases ho
  refine ⟨?_, Nat.le_of_ble_eq_true rfl, ?_⟩
  · show coord.val + 32 * k.val < 256; omega
  · show parse13 0 (coord.val + 32 * k.val) c o = some (.mma c k coord o)
    have hfk : Fin.ofNat 8 ((coord.val + 32 * k.val) / 32) = k := by ext; simp [Fin.ofNat] <;> omega
    have hfcoord : Fin.ofNat 32 (coord.val + 32 * k.val) = coord := by ext; simp [Fin.ofNat] <;> omega
    simp [-Fin.ofNat_eq_cast, parse13, hfk, hfcoord]
theorem mzero (c : Ctl) (o : Ops) : Statement (.mzero c o) := by
  intro _ _ _ _ hf ho hs hm; cases hf; cases ho
  exact ⟨Nat.le_of_ble_eq_true rfl, Nat.le_of_ble_eq_true rfl, rfl⟩
theorem mld (c : Ctl) (coord : Fin 32) (o : Ops) : Statement (.mld c coord o) := by
  intro _ _ _ _ hf ho hs hm; cases hf; cases ho
  refine ⟨?_, Nat.le_of_ble_eq_true rfl, ?_⟩
  · show coord.val < 256; omega
  · show parse13 2 (coord.val) c o = some (.mld c coord o)
    have hfcoord : Fin.ofNat 32 (coord.val) = coord := by ext; simp [Fin.ofNat] <;> omega
    simp [-Fin.ofNat_eq_cast, parse13, hfcoord]
theorem mdrain (c : Ctl) (r : Rnd) (coord : Fin 32) (o : Ops) : Statement (.mdrain c r coord o) := by
  intro _ _ _ _ hf ho hs hm; cases hf; cases ho
  have := rndCode_lt r
  refine ⟨?_, Nat.le_of_ble_eq_true rfl, ?_⟩
  · show coord.val + 32 * rndCode r < 256; omega
  · show parse13 3 (coord.val + 32 * rndCode r) c o = some (.mdrain c r coord o)
    have h0 : (coord.val + 32 * rndCode r) / 32 = rndCode r := by omega
    have hfcoord : Fin.ofNat 32 (coord.val + 32 * rndCode r) = coord := by ext; simp [Fin.ofNat] <;> omega
    simp [-Fin.ofNat_eq_cast, parse13, h0, hfcoord]
theorem mmov (c : Ctl) (t : Ty) (o : Ops) : Statement (.mmov c t o) := by
  intro _ _ _ _ hf ho hs hm; cases hf; cases ho
  have := tyCode_lt t
  refine ⟨?_, Nat.le_of_ble_eq_true rfl, ?_⟩
  · show tyCode t < 256; omega
  · show parse13 4 (tyCode t) c o = some (.mmov c t o)
    have h0 : (tyCode t) % 32 = tyCode t := by omega
    simp [parse13, h0]
theorem mput (c : Ctl) (t : Ty) (o : Ops) : Statement (.mput c t o) := by
  intro _ _ _ _ hf ho hs hm; cases hf; cases ho
  have := tyCode_lt t
  refine ⟨?_, Nat.le_of_ble_eq_true rfl, ?_⟩
  · show tyCode t < 256; omega
  · show parse13 5 (tyCode t) c o = some (.mput c t o)
    have h0 : (tyCode t) % 32 = tyCode t := by omega
    simp [parse13, h0]
theorem launch (c : Ctl) (o : Ops) : Statement (.launch c o) := by
  intro _ _ _ _ hf ho hs hm; cases hf; cases ho
  exact ⟨Nat.le_of_ble_eq_true rfl, Nat.le_of_ble_eq_true rfl, rfl⟩
theorem trigger (c : Ctl) (o : Ops) : Statement (.trigger c o) := by
  intro _ _ _ _ hf ho hs hm; cases hf; cases ho
  exact ⟨Nat.le_of_ble_eq_true rfl, Nat.le_of_ble_eq_true rfl, rfl⟩
theorem tsig (c : Ctl) (o : Ops) : Statement (.tsig c o) := by
  intro _ _ _ _ hf ho hs hm; cases hf; cases ho
  exact ⟨Nat.le_of_ble_eq_true rfl, Nat.le_of_ble_eq_true rfl, rfl⟩
theorem cancel (c : Ctl) (l : Level) (o : Ops) : Statement (.cancel c l o) := by
  intro _ _ _ _ hf ho hs hm; cases hf; cases ho
  cases l <;> exact ⟨Nat.le_of_ble_eq_true rfl, Nat.le_of_ble_eq_true rfl, rfl⟩
theorem tdset (c : Ctl) (o : Ops) : Statement (.tdset c o) := by
  intro _ _ _ _ hf ho hs hm; cases hf; cases ho
  exact ⟨Nat.le_of_ble_eq_true rfl, Nat.le_of_ble_eq_true rfl, rfl⟩
theorem tdmod (c : Ctl) (f : TdField) (o : Ops) : Statement (.tdmod c f o) := by
  intro _ _ _ _ hf ho hs hm; cases hf; cases ho
  cases f <;> exact ⟨Nat.le_of_ble_eq_true rfl, Nat.le_of_ble_eq_true rfl, rfl⟩
theorem tdinv (c : Ctl) (all : Bool) (o : Ops) : Statement (.tdinv c all o) := by
  intro _ _ _ _ hf ho hs hm; cases hf; cases ho
  have := b2n_lt all
  refine ⟨?_, Nat.le_of_ble_eq_true rfl, ?_⟩
  · show b2n all < 256; omega
  · show parse14 6 (b2n all) c o = some (.tdinv c all o)
    have hball : bitAt (b2n all) 0 = all := by cases all <;> simp [bitAt, b2n]
    simp [parse14, hball]
theorem cread (c : Ctl) (sp : ReadSpace) (o : Ops) : Statement (.cread c sp o) := by
  intro _ _ _ _ hf ho hs hm; cases hf; cases ho
  rcases sp with _ | _ | _ | _ | l | d | _ | _
  case record =>
    refine ⟨?_, by decide, ?_⟩
    · cases l <;> exact Nat.le_of_ble_eq_true rfl
    · show (spaceOf (2 + 32 * levelCode l)).map (Instr.cread c · o) = some (.cread c (.record l) o)
      cases l <;> simp [spaceOf, levelCode, levelOf]
  case coll =>
    refine ⟨?_, by decide, ?_⟩
    · show 3 + 32 * d.val < 256; omega
    · show (spaceOf (3 + 32 * d.val)).map (Instr.cread c · o) = some (.cread c (.coll d) o)
      have h1 : (3 + 32 * d.val) % 32 = 3 := by omega
      have h2 : (3 + 32 * d.val) / 32 = d.val := by omega
      simp [spaceOf, h1, h2]
  all_goals exact ⟨Nat.le_of_ble_eq_true rfl, by decide, by simp [parseOp, parse14, modBits, spaceCode, spaceOf, sameWord]⟩
theorem sget (c : Ctl) (o : Ops) : Statement (.sget c o) := by
  intro _ _ _ _ hf ho hs hm; cases hf; cases ho
  exact ⟨Nat.le_of_ble_eq_true rfl, Nat.le_of_ble_eq_true rfl, rfl⟩
theorem sset (c : Ctl) (o : Ops) : Statement (.sset c o) := by
  intro _ _ _ _ hf ho hs hm; cases hf; cases ho
  exact ⟨Nat.le_of_ble_eq_true rfl, Nat.le_of_ble_eq_true rfl, rfl⟩
theorem zsig (c : Ctl) (o : Ops) : Statement (.zsig c o) := by
  intro _ _ _ _ hf ho hs hm; cases hf; cases ho
  exact ⟨Nat.le_of_ble_eq_true rfl, Nat.le_of_ble_eq_true rfl, rfl⟩
theorem tlbinv (c : Ctl) (t : TlbType) (o : Ops) : Statement (.tlbinv c t o) := by
  intro _ _ _ _ hf ho hs hm; cases hf; cases ho
  cases t <;> exact ⟨Nat.le_of_ble_eq_true rfl, Nat.le_of_ble_eq_true rfl, rfl⟩
theorem cmaint (c : Ctl) (t : CmaintType) (o : Ops) : Statement (.cmaint c t o) := by
  intro _ _ _ _ hf ho hs hm; cases hf; cases ho
  cases t <;> exact ⟨Nat.le_of_ble_eq_true rfl, Nat.le_of_ble_eq_true rfl, rfl⟩
theorem halt (c : Ctl) (bnd : Bool) (gang : Bool) (o : Ops) : Statement (.halt c bnd gang o) := by
  intro _ _ _ _ hf ho hs hm; cases hf; cases ho
  have := b2n_lt bnd; have := b2n_lt gang
  refine ⟨?_, Nat.le_of_ble_eq_true rfl, ?_⟩
  · show b2n bnd + 2 * b2n gang < 256; omega
  · show parse15 5 (b2n bnd + 2 * b2n gang) c o = some (.halt c bnd gang o)
    have hbbnd : bitAt (b2n bnd + 2 * b2n gang) 0 = bnd := by cases bnd <;> cases gang <;> simp [bitAt, b2n]
    have hbgang : bitAt (b2n bnd + 2 * b2n gang) 1 = gang := by cases bnd <;> cases gang <;> simp [bitAt, b2n]
    simp [parse15, hbbnd, hbgang]
theorem bulkEvict (c : Ctl) (o : Ops) : Statement (.bulkEvict c o) := by
  intro _ _ _ _ hf ho hs hm; cases hf; cases ho
  exact ⟨Nat.le_of_ble_eq_true rfl, Nat.le_of_ble_eq_true rfl, rfl⟩
theorem bulkReturn (c : Ctl) (o : Ops) : Statement (.bulkReturn c o) := by
  intro _ _ _ _ hf ho hs hm; cases hf; cases ho
  exact ⟨Nat.le_of_ble_eq_true rfl, Nat.le_of_ble_eq_true rfl, rfl⟩
theorem wsel (c : Ctl) (o : Ops) : Statement (.wsel c o) := by
  intro _ _ _ _ hf ho hs hm; cases hf; cases ho
  exact ⟨Nat.le_of_ble_eq_true rfl, Nat.le_of_ble_eq_true rfl, rfl⟩
theorem nmsync (c : Ctl) (dsel : Fin 8) (o : Ops) : Statement (.nmsync c dsel o) := by
  intro _ _ _ _ hf ho hs hm; cases hf; cases ho
  refine ⟨?_, Nat.le_of_ble_eq_true rfl, ?_⟩
  · show 32 * dsel.val < 256; omega
  · show parse15 8 (32 * dsel.val) c o = some (.nmsync c dsel o)
    simp [parse15]
theorem rvLi (o : RvOps) : Statement (.rvLi o) := by
  intro _ _ _ _ h; cases h
theorem rvMov (o : RvOps) : Statement (.rvMov o) := by
  intro _ _ _ _ h; cases h
theorem rvAdd (o : RvOps) : Statement (.rvAdd o) := by
  intro _ _ _ _ h; cases h
theorem rvSub (o : RvOps) : Statement (.rvSub o) := by
  intro _ _ _ _ h; cases h
theorem rvAnd (o : RvOps) : Statement (.rvAnd o) := by
  intro _ _ _ _ h; cases h
theorem rvOr (o : RvOps) : Statement (.rvOr o) := by
  intro _ _ _ _ h; cases h
theorem rvXor (o : RvOps) : Statement (.rvXor o) := by
  intro _ _ _ _ h; cases h
theorem rvShl (o : RvOps) : Statement (.rvShl o) := by
  intro _ _ _ _ h; cases h
theorem rvShr (o : RvOps) : Statement (.rvShr o) := by
  intro _ _ _ _ h; cases h
theorem rvMul (o : RvOps) : Statement (.rvMul o) := by
  intro _ _ _ _ h; cases h
theorem rvMin (o : RvOps) : Statement (.rvMin o) := by
  intro _ _ _ _ h; cases h
theorem rvMax (o : RvOps) : Statement (.rvMax o) := by
  intro _ _ _ _ h; cases h
theorem rvSlt (o : RvOps) : Statement (.rvSlt o) := by
  intro _ _ _ _ h; cases h
theorem rvSltn (o : RvOps) : Statement (.rvSltn o) := by
  intro _ _ _ _ h; cases h
theorem rvSeq (o : RvOps) : Statement (.rvSeq o) := by
  intro _ _ _ _ h; cases h
theorem rvSel (o : RvOps) : Statement (.rvSel o) := by
  intro _ _ _ _ h; cases h
theorem rvCget (o : RvOps) : Statement (.rvCget o) := by
  intro _ _ _ _ h; cases h
theorem rvCld (o : RvOps) : Statement (.rvCld o) := by
  intro _ _ _ _ h; cases h
theorem rvCst (o : RvOps) : Statement (.rvCst o) := by
  intro _ _ _ _ h; cases h
theorem rvCcas (o : RvOps) : Statement (.rvCcas o) := by
  intro _ _ _ _ h; cases h
theorem rvLoop (o : RvOps) : Statement (.rvLoop o) := by
  intro _ _ _ _ h; cases h
theorem rvLend (o : RvOps) : Statement (.rvLend o) := by
  intro _ _ _ _ h; cases h
theorem rvBf (o : RvOps) : Statement (.rvBf o) := by
  intro _ _ _ _ h; cases h
theorem rvJf (o : RvOps) : Statement (.rvJf o) := by
  intro _ _ _ _ h; cases h
theorem rvDset (o : RvOps) : Statement (.rvDset o) := by
  intro _ _ _ _ h; cases h
theorem rvDone (o : RvOps) : Statement (.rvDone o) := by
  intro _ _ _ _ h; cases h
theorem rvAddi (o : RvOps) : Statement (.rvAddi o) := by
  intro _ _ _ _ h; cases h
theorem rvAndi (o : RvOps) : Statement (.rvAndi o) := by
  intro _ _ _ _ h; cases h
theorem evJobSubmit (fn : Fn) (addr : DWord) (sealed : Bool) : Statement (.evJobSubmit fn addr sealed) := by
  intro _ _ _ _ h; cases h
theorem evS1rootWrite (vf : Fin 128) (v : DWord) : Statement (.evS1rootWrite vf v) := by
  intro _ _ _ _ h; cases h
theorem evTlbInv (vf : Fin 128) (v : DWord) : Statement (.evTlbInv vf v) := by
  intro _ _ _ _ h; cases h
theorem evReeveLoad (fn : Fn) (addr : DWord) : Statement (.evReeveLoad fn addr) := by
  intro _ _ _ _ h; cases h
theorem evReeveLoadComplete (fn : Fn) : Statement (.evReeveLoadComplete fn) := by
  intro _ _ _ _ h; cases h
theorem evReeveCtlArm (fn : Fn) (v : DWord) : Statement (.evReeveCtlArm fn v) := by
  intro _ _ _ _ h; cases h
theorem evReeveCtlUnload (fn : Fn) (v : DWord) : Statement (.evReeveCtlUnload fn v) := by
  intro _ _ _ _ h; cases h
theorem evPrqPop (fn : Fn) : Statement (.evPrqPop fn) := by
  intro _ _ _ _ h; cases h
theorem evPrqReplyResolved (fn : Fn) (v : DWord) : Statement (.evPrqReplyResolved fn v) := by
  intro _ _ _ _ h; cases h
theorem evPrqReplyFail (fn : Fn) (v : DWord) : Statement (.evPrqReplyFail fn v) := by
  intro _ _ _ _ h; cases h
theorem evEvqPull (fn : Fn) (v : DWord) : Statement (.evEvqPull fn v) := by
  intro _ _ _ _ h; cases h
theorem evTrapReplyResume (fn : Fn) (v : DWord) : Statement (.evTrapReplyResume fn v) := by
  intro _ _ _ _ h; cases h
theorem evTrapReplyEnd (fn : Fn) (v : DWord) : Statement (.evTrapReplyEnd fn v) := by
  intro _ _ _ _ h; cases h
theorem evPartCreate (addr : DWord) : Statement (.evPartCreate addr) := by
  intro _ _ _ _ h; cases h
theorem evPartDestroy (addr : DWord) : Statement (.evPartDestroy addr) := by
  intro _ _ _ _ h; cases h
theorem evBindVf (addr : DWord) : Statement (.evBindVf addr) := by
  intro _ _ _ _ h; cases h
theorem evUnbindVf (addr : DWord) : Statement (.evUnbindVf addr) := by
  intro _ _ _ _ h; cases h
theorem evUnbindVfComplete (vf : Fin 128) : Statement (.evUnbindVfComplete vf) := by
  intro _ _ _ _ h; cases h
theorem evReceipt (addr : DWord) : Statement (.evReceipt addr) := by
  intro _ _ _ _ h; cases h
theorem evUsagePull (v : DWord) : Statement (.evUsagePull v) := by
  intro _ _ _ _ h; cases h
theorem evUsageDone : Statement .evUsageDone := by
  intro _ _ _ _ h; cases h
theorem evLifeRead (v : DWord) : Statement (.evLifeRead v) := by
  intro _ _ _ _ h; cases h
theorem evCairnRegion (addr : DWord) : Statement (.evCairnRegion addr) := by
  intro _ _ _ _ h; cases h
theorem evCairnCreate (addr : DWord) : Statement (.evCairnCreate addr) := by
  intro _ _ _ _ h; cases h
theorem evCairnDelete (addr : DWord) : Statement (.evCairnDelete addr) := by
  intro _ _ _ _ h; cases h
theorem evCairnLink (addr : DWord) : Statement (.evCairnLink addr) := by
  intro _ _ _ _ h; cases h
theorem evCairnUnlink (addr : DWord) : Statement (.evCairnUnlink addr) := by
  intro _ _ _ _ h; cases h
theorem evRailVote (p : Fin 64) (v : DWord) : Statement (.evRailVote p v) := by
  intro _ _ _ _ h; cases h
theorem evRegisterWrite (fn : Fn) (off : Nat) (v : BitVec 256) : Statement (.evRegisterWrite fn off v) := by
  intro _ _ _ _ h; cases h
theorem evHostWrite (w : Fin 8) (off : Nat) (data : List Byte) : Statement (.evHostWrite w off data) := by
  intro _ _ _ _ h; cases h
theorem evHostRead (w : Fin 8) (off : Nat) (n : Nat) : Statement (.evHostRead w off n) := by
  intro _ _ _ _ h; cases h
theorem evPeerAccess (port : Fin 12) (vf : Fin 128) (ipa : Nat) (op : PeerOp) : Statement (.evPeerAccess port vf ipa op) := by
  intro _ _ _ _ h; cases h
theorem evFlr (vf : Fin 128) : Statement (.evFlr vf) := by
  intro _ _ _ _ h; cases h
theorem evStartUp (r : StartResult) : Statement (.evStartUp r) := by
  intro _ _ _ _ h; cases h
theorem evFlitTagFail (way : LinkWay) : Statement (.evFlitTagFail way) := by
  intro _ _ _ _ h; cases h
theorem evLink (port : Fin 12) (up : Bool) : Statement (.evLink port up) := by
  intro _ _ _ _ h; cases h
theorem evColRekey (link : Fin 38) : Statement (.evColRekey link) := by
  intro _ _ _ _ h; cases h
theorem evPtmAlign (offset : Int) : Statement (.evPtmAlign offset) := by
  intro _ _ _ _ h; cases h
theorem evQuantumExpiry (cl : Fin 192) : Statement (.evQuantumExpiry cl) := by
  intro _ _ _ _ h; cases h
theorem evTickWatchdog (cl : Fin 192) : Statement (.evTickWatchdog cl) := by
  intro _ _ _ _ h; cases h
theorem evEnq (cl : Fin 192) : Statement (.evEnq cl) := by
  intro _ _ _ _ h; cases h
theorem evPick (cl : Fin 192) : Statement (.evPick cl) := by
  intro _ _ _ _ h; cases h
theorem evTick (cl : Fin 192) : Statement (.evTick cl) := by
  intro _ _ _ _ h; cases h
theorem evBlock (cl : Fin 192) : Statement (.evBlock cl) := by
  intro _ _ _ _ h; cases h
theorem evWake (cl : Fin 192) : Statement (.evWake cl) := by
  intro _ _ _ _ h; cases h
theorem evMigr (cl : Fin 192) : Statement (.evMigr cl) := by
  intro _ _ _ _ h; cases h
theorem evBlockThreshold (uid : Nat) : Statement (.evBlockThreshold uid) := by
  intro _ _ _ _ h; cases h
theorem evReeveOverrun (cl : Fin 192) : Statement (.evReeveOverrun cl) := by
  intro _ _ _ _ h; cases h
theorem evFairnessTimerExpiry (uid : Nat) (k : Nat) : Statement (.evFairnessTimerExpiry uid k) := by
  intro _ _ _ _ h; cases h
theorem evSqueeze (core : Fin 384) (q : Fin 4) : Statement (.evSqueeze core q) := by
  intro _ _ _ _ h; cases h
theorem evSpillRestore (core : Fin 384) (q : Fin 4) : Statement (.evSpillRestore core q) := by
  intro _ _ _ _ h; cases h
theorem evLaunchAccept (cl : Fin 192) : Statement (.evLaunchAccept cl) := by
  intro _ _ _ _ h; cases h
theorem evJobStart (fn : Fn) (part : Fin 64) (entry : Fin 16) : Statement (.evJobStart fn part entry) := by
  intro _ _ _ _ h; cases h
theorem evGraphExpand (fn : Fn) (part : Fin 64) (entry : Fin 16) (g : Fin 64) : Statement (.evGraphExpand fn part entry g) := by
  intro _ _ _ _ h; cases h
theorem evPhaseComplete (fn : Fn) (part : Fin 64) (entry : Fin 16) : Statement (.evPhaseComplete fn part entry) := by
  intro _ _ _ _ h; cases h
theorem evUnitCut (lid : Nat) : Statement (.evUnitCut lid) := by
  intro _ _ _ _ h; cases h
theorem evUnitAdmit (cl : Fin 192) (eid : Nat) (core1 : Bool) : Statement (.evUnitAdmit cl eid core1) := by
  intro _ _ _ _ h; cases h
theorem evConcurrentAdmit (lid : Nat) : Statement (.evConcurrentAdmit lid) := by
  intro _ _ _ _ h; cases h
theorem evSpanResumeAlone (inUnit : Bool) (owner : Nat) (slot : Nat) : Statement (.evSpanResumeAlone inUnit owner slot) := by
  intro _ _ _ _ h; cases h
theorem evItemQueueFetch (core : Fin 384) (lid : Nat) : Statement (.evItemQueueFetch core lid) := by
  intro _ _ _ _ h; cases h
theorem evUnitComplete (uid : Nat) : Statement (.evUnitComplete uid) := by
  intro _ _ _ _ h; cases h
theorem evMemoryResponse (uid : Nat) (k : Nat) (id : Nat) (gen : Byte) : Statement (.evMemoryResponse uid k id gen) := by
  intro _ _ _ _ h; cases h
theorem evSpanResponse (inUnit : Bool) (owner : Nat) (slot : Nat) : Statement (.evSpanResponse inUnit owner slot) := by
  intro _ _ _ _ h; cases h
theorem evResourceHoldEnd (uid : Nat) (k : Nat) : Statement (.evResourceHoldEnd uid k) := by
  intro _ _ _ _ h; cases h
theorem evMmaStart (core : Fin 384) (q : Fin 4) : Statement (.evMmaStart core q) := by
  intro _ _ _ _ h; cases h
theorem evMmaComplete (core : Fin 384) (q : Fin 4) : Statement (.evMmaComplete core q) := by
  intro _ _ _ _ h; cases h
theorem evMdrainSnapshot (core : Fin 384) (q : Fin 4) (id : Nat) : Statement (.evMdrainSnapshot core q id) := by
  intro _ _ _ _ h; cases h
theorem evMdrainApply (core : Fin 384) (q : Fin 4) (id : Nat) : Statement (.evMdrainApply core q id) := by
  intro _ _ _ _ h; cases h
theorem evCopyLand (core : Fin 384) (id : Nat) : Statement (.evCopyLand core id) := by
  intro _ _ _ _ h; cases h
theorem evBatchDeferredArrival (core : Fin 384) (id : Nat) : Statement (.evBatchDeferredArrival core id) := by
  intro _ _ _ _ h; cases h
theorem evUnitSave (uid : Nat) : Statement (.evUnitSave uid) := by
  intro _ _ _ _ h; cases h
theorem evBoundaryStopDone (uid : Nat) : Statement (.evBoundaryStopDone uid) := by
  intro _ _ _ _ h; cases h
theorem evBoundaryStopMiss (uid : Nat) : Statement (.evBoundaryStopMiss uid) := by
  intro _ _ _ _ h; cases h
theorem evHaltDone (id : Nat) : Statement (.evHaltDone id) := by
  intro _ _ _ _ h; cases h
theorem evBulkDone (die : Fin 16) (engine : Fin 8) : Statement (.evBulkDone die engine) := by
  intro _ _ _ _ h; cases h
theorem evBankMove (core : Fin 384) (src : BankRole) (dst : BankRole) : Statement (.evBankMove core src dst) := by
  intro _ _ _ _ h; cases h
theorem evLaneRatioApply (cl : Fin 192) : Statement (.evLaneRatioApply cl) := by
  intro _ _ _ _ h; cases h
theorem evQuarterWorldMove (core : Fin 384) (q : Fin 4) : Statement (.evQuarterWorldMove core q) := by
  intro _ _ _ _ h; cases h
theorem evPassCountSet (cl : Fin 192) (v : BitVec 2) : Statement (.evPassCountSet cl v) := by
  intro _ _ _ _ h; cases h
theorem evPowerTokensSet (die : Fin 16) (n : Nat) : Statement (.evPowerTokensSet die n) := by
  intro _ _ _ _ h; cases h
theorem evMatrixTokenAdvance (die : Fin 16) : Statement (.evMatrixTokenAdvance die) := by
  intro _ _ _ _ h; cases h
theorem evUsageRecordPeriodic (p : Fin 64) : Statement (.evUsageRecordPeriodic p) := by
  intro _ _ _ _ h; cases h
theorem evMeterMs (p : Fin 64) : Statement (.evMeterMs p) := by
  intro _ _ _ _ h; cases h
theorem evCairnCacheInvalidate (core : Fin 384) : Statement (.evCairnCacheInvalidate core) := by
  intro _ _ _ _ h; cases h
theorem evReclaimNode (p : Fin 64) (dom : Fin 256) (slice : Fin 192) : Statement (.evReclaimNode p dom slice) := by
  intro _ _ _ _ h; cases h
theorem evNmsyncLineReceived (p : Fin 64) (dom : Fin 256) (name : QWord) (line : List Byte) (root : Bool) : Statement (.evNmsyncLineReceived p dom name line root) := by
  intro _ _ _ _ h; cases h
theorem evNmsyncComplete (id : Nat) (state : Fin 6) (sent : Nat) (suppressed : Nat) (target : Nat) : Statement (.evNmsyncComplete id state sent suppressed target) := by
  intro _ _ _ _ h; cases h
theorem evNmsyncTimeout (id : Nat) (target : Nat) : Statement (.evNmsyncTimeout id target) := by
  intro _ _ _ _ h; cases h
theorem evLifeHistogramWrite : Statement .evLifeHistogramWrite := by
  intro _ _ _ _ h; cases h
theorem evPartitionReassignDone (p : Fin 64) : Statement (.evPartitionReassignDone p) := by
  intro _ _ _ _ h; cases h
theorem evPartitionReleaseDone (p : Fin 64) : Statement (.evPartitionReleaseDone p) := by
  intro _ _ _ _ h; cases h
theorem evDrainEnd (p : Fin 64) : Statement (.evDrainEnd p) := by
  intro _ _ _ _ h; cases h
theorem evScrubEnd (p : Fin 64) (fails : List ScrubFail) : Statement (.evScrubEnd p fails) := by
  intro _ _ _ _ h; cases h
theorem evCopyBytesLanded (core : Fin 384) (id : Nat) (first : Nat) (n : Nat) : Statement (.evCopyBytesLanded core id first n) := by
  intro _ _ _ _ h; cases h
theorem evCopyUncorr (core : Fin 384) (id : Nat) (first : Nat) : Statement (.evCopyUncorr core id first) := by
  intro _ _ _ _ h; cases h
theorem evFlrComplete (vf : Fin 128) : Statement (.evFlrComplete vf) := by
  intro _ _ _ _ h; cases h
theorem evOrderlyShutdown : Statement .evOrderlyShutdown := by
  intro _ _ _ _ h; cases h
theorem evSpdmExchange (stream : Option Fn) : Statement (.evSpdmExchange stream) := by
  intro _ _ _ _ h; cases h
theorem evNmsyncOffer (p : Fin 64) (dom : Fin 256) (name : QWord) : Statement (.evNmsyncOffer p dom name) := by
  intro _ _ _ _ h; cases h

end Sys2Proof.Laws.Parses
end

