-- ==== Sys2Proof/Laws/Spill.lean ====
section
/-! SUPPORT. What an access at a home changes beside the memory it writes: the L2 and meters, and no unit or launch. With it, what
the traffic of spilled registers leaves alone (R102). -/

namespace Sys2Proof.Machine

open Sys2Proof

/-- `t` is `s` after some accesses at homes of global memory. -/
structure Homeward (s t : State) : Prop where
  out : Outside { s with mem := t.mem, l2 := t.l2 } t
  units : t.units = s.units
  launches : t.launches = s.launches

theorem Homeward.refl (s : State) : Homeward s s := ⟨Outside.rfl' s, rfl, rfl⟩

theorem Homeward.trans {a b c : State} (h : Homeward a b) (k : Homeward b c) : Homeward a c where
  out := Outside.trans (b := { b with mem := c.mem, l2 := c.l2 })
    { h.out with mem := rfl, l2 := rfl, fns := h.out.fns, parts := h.out.parts, clusters := h.out.clusters, blocks := h.out.blocks } k.out
  units := k.units.trans h.units
  launches := k.launches.trans h.launches

theorem homeward_foldl {α : Type} (f : State → α → State) (hf : ∀ s a, Homeward s (f s a)) (l : List α) :
    ∀ s, Homeward s (l.foldl f s) := by
  induction l with
  | nil => exact Homeward.refl
  | cons a l ih => exact fun s => (hf s a).trans (ih _)

theorem homeward_meterAdd (s : State) (p i n : Nat) : Homeward s (meterAdd s p i n) :=
  ⟨outside_setPart s p _ (fun _ => rfl), rfl, rfl⟩

theorem homeward_freeVal (s : State) : Homeward s (freeVal s).2 :=
  ⟨{ Outside.rfl' s with fns := fun _ => rfl, parts := fun _ => rfl, clusters := fun _ => rfl, blocks := fun _ => rfl }, rfl, rfl⟩

theorem homeward_setL2 (s : State) (m : Tbl L2Sector) : Homeward s { s with l2 := m } := ⟨Outside.rfl' _, rfl, rfl⟩

theorem homeward_chargeSector (s : State) (b : Bool) (sec i : Nat) : Homeward s (chargeSector s b sec i) := by
  unfold chargeSector
  split
  · split
    · exact (homeward_meterAdd s _ i 48).trans (homeward_meterAdd _ _ 5 _)
    · exact Homeward.refl s
  · exact Homeward.refl s

theorem homeward_chargeL2 (s : State) (b : Bool) (sec : Nat) : Homeward s (chargeL2 s b sec) := by
  unfold chargeL2
  split
  · split
    · exact homeward_meterAdd s _ 5 _
    · exact Homeward.refl s
  · exact Homeward.refl s

theorem homeward_l2Drop (s : State) (p : Nat → Bool) : Homeward s (l2Drop s p) :=
  (homeward_foldl _ (fun s (e : Nat × L2Sector) => homeward_chargeSector s e.2.counted e.1 3) _ s).trans (homeward_setL2 _ _)

theorem homeward_l2Room (s : State) (sec : Nat) : Homeward s (l2Room s sec) := by
  unfold l2Room
  dsimp only
  split
  · exact Homeward.refl s
  · exact (homeward_freeVal s).trans (homeward_l2Drop _ _)

theorem homeward_l2Touch (s : State) (b : Bool) (pa n : Nat) (w : Bool) : Homeward s (l2Touch s b pa n w) := by
  refine homeward_foldl _ (fun s sec => ?_) _ s
  dsimp only
  refine (homeward_chargeL2 s b sec).trans ?_
  generalize chargeL2 s b sec = s
  split
  · split
    · exact homeward_setL2 s _
    · exact Homeward.refl s
  · have h := homeward_l2Room s sec
    split
    · exact h.trans (homeward_setL2 _ _)
    · exact (h.trans (homeward_chargeSector _ b sec 2)).trans (homeward_setL2 _ _)

theorem homeward_writeMem (s : State) (b : Bool) (pa : Nat) (bs : List Byte) : Homeward s (writeHome s b (.mem pa) bs) where
  out :=
    have h := (homeward_l2Touch s b pa bs.length true).out
    { h with mem := rfl, l2 := rfl, fns := h.fns, parts := h.parts, clusters := h.clusters, blocks := h.blocks }
  units := (homeward_l2Touch s b pa bs.length true).units
  launches := (homeward_l2Touch s b pa bs.length true).launches

theorem homeward_spillOut (s : State) (uid k : Nat) : Homeward s (spillOut s uid k) :=
  homeward_foldl _ (fun s _ => homeward_writeMem s _ _ _) _ s

theorem homeward_spillIn (s : State) (uid k : Nat) : Homeward s (spillIn s uid k) :=
  homeward_foldl _ (fun s _ => homeward_l2Touch s _ _ _ false) _ s

@[simp] theorem toBytes_length (n : Nat) : ∀ v, (toBytes n v).length = n := by
  induction n with
  | zero => exact fun _ => rfl
  | succ n ih => exact fun v => by simp [toBytes, ih]

@[simp] theorem slice_length (bs : List Byte) (off n : Nat) : (slice bs off n).length = n := by
  simp only [slice, List.length_append, List.length_replicate, List.length_take]
  omega

theorem memoryInv_spillOut {s : State} (uid k : Nat) (h : MemoryInv s) : MemoryInv (spillOut s uid k) :=
  memoryInv_foldl _ (fun _ _ h => memoryInv_writeHome _ _ _ h) _ _ h

/-- A byte that no piece of the spilled registers covers keeps its value. -/
theorem spillOut_mem_get (s : State) (uid k a : Nat) (h : MemoryInv s)
    (ha : ∀ e ∈ spillPieces s uid k, ¬ (e.2.2 ≤ a ∧ a < e.2.2 + e.2.1)) :
    cellGet (spillOut s uid k).mem a = cellGet s.mem a := by
  unfold spillOut
  dsimp only
  generalize hl : spillPieces s uid k = l at ha
  clear hl
  generalize spilledBytes s uid k = bs
  have key : ∀ t : State, MemoryInv t → cellGet (l.foldl (fun t e =>
      writeHome t (whoOf t uid k).charge (.mem e.2.2) (slice bs e.1 e.2.1)) t).mem a = cellGet t.mem a := by
    induction l with
    | nil => exact fun _ _ => rfl
    | cons e l ih =>
      intro t ht
      rw [List.foldl_cons, ih (fun x hx => ha x (List.mem_cons_of_mem _ hx)) _ (memoryInv_writeHome _ _ _ ht),
        writeHome_mem_get _ _ _ _ _ ht]
      have := ha e (List.mem_cons_self ..)
      rw [if_neg (by rw [slice_length]; exact this)]
  exact key _ h

end Sys2Proof.Machine
end

