-- ==== Sys2Proof/Tests/Slice0.lean ====
section
/-! SUPPORT. Tests of the decoder against words that the manual writes out or that follow from its encoding tables, of what
WellFormed refuses, of single steps, and a witness for the hypotheses of every statement. -/

namespace Sys2Proof.Tests

open Sys2Proof Sys2Proof.Machine

set_option Elab.async false

/-! ## A machine to test on -/

/-- Control fields: no guard, no lookahead. -/
def c0 : Ctl := ⟨false, 7, 0, false, false, false, false⟩
/-- The same with a lookahead of one instruction. -/
def c1 : Ctl := { c0 with la := 1 }

/-- Registers of the test strand: v10:v11 a global address, v12:v13 a scratchpad address, v14 to v17 zero, vn else n + 1. -/
def benchReg (n : Nat) : VReg :=
  ⟨allLanes, (List.range 32).map (fun l => BitVec.ofNat 32 (
    if n = 10 then 0x10000 + 64 * l else if n = 12 then 64 * l else if n = 13 then 2 ^ 22
    else if n = 11 ∨ (14 ≤ n ∧ n ≤ 17) then 0 else n + 1)), 0⟩

/-- Affine registers: a1 walks global memory, a2 the scratchpad, a3 stands at a scratchpad barrier, a4 at a global block. -/
def benchAff : List Aff :=
  [⟨0, 0⟩, ⟨0x20000, 64⟩, ⟨BitVec.ofNat 64 (2 ^ 54), 64⟩, ⟨BitVec.ofNat 64 (2 ^ 54 + 2048), 0⟩, ⟨0x30000, 0⟩]
    ++ List.replicate 27 ⟨0, 0⟩

/-- A strand of a PF launch in the LIVE partition 0, all 32 lanes on one path. -/
def bench : State :=
  let s := withWord State.reset 0
  let s := setPart s 0 (fun p =>
    { p with pfCairn := 0x700, region := some ⟨1000, 1, 300000⟩
             domains := [(0, { key := 1, budget := 16, nslots := 4, free := [16], lines := 22 })] })
  let s := setStrand s 0 0 (fun t =>
    { t with g := 64, regs := (List.range 48).map (fun n => (n, benchReg n)), preds := List.replicate 7 0x0000FFFF
             paths := t.paths.map (fun p => { p with aff := benchAff }) })
  { s with turns := [], actor := .strand 0 0, dev := { stage := 5, ready := true, failcode := 0 } }

/-- The check of `Clear` together with a further condition on the context. -/
def clearWith (s : State) (i : Instr) (p : Ctx → Shape → Bool) : Bool :=
  match fieldsOf i, shape i with
  | some (c, o), some sh =>
    match ctxOf s 0 0 c with
    | some x =>
      decide (s.actor = .strand x.uid x.k) && x.tm != 0 && !illegalNow x i && (!sh.priv || x.l.priv) &&
        !overBudget sh o x.p.limit && !countOver x i && (!stepping s x.l || recordRoom s x.w.lid) &&
        decide (poolNeed x.st (newNames x sh o) ≤ poolFor s x) && !scoreboard x i sh o &&
        unmappedLanes x sh o &&& mustRead i == 0 && !inWindow x c sh o && p x sh
    | none => false
  | _, _ => false

theorem clear_of_clearWith (s : State) (i : Instr) (p : Ctx → Shape → Bool) (h : clearWith s i p = true) :
    ∃ x c o sh, Clear s x i c o sh ∧ p x sh = true := by
  unfold clearWith at h
  split at h
  · rename_i c o sh hf hs
    split at h
    · rename_i x hx
      have e : x.uid = 0 ∧ x.k = 0 := by
        unfold ctxOf at hx; repeat' split at hx
        all_goals first
          | (cases hx; done)
          | (injection hx with hx; subst hx; exact ⟨rfl, rfl⟩)
      simp only [Bool.and_eq_true, decide_eq_true_eq, bne_iff_ne, Bool.or_eq_true, Bool.not_eq_true', beq_iff_eq] at h
      obtain ⟨⟨⟨⟨⟨⟨⟨⟨⟨⟨⟨h1, h2⟩, h3⟩, h4⟩, h5⟩, h6⟩, h7⟩, h8⟩, h9⟩, h10⟩, h11⟩, h12⟩ := h
      refine ⟨x, c, o, sh, ⟨⟨h1, hf, hs, by rw [e.1, e.2]; exact hx⟩, h2, h3, ?_, h5, h6, ?_, h8, h9, h10, h11⟩, h12⟩
      · intro q; rcases h4 with h | h
        · rw [q] at h; cases h
        · exact h
      · intro q; rcases h7 with h | h
        · rw [q] at h; cases h
        · exact h
    · cases h
  · cases h

def clear (i : Instr) : Bool := wellFormed i && clearWith bench i (fun _ _ => true)

def v (n : Nat) : Opnd := .vec (Fin.ofNat 256 n)

def vvv : Ops := ⟨v 40, v 1, v 2, v 3⟩
def vv : Ops := ⟨v 40, v 1, v 2, .null⟩
def v1 : Ops := ⟨v 40, v 1, .null, .null⟩
def pvv : Ops := ⟨.pred 1, v 1, v 2, .null⟩
def ppp : Ops := ⟨.pred 1, .pred 2, .pred 3, .null⟩
def aaa : Ops := ⟨.aff 5 .pair, .aff 1 .pair, .aff 2 .pair, .null⟩
def none4 : Ops := ⟨.null, .null, .null, .null⟩

/-! ## Witnesses: nothing turns these instructions away in `bench` -/

def integerForms : List Instr :=
  [.iadd c0 .s32 false vv, .isub c0 .n8 true vv, .imul c0 .s64 false ⟨v 40, v 2, v 4, .null⟩, .imulh c0 .n32 vv, .imad c0 .s16 true vvv,
   .imin c0 .s8 vv, .imax c0 .n16 vv, .iabs c0 .s32 true v1, .ineg c0 .n32 true v1, .isad c0 .s32 vvv, .iclamp c0 .s32 vvv,
   .iaddc c0 .n32 1 ⟨v 40, v 1, v 2, .pred 1⟩, .idiv c1 .s32 vv, .irem c1 .n64 ⟨v 40, v 2, v 4, .null⟩, .idot4 c0 .s32 true false true vvv]

theorem wit_IntegerResults : integerForms.all clear = true := by decide +kernel

theorem wit_MovResult : [Instr.mov c0 .b32 ⟨v 40, .null, .lit 7, .null⟩, .mov c0 .s64 ⟨.aff 5 .pair, .null, .inline 3, .null⟩].all clear = true := by
  decide +kernel

def bitForms : List Instr :=
  [.and c0 .b32 vv, .or c0 .b64 ⟨v 40, v 2, v 4, .null⟩, .xor c0 .b32 vv, .not c0 .b32 v1, .andn c0 .b32 vv, .shl c0 .b32 true vv, .shr c0 .b32 false vv,
   .sar c0 .b32 true vv, .rotl c0 .b32 vv, .popc c0 .b32 v1, .clz c0 .b32 v1, .brev c0 .b32 v1, .bfe c0 .s32 vv, .bfi c0 .b32 vvv,
   .bmix c0 .b32 .maj vvv, .bsel c0 .b32 .pick vvv]

theorem wit_BitResults : bitForms.all clear = true := by decide +kernel

/-- R141 at the edges: a field of length 0, one that ends at bit 31, and one that runs past it. -/
theorem wit_FieldBits : [0x0005, 0x041C, 0x081C].all (fun f => decide (Ty.s32.bits = 32 ∧ (0x80000001 : Nat) < 2 ^ Ty.s32.bits ∧
    fBfe .s32 0x80000001 f = [0, 0xFFFFFFF8, 0xFFFFFFF8].getD ([0x0005, 0x041C, 0x081C].findIdx (· == f)) 1)) = true := by
  decide +kernel

theorem wit_CompareResults : [Instr.icmp c0 .s32 .lt pvv, .fcmp c0 .f32 .nan pvv, .pclass c0 .f32 pvv, .acmp c0 .s64 .lt ⟨.pred 1, .aff 1 .pair, .aff 2 .pair, .null⟩].all clear = true := by
  decide +kernel

theorem wit_PredicateResults : [Instr.sel c0 .b32 ⟨v 40, v 1, v 2, .pred 1⟩, .pand c0 true false ppp, .por c0 false true ppp,
    .pxor c0 false false ppp, .pnot c0 ⟨.pred 1, .pred 2, .null, .null⟩, .pmov c0 ⟨.pred 1, .pred 2, .null, .null⟩,
    .pmov c0 ⟨.pred 1, v 1, .null, .null⟩, .pmov c0 ⟨v 40, .pred 2, .null, .null⟩, .pagg c0 .every ⟨.pred 1, .pred 2, .null, .null⟩,
    .pagg c0 .some ⟨.pred 1, .pred 2, .null, .null⟩, .pagg c0 .same ⟨.pred 1, .pred 2, .null, .null⟩,
    .pagg c0 .mask ⟨v 40, .pred 2, .null, .null⟩, .pagg c0 .count ⟨v 40, .pred 2, .null, .null⟩].all clear = true := by decide +kernel

theorem wit_CrossLaneResults : [Instr.lxch c0 .b32 .fwd vv, .lbcast c0 .b32 vv, .lmatch c0 .b32 v1, .lred c0 .s32 0 v1,
    .lscan c0 .n32 3 v1, .lred c0 .f32 4 v1, .lscan c0 .f32 5 v1].all clear = true := by decide +kernel

theorem wit_FloatArithmeticResults : [Instr.fadd c0 .f32 .rs vv, .fsub c0 .f16 .rtz vv, .fmul c0 .bf16 .rdn vv, .fdiv c1 .f32 .rne vv,
    .ffma c0 .f32 .rup vvv, .fsqrt c1 .f32 .rne v1, .fmin c0 .f32 vv, .fmax c0 .f16x2 vv, .fclamp c0 .f32 vvv, .frnd c0 .f32 .rtz v1,
    .fscale c0 .f32 .rne vv, .fdot2 c0 .f16x2 .rne vvv].all clear = true := by decide +kernel

/-- One NaN, and two. -/
theorem wit_FloatArithmeticResults_nan : (dec .f32 0x7FC00001).isNaN = true ∧ (dec .f32 0x3F800000).isNaN = false ∧
    (dec .f16 0xFFFF).isNaN = true ∧ (dec .e4m3 0x7F).isNaN = true := by decide +kernel

theorem wit_SpecialAndConversionResults : [Instr.frcp c1 .f32 v1, .frsq c1 .f32 v1, .fexp2 c1 .f32 v1, .flog2 c1 .f32 v1, .fsinpi c1 .f32 v1,
    .fcospi c1 .f32 v1, .ftanh c1 .f32 v1, .fsigm c1 .f32 v1, .cvt c0 0 .rne v1, .qnt c0 .s8 .rne vv, .dqnt c0 .s8 .rne vv,
    .bfpack c0 .bfp8 .rne v1, .bfunpack c0 .bfp8 v1, .seed c0 ⟨.null, .null, v 1, .null⟩, .pack c0 .b8 vvv, .unpack c0 .s8 vv].all clear = true := by decide +kernel

theorem wit_RegisterOnlyFrame : (integerForms ++ bitForms).all (fun i => registerOnly i && clear i) = true := by decide +kernel

theorem wit_AffineResults : [Instr.aset c0 aaa, .aadd c0 aaa, .asub c0 aaa, .amul c0 ⟨.aff 5 .pair, .aff 1 .pair, .inline 3, .null⟩, .ashl c0 ⟨.aff 5 .pair, .aff 1 .pair, .inline 3, .null⟩,
    .aand c0 ⟨.aff 5 .pair, .aff 1 .pair, .lit 0xFFFFFFC0, .null⟩, .amov c0 ⟨.aff 5 .pair, .aff 1 .pair, .null, .null⟩, .aaddr c0 2 aaa, .auni c0 .s32 ⟨.aff 5 .pair, v 1, .null, .null⟩,
    .avec c0 .b64 ⟨v 40, .aff 1 .pair, .null, .null⟩].all clear = true := by decide +kernel

/-! ## Control -/

def okE {ε α : Type} : Except ε α → Bool
  | .ok _ => true
  | .error _ => false

/-- `bench` with a launch parameter block and a strand changed. -/
def benchOf (f : Lpb → Lpb) (g : Strand → Strand) : State :=
  setStrand (setLaunch bench (128 * 65536) (fun l => { l with lpb := f l.lpb })) 0 0 g

def onPath (g : Path → Path) (t : Strand) : Strand := { t with paths := t.paths.map g }

def aOf (o : Opnd) : Ops := { none4 with a := o }
def bOf (o : Opnd) : Ops := { none4 with b := o }
def dOf (o : Opnd) : Ops := { none4 with d := o }

theorem wit_BranchResults : clear (.bra c0 (bOf (.lit 3))) = true ∧
    clearWith bench (.brx c0 (aOf (v 14))) (fun x _ => x.lanes.all (fun l => readSrc x (.int 2 false) (v 14) l % 12 == 0)) = true := by
  decide +kernel

/-- `bench` with a `fent` at address 0. -/
def benchFent : State := { bench with mem := putBytes [] 0 (encode (.fent c0 (bOf (.lit 128)))) }

theorem wit_CallResults :
    clearWith bench (.call c0 (bOf (.lit 3))) (fun x _ => let o := bOf (.lit 3)
      okE (callChecks x false (toBytes 8 (branchTarget x.p.pc o.b).toNat) bench [((branchTarget x.p.pc o.b).toNat, x.tm)])) = true ∧
    clearWith benchFent (.calli c0 (aOf (v 14))) (fun x _ => let o := aOf (v 14)
      okE (callChecks x true (((targetsOf x (readSrc x (.int 2 false) o.a)).flatMap (fun e => toBytes 8 e.1)).take 64) benchFent
        (targetsOf x (readSrc x (.int 2 false) o.a)))) = true := by decide +kernel

theorem wit_FrameResults :
    clearWith (benchOf id (onPath (fun p => { p with stack := [(24, 64)] }))) (.ret c0 none4) (fun x _ => x.p.stack == [(24, 64)]) = true ∧
    clear (.fent c0 (bOf (.lit 128))) = true ∧ clear (.fent c0 (bOf (.inline 1))) = true := by decide +kernel

def noWait (t : Strand) : Bool := t.convs.all (fun v => v.op.isNone)

theorem wit_LaneEndResults : [Instr.exit c0 none4, .ret c0 none4, .itemdone c0 none4].all (fun i =>
      clearWith bench i (fun x _ => x.p.stack == [] && !x.l.lpb.refill && noWait x.st)) = true ∧
    clearWith (benchOf (fun l => { l with refill := true }) id) (.itemdone c0 none4) (fun x _ => x.l.lpb.refill) = true := by
  decide +kernel

theorem wit_RefillResult : clearWith bench (.refill c0 none4) (fun x _ => !x.l.lpb.refill) = true ∧
    (let s := benchOf (fun l => { l with refill := true }) (fun t => { t with marked := 0x3 })
     clearWith s (.refill c0 none4) (fun x _ => x.l.lpb.refill && noWait x.st &&
      !(serveLanes x.w.core x.w.lid s { x.st with refilled := true } (lanesOf (x.tm &&& x.st.marked)) 0).2.2.2)) = true := by
  decide +kernel

/-- `bench` with its strand's k7 as given. -/
def benchConv (v : Conv) : State := benchOf id (fun t => { t with convs := setNth t.convs 7 v })

/-- One strand whose lanes all sign, one whose mask expects lanes that stand elsewhere. -/
theorem wit_ConvergenceResults :
    clearWith bench (.ksign c0 (dOf (.conv 7))) (fun x _ => (convOf x.st 7).signed == 0 && decide (7 < x.st.convs.length)) = true ∧
    clearWith (benchConv { signed := 1 }) (.ksign c0 (dOf (.conv 7))) (fun x _ => (convOf x.st 7).signed != 0 &&
      decide (7 < x.st.convs.length)) = true ∧
    clearWith (benchConv { st := .matrix }) (.kwait c0 (dOf (.conv 7))) (fun x _ => (convOf x.st 7).st == .matrix) = true ∧
    clearWith bench (.kwait c0 (dOf (.conv 7))) (fun x _ => (convOf x.st 7).st == .idle &&
      (liveLanes x.st &&& ~~~x.tm) == 0 && decide (7 < x.st.convs.length)) = true ∧
    clearWith (benchOf id (fun t => { t with paths := t.paths.flatMap (fun p => [{ p with lanes := 0xFF }, { p with lanes := 0xFFFFFF00, pc := 24 }]) }))
      (.kwait c0 (dOf (.conv 0))) (fun x _ => (convOf x.st 0).st == .idle && (liveLanes x.st &&& ~~~x.tm) != 0) = true := by
  decide +kernel

/-- `bench` with its launch in VF 0, whose DEBUG word is `d`. -/
def benchDebug (d : DWord) : State :=
  setFn (setLaunch bench (128 * 65536) (fun l => { l with fn := 0 })) 0 (fun f => { f with debugWord := d, bound := true })

theorem wit_YieldTrapAndPoolResults : clear (.yield c0 none4) = true ∧
    clearWith bench (.trap c0 (bOf (.inline 3))) (fun x _ => !earlierOpen bench x && recordRoom bench x.w.lid) = true ∧
    clearWith bench (.brk c0 none4) (fun x _ => !brkPark bench x.l) = true ∧
    clearWith (benchDebug 1) (.brk c0 none4) (fun x _ => brkPark (benchDebug 1) x.l && !earlierOpen bench x &&
      recordRoom (benchDebug 1) x.w.lid) = true ∧
    clearWith bench (.grow c0 (bOf (.lit 128))) (fun x _ =>
      decide (countOf (bOf (.lit 128)).b - holding x.st ≤ poolFor bench x)) = true ∧
    clear (.shrink c0 (bOf (.inline 0))) = true := by decide +kernel

/-! ## Memory -/

/-- The check of `LanesReady`. -/
def lanesReady (s : State) (x : Ctx) (mk : MKind) (addr data : Nat → Nat) : Bool :=
  match checkLanes s x addr mk.size mk.size mk.rights mk.hostOk with
  | (.ok ls, s1) =>
    missLanes ls == [] && !rangesHold s x (okLanes ls) mk.size && !drainHolds s x (okLanes ls) mk.size false &&
      (!mk.acc.rel || drainsOf s x.w.core x.uid x.k == []) &&
      (performLanes s1 { x.who s with pc := x.p.pc } x.l.job mk addr data (okLanes ls)).stop.isNone
  | _ => false

/-- `bench` with two lanes on its path. -/
def two : State := benchOf id (onPath (fun p => { p with lanes := 0x3 }))

def memForm (i : Instr) (mk : MKind) (addr data : Ctx → Nat → Nat) : Bool :=
  wellFormed i && clearWith two i (fun x _ => lanesReady two x mk (addr x) (data x))

theorem wit_LanesReady (s : State) (x : Ctx) (mk : MKind) (addr data : Nat → Nat) (h : lanesReady s x mk addr data = true) :
    ∃ locs s1, LanesReady s x mk addr data locs s1 := by
  unfold lanesReady at h
  split at h
  · rename_i ls s1 e
    simp only [Bool.and_eq_true, Bool.not_eq_true', Bool.or_eq_true, beq_iff_eq, Option.isNone_iff_eq_none] at h
    obtain ⟨⟨⟨⟨h1, h2⟩, h3⟩, h4⟩, h5⟩ := h
    refine ⟨okLanes ls, s1, ⟨ls, e, h1, rfl⟩, ⟨h2, h3, fun q => ?_⟩, h5⟩
    rcases h4 with h | h
    · rw [q] at h; cases h
    · exact h
  · cases h

def ldForm (acc : Fin 10) (t : Ty) (o : Ops) : Bool :=
  memForm (.ld c0 acc t o) (.load (ldAcc acc.val) t) (fun x => readAddr x o.a o.b o.c) (fun _ _ => 0)
def stForm (acc : Fin 9) (t : Ty) (o : Ops) : Bool :=
  memForm (.st c0 acc t o) (.store (stAcc acc.val) (t.bits / 8)) (fun x => readAddr x o.a o.b o.c)
    (fun x => readSrc x (.int t.words false) o.d)
def atomForm (f : AtomFn) (t : Ty) (o : Ops) : Bool :=
  memForm (.atom c0 f t o) (.rmw (constAcc o.c) f t) (fun x => readSrc x (.int 2 false) o.a) (fun x => readSrc x (rdAtom t) o.b)
def casForm (t : Ty) (o : Ops) : Bool :=
  memForm (.atomcas c0 t o) (.cas (constAcc o.c) (t.bits / 8)) (fun x => readSrc x (.int 2 false) o.a)
    (fun x => readSrc x (.int (2 * t.words) false) o.b)
def redForm (f : AtomFn) (t : Ty) (o : Ops) : Bool :=
  memForm (.red c0 f t o) (.rmw (constAcc o.c) f t) (fun x => readSrc x (.int 2 false) o.a) (fun x => readSrc x (rdAtom t) o.b)

theorem wit_MemoryInstructionResults_global :
    ldForm 0 .b32 ⟨v 40, .aff 1 .pair, .null, .null⟩ = true ∧ ldForm 1 .s8 ⟨v 40, v 10, .lit 4, .null⟩ = true ∧
    stForm 0 .b64 ⟨v 2, .aff 1 .pair, .null, .null⟩ = true ∧ atomForm .add .s32 ⟨v 40, v 10, v 1, .null⟩ = true ∧
    casForm .b32 ⟨v 40, v 10, v 2, .null⟩ = true ∧ redForm .max .f32 ⟨.null, v 10, v 1, .null⟩ = true := by decide +kernel

theorem wit_MemoryInstructionResults_scratch :
    ldForm 0 .b128 ⟨v 40, v 12, .null, .null⟩ = true ∧ stForm 0 .b8 ⟨v 2, v 12, v 1, .inline 1⟩ = true ∧
    atomForm .exch .b64 ⟨v 40, v 12, v 2, .null⟩ = true := by decide +kernel

theorem wit_UniformLoadResult : clearWith two (.ldu c0 .s32 ⟨.aff 5 .base, .aff 1 .pair, .lit 4, .null⟩) (fun x _ =>
    let addr := fun l => wrap 64 ((affLane (readPair x (.aff 1 .pair)) l : Int) + lduOffset (.lit 4))
    lanesReady two { x with tm := maskOf (· == x.low) } (.load {} .s32) addr (fun _ => 0)) = true := by decide +kernel

/-- Accesses outside every window, and misaligned ones: v14 to v17 hold zero, v1 to v3 odd values. -/
theorem wit_MemoryFaultsBeforeEffect :
    (let o : Ops := ⟨v 40, v 10, .lit 1, .null⟩
     clearWith two (.ld c0 0 .b32 o) (fun x _ => let mk := MKind.load (ldAcc 0) .b32
      !okE (checkLanes two x (readAddr x o.a o.b o.c) mk.size mk.size mk.rights mk.hostOk).1 &&
        okE (windowLanes x (readAddr x o.a o.b o.c) 4) && x.lanes.any (fun l => readAddr x o.a o.b o.c l % 4 != 0))) = true ∧
    (let o : Ops := ⟨v 2, v 4, .null, .null⟩
     clearWith two (.st c0 0 .b32 o) (fun x _ => let mk := MKind.store (stAcc 0) 4
      !okE (checkLanes two x (readAddr x o.a o.b o.c) mk.size mk.size mk.rights mk.hostOk).1)) = true ∧
    (let o : Ops := ⟨v 40, v 4, v 1, .null⟩
     clearWith two (.atom c0 .add .s32 o) (fun x _ => let mk := MKind.rmw {} .add .s32
      !okE (checkLanes two x (readSrc x (.int 2 false) o.a) mk.size mk.size mk.rights mk.hostOk).1)) = true := by decide +kernel

theorem wit_AccessFrame : bench.sends = [] ∧ (ldAcc 0).promote = false ∧ NoWaiters bench 0 ∧ TableInv (coreOf bench 0).l1 := by
  refine ⟨rfl, rfl, ⟨_, rfl, ?_⟩, rfl⟩
  decide +kernel

theorem wit_MemoryAsWritten : (unit? bench 0).isSome = true ∧ NoWaiters bench 0 := ⟨rfl, wit_AccessFrame.2.2.1⟩

/-- `two` with `priv` bytes for each item, and the last of 64 in a6. -/
def pvState (priv : Nat) : State :=
  benchOf (fun l => { l with priv := priv }) (fun t =>
    onPath (fun p => { p with lanes := 0x3, aff := setNth p.aff 6 ⟨BitVec.ofNat 64 (2 ^ 54 + 2 ^ 40 + 63), 0⟩ }) t)

theorem wit_AddressesAndOrder :
    clearWith two (.pvaddr c0 ⟨v 40, v 14, .lit 4, .null⟩) (fun x _ => x.lanes.all (fun l =>
      match window (readAddr x (v 14) (.lit 4) .null l) 1 with | .global va => decide (va < 2 ^ 53) | _ => false)) = true ∧
    clearWith (pvState 64) (.pvaddr c0 ⟨v 40, .aff 6 .pair, .null, .null⟩) (fun x _ => x.lanes.all (fun l =>
      match window (readAddr x (.aff 6 .pair) .null .null l) 1 with | .priv off => decide (off < x.l.lpb.priv) | _ => false)) = true ∧
    clearWith (pvState 63) (.pvaddr c0 ⟨v 40, .aff 6 .pair, .null, .null⟩) (fun x _ => x.lanes.any (fun l =>
      match window (readAddr x (.aff 6 .pair) .null .null l) 1 with | .priv off => decide (x.l.lpb.priv ≤ off) | _ => false)) = true ∧
    clearWith two (.pf c0 true ⟨.null, v 10, .null, .null⟩) (fun x _ =>
      two.sends == [] && Tbl.sorted (coreOf two x.w.core).l1) = true ∧
    clearWith two (.fence c0 ⟨.null, .null, .null, .inline 12⟩) (fun x _ => (constAcc (.inline 12)).rel &&
      drainsOf two x.w.core x.uid x.k == []) = true := by decide +kernel

theorem wit_IssueEffect : (strand? bench 0 0).isSome = true := rfl

/-! ## Barriers and copies -/

/-- `two` with a barrier of EXPECT 2, PENDING 2 at offset 2,048. -/
def barred : State := { two with units := two.units.map (fun e => (e.1, { e.2 with scratch := putBytes [] 2048 (toBytes 16 (barBits ⟨2, 2, 0, 5⟩)) })) }

def barOk (x : Ctx) (f : (Nat → Nat) → Bool) : Bool :=
  match barLanes x (.aff 3 .pair) with
  | .ok off => f off
  | .error _ => false

theorem wit_BarrierResults :
    clearWith barred (.barinit c0 ⟨.null, .aff 3 .pair, .lit 65535, .null⟩) (fun x _ => barOk x (fun off =>
      !rangeHolds barred x (off x.low) 16 && drainsOf barred x.w.core x.uid x.k == [] &&
        readSrc x rd32 (.lit 65535) x.low == 65535)) = true ∧
    clearWith barred (.arrive c0 false false (aOf (.aff 3 .pair))) (fun x _ => barOk x (fun off =>
      x.lanes.all (fun l => !rangeHolds barred x (off l) 16) &&
        (arriveLanes x off (fun _ => 0) (forceLoads barred x.uid x.k (fun _ => true)) x.lanes 0).2.isNone)) = true ∧
    clearWith barred (.bwait c0 true ⟨.null, .aff 3 .pair, .inline 4, .null⟩) (fun x _ => barOk x (fun off =>
      x.lanes.all (fun l => (readBar barred x.uid (off l)).expect != 0 && observed true 4 (readBar barred x.uid (off l))))) = true ∧
    clearWith barred (.bwait c0 true ⟨.null, .aff 3 .pair, .inline 5, .null⟩) (fun x _ => barOk x (fun off =>
      x.lanes.all (fun l => (readBar barred x.uid (off l)).expect != 0 && !observed true 5 (readBar barred x.uid (off l))))) = true ∧
    clearWith barred (.barinv c0 (aOf (.aff 3 .pair))) (fun x _ => barOk x (fun off =>
      !barBound barred x (off x.low) && !rangeHolds barred x (off x.low) 16)) = true := by decide +kernel

theorem wit_BarrierObject : (unit? bench 0).isSome = true ∧ arrival 0 ⟨1, 1, 0, 65535⟩ = .ok ⟨1, 1, 0, 0⟩ ∧
    arrival (2 ^ 31 - 1) ⟨1, 1, 0, 0⟩ = .ok ⟨1, 0, 2 ^ 31 - 1, 0⟩ ∧ landing 0 ⟨1, 0, 0, 7⟩ = .ok ⟨1, 1, 0, 8⟩ := ⟨rfl, rfl, rfl, rfl⟩

def tScratch : Tdesc := { base := BitVec.ofNat 64 (2 ^ 54), rows := 2, cols := 16, pitch := 16, fmt := .b8 }
def tGlobal : Tdesc := { base := 0x40000, rows := 4, cols := 16, pitch := 16, fmt := .b8 }

/-- `two` with the tensors td1 in the scratchpad and td2 in global memory. -/
def tensored : State := putTd (putTd two 0 1 ⟨tScratch, 128 * 65536, true⟩) 0 2 ⟨tGlobal, 128 * 65536, true⟩

def entersOk (x : Ctx) (ask : Except FaultInfo CopyAsk) : Bool :=
  match ask with
  | .ok q =>
    (match probeLanes tensored x q.need q.lanes with
     | (.ok (_, []), _) => copyRoom tensored x q.lanes q.into && !sourceHeld tensored x q &&
        drainsOf tensored x.w.core x.uid x.k == []
     | _ => false)
  | .error _ => false

theorem wit_CopyResults :
    (let o : Ops := ⟨.td 1, .td 2, .null, .null⟩
     clearWith tensored (.cpin c0 0 false false o) (fun x _ => entersOk x (askCpin c0 0 false false o x tensored))) = true ∧
    (let o : Ops := ⟨.td 2, .td 1, .null, .null⟩
     clearWith tensored (.cpout c0 0 false false o) (fun x _ => entersOk x (askCpout c0 0 false false o x tensored))) = true ∧
    (let o : Ops := ⟨.td 1, .td 2, .null, v 14⟩
     let s := setStrand tensored 0 0 (fun t => { t with regs := Tbl.put t.regs 15 ⟨allLanes, List.replicate 32 1, 0⟩ })
     clearWith s (.cpmc c0 0 false o) (fun x _ => entersOk x (askCpmc c0 0 false o x s))) = true ∧
    clearWith tensored (.cpseal c0 ⟨v 40, .aff 3 .pair, .null, .null⟩) (fun x _ => okE (copyBar x true (.aff 3 .pair)) &&
      (progressOf x (.cpseal c0 ⟨v 40, .aff 3 .pair, .null, .null⟩)).isNone &&
      decide ((coreOf tensored x.w.core).seals.length + x.lanes.length ≤ 64)) = true := by decide +kernel

/-! ## Cairn memory -/

def runsOk (f : State → Nat → NmLane) (s0 : State) (x : Ctx) : Bool :=
  let r := nmLanes f { s := s0 } x.lanes
  !r.wait && r.stop.isNone

def domOk (x : Ctx) (need : NmRight) (slot : Option Opnd) (f : DomKey → Bool) : Bool :=
  match nmDomain two x 0 need slot with
  | .ok k => f k
  | .error _ => false

def scrOk (x : Ctx) (b : Opnd) (f : (Nat → Nat) → Bool) : Bool :=
  match nmScratch x (readAddr x (v 12) b .null) with
  | .ok off => !nmHeld two x off && f off
  | .error _ => false

theorem wit_CairnInstructionResults :
    clearWith two (.nmlook c0 0 ⟨v 40, v 12, .null, .null⟩) (fun x _ => domOk x .intern none (fun k =>
      scrOk x .null (fun off => runsOk (internLane x k false off) two x))) = true ∧
    clearWith two (.nmnode c0 0 ⟨v 40, v 12, .null, .null⟩) (fun x _ => domOk x .intern none (fun k =>
      scrOk x .null (fun off => runsOk (internLane x k true off) two x))) = true ∧
    clearWith two (.nmreadLine c0 0 false ⟨.null, v 12, .null, .null⟩) (fun x _ => domOk x .none (slotOf false .null) (fun k =>
      scrOk x .null (fun off => runsOk (readLineLane x k false .null off) (nmOrder x false two) x))) = true ∧
    (let o : Ops := ⟨v 40, .inline 3, .inline 11, .null⟩
     clearWith two (.nmreadPiece c0 0 true o) (fun x _ => domOk x .none (slotOf true o.a) (fun k =>
      runsOk (readPieceLane x k true o) (nmOrder x true two) x))) = true ∧
    (let o : Ops := ⟨v 40, .inline 0, .lit 0xFFFFFFFF, .null⟩
     clearWith two (.nmwalk c0 0 true o) (fun x _ => domOk x .none (slotOf true o.a) (fun k =>
      runsOk (walkLane x k true o) (nmOrder x true two) x))) = true ∧
    (let o : Ops := ⟨v 40, .inline 3, .null, .null⟩
     clearWith two (.nmswap c0 0 o) (fun x _ => domOk x .swap (some o.a) (fun k =>
      drainsOf two x.w.core x.uid x.k == [] && runsOk (swapLane x k o) (nmOrder x true two) x))) = true ∧
    (let o : Ops := ⟨.null, .null, .null, .null⟩
     clearWith two (.nmref c0 0 false o) (fun x _ => domOk x .none (slotOf false o.a) (fun k =>
      runsOk (refLane x k false o) (nmOrder x false two) x))) = true ∧
    (let o : Ops := ⟨.null, .null, .null, .null⟩
     clearWith two (.nmdrop c0 0 o) (fun x _ => domOk x .none none (fun k => runsOk (dropLane x k o) two x))) = true := by
  decide +kernel

/-- The copy of leaf 0 of the zero root to scratchpad offset 64·l: a range (first 0, count 1). -/
def ranged : State := setStrand two 0 0 (onPath (fun p => { p with aff := setNth p.aff 6 ⟨BitVec.ofNat 64 (2 ^ 32), 0⟩ }))

theorem wit_CairnCopyResult :
    (let o : Ops := ⟨.null, v 12, .null, .aff 6 .pair⟩
     clearWith ranged (.nmcopy c0 0 false o) (fun x _ =>
      let range := copyRange x o.c
      decide (range = (0, 1)) &&
      match nmDomain ranged x 0 .none (slotOf false o.b), nmDests x (192 * range.2) (readAddr x o.a .null .null) with
      | .ok k, .ok dst =>
        let runs := nmRuns x (192 * range.2) dst
        let into := dst.filter (fun e => match e.2 with | .inr _ => true | .inl _ => false)
        (match probeLanes ranged x .write runs with
         | (.ok (ls, []), s1) => copyRoom ranged x runs false &&
            copyRoom ranged x (runs.filter (fun q => into.any (fun e => e.1 == q.lane))) true &&
            drainsOf ranged x.w.core x.uid x.k == [] &&
            runsOk (nmcopyLane x k false o.b range dst ls) (forceLoads s1 x.uid x.k (fun _ => true)) x
         | _ => false)
      | _, _ => false)) = true := by decide +kernel

theorem wit_CairnNames : (domain? bench ⟨0, 0⟩).isSome = true ∧
    (match intern bench ⟨0, 0⟩ 0 zeroLine with | .name n _ => n == 0 | _ => false) = true ∧
    (swapSlot bench ⟨0, 0⟩ 3 0 0).isSome = true := by decide +kernel

/-- An entry with each count that R281 tells apart. -/
theorem wit_CairnNames_refs : [1, 2, satCount].all (fun n =>
    let s := setPart bench 0 (fun p => { p with domains := p.domains.map (fun d =>
      (d.1, { d.2 with dir := [(5, { line := List.replicate 192 1, count := n, group := 0 })] })) })
    (entry? s ⟨0, 0⟩ 5).isSome) = true := by decide +kernel

/-! ## The matrix engine -/

def tile8 (rows cols at' : Nat) : Tdesc := { base := BitVec.ofNat 64 (2 ^ 54 + at'), rows := rows, cols := cols, pitch := cols, fmt := .s8 }
def tf32 (base : Nat) : Tdesc := { base := BitVec.ofNat 64 base, rows := 2, cols := 4, pitch := 16, fmt := .f32 }

/-- Two lanes, 16 KB of scratchpad, A at td1 and B at td2, a tensor of two rows in global memory at td3. -/
def matrix : State :=
  let s := setStrand (setLaunch bench (128 * 65536) (fun l => { l with lpb := { l.lpb with scratch := 16384 } })) 0 0
    (onPath (fun p => { p with lanes := 0x3 }))
  putTd (putTd (putTd s 0 1 ⟨tile8 1 96 0, 128 * 65536, true⟩) 0 2 ⟨tile8 96 64 4096, 128 * 65536, true⟩) 0 3 ⟨tf32 0x40000, 128 * 65536, true⟩

def mmaOps : Ops := ⟨.acc 7, v 14, .td 1, .td 2⟩

def locsOk (x : Ctx) (d : Tdesc) (need : Rights) (f : List (Nat × Nat × Loc) → Bool) : Bool :=
  match locRanges matrix x d need ((boxRows d (coords x 0).1 (coords x 0).2).map (·.2)) with
  | (.ok ls, _) => f ls
  | _ => false

theorem wit_MatrixIssueResults :
    clearWith matrix (.mma c0 7 0 mmaOps) (fun x _ =>
      let v := convOf x.st 7
      let n := mctxOf x.w x.k x.st.quarter
      let p := mmaOpOf x 0 mmaOps
      let v2 := mmaSigned x 7 p mmaOps
      v.st == .idle && mmaUnmapped x (.mma c0 7 0 mmaOps) v == 0 && !mmaPending matrix x.w.core x.st.quarter n 7 && !signPending x.st 7 (some 7) &&
        !snapPending matrix x.w.core x.st.quarter n 7 && fullySigned x.st v2 &&
        okE (mmaCheck matrix x.w.core x.w.lid x.l.lpb p v2.signed v2.rows) && !queueFull matrix x.w.core x.st.quarter n) = true ∧
    (let s := setStrand matrix 0 0 (fun t => { t with paths := t.paths ++ t.paths.map (fun p => { p with lanes := 0x4, pc := 24 }) })
     clearWith s (.mma c0 7 0 mmaOps) (fun x _ => !fullySigned x.st (mmaSigned x 7 (mmaOpOf x 0 mmaOps) mmaOps) &&
      decide (7 < x.st.convs.length) && !mmaPending s x.w.core x.st.quarter (mctxOf x.w x.k x.st.quarter) 7)) = true ∧
    clearWith matrix (.mld c0 0 ⟨.acc 0, .td 3, .null, .null⟩) (fun x _ => locsOk x (tf32 0x40000) .read (fun ls =>
      tileTd x matrix (.mld c0 0 ⟨.acc 0, .td 3, .null, .null⟩) 3 == some (tf32 0x40000) && !tileLocked matrix x 0 &&
        ls.all (fun e => !drainHolds matrix x [(0, e.2.2)] e.2.1 false && !readUncorr matrix x e.2.2 e.2.1))) = true ∧
    clearWith matrix (.mdrain c0 .rs 0 ⟨.td 3, .acc 0, .aff 5 .pair, .aff 3 .pair⟩) (fun x _ => locsOk x (tf32 0x40000) .rmw (fun _ =>
      tileTd x matrix (.mdrain c0 .rs 0 ⟨.td 3, .acc 0, .aff 5 .pair, .aff 3 .pair⟩) 3 == some (tf32 0x40000) &&
        drainFormats.contains (tf32 0x40000).fmt &&
        okE (drainBar x (.aff 3 .pair)) && !tileBusy matrix x 0 &&
        decide ((quarterOf matrix x.w.core x.st.quarter).drains.length < 2))) = true := by decide +kernel

theorem wit_TileResults :
    clearWith bench (.mzero c0 (dOf (.acc 7))) (fun x _ => !tileLocked bench x 7) = true ∧
    clearWith bench (.mput c0 .b64 ⟨.acc 0, v 2, .lit 62, .null⟩) (fun x _ => !tileLocked bench x 0 && colOf (.lit 62) + 2 == 64 &&
      decide (x.st.quarter < (coreOf bench x.w.core).quarters.length) &&
      decide (mctxOf x.w x.k x.st.quarter < (quarterOf bench x.w.core x.st.quarter).ctxs.length)) = true ∧
    clearWith bench (.mmov c0 .b128 ⟨v 40, .acc 0, .lit 60, .null⟩) (fun x _ => !tileBusy bench x 0) = true := by decide +kernel

/-! ## Launches, tensor descriptors, counters -/

theorem wit_LaunchGroupResults :
    clearWith two (.launch c0 ⟨v 40, .aff 4 .pair, .null, .null⟩) (fun x _ =>
      x.lanes.all (fun l => match window (readAddr x (.aff 4 .pair) .null .null l) 192 with | .global _ => true | _ => false) &&
      drainsOf two x.w.core x.uid x.k == [] && (progressOf x (.launch c0 ⟨v 40, .aff 4 .pair, .null, .null⟩)).isNone &&
      (let r := x.lanes.foldl (launchLane x (readAddr x (.aff 4 .pair) .null .null)) { s := forceLoads two x.uid x.k (fun _ => true) }
       !r.held && r.parked == [])) = true ∧
    clearWith bench (.trigger c0 none4) (fun x _ => drainsOf bench x.w.core x.uid x.k == [] &&
      (let S := releaseCore (forceLoads bench x.uid x.k (fun _ => true)) x.w.core
       rqFits (countTrigger (setUnit S x.uid (fun w => { w with triggered := true })) x.w.lid))) = true ∧
    clearWith bench (.tsig c0 (bOf (.lit 4095))) (fun x _ => drainsOf bench x.w.core x.uid x.k == [] &&
      x.lanes.all (fun l => decide (readSrc x rd32 (.lit 4095) l < 4096)) &&
      (let signal := fun (s : State) (_ : Nat) => taskDecrement (releaseCore s x.w.core) x.l.fn 4095 (x.w.core / 2)
       (List.range x.lanes.length).all (fun n =>
        rqFits ((x.lanes.take (n + 1)).foldl signal (forceLoads bench x.uid x.k (fun _ => true)))))) = true ∧
    [Level.graph, .phase, .job].all (fun lv => clearWith bench (.cancel c0 lv none4) (fun x _ => x.l.graph.isNone)) = true ∧
    clear (.cancel c0 .launch (aOf (v 1))) = true ∧
    clearWith (setLaunch bench (128 * 65536) (fun l => { l with graph := some (0, 0) })) (.cancel c0 .graph none4)
      (fun x _ => x.l.graph.isSome) = true := by decide +kernel

/-- `two` with the descriptor of two rows of f32 at 0x30000. -/
def described : State :=
  { two with mem := putBytes two.mem 0x30000 (toBytes 32 (0x40000 + 2 * 2 ^ 128 + 4 * 2 ^ 160 + 16 * 2 ^ 192 + 13 * 2 ^ 248)) }

theorem wit_DescriptorAndCounterResults :
    (let o : Ops := ⟨.td 255, .aff 4 .pair, .null, .null⟩
     clearWith described (.tdset c0 o) (fun x _ =>
      match checkLanes described { x with tm := maskOf (· == x.low) } (readAddr x o.a .null .null) 32 32 .read true with
      | (.ok ls, s1) =>
        (match okLanes ls with
         | [(l, loc)] =>
           let r := weakRead (forceLoads s1 x.uid x.k (fun q => sameLine q loc)) (x.who described) loc 32
           missLanes ls == [] && !rangesHold described x [(l, loc)] 32 && !drainHolds described x [(l, loc)] 32 false &&
            !readUncorr s1 x loc 32 &&
            (match tdescOf (ofBytes r.1) with | some d => d.valid && d == tf32 0x40000 | none => false) &&
            !tdHeld described x.w.core x.w.lid (tdNum o.d)
         | _ => false)
      | _ => false)) = true ∧
    (let o : Ops := ⟨.td 3, .inline 3, .null, .null⟩
     clearWith matrix (.tdmod c0 .rows o) (fun x _ => match tdUse matrix x.w.core x.w.lid 3 with
      | some d => (match tdChange d .rows (tdValue x .rows o) with | some e => e.valid | none => false)
      | none => false)) = true ∧
    clear (.tdinv c0 false (dOf (.td 0))) = true ∧ clear (.tdinv c0 true none4) = true ∧
    [ReadSpace.meter, .time, .clock, .record .launch, .reeveCore, .coll 0].all (fun sp =>
      clearWith bench (.cread c0 sp ⟨v 40, .null, if sp = .time ∨ sp = .clock ∨ sp = .coll 0 then .null else .inline 0, .null⟩) (fun x _ =>
        (creadValue bench x sp (if sp = .time ∨ sp = .clock ∨ sp = .coll 0 then .null else .inline 0)).isSome)) = true := by decide +kernel

/-! ## System instructions -/

/-- The selector of register r of core 0 and VF 0. -/
def regOp (r : Nat) : Ops := ⟨v 40, .null, .lit (BitVec.ofNat 32 r), .null⟩

def swept : State := setLaunch bench (128 * 65536) (fun l => { l with sweep := true })

def blockOk (s : State) (x : Ctx) (a align n : Nat) (need : Rights) (f : Loc → State → Bool) : Bool :=
  match blockLoc x s a align n need with
  | (.ok loc, s1) => f loc s1
  | _ => false

theorem wit_SystemInstructionResults :
    [0, 1, 2, 3, 4, 11, 12, 13, 14, 15].all (fun r => clearWith bench (.sget c0 (regOp r)) (fun x _ => (sysSel (lowB x (regOp r))).isSome)) = true ∧
    [0, 1, 3, 4, 11, 12, 13, 14, 15].all (fun r => clearWith bench (.sset c0 { regOp r with d := v 14 }) (fun x _ =>
      match sysSel (lowB x (regOp r)) with
      | some q => (sysWrite bench x.l.part q (readSrc x (.int 2 false) (v 14) x.low)).isSome
      | none => false)) = true ∧
    clearWith swept (.zsig c0 none4) (fun x _ => x.l.sweep) = true ∧
    clearWith bench (.tlbinv c0 .vf (bOf (.lit 127))) (fun x _ => decide (lowB x (bOf (.lit 127)) ≤ 127) &&
      !copiesHold (dropXlat bench .vf 127 0) .vf 127 0) = true ∧
    (let o : Ops := ⟨v 40, .null, .lit 0x1E00, .null⟩
     clearWith bench (.wsel c0 o) (fun x _ => (progressOf x (.wsel c0 o)).isNone && decide (fld (lowB x o) 17 15 = 0) &&
      decide ((coreOf bench 0).wTgt.length = 4) && (List.range 4).all (fun q => nth (coreOf bench 0).wCur q 0 == 0))) = true ∧
    (let o : Ops := ⟨.null, .null, .aff 4 .pair, v 14⟩
     clearWith bench (.nmsync c0 0 o) (fun x _ => decide (fld (readSrc x rd32 o.c x.low) 24 7 = 0) &&
      (match nmDomain bench x 0 .none none with
       | .ok k => blockOk bench x (readSrc x (.int 2 false) o.b x.low) 16 16 .write (fun _ s1 =>
          match nameArg x o.a x.low with | some n => known s1 k n | none => false)
       | .error _ => false))) = true := by decide +kernel

theorem wit_CacheMaintenanceResults : clear (.cmaint c0 .l1wb none4) = true ∧ clear (.cmaint c0 .l1inv none4) = true ∧
    clearWith bench (.cmaint c0 .l2page (aOf (.aff 4 .pair))) (fun x _ => let a := readAddr x (.aff 4 .pair) .null .null x.low
      decide (a < 2 ^ 40) && (sliceOfPa a).isSome) = true := by decide +kernel

/-- `bench` with VF 0 bound to partition 0. -/
def guested : State := setFn bench 0 (fun f => { f with bound := true })

def haltCheck (s : State) (v : Nat) (p : Bool) : Bool :=
  let o : Ops := ⟨.null, .aff 4 .pair, .lit (BitVec.ofNat 32 v), .null⟩
  clearWith s (.halt c0 true true o) (fun x _ => decide (fld (lowB x o) 8 24 = 0) &&
    blockOk s x (readAddr x o.a .null .null x.low) 64 64 .rmw (fun loc s1 =>
      let vf := fld (lowB x o) 0 7
      s1.halts.all (fun h => h.vf != vf) &&
      decide (((fnOf (strongRead s1 (x.who s1) loc 64).2 vf).bound = true ∧ (fnOf (strongRead s1 (x.who s1) loc 64).2 vf).part = x.l.part) ↔ p = true)))

theorem wit_HaltResults : haltCheck bench 127 false = true ∧ haltCheck guested 0x80 true = true ∧ haltCheck guested 0 true = true := by
  decide +kernel

/-- `bench` with engine 0 of die 0 and an EVICT command of VF 5 at 0x30000. -/
def bulked : State :=
  setDie { bench with mem := putBytes bench.mem 0x30000 [1, 5] } 0 (fun d => { d with engines := setNth d.engines 0 (some 0) })

def bulkCheck (s : State) (i : Instr) (p : Bool) : Bool :=
  clearWith s i (fun x _ => blockOk s x (readAddr x (.aff 4 .pair) .null .null x.low) 64 64 .rmw (fun loc s1 =>
    let r := strongRead s1 (x.who s1) loc 64
    let v := ofBytes r.1
    decide ((fld v 16 8 ≤ 6 ∧ nth (dieOf r.2 (dieOfCore x.w.core)).engines (fld v 16 8) none = some x.l.part ∧
      (fld v 0 8 = 1 ∨ fld v 0 8 = 2) ∧ fld v 8 8 ≤ 127) ↔ p = true)))

theorem wit_BulkResults : bulkCheck bench (.bulkEvict c0 (aOf (.aff 4 .pair))) false = true ∧
    bulkCheck bulked (.bulkEvict c0 (aOf (.aff 4 .pair))) true = true ∧ bulkCheck bulked (.bulkReturn c0 (aOf (.aff 4 .pair))) true = true := by
  decide +kernel

theorem wit_SystemRegisterReadBack : (sysWrite bench 0 ⟨1, 383, 127⟩ 2).isSome = true ∧ (sysWrite bench 0 ⟨12, 0, 127⟩ 5).isSome = true ∧
    (sysWrite bench 0 ⟨11, 0, 127⟩ 0x7FF).isSome = true ∧ (fnOf bench 127).cairnBind.length = 8 ∧
    (sysWrite bench 0 ⟨13, 0, 127⟩ 3).isSome = true ∧ (sysWrite bench 0 ⟨14, 0, 0⟩ 7).isSome = true ∧
    (sysWrite bench 0 ⟨15, 0, 0⟩ 511).isSome = true := by decide +kernel

/-! ## Reeve code -/

/-- Cluster 0's reeve with a call whose registers hold 0, 0, 3, -1, 5, …, inside one loop, and an allowance of 256. -/
def calling : State := { setCluster (withReeveWord State.reset 0) 0 (fun k => { k with reeve := { k.reeve with call := k.reeve.call.map (fun c =>
    { c with g := [0, 0, 3, -1, 5] ++ List.replicate 11 7, loops := [⟨0, 5, 1⟩] }) } }) with turns := [], actor := .reeve 0 }

def rvStands (s : State) (cost : RCall → Nat) (p : RCall → Bool) : Bool :=
  match (clusterOf s 0).reeve.call with
  | some c => decide (s.actor = .reeve 0) && decide (c.used + cost c ≤ c.routine.allow) && decide (c.g.length = 16) && p c
  | none => false

theorem wit_ReeveArithmeticResults : rvStands calling (fun _ => 1) (fun _ => true) = true := by decide +kernel

theorem wit_ReeveControlAndCommons :
    rvStands calling (fun _ => 3) (fun c => decide (1 < c.dx.length)) = true ∧
    rvStands calling (fun c => 1 + commonsCost calling 0 (rvOffset calling c ⟨5, 2, 0, 7⟩) true) (fun _ => true) = true ∧
    rvStands calling (fun c => 1 + commonsCost calling 0 (rvOffset calling c ⟨5, 2, 0, 7⟩) false) (fun _ => true) = true ∧
    rvStands calling (fun _ => 1) (fun c => c.loops == [⟨0, 5, 1⟩]) = true ∧
    (let s := setCluster calling 0 (fun k => { k with reeve := { k.reeve with call := k.reeve.call.map (fun c => { c with used := 256 }) } })
     match (clusterOf s 0).reeve.call with
     | some c => decide (c.routine.allow ≤ c.used)
     | none => false) = true := by decide +kernel

/-! ## Words, issue and faults -/

theorem wit_DecodeOfEncode : wellFormed (.iadd c0 .s32 true vv) = true ∧ wellFormed (.rvLi ⟨15, 0, 0, 0xFFFF⟩) = true ∧
    (decode (encode (.iadd c0 .s32 true vv))).toOption = some (.iadd c0 .s32 true vv) := by decide +kernel

def stands (s : State) (i : Instr) (p : Ctx → Shape → Bool) : Bool :=
  match fieldsOf i, shape i with
  | some (c, _), some sh => (match ctxOf s 0 0 c with | some x => decide (s.actor = .strand x.uid x.k) && p x sh | none => false)
  | _, _ => false

/-- One state for each check of R83, in its order. -/
theorem wit_IssueChecks :
    stands (benchOf (fun l => { l with mctx := 0 }) id) (.mzero c0 (dOf (.acc 0))) (fun x _ => x.l.lpb.mctx == 0) = true ∧
    (let s := setLaunch bench (128 * 65536) (fun l => { l with priv := false })
     stands s (.zsig c0 none4) (fun x sh => sh.priv && !x.l.priv)) = true ∧
    stands bench (.mov c0 .b32 ⟨v 128, .null, .lit 7, .null⟩) (fun x sh => overBudget sh ⟨v 128, .null, .lit 7, .null⟩ x.p.limit) = true ∧
    stands bench (.fent c0 (bOf (.lit 129))) (fun x _ => countOver x (.fent c0 (bOf (.lit 129)))) = true ∧
    stands bench (.iadd { c0 with gneg := true } .s32 false vv) (fun x _ => x.tm == 0) = true ∧
    stands bench (.iadd c0 .s32 false ⟨v 40, v 60, v 1, .null⟩) (fun x sh => !scoreboard x (.iadd c0 .s32 false ⟨v 40, v 60, v 1, .null⟩) sh ⟨v 40, v 60, v 1, .null⟩ &&
      unmappedLanes x sh ⟨v 40, v 60, v 1, .null⟩ == allLanes) = true := by decide +kernel

/-- An `idiv` whose window still covers v40. -/
def windowed : State :=
  let p : Pend := { id := 0, pc := 0, instr := .idiv c1 .s32 vv, lanes := allLanes, win := List.replicate 32 1, outs := [outVec 40 1 allLanes (fun _ => 0)], ready := 0 }
  setStrand bench 0 0 (fun t => { t with pends := [p] })

/-- A second strand of the unit that reserves the rest of the quarter's registers. -/
def crowded : State :=
  setUnit (setStrand bench 0 0 (fun t => { t with g := 48 })) 0 (fun w => { w with strands := w.strands ++ [(1, newStrand 1 0 1 8144)] })

theorem wit_IssueChecks_window :
    stands windowed (.iadd c0 .s32 false vv) (fun x sh => inWindow x c0 sh vv && !scoreboard x (.iadd c0 .s32 false vv) sh vv) = true ∧
    (let o : Ops := ⟨v 70, .null, .lit 7, .null⟩
     stands crowded (.mov c0 .b32 o) (fun x sh => decide (poolFor crowded x < poolNeed x.st (newNames x sh o)))) = true := by
  decide +kernel

theorem wit_TakingAFault : (match ctxOf bench 0 0 c0 with
    | some x => decide (unit? bench x.uid = some x.w ∧ launch? bench x.w.lid = some x.l ∧ x.l.ending = none ∧ recordRoom bench x.w.lid = true) &&
        !earlierWork bench x.w.core x.uid x.k x.st
    | none => false) = true ∧
    (match ctxOf windowed 0 0 c0 with
     | some x => preciseCode fProt && earlierWork windowed x.w.core x.uid x.k x.st
     | none => false) = true ∧
    recordRoom (setFn bench (queueOf 128) (fun f => { f with events := List.replicate 256 { code := 1 } })) (128 * 65536) = false ∧
    preciseCode fUncorr = false := by decide +kernel

/-! ## The step -/

/-- The machine about to fetch a word that is an instruction, and one that is not. -/
def fetching (w : Nat) : State := State.withFetchWord State.reset 96 w

def fetchCheck (s : State) (good : Bool) : Bool :=
  match s.turns with
  | .strand uid k :: ts =>
    let s0 := { s with turns := ts }
    match unit? s0 uid with
    | some w =>
      (match Tbl.find? w.strands k, launch? s0 w.lid with
       | some t0, some l =>
         let s1 := setStrand s0 uid k (fun t => { issuePath t l.lpb.noprog with yielded := false })
         !t0.completed && s0.stops.all (fun y => y.uid != uid) && !w.cancelled && strandOpen t0 && !outranked s0 w t0 && !convStuck s0 w l t0 &&
         !owesSlot s0 uid k w t0 &&
         (match ctxOf s1 uid k noCtl with
          | some x => (match (fetchAt s1 w.core l.fn l.part (x.who s1) x.p.pc.toNat).1 with | .ok bs => okE (decode bs) == good | .error _ => false)
          | none => false)
       | _, _ => false)
    | none => false
  | _ => false

theorem wit_StepRunsTheInstruction : fetchCheck (fetching (ofBytes (encode (.iadd c0 .s32 false vv)))) true = true ∧
    fetchCheck (fetching 0) false = true := by decide +kernel

/-- A store is the next step of a machine whose memory is in canonical form. -/
theorem wit_MemoryStaysCanonical : let s := fetching (ofBytes (encode (.st c0 0 .b32 ⟨v 1, .aff 1 .pair, .null, .null⟩)))
    Memory.wf s = true ∧ (match step s with | .next _ => true | _ => false) = true := by decide +kernel

/-! ## Spans -/

def spanOf (pc : Nat) : Span :=
  { lid := 128 * 65536, lo := 0, hi := 32, pc := BitVec.ofNat 64 pc, aff := benchAff, preds := List.replicate 7 {}, convs := [] }

/-- The launch of `bench` in the span table of cluster 0, and a span of its unit; the word at 0 is a `nop`. -/
def spanned : State :=
  let s := { bench with mem := putBytes [] 0 (encode (.nop c0 none4)), actor := .span 0 0, turns := [.span 0 0] }
  let s := setUnit s 0 (fun w => { w with spans := [(0, spanOf 0)] })
  setCluster s 0 (fun c => { c with table := [(0, spanOf 0)] })

theorem wit_StepRunsTheInstruction_spans :
    (let s0 := { spanned with turns := [] }
     match spanCtx s0 (.table 0) 0 with
     | some x => isPf x.l.fn && !x.l.cutting && nextSpan s0 0 == some 0 && (match (fetchSpan (setCluster s0 0 (fun c => { c with cursor := 0 })) 0 x.l x.sp.pc.toNat).1 with | .ok bs => (decode bs).toOption == some (.nop c0 none4) | .error _ => false)
     | none => false) = true ∧
    (let s0 := { spanned with turns := [] }
     match spanCtx s0 (.unit 0) 0 with
     | some x => (match x.w with
        | some w => !w.cancelled && s0.stops.all (fun y => y.uid != 0) && !w.cutting &&
            nextUnitSpan s0 w.core (spanQuarter w) == some (0, 0) &&
            (match (fetchAt s0 w.core x.l.fn x.l.part (spanWho s0 x 0 w) x.sp.pc.toNat).1 with
             | .ok bs => (decode bs).toOption == some (.nop c0 none4) | .error _ => false)
        | none => false)
     | none => false) = true ∧
    (match (clusterOf (State.withFetchWord State.reset 32 0x64000000) 0).reeve.call with
     | some c => (c.routine.code[c.pc]?).any (fun w => (decodeReeve w.toNat).toOption == some (.rvDone ⟨0, 0, 0, 0⟩))
     | none => false) = true ∧
    fieldsOf (.evBankMove 0 .l1 .scratch) = none ∧ reeveUses (.evBankMove 0 .l1 .scratch) = none := by decide +kernel

theorem wit_SpanResults : (match spanCtx spanned (.table 0) 0 with
    | some x => decide (spanned.actor = .span 0 x.slot) && spanGuard x.sp c0 == some true && spanGuard x.sp { c0 with gpred := 0 } == some false &&
        x.sp.wins == [] && decide (31 < x.sp.aff.length) && (spanPair x (.aff 1 .pair)).isSome && (spanPair x (.inline 3)).isSome
    | none => false) = true ∧
    (let s := { spanned with actor := .unitSpan 0 0 }
     match spanCtx s (.unit 0) 0 with | some x => decide (s.actor = .unitSpan 0 x.slot) | none => false) = true := by decide +kernel

/-! ## Commands of guests -/

/-- VF 0 with a request, an event and a routine being loaded; the PF with nothing. -/
def requested : State :=
  let s := setFn guested 0 (fun f => { f with loading := some 0x40, events := [{ code := 1 }] })
  { s with reqs := [{ tag := 9, vf := 0, die := 0, stage2 := false, cause := 1, access := 1, table := false, page := 5 }] }

theorem wit_GuestCommands :
    guested.dev.ready = true ∧ (fnOf guested 0).flr = false ∧ (fnOf guested 128).flr = false ∧ (fnOf guested 0).ide = false ∧
    submitOpen guested 0 = true ∧ submitOpen guested 128 = true ∧ Tbl.has guested.jobs (jobKey ⟨0, 15⟩) = false ∧
    fnOpen guested 0 = true ∧ fnOpen guested 128 = true ∧ (fnOf guested 0).loading = none ∧ fnOpen guested 127 = true ∧
    (fnOf requested 0).loading = some 0x40 ∧
    prqOf guested 0 = [] ∧ (prqOf requested 0).length = 1 ∧ (repliedTo requested (.vf 0) 9).isSome = true ∧
    repliedTo requested (.vf 0) 8 = none ∧ eventRoom requested 0 = true ∧ (fnOf guested 0).events = [] ∧
    (fnOf requested 0).events.length = 1 := by decide +kernel

/-- A sealed write that IDE asks for, a full queue, a closed one, and files that take nothing. -/
theorem wit_GuestCommands_jobs :
    (let s := setFn guested 0 (fun f => { f with ide := true })
     fnOpen s 0 = true ∧ (fnOf s (queueOf 0)).ide = true) ∧
    (let s := { guested with jobs := (List.range 16).map (fun e => (jobKey ⟨0, e⟩, { addr := 0, part := 0, recd := { handle := e } })) }
     ∀ e, e < 16 → Tbl.has s.jobs (jobKey ⟨0, e⟩) = true) ∧
    submitOpen (setFn guested 0 (fun f => { f with bound := false })) 0 = false ∧
    fnOpen (setFn guested 0 (fun f => { f with flr := true })) 0 = false ∧ fnOpen State.reset 128 = false ∧
    eventRoom (setFn guested 0 (fun f => { f with events := List.replicate 256 { code := 1 } })) 0 = false := by decide +kernel

theorem wit_GuestCommands_replies : (9 : DWord).getLsbD 16 = false ∧ (0x10009 : DWord).getLsbD 16 = true ∧
    repliedTo requested (.vf 0) 0x10009 = repliedTo requested (.vf 0) 9 ∧ (0x100 : DWord).getLsbD 8 = true ∧
    (1 : DWord).getLsbD 32 = false ∧ (0x100000001 : DWord).getLsbD 32 = true ∧ (0x20 : BitVec 256).getLsbD 5 = true := by
  decide +kernel

theorem wit_GuestCommands_flr : (let s := setFn bench 127 (fun f => { f with flr := true })
    (fnOf s 127).flr && !vfBusy s 127) = true := by decide +kernel

/-! ## Jobs, launches and units -/

/-- A job of one phase of one graph of one launch, laid out from 0x1000 in global memory; its launch has one unit of one item
and two f32 words of arguments to spare. -/
def jobMem : List Host.Cell :=
  let put := fun (m : List Host.Cell) (e : Nat × Nat × Nat) => putBytes m e.1 (toBytes e.2.1 e.2.2)
  [(0x1000, 64, 0x1100 + 2 ^ 64), (0x1100, 16, 0x1200 + 2 ^ 64), (0x1200, 16, 0x1300 + 2 ^ 64), (0x1300, 8, 0x1400),
   (0x1400, 192, 2 ^ 128 + 2 ^ 160 + 2 ^ 192 + 2 ^ 224 + 2 ^ 240 + 2 ^ 256 + 2 ^ 277 + 16 * 2 ^ 288)].foldl put []

def job0 : Job := { addr := 0x1000, part := 0, recd := { handle := 0 } }
def jobRef : JobRef := ⟨128, 0⟩

/-- The job of the PF of partition 0, and no unit. -/
def jobbed : State := { bench with mem := jobMem, jobs := [(jobKey jobRef, job0)], units := [], launches := [] }

def job1 : Job := { job0 with started := true, phlist := 0x1100, nphase := 1 }
def graph0 : Graph := { list := 0x1300, nlaunch := 1, recd := { total := 1 } }
def job2 : Job := { job1 with phaseOpen := true, graphs := [graph0], phaseRec := { total := 1 } }
def theLpb : Lpb := { addr := 0x1400, progress := 1, vregs := 16 }
def job3 : Job := { job2 with graphs := [{ graph0 with expanded := true, launches := [{ addr := 0x1400, lpb := theLpb, ready := some 0 }] }] }

def withJob (j : Job) : State := { jobbed with jobs := [(jobKey jobRef, j)] }

/-- The same job once its phase entry has been read. -/
def job1r : Job := { job1 with phaseEntry := some (0x1200, 1) }

theorem wit_WorkEvents_start :
    (match job? jobbed jobRef, readBlock jobbed 0 128 0 0x1000 64 with
     | some j, (.ok bs, _) => let v := ofBytes bs
       decide (j.failed = none ∧ j.phaseOpen = false ∧ j.started = false ∧ readWaits j (0, 0) = false ∧ j.addr = 0x1000 ∧
        fld v 64 16 = 1 ∧ fld v 80 16 = 0 ∧ fld v 128 384 = 0)
     | _, _ => false) = true ∧
    (let s := { jobbed with mem := putBytes jobMem 0x1008 [0] }
     match readBlock s 0 128 0 0x1000 64 with | (.ok bs, _) => decide (fld (ofBytes bs) 64 16 = 0) | _ => false) = true ∧
    (let s := withJob job1
     match readBlock s 0 128 0 0x1100 16 with
     | (.ok bs, s1) => let v := ofBytes bs
       decide (job1.phaseEntry = none ∧ fld v 64 7 = 1 ∧ fld v 71 57 = 0 ∧ fld v 0 64 = 0x1200 ∧ job? s1 jobRef = some job1) &&
        (match readBlock (setJob s1 jobRef (fun j => { j with phaseEntry := some (0x1200, 1) })) 0 128 0 0x1200 16 with
         | (.ok gs, s2) => (parseGraph 0 (ofBytes (slice gs 0 16))).isSome && (job? s2 jobRef == some job1r)
         | _ => false)
     | _ => false) = true ∧
    (let s := withJob job1r
     match readBlock s 0 128 0 0x1200 16 with
     | (.ok gs, s2) => (parseGraph 0 (ofBytes (slice gs 0 16))).isSome && (job? s2 jobRef == some job1r)
     | _ => false) = true := by decide +kernel

theorem wit_WorkEvents_launch :
    (let s := withJob job2
     match readBlock s 0 128 0 0x1300 8 with
     | (.ok bs, s1) =>
       (match readLaunches 0 128 0 0 1 [] s1 ((List.range 1).map (fun i => (i, ofBytes (slice bs (8 * i) 8)))) [] with
        | (.inl rs, _) => rs.all (fun e => match e.2 with | .ok _ _ => true | _ => false) && rs.length == 1
        | _ => false)
     | _ => false) = true ∧
    (let s := withJob job3
     match (waitingLaunches s 0).find? (acceptable s 0) with
     | some w => decide (w.ref = jobRef) && (match readTasks s 0 128 0 w.l.lpb with
        | (.ok ts, s1) => rqFits (acceptLaunch s1 128 0 jobRef (some (w.g, w.i)) 0 w.l.lpb w.l.deps ts).2
        | _ => false)
     | none => false) = true ∧
    (let j := { job2 with phaseRec := { total := 1, done := 1 } }
     decide (job? (withJob j) jobRef = some j ∧ j.phaseOpen = true ∧ j.phaseRec.total ≤ j.phaseRec.done)) = true := by decide +kernel

/-- `spanned` with its launch in the table, standing at a word that only strands execute. -/
def cutting : State :=
  setLaunch { spanned with mem := putBytes [] 0 (encode (.iadd c0 .s32 false vv)) } (128 * 65536) (fun l => { l with inTable := true })

/-- A concurrent launch that waits for admission, whose pieces are in its pool. -/
def concurrent : State :=
  setLaunch bench (128 * 65536) (fun l => { l with concWait := true, pool := [spanOf 0] })

theorem wit_WorkEvents_units :
    (match launch? cutting (128 * 65536) with
     | some l => l.inTable && (clusterOf cutting l.home).table.any (fun e => e.2.lid == 128 * 65536 && atCut cutting l.home l e.2)
     | none => false) = true ∧
    (let s := setCluster cutting 0 (fun c => { c with table := [(0, { spanOf 0 with wins := [{ n := 5, part := .base, data := 0, returned := false, left := 1 }] })] })
     (clusterOf s 0).table.any (fun e => e.2.lid == 128 * 65536 && e.2.wins.any (fun w => !w.returned && !w.stale))) = true ∧
    (let s := setCluster (setLaunch { spanned with units := [] } (128 * 65536) (fun l => { l with lpb := { l.lpb with progress := 2 } })) 0
       (fun c => { c with rq := [{ eid := 1, lid := 128 * 65536, kind := .unit 0 [spanOf 0] }], table := [] })
     (placeAhead 0 0 s (aheadEntries s 0)).1 == some 1) = true ∧
    (let s := setCluster bench 0 (fun c => { c with table := [(0, { spanOf 0 with st := .kwait })] })
     !neighbourRuns (spansAt s (.table 0)) { spanOf 0 with st := .kwait }) = true ∧
    (unitsOn bench 0).any (fun w => w.2.lid == 128 * 65536) = true ∧
    (let s := setStrand bench 0 0 (fun t => { t with completed := true, paths := [] })
     match unit? s 0 with | some w => unitDone s 0 w && (launch? s w.lid).any (fun (l : Launch) => l.ending.isNone) | none => false) = true := by
  decide +kernel

/-- Everything fits; nothing is free while a unit of the launch is there; a launch of more strands than the partition has. -/
theorem wit_WorkEvents_concurrent :
    (let s := concurrent
     match launch? s (128 * 65536) with
     | some l => concReady s (128 * 65536) l && decide (l.ending = none) && launchFits s l &&
        (let us := concUnits (128 * 65536) l
         match dealUnits (128 * 65536) l us.2 (setLaunch s (128 * 65536) (fun l => { l with concWait := false })) us.1 with
         | some t => rqFits (concAdmitted t (128 * 65536) l us.1)
         | none => false)
     | none => false) = true ∧
    (let s := setLaunch concurrent (128 * 65536) (fun l => { l with lpb := { l.lpb with vregs := 9000, vfloor := 9000 } })
     match launch? s (128 * 65536) with
     | some l => concReady s (128 * 65536) l && !launchFits s l
     | none => false) = true := by decide +kernel

/-! ## Values, holds and copies -/

def anyD {α : Type} (o : Option α) (p : α → Bool) : Bool :=
  match o with
  | some a => p a
  | none => false

/-- `bench` with an outstanding load. -/
def loading : State :=
  let o : Ops := ⟨v 40, v 10, .null, .null⟩
  let d : Pend := { id := 3, pc := 0, instr := .ld c0 0 .b32 o, lanes := allLanes, win := List.replicate 32 0, outs := [outVec 40 1 allLanes (fun _ => 0)], ready := 0 }
  setStrand bench 0 0 (fun t => { t with pends := [d] })

/-- Two strands of one quarter: the first holds registers beyond what it reserves, the second waits for them. -/
def squeezing : State :=
  let hold := onPath (fun p => { p with st := .hold })
  let s := setStrand bench 0 0 (fun t => { hold t with g := 8, stalls := [⟨allLanes, 1, 0, 0⟩] })
  setUnit s 0 (fun w => { w with strands := w.strands ++ [(1, { hold { newStrand 1 0 1 8150 with
    paths := [{ pc := 0, lanes := allLanes, limit := 128, aff := benchAff }] } with stalls := [⟨allLanes, 30, 0, 0⟩] })] })

/-- A drain of quarter 0 without a barrier, to one element of global memory, with or without its snapshot, and a queued `mma`. -/
def draining (snap : Option (Tbl Word)) : State :=
  setQuarter bench 0 0 (fun r => { r with
    drains := [{ id := 4, uid := 0, k := 0, pc := 0, ctx := 0, tile := 0, td := tf32 0x40000, roff := 0, coff := 0, sA := 0, sB := 0, rnd := .rne
                 seed := 0, bar := none, snapshot := snap, dst := [(0, .mem 0x40000)] }] })
def theMma : Mma := { uid := 0, k := 0, tile := 1, signed := 1, rows := List.replicate 32 0, koff := 0, noff := 0, a := tile8 1 96 0, b := tile8 96 64 4096 }
def queued : State := setQuarter bench 0 0 (fun r => { r with ctxs := r.ctxs.map (fun c => { c with queue := [theMma] }) })

/-- A copy of two bytes from global memory into the scratchpad, and a sealed batch whose copies have landed. -/
def copying : State :=
  let bs : List CByte := [⟨some (.mem 0x40000), some (.scratch 0), none, false⟩, ⟨some (.mem 0x40004), some (.scratch 4), none, false⟩]
  setCore { bench with units := bench.units.map (fun e => (e.1, { e.2 with scratch := putBytes [] 2048 (toBytes 16 (barBits ⟨1, 1, 0, 0⟩)) })) } 0
    (fun c => { c with copies := [{ id := 7, uid := 0, k := 0, lane := 0, pc := 0, lid := 128 * 65536, parts := [(0, bs)] }]
                       seals := [{ num := 0, uid := 0, k := 0, lane := 0, bar := 2048, copies := [] }] })

theorem wit_HoldEvents :
    anyD (strand? loading 0 0) (fun t => anyD (t.pends.find? (fun d => d.id == 3)) (fun d => awaits d && d.gen == 0)) = true ∧
    anyD (strand? bench 0 0) (fun t => noWait t && t.pends == [] && !t.isSpilled) = true ∧
    (let s := setStrand bench 0 0 (fun t => { t with timer := 64 })
     anyD (strand? s 0 0) (fun t => decide (64 ≤ t.timer)) && anyD (launch? s (128 * 65536)) (fun l => !l.lpb.noprog)) = true ∧
    (squeezed squeezing 0 0 && !someSatisfied squeezing 0 0 && anyD (youngest squeezing 0 0) (fun e =>
      someSatisfied (setStrand squeezing e.1 e.2 spill) 0 0)) = true ∧
    anyD (strand? squeezing 0 0) (fun t => decide (t.g < held t ∧ held t = t.regs.length)) = true ∧
    (let s := setStrand squeezing 0 0 spill
     anyD ((quarterStrands s 0 0).find? (fun e => e.2.2.isSpilled)) (fun e => decide (e.2.2.spilled.length + stallNeed e.2.2 ≤ 41))) = true := by decide +kernel

theorem wit_AddressesAndOrder_fence :
    clearWith (draining none) (.fence c0 ⟨.null, .null, .null, .inline 12⟩) (fun x _ => (constAcc (.inline 12)).rel &&
      drainsOf (draining none) x.w.core x.uid x.k != []) = true := by decide +kernel

/-- A load whose waiting lanes can be performed, one whose home cannot be read while its function's queue is full, and a stale
tag. -/
theorem wit_HoldEvents_response :
    anyD (strand? loading 0 0) (fun t => anyD (t.pends.find? (fun d => d.id == 3)) (fun d =>
      (memKind d.instr).isSome && (performWaiting loading 0 0 d).isSome && d.gen != 1)) = true ∧
    (let s := setStrand loading 0 0 (fun t => { t with pends := t.pends.map (fun d => { d with bad := 1 }) })
     let s := setFn s (queueOf 128) (fun f => { f with events := List.replicate 256 { code := 1 } })
     anyD (strand? s 0 0) (fun t => anyD (t.pends.find? (fun d => d.id == 3)) (fun d => (performWaiting s 0 0 d).isNone))) = true := by
  decide +kernel

theorem wit_LandingEvents :
    (let r := quarterOf queued 0 0
     r.running.isNone && anyD (nextCtx r) (fun c => (nth r.ctxs c {}).queue == [theMma] && !snapPending queued 0 0 c theMma.tile) &&
      holdsToken queued 0) = true ∧
    (quarterOf (draining none) 0 0).drains.any (fun d => d.id == 4 && d.snapshot.isNone) = true ∧
    anyD ((quarterOf (draining (some [])) 0 0).drains.find? (fun d => d.id == 4)) (fun d => d.snapshot.isSome && d.bar.isNone &&
      d.dst.all (fun e => !isScratch e.2 && reachable (draining (some [])) 0 (portOfUnit (draining (some [])) d.uid) e.2 4 true true)) = true ∧
    anyD (copy? copying 0 7) (fun y => !y.failed && landRoom copying y && !landsAfter copying 0 y (pendingBytes y) &&
      !landsInImage copying (pendingBytes y) && landReach copying 0 y (pendingBytes y) && recordRoom copying y.lid &&
      copyLive copying 0 y && !(landWords y (bytesFrom y 0 1)).isEmpty && !(pendingBytes y).all (landWords y (bytesFrom y 0 1)).contains) = true ∧
    anyD (sealReady (coreOf copying 0) 0) (fun b => match barStep copying b.uid b.bar (arrival 0) with | .ok _ => true | .error _ => false) = true := by
  decide +kernel

/-! ## Commands over partitions -/

/-- The machine with a block at host address 0x1000. -/
def commanded (s : State) (b : Nat) : State := { s with hostMem := putBytes [] 0x1000 (toBytes 64 b) }

def cmdCheck (s : State) (b : Nat) (p : State → PartCmd → Bool) : Bool :=
  let t := commanded s b
  let k : PartCmd := { op := fld b 0 8, bits := b, seq := s.serial }
  fnOpen t 128 && commandBlock t 0x1000 == some b && cmdWellFormed b && (partOf t (cmdPart b)).cmd.isNone && (partOf t (cmdPart b)).cmds == [] &&
    p (cmdTaken (fresh t).2 (cmdPart b) k) k

/-- CREATE of partition 1 on slices 1 and 2, with 4 KB of commons at 8 KB and an image of one page. -/
def createBits : Nat := 1 + 1 * 2 ^ 8 + 1 * 2 ^ 33 + 1 * 2 ^ 41 + 12 * 2 ^ 96 + 2 * 2 ^ 101 + 1 * 2 ^ 112
def bindBits : Nat := 3 + 5 * 2 ^ 192 + 3 * 2 ^ 200 + 10 * 2 ^ 204
def unbindBits : Nat := 4 + 0 * 2 ^ 192
def inState (p : Nat) (f : Partition → Partition) : State := setPart { bench with units := [], launches := [] } p f

theorem wit_PartitionCommands :
    cmdCheck bench createBits (fun s k => createCode s k.bits k.seq == 0 && k.op == 1) = true ∧
    cmdCheck bench (1 + 12 * 2 ^ 96 + 2 ^ 112) (fun s k => createCode s k.bits k.seq != 0) = true ∧
    cmdCheck bench (2 + 2 ^ 112) (fun _ _ => (partOf bench 0).st == .live) = true ∧
    cmdCheck bench bindBits (fun s k => bindCode s k.bits == 0) = true ∧
    cmdCheck guested unbindBits (fun _ k => (fnOf guested (cmdVf k.bits)).bound && (fnOf guested (cmdVf k.bits)).part == 0) = true ∧
    cmdCheck (inState 0 (fun p => { p with st := .scrub, receipt := some [1] })) (5 + 2 ^ 112) (fun s _ => (partOf s 0).receipt.isSome) = true ∧
    (fnOpen bench 128 && (commandBlock bench 0x1001).isNone && commandBlock bench 0x1000 == some 0 && !cmdWellFormed 0) = true ∧
    (let s := setFn bench 9 (fun f => { f with unbinding := true })
     (fnOf s 9).unbinding && !vfBusy s 9 && (partOf s (fnOf s 9).part).cmd.isNone) = true := by decide +kernel

theorem wit_PartitionPhases :
    hostUp bench = true ∧ (partOf (inState 3 (fun p => { p with st := .reassign, dir := true })) 3).st = .reassign ∧
    (partOf (inState 3 (fun p => { p with st := .reassign, cmd := some { op := 1, bits := createBits } })) 3).cmd = some { op := 1, bits := createBits } ∧
    hostUp { bench with links := [(36, { up := false })] } = false ∧
    drained (inState 3 (fun p => { p with st := .drain, first := 5, count := 1 })) 3 = true ∧
    (partOf (inState 3 (fun p => { p with st := .scrub })) 3).receipt = none := by decide +kernel

/-! ## Records, time and power -/

/-- `bench` two seconds on. -/
def late : State := { bench with time := 2000000000, clock := 64 }

theorem wit_RecordAndPowerEvents :
    recordDue late (partOf late 0) = true ∧ (partOf late 0).usage.length < 15 ∧ msDue late (partOf late 0) = true ∧
    6 < (partOf late 0).meters.length ∧ pullable (partOf late 0) = true ∧ pullable { partOf late 0 with st := .scrub } = false ∧
    frozen (partOf late 0) = false ∧ frozen { partOf late 0 with st := .scrub } = true ∧ fnOpen late 128 = true ∧ late.pulls = [] ∧ late.dev.ready = true ∧
    { late with time := 3600000000000 }.lifeAt + 3600000000000 ≤ { late with time := 3600000000000 }.time ∧
    partOfSlice late 0 = some 0 ∧ (dieOf late 15).tokenCycles + 64 ≤ late.clock ∧
    (let r : UsageRec := ⟨false, 0, 0, 0, 0, 0, 0, [], []⟩
     let s := setPart late 0 (fun p => { p with usage := List.replicate 15 r })
     recordDue s (partOf s 0) = true ∧ 15 ≤ (partOf s 0).usage.length) := by decide +kernel

/-! ## Cairn regions, domains and syncs -/

/-- The machine with a block at the generic address 0x1000 of partition 0. -/
def cairnAsked (s : State) (b : Nat) : State := { s with mem := putBytes s.mem 0x1000 (toBytes 64 b) }

def cairnCheck (s : State) (b : Nat) (p : State → Bool) : Bool :=
  let t := cairnAsked s b
  let u := (cairnBlock t 0x1000).2
  fnOpen t 128 && (cairnBlock t 0x1000).1 == some b && fld b 36 28 == 0 && fld b 192 320 == 0 && (partOf u (cmdPart b)).st == .live && p u

def noRegion : State := setPart bench 0 (fun p => { p with region := none, domains := [], pfCairn := 0 })
/-- Partitions 0 and 1 LIVE, of one owner, each with a domain. -/
def linked : State :=
  setPart (setPart bench 1 (fun p => { p with st := .live, first := 1, count := 1, region := (partOf bench 0).region, domains := (partOf bench 0).domains })) 0
    (fun p => { p with links := [(9, (1, 0))], pfCairn := 0 })

theorem wit_CairnCommandsAndEvents :
    cairnCheck noRegion (1 + 1 * 2 ^ 64 + 1000 * 2 ^ 96) (fun t => let b := 1 + 1 * 2 ^ 64 + 1000 * 2 ^ 96
      decide (0 < cLines b) && (partOf t 0).region.isNone && decide (cSlots b + regionPages ⟨cSlots b, cLines b, 0⟩ ≤ pagesPerGroup)) = true ∧
    cairnCheck (setPart bench 0 (fun p => { p with domains := [], pfCairn := 0 })) 1 (fun t => anyD (partOf t 0).region (fun r =>
      !domainBound t 0 (fun _ => true) && !domainLinked t 0 (fun _ => true) && !nmOutstanding t 0 && decide (r.first + regionPages r ≤ pagesPerGroup))) = true ∧
    cairnCheck bench (2 + 7 * 2 ^ 14 + 16 * 2 ^ 64 + 65536 * 2 ^ 96) (fun t => anyD (partOf t 0).region (fun r =>
      !Tbl.has (partOf t 0).domains 7 && !Tbl.has (partOf t 0).links 7 && decide (domainLines 16 65536 ≤ r.freeLines))) = true ∧
    cairnCheck (setPart bench 0 (fun p => { p with pfCairn := 0 })) 3 (fun t => Tbl.has (partOf t 0).domains 0 &&
      !domainBound t 0 (fun i => i == 0) && !domainLinked t 0 (fun i => i == 0) && !nmOutstanding t 0) = true ∧
    cairnCheck linked (4 + 8 * 2 ^ 14 + 1 * 2 ^ 22) (fun t => (partOf t 1).st == .live && Tbl.has (partOf t 1).domains 0 &&
      !Tbl.has (partOf t 0).domains 8 && !Tbl.has (partOf t 0).links 8 && (partOf t 0).owner == (partOf t 1).owner) = true ∧
    cairnCheck linked (5 + 9 * 2 ^ 14) (fun t => Tbl.has (partOf t 0).links 9) = true ∧
    (let s := { bench with pfPart := 5 }
     fnOpen s 128 && (cairnBlock s 0x1000).1.isNone) = true := by decide +kernel

theorem wit_CairnEvents :
    (let r : RNode := ⟨0, 0, 5, List.replicate 192 0, 0, 0, none⟩
     Tbl.getD { bench with reclaim := [(191, [r])] }.reclaim 191 [] = [r] ∧ r.part = 0 ∧ r.dom = 0) ∧
    tableEntry bench 0 0 = some ⟨0, 0⟩ ∧
    anyD (domain? bench ⟨0, 0⟩) (fun d => (match receive d 0 zeroLine with | .held => true | _ => false) &&
      (match receive d 0 (1 :: List.replicate 191 0) with | .key => true | _ => false)) = true ∧
    (let y : Sync := { id := 1, part := 0, dom := 0, root := 0, status := .mem 0, handle := 255 }
     let s := { late with syncs := [y], peerMap := [(255, 1)] }
     s.syncs.find? (fun y => y.id == 1) = some y ∧ syncTargets s y.handle = some [255] ∧ y.start + 100000000 ≤ s.time ∧
       syncTargets { s with peerMap := [] } y.handle = none) := by decide +kernel

/-- A sync of one name that its peers want, one that has sent a line, and one that has nothing left to do. -/
theorem wit_CairnEvents_sync :
    let y : Sync := { id := 1, part := 0, dom := 0, root := 5, status := .mem 0, handle := 255, offers := [5] }
    y.offers = 5 :: [] ∧ syncEnds y 1 = false ∧ syncEnds { y with offers := [], sent := 1 } 3 = true ∧
    syncEnds { y with offers := [] } 1 = true ∧ ({ y with offers := [], marked := [5] } : Sync).marked = 5 :: [] ∧
    bench.time < y.start + 100000000 := by decide +kernel

/-- What a domain answers for a line of ones under its own name: new, held, met by another line of that name, full. -/
theorem wit_CairnEvents_receive :
    let line : List Byte := List.replicate 192 1
    let d : Domain := { key := 1, budget := 16, nslots := 4, free := [16], lines := 22 }
    let name := nameOf (nameHash d.key 0 line) 0 0
    anyD (lineGroup d.free (homeGroup name d.free.length)) (fun _ => true) = true ∧
    (match receive d name line with | .new => true | _ => false) = true ∧
    (match receive { d with dir := [(name.toNat, { line := line, count := 1, group := 0 })] } name line with | .held => true | _ => false) = true ∧
    (match receive { d with dir := [(name.toNat, { line := zeroLine, count := 1, group := 0 })] } name line with | .collided => true | _ => false) = true ∧
    (match receive { d with budget := 0, free := [0] } name line with | .full => true | _ => false) = true ∧
    (match receive { d with free := [0] } name line with | .wait => true | _ => false) = true := by
  decide +kernel

/-! ## Saves, halts, banks and worlds -/

def haltOf (bnd : Bool) (todo : List Nat) (deadline : Nat) : Halt :=
  { id := 2, part := 0, vf := 0, bnd := bnd, gang := false, block := .mem 0x30000, deadline := deadline, start := 0, incoming := none, todo := todo }

theorem wit_SaveAndWorldEvents_halts :
    (let s := { guested with halts := [haltOf false [0] 10] }
     anyD (s.halts.find? (fun h => h.todo.contains 0)) (fun h => midHalt s h.bnd h.gang 0 && rqRoom s h.vf [(0, .resume 0)])) = true ∧
    (let s := { guested with halts := [haltOf true [0] 10], stops := [⟨0, 2⟩] }
     anyD (s.halts.find? (fun h => h.todo.contains 0 && s.stops.any (fun t => t.uid == 0 && t.halt == h.id))) (fun h =>
      anyD (unit? s 0) (fun w => issueDone s 0 w && decide (s.time ≤ h.deadline) && rqRoom s h.vf [(w.core / 2, .resume 0)]))) = true ∧
    (let s := { late with halts := [haltOf true [0] 10], stops := [⟨0, 2⟩] }
     anyD (s.halts.find? (fun h => h.todo.contains 0)) (fun h => decide (h.deadline < s.time))) = true ∧
    (let s := { guested with halts := [haltOf true [] 10] }
     anyD (s.halts.find? (fun h => h.id == 2)) (fun h => h.todo.all (fun u => !Tbl.has s.units u))) = true ∧
    (let s := setLaunch (setFn guested 0 (fun f => { f with saveArea := BitVec.ofNat 64 (100 * 2 ^ 32) })) (128 * 65536)
       (fun l => { l with fn := 0, lpb := { l.lpb with scratch := 0 } })
     let s := setStrand (setUnit s 0 (fun w => { w with ctx := [] })) 0 0 (fun t => { t with regs := [] })
     (saveUnit (dropStops s (fun t => t.uid == 0)) 0 true (lastSave (dropStops s (fun t => t.uid == 0)) (haltOf false [0] 10) 0)).isSome) = true := by
  decide +kernel

theorem wit_SaveAndWorldEvents :
    (let b : BulkOp := { engine := 6, part := 0, evict := false, vf := 0, rwx := 7, ipa := 0, frame := 0, io := 0, slot := 0, block := .mem 0, started := true }
     let s := setDie bench 15 (fun d => { d with bulk := [b] })
     (dieOf s 15).bulk.findIdx? (fun b => b.engine == 6) == some 0 && !copiesHold s .ipa b.vf 0) = true ∧
    (let s := setCore bench 0 (fun c => { c with st := 16, lt := 17, xt := 1 })
     let c := coreOf s 0
     decide (c.st < c.sc ∧ c.lc < c.lt ∧ nth c.xq 3 0 < c.xt) && (freeScratch s 0).isSome) = true ∧
    (let s := setCore bench 0 (fun c => { c with st := 48, lt := 0 })
     let c := coreOf s 0
     decide (c.lt < c.lc ∧ c.sc < c.st ∧ c.sc ≤ c.st)) = true ∧
    (let s := setCore bench 0 (fun c => { c with xt := 0, xq := [1, 0, 0, 0], lt := 17, lc := 16 })
     emptyBank s 0 0 == some 1 && decide ((coreOf s 0).lc < (coreOf s 0).lt) &&
      (emptyBank (setStrand s 0 0 (fun t => { t with regs := t.regs.map (fun e => (e.1, { e.2 with bank := 1 })) })) 0 0).isNone) = true ∧
    (let s := setCore bench 1 (fun c => { c with wTgt := [5, 0, 0, 0], wCur := [0, 2, 0, 0] })
     let c := coreOf s 1
     (quarterOf s 1 0).zsig.isNone && nth c.wTgt 0 0 != nth c.wCur 0 0 && !nth c.wPend 0 false && !nth c.wFail 0 false &&
      quarterStrands s 1 0 == [] && nth c.wCur 0 0 == 0 && nth c.wTgt 1 0 != nth c.wCur 1 0 && nth c.wCur 1 0 != 0) = true ∧
    (quarterOf (setQuarter bench 1 2 (fun u => { u with zsig := some false })) 1 2).zsig = some false := by decide +kernel

/-! ## Ports, links and start-up -/

/-- Window 7 maps two pages of partition 0; VF 0 has a stage-2 root whose leaf of page 0 is physical page 0. -/
def windows : State := { guested with cxl := [(7, ⟨true, 0, 1, 2⟩)] }

theorem wit_PortEvents :
    windows.dev.ready = true ∧ (windowPa windows 7 0 1).isSome = true ∧ (windowPa windows 7 98303 1).isSome = true ∧
    windowPa windows 7 98304 1 = none ∧ windowPa windows 0 0 1 = none ∧ linkUp windows (24 + 11) = true ∧
    peerPa windows 3 127 0 4 .read = none ∧ (Tbl.getD windows.links 37 {}).up = true ∧
    (∀ b, (Tbl.getD windows.links 37 {}).failsOf b < 2) ∧
    2 ≤ (Tbl.getD { windows with links := [(37, { fails := 2 })] }.links 37 {}).failsOf false ∧
    2 ≤ (Tbl.getD { windows with links := [(37, { failsBack := 2 })] }.links 37 {}).failsOf true ∧
    linkUp { windows with links := [(24, { up := false })] } 24 = false ∧ State.reset.dev.ready = false ∧ State.reset.dev.stage ≠ 7 := by
  decide +kernel

/-- A start-up where each die has all its cores, or where die 15 has one too few, and signatures of both kinds. -/
def startWith (last : Nat) : StartResult :=
  { firmware := ⟨true, true⟩, version := 1, identity := true, vendor := ⟨true, true⟩, field := ⟨true, false⟩
    cores := List.replicate 15 (List.range 26) ++ [List.range last], lanes := [], rows := [], beyond := false, memory := true }

theorem wit_PortEvents_start :
    (let r := startWith 24
     verified r.firmware = true ∧ verified r.vendor = true ∧ verified r.field = false ∧ ¬ r.version < State.reset.vendor.floor ∧
       ∀ d, d < 16 → ¬ (coreMap State.reset r d).length < 24) ∧
    (coreMap State.reset (startWith 23) 15).length < 24 ∧
    (∀ n, n < 6 → let s := { State.reset with dev := { stage := n } }
      s.dev.ready = false ∧ s.dev.stage = n ∧ ∀ d, d < 16 → ¬ (coreMap s (startWith 24) d).length < 24) ∧
    (let s := { State.reset with dev := { stage := 3 }, repairs := { cores := [(15, [25])] } }
     25 ∈ Tbl.getD s.repairs.cores 15 [] ∧ ∀ d, d < 16 → ¬ (coreMap s (startWith 24) d).length < 24) := by decide +kernel

/-- The same with a leaf of all rights for page 0. -/
def peered : State :=
  let put := fun (m : List Host.Cell) (e : Nat × Nat) => putBytes m e.1 (toBytes 8 e.2)
  { windows with mem := [(0xC0000, 0xCC001), (0xCC000, 0xD8001), (0xD8000, 0xC03B)].foldl put []
                 fns := Tbl.put windows.fns 127 { fnOf windows 0 with s2root := 0xC0000 } }

theorem wit_PortEvents_peer : peerPa peered 3 127 0 4 .read = some 0xC000 ∧ peerPa peered 3 127 49148 4 .write = some (0xC000 + 49148) ∧
    peerPa peered 3 127 49144 8 .rmw = some (0xC000 + 49144) ∧ (0xC000 + 49144) % 8 = 0 ∧ peerPa peered 3 127 49149 4 .read = none := by
  decide +kernel

/-! ## Decision points -/

/-- Cluster 0 with one entry of VF 0 in its queue, and events waiting. -/
def deciding : State :=
  let s := setLaunch (setFn bench 0 (fun f => { f with bound := true })) 5 (fun l => l)
  let l : Launch := { fetchLaunch with fn := 0, handle := 5, job := ⟨0, 0⟩, priv := false, lpb := { fetchLaunch.lpb with progress := 2 } }
  let s := { s with launches := Tbl.put s.launches 5 l }
  setCluster s 0 (fun c => { c with rq := [{ eid := 3, lid := 5, kind := .unit 0 [{ spanOf 0 with lid := 5 }] }]
                                    reeve := { c.reeve with queue := [.enq 3 (-1), .tick] } })

theorem wit_PolicyEvents :
    (let c := clusterOf deciding 0
     c.reeve.call.isNone && (match c.reeve.queue with | e :: _ => evPoint e == .enq | [] => false) && c.reeve.waiting == []) = true ∧
    (partOfSlice deciding 0 == some 0 && homeOfEntry deciding 3 == some 0 && (entryOfQueue deciding 0 3).isSome) = true ∧
    anyD (unit? deciding 0) (fun w => w.core / 2 == 0) = true ∧
    (aheadEntries deciding 0 == [] && pickTenants deciding 0 == [0]) = true ∧
    (routineFor deciding 0 0 false .enq).isNone = true ∧
    (let r : Routine := ⟨[0x64000000], 256, 64, 0, false⟩
     (routineFor (setFn deciding 0 (fun f => { f with routines := [(0, r)] })) 0 0 false .enq).isSome) = true ∧
    (let c := clusterOf { deciding with time := 2000000 } 0
     decide (c.quantumAt + 1000 * c.quantum ≤ 2000000)) = true ∧
    ((clusterOf deciding 0).rq.any (candidate deciding) && decide (0 < freeUnitSlots deciding 1) &&
      !pending (clusterOf deciding 0).reeve (.pick 1)) = true := by
  decide +kernel

/-- A unit of a VF whose strand is held, and one whose strand is parked. -/
theorem wit_PolicyEvents_blocked :
    (let s := setUnit (setStrand late 0 0 (onPath (fun p => { p with st := .bwait }))) 0 (fun w => { w with lid := 5, heldSince := some 0 })
     anyD (unit? s 0) (fun w => decide (0 + 1000000 ≤ s.time) && !isPf (fnOfLid w.lid) && !canIssue w && w.strands.any (fun e => !e.2.completed) && !w.blockSent &&
      w.strands.all (fun e => !strandParked e.2))) = true ∧
    (let s := setUnit (setStrand bench 0 0 (fun t => { onPath (fun p => { p with st := .fault }) t with token := some ⟨1, .trap, 1, 0⟩ })) 0
      (fun w => { w with lid := 5 })
     anyD (unit? s 0) (fun w => !canIssue w && w.strands.any (fun e => strandParked e.2))) = true ∧
    (let s := setCluster calling 0 (fun k => { k with reeve := { k.reeve with call := k.reeve.call.map (fun c => { c with used := 256 }) } })
     anyD (clusterOf s 0).reeve.call (fun c => decide (c.routine.allow < c.used + nextCost s 0 c))) = true := by decide +kernel

/-! ## Witnesses of single clauses -/

theorem wit_BranchResults_align : clearWith bench (.brx c0 (aOf (v 2))) (fun x _ =>
    x.lanes.any (fun l => readSrc x (.int 2 false) (v 2) l % 12 != 0)) = true := by decide +kernel

/-- Depth 64; a target that is no multiple of 12; a `fent` above VREGS; an indirect call to a word that is no `fent`. -/
theorem wit_CallResults_faults :
    (let s := benchOf id (onPath (fun p => { p with stack := List.replicate 64 (0, 0) }))
     clearWith s (.call c0 (bOf (.lit 3))) (fun x _ => decide (64 ≤ x.p.stack.length) &&
       !okE (callChecks (passed x) false (toBytes 8 (branchTarget x.p.pc (.lit 3)).toNat) s [((branchTarget x.p.pc (.lit 3)).toNat, x.tm)]))) = true ∧
    clearWith bench (.calli c0 (aOf (v 2))) (fun x _ => decide (x.p.stack.length < 64) &&
      (targetsOf x (readSrc x (.int 2 false) (v 2))).any (fun e => decide (e.1 % 12 ≠ 0))) = true ∧
    (let s := benchOf (fun l => { l with vregs := 127 }) id
     let s := { s with mem := putBytes [] 0 (encode (.fent c0 (bOf (.lit 128)))) }
     clearWith s (.calli c0 (aOf (v 14))) (fun x _ =>
       (match (fetchAt s x.w.core x.l.fn x.l.part (x.who s) 0).1 with
        | .ok bs => (decode bs).toOption == some (.fent c0 (bOf (.lit 128)))
        | .error _ => false) && decide (x.l.lpb.vregs < countOf (bOf (.lit 128)).b))) = true ∧
    clearWith bench (.calli c0 (aOf (v 14))) (fun x _ =>
      !okE (callChecks (passed x) true (((targetsOf x (readSrc x (.int 2 false) (v 14))).flatMap (fun e => toBytes 8 e.1)).take 64) bench
        (targetsOf x (readSrc x (.int 2 false) (v 14))))) = true := by decide +kernel

/-- The core's entries are empty, and the pool is not; an entry that gives item 7. -/
theorem wit_RefillResult_waits :
    (let s := setLaunch (benchOf (fun l => { l with refill := true }) (fun t => { t with marked := 0x3 })) (128 * 65536) (fun l => { l with pool := [spanOf 0] })
     clearWith s (.refill c0 none4) (fun x _ => x.l.lpb.refill &&
      (serveLanes x.w.core x.w.lid s { (passed x).st with refilled := true } (lanesOf (x.tm &&& x.st.marked)) 0).2.2.2)) = true ∧
    takeFirst [⟨{ spanOf 0 with lo := 7, hi := 8 }⟩] (128 * 65536) = some (7, []) ∧ takeFirst [] 5 = none := by decide +kernel

/-- The upper lanes are parked on k7, and the lower ones sign last. -/
theorem wit_ConvergenceResults_release :
    (let s := benchOf id (fun t => { t with
       paths := t.paths.flatMap (fun p => [{ p with lanes := 0xFFFF }, { p with lanes := 0xFFFF0000, pc := 24, st := .parked 7 }])
       convs := setNth t.convs 7 { mask := 0xFFFFFFFF, signed := 0xFFFF0000, st := .waiting } })
     clearWith s (.kwait c0 (dOf (.conv 7))) (fun x _ => let w := convOf x.st 7
       w.st != .matrix && (w.mask &&& liveLanes x.st &&& ~~~(w.signed ||| (x.tm &&& w.mask))) == 0 && x.st.paths.any (fun p => p.st == .parked 7))) = true := by
  decide +kernel

/-- `squeezing` with no wait for registers, and its first strand's slot given up. -/
def yielding : State :=
  let go := fun (t : Strand) => onPath (fun p => { p with st := .run }) { t with stalls := [] }
  let s := setStrand (setStrand squeezing 0 0 (fun t => { go t with yielded := true })) 0 1 go
  { s with turns := [.strand 0 0], lastIssue := [(0, (0, 0))] }

/-- A strand of two paths, of which the lower yields; one that owes its slot; records to spare. -/
theorem wit_YieldTrapAndPoolResults_slot :
    (let s := benchOf id (fun t => { t with paths := t.paths.flatMap (fun p => [{ p with lanes := 0xFF }, { p with lanes := 0xFFFFFF00, pc := 24 }]) })
     clearWith s (.yield c0 none4) (fun x _ => !x.l.lpb.noprog && decide (x.st.paths.Pairwise (fun p q => pathLow p < pathLow q)) &&
       x.st.paths.all (fun p => ready p))) = true ∧
    (let s0 := { yielding with turns := [] }
     match unit? s0 0 with
     | some w => (match Tbl.find? w.strands 0, launch? s0 w.lid with
        | some t, some l => !t.completed && s0.stops == [] && !w.cancelled && (lduLeft t).isNone && !t.steps.any (stepDone t) &&
            !convStuck s0 w l t && owesSlot s0 0 0 w t
        | _, _ => false)
     | none => false) = true ∧
    anyD (launch? bench (128 * 65536)) (fun l => decide (l.records < 16)) = true := by decide +kernel

/-- VF 127 with tables of both stages: its stage-2 page 0 is at 0xC000, and there stand its stage-1 tables, whose entry 2 is page 0. -/
def vfTables : List (Nat × Nat) := [(0xC0000, 0xCC001), (0xCC000, 0xD8001), (0xD8000, 0xC03B), (0xC000, 1), (0xC010, 0x3B)]
def translating : State :=
  { bench with mem := vfTables.foldl (fun m e => putBytes m e.1 (toBytes 8 e.2)) []
               fns := Tbl.put bench.fns 127 { fnOf bench 0 with bound := true, s2root := 0xC0000 } }
def vfRd (a : Nat) : Nat := (vfTables.find? (fun e => e.1 == a)).elim 0 (·.2)

/-- A VF's page that is there, one that is not, and a page of the PF inside and outside of its partition. -/
theorem wit_MemoryFaultsBeforeEffect_translation :
    (match translate translating 0 127 0 (2 * 49152) 4 .read true with | (.ok loc, _) => loc == .mem 0xC000 | _ => false) = true ∧
    isPf 127 = false ∧ Tbl.find? (coreOf translating 0).tlb (tlbKey 127 2) = none ∧ Tbl.find? (dieOf translating 0).tlb (tlbKey 127 2) = none ∧
    (match (walkVf translating vfRd 127 2 .read).1 with | .ok y => y.leaf == .page 0xC000 && y.ipa == 0 | .error _ => false) = true ∧
    (match (walkVf translating vfRd 127 1 .read).1 with | .error (.miss false 0 false p) => p == 49152 | _ => false) = true ∧
    (match tablePa vfRd [] 0xC0000 0 with | (.ok p, _) => p == 0xC000 | _ => false) = true ∧
    isPf 128 = true ∧ (2 ^ 40 / 49152 ≥ 87381 * (partSpan (partOf bench 0)).2) ∧ (partSpan (partOf bench 0)).1 + (partSpan (partOf bench 0)).2 ≤ 192 ∧
    (match checkXlat bench ⟨.page 0xC000, 0, true, false, false, true, true, true, false, []⟩ .read 4 4 with | .ok _ => true | .error _ => false) = true ∧
    (match checkXlat bench ⟨.page 0xC000, 0, true, true, false, true, false, true, false, []⟩ .write 4 4 with | .error (.prot 3) => true | _ => false) = true := by
  decide +kernel

/-- `two` in VF 127, whose loads find no page: their lanes park. -/
def missing : State :=
  setUnit (setLaunch { two with fns := Tbl.put two.fns 127 { fnOf two 0 with bound := true, s2root := 0xC0000 } } (128 * 65536) (fun l => { l with fn := 127 })) 0 id

theorem wit_MemoryFaultsBeforeEffect_parks :
    (let o : Ops := ⟨v 40, .aff 1 .pair, .null, .null⟩
     let i : Instr := .ld c0 0 .b32 o
     let mk := MKind.load (ldAcc 0) .b32
     clearWith missing i (fun x _ => memKind i == some mk &&
       match checkLanes missing (memLanes x i) (memAddr x i) mk.size mk.size mk.rights mk.hostOk with
       | (.ok ls, s1) => missLanes ls != [] && !rangesHold missing x (okLanes ls) mk.size && drainsOf missing x.w.core x.uid x.k == [] &&
          (let q := postReqs s1 x.l.fn (dieOfCore x.w.core) mk.rights (missLanes ls)
           (performLanes q.2 { x.who missing with pc := x.p.pc } x.l.job mk (memAddr x i) (memData x i) (okLanes ls)).stop.isNone)
       | _ => false)) = true ∧
    (bench.reqs = [] ∧ requested.reqs.any (fun r => sameReq r 0 0 false 5) = true) ∧
    128 ≤ ({ requested with reqs := List.replicate 128 (requested.reqs.headD { tag := 0, vf := 0, die := 0, stage2 := false, cause := 0, access := 0, table := false, page := 1 }) }.reqs.filter
      (fun (r : PageReq) => r.die == 0)).length := by decide +kernel

theorem wit_canonical : MemoryInv bench ∧ ScratchInv bench ∧ ScratchWf bench 0 ∧ ScratchInv State.reset := by
  refine ⟨by unfold MemoryInv; decide +kernel, ⟨by decide +kernel, by decide +kernel⟩, ?_, ⟨by decide +kernel, by decide +kernel⟩⟩
  intro w h
  have e : (unit? bench 0).map (fun w => cellsWf 0 w.scratch) = some true := by decide +kernel
  rw [h] at e; simpa using e

/-- What `mmaCheck` looks at: a K offset that is no multiple of 32, and a row beyond the scratchpad. -/
theorem wit_MatrixIssueResults_check :
    (let p : MmaOp := { tile := 7, koff := 0, noff := 0, tdA := 1, tdB := 2 }
     okE (mmaCheck matrix 0 (128 * 65536) { theLpb with scratch := 16384 } p 1 (List.replicate 32 0)) &&
       (match mmaCheck matrix 0 (128 * 65536) { theLpb with scratch := 16384 } { p with koff := 1 } 1 (List.replicate 32 0) with | .error c => c == fTd | .ok _ => false) &&
       (match mmaCheck matrix 0 (128 * 65536) { theLpb with scratch := 64 } p 1 (List.replicate 32 0) with | .error c => c == fScratch | .ok _ => false)) = true ∧
    (anyD (ctxOf matrix 0 0 c0) (fun x => decide (x.st.quarter < (coreOf matrix x.w.core).quarters.length) &&
      decide (mctxOf x.w x.k x.st.quarter < (quarterOf matrix x.w.core x.st.quarter).ctxs.length) && x.st.pends == [] &&
      strand? matrix x.uid x.k == some x.st)) = true ∧
    (tf32 0).fmt.isBfp = false ∧ (tile8 1 96 0).space = some .scratch := by decide +kernel

theorem wit_SystemRegisterReadBack_split :
    (let good := 0 + 32 * 2 ^ 4 + 16 * 2 ^ 10
     (sysWrite bench 0 ⟨0, 0, 127⟩ good).isSome && decide (4 * fld good 0 4 + fld good 4 6 + fld good 10 6 = 48 ∧ 8 ≤ fld good 10 6 ∧ fld good 0 4 ≤ 10) &&
       (sysWrite bench 0 ⟨0, 0, 127⟩ 0 == some bench) && (sysWrite bench 0 ⟨3, 0, 127⟩ 0x4321).isSome && (sysWrite bench 0 ⟨1, 0, 127⟩ 3 == some bench)) = true ∧
    (anyD (unit? bench 0) (fun w => let s := { bench with images := [(1, { unit := w, mid := true, fn := 5, off := 0, len := 0 })] }
      s.images.any (fun e => e.2.fn == 5) && (sysWrite s 0 ⟨12, 0, 5⟩ 7 == some s))) = true := by decide +kernel

/-- A load of good addresses into a register that a window covers. -/
theorem wit_IssueChecks_loadWindow :
    (let s := setStrand windowed 0 0 (onPath (fun p => { p with lanes := 0x3 }))
     let o : Ops := ⟨v 40, .aff 1 .pair, .null, .null⟩
     let i : Instr := .ld c0 0 .b32 o
     let mk := MKind.load (ldAcc 0) .b32
     stands s i (fun x sh => inWindow x c0 sh o && !scoreboard x i sh o && memKind i == some mk && unmappedLanes x sh o &&& mustRead i == 0 &&
       lanesReady s (memLanes x i) mk (memAddr x i) (memData x i))) = true := by decide +kernel

/-- `spanned` with the launch's span, and a second one behind it, standing as given. -/
def spans (l : List Span) : State := setCluster spanned 0 (fun c => { c with table := l.zipIdx.map (fun e => (e.2, e.1)) })
def setPred (n : Nat) (p : SPred) (sp : Span) : Span := { sp with preds := setNth sp.preds n p }

/-- Compares that do and do not differ over a range; a guard that splits it; room for a second span, and none. -/
theorem wit_SpanResults_control :
    (match spanCtx spanned (.table 0) 0 with
     | some x => spanSet .s64 .lt ⟨0, 0⟩ ⟨5, 0⟩ x.sp.lo x.sp.hi == some ⟨1, 0⟩ && (spanSet .s64 .eq ⟨0, 1⟩ ⟨5, 0⟩ x.sp.lo x.sp.hi).isNone &&
         decide (x.sp.lo < x.sp.hi)
     | none => false) = true ∧
    (let sp := setPred 0 { kind := 2, c := 16 } (spanOf 0)
     let s := spans [sp]
     match spanCtx s (.table 0) 0 with
     | some x => (spanGuard x.sp { c0 with gpred := 0 }).isNone && splitRoom s x && x.sp.wins == []
     | none => false) = true ∧
    (let sp := setPred 0 { kind := 2, c := 16 } (spanOf 0)
     let s := spans (List.replicate 64 sp)
     match spanCtx s (.table 0) 0 with
     | some x => (spanGuard x.sp { c0 with gpred := 0 }).isNone && !splitRoom s x
     | none => false) = true ∧
    (let s := setUnit spanned 0 (fun w => { w with spans := (List.range 64).map (fun n => (n, setPred 0 { kind := 2, c := 16 } (spanOf 0))) })
     match spanCtx s (.unit 0) 0 with
     | some x => (spanGuard x.sp { c0 with gpred := 0 }).isNone && !splitRoom s x
     | none => false) = true := by decide +kernel

/-- An `exit` with other spans of its launch there, and of the last span of a unit. -/
theorem wit_SpanResults_exit :
    (let s := spans [spanOf 0, { spanOf 0 with lo := 32, hi := 64 }]
     match spanCtx s (.table 0) 0 with
     | some x => (Tbl.del (spansAt s x.pl) x.slot).any (fun e => e.2.lid == x.lid) && spanGuard x.sp c0 == some true
     | none => false) = true ∧
    (match spanCtx { spanned with actor := .unitSpan 0 0 } (.unit 0) 0 with
     | some x => (Tbl.del (spansAt spanned x.pl) x.slot == []) && rqFits spanned && anyD (unit? spanned 0) (fun w => w.lid == x.lid)
     | none => false) = true := by decide +kernel

/-- The second of two neighbours at one `kwait`: the lower is parked there, or the upper. -/
theorem wit_SpanResults_kwait :
    (let up : Span := { spanOf 0 with lo := 32, hi := 64, loc := 32, aff := benchAff.map (fun a => rebase a 32) }
     let s := spans [{ spanOf 0 with st := .kwait }, up]
     match spanCtx s (.table 0) 1 with
     | some x => ((spansAt s x.pl).find? (fun e => parkedAt x.sp e.2 && canRejoin { e.2 with st := .run } x.sp)).isSome
     | none => false) = true ∧
    (let up : Span := { spanOf 0 with lo := 32, hi := 64, loc := 32, aff := benchAff.map (fun a => rebase a 32) }
     let s := spans [spanOf 0, { up with st := .kwait }]
     match spanCtx s (.table 0) 0 with
     | some x => ((spansAt s x.pl).find? (fun e => parkedAt x.sp e.2 && canRejoin { e.2 with st := .run } x.sp)).isNone &&
         ((spansAt s x.pl).find? (fun e => parkedAt x.sp e.2 && canRejoin x.sp { e.2 with st := .run })).isSome
     | none => false) = true ∧
    (match spanCtx spanned (.table 0) 0 with
     | some x => (spansAt spanned x.pl).all (fun e => !(parkedAt x.sp e.2))
     | none => false) = true := by decide +kernel

/-- An `ldu` of a span whose word can be read, and one whose VF has no page for it. -/
theorem wit_SpanResults_ldu :
    (match spanCtx spanned (.table 0) 0 with
     | some x => anyD (spanPair x (.aff 4 .pair)) (fun b => let a := wrap 64 ((b.base.toNat : Int) + lduOffset .null)
         b.stride == 0 && lduWindow x 4 a && !lduHeld spanned x 4 a && (lduRead spanned x .b32 a).isSome)
     | none => false) = true ∧
    (let s := setLaunch { spanned with fns := missing.fns } (128 * 65536) (fun l => { l with fn := 127 })
     match spanCtx s (.table 0) 0 with
     | some x => anyD (spanPair x (.aff 4 .pair)) (fun b => let a := wrap 64 ((b.base.toNat : Int) + lduOffset .null)
         lduWindow x 4 a && !lduHeld s x 4 a && (lduRead s x .b32 a).isNone)
     | none => false) = true := by decide +kernel

/-- A launch of one span with nothing in flight, next in its table; a refill launch whose core may fetch, and may not. -/
theorem wit_WorkEvents_cut :
    (let s := setLaunch cutting (128 * 65536) (fun l => { l with lpb := { l.lpb with progress := 1 } })
     anyD (launch? s (128 * 65536)) (fun l => fnOfLid (128 * 65536) == l.fn && l.inTable && decide (l.lpb.progress ≠ 0) && !l.lpb.refill &&
       decide (0 < unitSize l.lpb) && dealClusters s l != [] && nextSpan s l.home == some 0 && isPf l.fn &&
       (let sp := sortSpans (((clusterOf s l.home).table.filter (fun e => e.2.lid == 128 * 65536)).map (·.2))
        decide (unitsTotal l.lpb ≤ liveUnits l sp) && rqFits s && rqRoom s l.fn (cutEntries s l sp)))) = true ∧
    (let s := setLaunch (benchOf (fun l => { l with refill := true }) id) (128 * 65536) (fun l => { l with pool := [spanOf 0] })
     anyD (launch? s (128 * 65536)) (fun l => itemRoom s 0 l (128 * 65536) && itemsLeft s 0 (128 * 65536) == 0 && !l.concWait &&
       !poolSaved s (128 * 65536) && l.pool == [spanOf 0])) = true := by decide +kernel

/-- A running `mma` of one row of zeros. -/
def running : State :=
  setQuarter bench 0 0 (fun r => { r with running := some ⟨0, theMma, ⟨[(0, List.replicate 96 0, List.replicate 3 0)], List.replicate 6144 0, List.replicate 192 0⟩⟩ })

theorem wit_HoldEvents_matrix :
    anyD (quarterOf running 0 0).running (fun g => decide (g.ctx < (quarterOf running 0 0).ctxs.length) && (g.latch.rows.map (·.1) == [0]) &&
      g.latch.rows.all (fun e => e.2.1.length == 96 && e.2.2.length == 3)) = true ∧
    decide (0 < (coreOf running 0).quarters.length) = true ∧ (List.replicate 6144 (0 : Nat)).length = 6144 ∧
    (quarterOf bench 0 0).running = none ∧
    (let d := (quarterOf (draining none) 0 0).drains.map (fun d => { d with dst := [(0, .scratch 0), (1, .scratch 4)] })
     (d.all (fun d => d.early == [] && d.dst.all (fun e => isScratch e.2) && elemSize d.td.fmt == 4)) && d != []) = true := by
  decide +kernel

theorem wit_HoldEvents_holds :
    anyD (strand? bench 0 0) (fun t => t.pends == [] && t.owed == [] && !t.isSpilled) = true ∧
    (let s := setStrand squeezing 0 0 (fun t => spill { t with stalls := [] })
     let s := setStrand s 0 1 (fun t => { t with stalls := [], g := 8 })
     (anyD ((quarterStrands s 0 0).find? (fun e => e.2.2.isSpilled)) (fun e => decide (e.2.2.spilled.length + stallNeed e.2.2 ≤ poolFree s 0 0))) &&
       !takesNow s 0 0) = true := by decide +kernel

/-- An image of the unit of `bench`, gone from its core. -/
def imaged : State :=
  match unit? bench 0 with
  | some w => { bench with units := [], images := [(0, { unit := { w with spans := [] }, mid := true, fn := 128, off := 0, len := 0 })] }
  | none => bench

theorem wit_SaveAndWorldEvents_restore :
    (match Tbl.find? imaged.images 0 with
     | some im => anyD (launch? imaged im.unit.lid) (fun l => canRestore imaged 5 im l && im.awaits == [] && im.copies == [] && im.incoming == [] && im.ctxs == [] &&
         im.drains == [] && im.launchSpans == [] && im.unit.spans == [] && spillLen l.lpb == 0 &&
         im.unit.strands.all (fun e => e.2.pends == [] && !e.2.isSpilled && e.2.paths.all (fun p => p.st != .bwait)))
     | none => false) = true ∧
    (match Tbl.find? imaged.images 0 with
     | some im => anyD (launch? imaged im.unit.lid) (fun l => !canRestore (setCore imaged 5 (fun c => { c with sc := 0 })) 5 im { l with lpb := { l.lpb with scratch := 64 } })
     | none => false) = true := by decide +kernel

theorem wit_PolicyEvents_watch : (clusterOf deciding 0).rq.all (fun e => match e.kind with | .resume _ => false | _ => true) = true := by
  decide +kernel

/-! ## Words of every group, written out from R63, R67, R73 and the encoding table of each chapter -/

def wordIs (hi mid lo : Nat) (i : Instr) : Bool :=
  (decode (toBytes 12 (hi * 2 ^ 64 + mid * 2 ^ 32 + lo))).toOption == some i

/-- Groups 0 to 4: the two examples of chapter 08, `and`, `lxch.fwd`, and the first words of the example programs. -/
theorem test_decode_integer_and_float :
    wordIs 0x005C0022 0x00020003 0xE0000004 (.isub c0 .s32 true ⟨v 2, v 3, v 4, .null⟩) = true ∧
    wordIs 0x00080202 0x00050003 0x00000064 (.iadd { c0 with gpred := 2 } .s32 false ⟨v 5, v 3, .lit 100, .null⟩) = true ∧
    wordIs 0x101C000A 0x00050003 0xE0000004 (.and c0 .b32 ⟨v 5, v 3, v 4, .null⟩) = true ∧
    wordIs 0x201C0042 0x40010006 0xE0006000 (.icmp c0 .s32 .lt ⟨.pred 1, v 6, .inline 0, .null⟩) = true ∧
    wordIs 0x301C004A 0x00050003 0xE0000004 (.lxch c0 .b32 .fwd ⟨v 5, v 3, v 4, .null⟩) = true ∧
    wordIs 0x401C000D 0x00080004 0xE0000005 (.fadd c0 .f32 .rne ⟨v 8, v 4, v 5, .null⟩) = true := by decide +kernel

/-- Groups 5 to 8. -/
theorem test_decode_special_affine_control :
    wordIs 0x501C000D 0x00080004 0xE000E000 (.frcp c0 .f32 ⟨v 8, v 4, .null, .null⟩) = true ∧
    wordIs 0x615C0000 0xE000E000 0xE0000005 (.seed c0 ⟨.null, .null, v 5, .null⟩) = true ∧
    wordIs 0x705C0000 0x20052001 0xE0002002 (.aadd c0 ⟨.aff 5 .pair, .aff 1 .pair, .aff 2 .pair, .null⟩) = true ∧
    wordIs 0x811C0000 0xE000E000 0xE000E000 (.ret c0 none4) = true ∧
    wordIs 0x823E0000 0x400AE000 0xE000E000 (.kwait { c0 with gneg := true, la := 8 } (dOf (.conv 2))) = false := by decide +kernel

/-- Groups 9 to 11: the three examples of chapter 14, the two rejected variants, and `nmlook`. -/
theorem test_decode_memory :
    wordIs 0x901C028A 0x00062004 0x00000030 (.ld c0 8 .b32 ⟨v 6, .aff 4 .pair, .lit 0x30, .null⟩) = true ∧
    wordIs 0x901C0001 0x0009000A 0x60010007 (.ld c0 0 .s16 ⟨v 9, v 10, v 7, .inline 1⟩) = true ∧
    wordIs 0xA01C0006 0x0003000A 0x600C0004 (.atom c0 .add .n32 ⟨v 3, v 10, v 4, .inline 12⟩) = true ∧
    (decode (toBytes 12 (0xA01C0206 * 2 ^ 64 + 0x0003000A * 2 ^ 32 + 8))).toOption = none ∧
    (decode (toBytes 12 (0xA01C0006 * 2 ^ 64 + 0x0003000A * 2 ^ 32 + 0x60120004))).toOption = none ∧
    wordIs 0xB01C0000 0x0028000C 0xE000E000 (.nmlook c0 0 ⟨v 40, v 12, .null, .null⟩) = true := by decide +kernel

/-- Groups 12 to 15. -/
theorem test_decode_copy_matrix_system :
    wordIs 0xC11C0000 0xE0002009 0xE0006002 (.barinit c0 ⟨.null, .aff 9 .pair, .inline 2, .null⟩) = true ∧
    wordIs 0xC15C0203 0xE0002009 0x00001800 (.arrive c0 true true ⟨.null, .aff 9 .pair, .lit 0x1800, .null⟩) = true ∧
    wordIs 0xD01C4026 0xC0020008 0xA004A003 (.mma { c0 with la := 1 } 1 6 ⟨.acc 2, v 8, .td 3, .td 4⟩) = true ∧
    wordIs 0xE1DC0000 0x0004E000 0xE0006002 (.cread c0 .meter ⟨v 4, .null, .inline 2, .null⟩) = true ∧
    wordIs 0xF15C0000 0xE000000A 0xE0006005 (.halt c0 false false ⟨.null, v 10, .inline 5, .null⟩) = true := by decide +kernel

/-- Reeve words of chapter 30. -/
theorem test_decode_reeve :
    (decodeReeve 0x41400009).toOption = some (.rvCget ⟨5, 0, 0, 9⟩) ∧ (decodeReeve 0x58140004).toOption = some (.rvBf ⟨0, 5, 0, 4⟩) ∧
    (decodeReeve 0x01C00001).toOption = some (.rvLi ⟨7, 0, 0, 1⟩) ∧ (decodeReeve 0x601C0000).toOption = some (.rvDset ⟨0, 7, 0, 0⟩) ∧
    (decodeReeve 0x64000000).toOption = some (.rvDone ⟨0, 0, 0, 0⟩) ∧ (decodeReeve 0xFFFFFFFF).toOption = none := by decide +kernel

/-! ## What WellFormed refuses: one term for each check of R82 -/

theorem test_wellFormed_refuses :
    wellFormed (.iadd c0 .f32 false vv) = false ∧                                     -- a type the row does not list
    wellFormed (.iadd c0 .s32 false ⟨.inline 3, v 1, v 2, .null⟩) = false ∧           -- D: an inline constant
    wellFormed (.iadd c0 .s32 false ⟨v 40, .td 3, v 2, .null⟩) = false ∧              -- A: a tensor identifier
    wellFormed (.fadd c0 .f32 .rne ⟨v 40, v 1, .pred 2, .null⟩) = false ∧             -- B: a predicate
    wellFormed (.iadd c0 .s32 false vvv) = false ∧                                    -- C, which the row does not use
    wellFormed (.imul c0 .s64 false ⟨v 41, v 2, v 4, .null⟩) = false ∧                -- a misaligned group
    wellFormed (.imad c0 .s32 false ⟨v 40, v 1, .lit 5, v 3⟩) = false ∧               -- no literal form
    wellFormed (.iadd { c0 with lra := true } .s32 false ⟨v 40, .inline 1, v 2, .null⟩) = false ∧
    wellFormed (.iadd { c0 with lrb := true } .s32 false ⟨v 40, v 1, .inline 1, .null⟩) = false ∧
    wellFormed (.iadd { c0 with lrc := true } .s32 false vv) = false ∧                -- last-read bits on no vector register
    wellFormed (.iadd c1 .s32 false vv) = false ∧                                     -- a lookahead on a short instruction
    wellFormed (.cvt c0 4 .rtz v1) = false ∧                                          -- a rounding mode on an exact conversion
    wellFormed (.halt c0 false true ⟨.null, v 10, .inline 5, .null⟩) = false := by decide +kernel

theorem test_wellFormed_refuses_reeve :
    wellFormed (.rvDone ⟨1, 0, 0, 0⟩) = false ∧ wellFormed (.rvLi ⟨1, 2, 0, 5⟩) = false ∧ wellFormed (.rvMov ⟨1, 2, 3, 0⟩) = false ∧
    wellFormed (.rvAdd ⟨1, 2, 3, 4⟩) = false ∧ wellFormed (.rvAdd ⟨1, 2, 3, 0⟩) = true := by decide +kernel

/-! ## Single steps and values, with results worked out from the manual -/

/-- A word of a register of the strand, in one lane, once an instruction has run in a state. -/
def regAfter (s : State) (i : Instr) (n l : Nat) : Option Word :=
  match exec i s with
  | .next t => (strand? t 0 0).map (fun t => word t n l)
  | _ => none

def regs (l : List (Nat × Nat)) : State :=
  setStrand two 0 0 (fun t => { t with regs := l.foldl (fun r e => Tbl.put r e.1 ⟨allLanes, List.replicate 32 (BitVec.ofNat 32 e.2), 0⟩) t.regs })

/-- R129: 2^31 - 1 less -1 clamps to 2^31 - 1, and wraps to -2^31 without `.sat`. -/
theorem test_isub_sat :
    let s := regs [(1, 0x7FFFFFFF), (2, 0xFFFFFFFF)]
    regAfter s (.isub c0 .s32 true vv) 40 1 = some 0x7FFFFFFF ∧ regAfter s (.isub c0 .s32 false vv) 40 1 = some 0x80000000 := by decide +kernel

/-- The register and the word that an instruction whose result returns later still owes to a lane (R132). -/
def owedAfter (s : State) (i : Instr) (l : Nat) : Option (Nat × Word) :=
  match exec i s with
  | .next t => (strand? t 0 0).bind (fun t =>
      match t.pends with
      | [d] => (match d.outs with | [.vec n [ws]] => some (n, nth ws l 0) | _ => none)
      | _ => none)
  | _ => none

/-- R136: -7 divided by 2 is -3 with remainder -1; by zero it is the lowest value, with remainder A. -/
theorem test_idiv :
    let s := regs [(1, 0xFFFFFFF9), (2, 2), (3, 0)]
    owedAfter s (.idiv c0 .s32 vv) 0 = some (40, 0xFFFFFFFD) ∧ owedAfter s (.irem c0 .s32 vv) 0 = some (40, 0xFFFFFFFF) ∧
    owedAfter s (.idiv c0 .s32 ⟨v 40, v 1, v 3, .null⟩) 0 = some (40, 0x80000000) ∧
    owedAfter s (.irem c0 .s32 ⟨v 40, v 1, v 3, .null⟩) 0 = some (40, 0xFFFFFFF9) := by decide +kernel

/-- R70: the high word of a 64-bit sum stands in the register above; a source that is also the destination. -/
theorem test_iadd_s64 :
    let s := regs [(2, 0xFFFFFFFF), (3, 0), (4, 1), (5, 0)]
    regAfter s (.iadd c0 .s64 false ⟨v 2, v 2, v 4, .null⟩) 2 0 = some 0 ∧
    regAfter s (.iadd c0 .s64 false ⟨v 2, v 2, v 4, .null⟩) 3 0 = some 1 := by decide +kernel

/-- R140: a count of the full width clamps to zero under `.clamp` and counts modulo the width without. -/
theorem test_shl_width :
    let s := regs [(1, 5), (2, 32)]
    regAfter s (.shl c0 .b32 true vv) 40 0 = some 0 ∧ regAfter s (.shl c0 .b32 false vv) 40 0 = some 5 := by decide +kernel

/-- The rounding of chapter 14's example: 2^24 + 1 is a tie and goes to 2^24; 2^24 + 3 goes to 2^24 + 4. -/
theorem test_fadd_ties :
    let s := regs [(1, 0x4B800000), (2, 0x3F800000), (3, 0x4B800001)]
    regAfter s (.fadd c0 .f32 .rne vv) 40 0 = some 0x4B800000 ∧
    regAfter s (.fadd c0 .f32 .rne ⟨v 40, v 3, v 2, .null⟩) 40 0 = some 0x4B800002 := by decide +kernel

/-- R65: a guard that is false everywhere leaves the register, and the PC advances. -/
theorem test_guard_false :
    let s := regs [(40, 77)]
    regAfter s (.iadd { c0 with gneg := true } .s32 false vv) 40 0 = some 77 ∧
    (match exec (.iadd { c0 with gneg := true } .s32 false vv) s with
     | .next t => anyD (strand? t 0 0) (fun t => t.paths.any (fun p => p.pc == 12))
     | _ => false) = true := by decide +kernel

/-- R189: a branch of -1 from address 0 goes to 2^64 - 12. -/
theorem test_bra_back : (match exec (.bra c0 (bOf (.lit 0xFFFFFFFF))) two with
    | .next t => anyD (strand? t 0 0) (fun t => t.paths.any (fun p => p.pc == BitVec.ofNat 64 (2 ^ 64 - 12)))
    | _ => false) = true := by decide +kernel

/-- R239: a weak store by a strand is what a weak load reads, and memory keeps its canonical form. -/
theorem test_store : (match exec (.st c0 0 .b32 ⟨v 1, .aff 1 .pair, .null, .null⟩) two with
    | .next t => memByte t 0 0 (.mem 0x20000) == 2 && memByte t 0 0 (.mem 0x20040) == 2 && memByte t 0 0 (.mem 0x20080) == 0 && Memory.wf t
    | _ => false) = true := by decide +kernel

/-- R264: four bytes of memory after an atomic addition by two lanes to the same word: 0 + 7 + 7. -/
theorem test_atom_add :
    let s := regs [(10, 0x50000), (11, 0), (1, 7)]
    (match exec (.atom c0 .add .s32 ⟨v 40, v 10, v 1, .null⟩) s with
     | .next t => memByte t 0 0 (.mem 0x50000) == 14
     | _ => false) = true := by decide +kernel

/-- R336: g0 reads 0 and discards writes. -/
theorem test_rvAdd_g0 : (match exec (.rvAddi ⟨0, 4, 0, 9⟩) calling with
    | .next t => anyD (clusterOf t 0).reeve.call (fun c => greg c 0 == 0 && c.pc == 1)
    | _ => false) = true ∧
    (match exec (.rvAddi ⟨4, 4, 0, 9⟩) calling with
     | .next t => anyD (clusterOf t 0).reeve.call (fun c => greg c 4 == 14)
     | _ => false) = true := by decide +kernel

/-- R64: a word at the PC is fetched, decoded and run. -/
theorem test_step : (match step (fetching (ofBytes (encode (.mov c0 .b32 ⟨v 5, .null, .lit 9, .null⟩)))) with
    | .next t => anyD (strand? t 0 0) (fun t => word t 5 31 == 9)
    | _ => false) = true := by decide +kernel

/-- R299, R443, R452: JOB_STATUS of the PF reads 16 free entries and DROPPED 0; before READY the file of a VF reads as 0. -/
theorem test_registers :
    readRegister { State.reset with dev := { State.reset.dev with ready := true } } .pf 0x10 4 = 16 ∧ readRegister State.reset (.vf 0) 0x10 4 = 0 := by decide +kernel

end Sys2Proof.Tests
end

section
/-! SUPPORT. The results of the integer, bit, compare and cross-lane instructions (R134 to R155): what each gives its
lanes, and that it completes. -/

namespace Sys2Proof.Machine

open Sys2Proof

/-! ## The context of an issue: what is read there does not depend on the stalls of the strand -/

@[simp] theorem readSrc_issueCtx_lanes (i : Instr) (x : Ctx) (r : Rd) (o : Opnd) :
    readSrc (issueCtx i x) r o = readSrc x r o := funext fun l => readSrc_issueCtx i x r o l

@[simp] theorem readPred_issueCtx (i : Instr) (x : Ctx) (o : Opnd) (l : Nat) :
    readPred (issueCtx i x) o l = readPred x o l := by
  unfold issueCtx; split <;> rfl

@[simp] theorem readPair_issueCtx (i : Instr) (x : Ctx) (o : Opnd) : readPair (issueCtx i x) o = readPair x o := by
  unfold issueCtx; split <;> rfl

@[simp] theorem carryIn_issueCtx (i : Instr) (x : Ctx) (o : Ops) (l : Nat) :
    carryIn (issueCtx i x) o l = carryIn x o l := by
  simp only [carryIn, readPred_issueCtx]

@[simp] theorem lanes_issueCtx (i : Instr) (x : Ctx) : (issueCtx i x).lanes = x.lanes := by
  simp only [Ctx.lanes, issueCtx_tm]

@[simp] theorem seed_issueCtx (i : Instr) (x : Ctx) : (issueCtx i x).st.seed = x.st.seed := by
  unfold issueCtx; split <;> rfl

/-- The advance of the seed (R118) is the same before and after the allocation. -/
theorem seeded_issueCtx (i : Instr) (x : Ctx) (r : Rnd) : seeded (issueCtx i x) r = issueCtx i (seeded x r) := by
  unfold issueCtx seeded withSeed
  split <;> split <;> rfl

/-! ## From a lane function to a result -/

/-- The form of an instruction lets D take `w` words in each lane. -/
abbrev TakesWords (i : Instr) (w : Nat) : Prop := ∀ sh, shape i = some sh → sh.d.wr = true ∧ w ≤ sh.d.vec

section
variable {i : Instr} {c : Ctl} {o : Ops} {w n : Nat} {sh : Shape} {v : Ctx → Nat → Nat} {ra rb rc : Rd}

theorem takesWords_of_shape (hs : shape i = some sh) (hd : sh.d = .vdst n) (hn : w ≤ n) : TakesWords i w := by
  intro sh' h
  obtain rfl := Option.some.inj (hs.symm.trans h)
  rw [hd]
  exact ⟨rfl, hn⟩

/-- A lane-by-lane instruction with one source. -/
theorem lanes1_result {f : Nat → Nat} (he : ∀ s, exec i s = ramson i (lanes1 i c o w ra f) s)
    (hw : TakesWords i w) (hv : ∀ x l, f (readSrc x ra o.a l) = v x l) : VecResult i c o w v :=
  vecResult_plain he hw fun s x _ _ => by simp only [lanes1, readSrc_issueCtx, hv]

/-- A lane-by-lane instruction with two sources. -/
theorem lanes2_result {f : Nat → Nat → Nat} (he : ∀ s, exec i s = ramson i (lanes2 i c o w ra rb f) s)
    (hw : TakesWords i w) (hv : ∀ x l, f (readSrc x ra o.a l) (readSrc x rb o.b l) = v x l) : VecResult i c o w v :=
  vecResult_plain he hw fun s x _ _ => by simp only [lanes2, readSrc_issueCtx, hv]

/-- A lane-by-lane instruction with three sources. -/
theorem lanes3_result {f : Nat → Nat → Nat → Nat} (he : ∀ s, exec i s = ramson i (lanes3 i c o w ra rb rc f) s)
    (hw : TakesWords i w) (hv : ∀ x l, f (readSrc x ra o.a l) (readSrc x rb o.b l) (readSrc x rc o.c l) = v x l) :
    VecResult i c o w v :=
  vecResult_plain he hw fun s x _ _ => by simp only [lanes3, readSrc_issueCtx, hv]

end

/-! ## Integer arithmetic (R134-R137) -/

/-- R136 in one conditional: a division by zero gives the limit of the type on A's side. -/
theorem fIdiv_eq (t : Ty) (a b : Nat) : fIdiv t a b = inType t false
    (if valI t b = 0 then (if t.signed = true ∧ valI t a < 0 then minT t else maxT t) else (valI t a).tdiv (valI t b)) := by
  unfold fIdiv inType
  by_cases hb : valI t b = 0
  · cases hs : t.signed with
    | false => simp [hb]
    | true =>
      by_cases ha : valI t a < 0
      · simp [hb, ha, Int.not_le.2 ha]
      · simp [hb, ha, Int.not_lt.1 ha]
  · simp [hb]

theorem fIrem_eq (t : Ty) (a b : Nat) : fIrem t a b = inType t false
    (if valI t b = 0 then valI t a else (valI t a).tmod (valI t b)) := by
  unfold fIrem inType
  by_cases hb : valI t b = 0 <;> simp [hb]

/-- Byte `i` of a word as `idot4` reads it: of the sign the modifier gives (R137). -/
theorem byte_fld (sg : Bool) (v i : Nat) : (if sg then sext 8 (fld v (8 * i) 8) else (fld v (8 * i) 8 : Nat) : Int) =
    if sg then sext 8 (v / 2 ^ (8 * i)) else ((v / 2 ^ (8 * i) % 256 : Nat) : Int) := by
  cases sg <;> simp [fld, sext, Nat.shiftRight_eq_div_pow]

theorem fIdot4_eq (t : Ty) (sa sb sat : Bool) (a b c : Nat) :
    let byte := fun (sg : Bool) (v i : Nat) => if sg then sext 8 (v / 2 ^ (8 * i)) else ((v / 2 ^ (8 * i) % 256 : Nat) : Int)
    fIdot4 t sa sb sat a b c = inType t sat (valI t c + byte sa a 0 * byte sb b 0 + byte sa a 1 * byte sb b 1 +
      byte sa a 2 * byte sb b 2 + byte sa a 3 * byte sb b 3) := by
  simp only [fIdot4, inType, finI, byte_fld]

theorem likeBefore_writePred (t : Strand) (n : Nat) (m : LaneMask) (f : Nat → Bool) (pi : Nat) :
    LikeBefore t (writePred t n m f) pi := by
  obtain ⟨hp, _, hpa, hc, hi, hm, hg, hb, ho, hd, _⟩ := writePred_alike t n m f
  exact ⟨hp, hpa, hc, hi, hm, hg, hb, ho, hd⟩

/-- What a predicate holds once it has been written in the lanes of a mask. -/
theorem lane_writePred {t : Strand} {n l : Nat} (m : LaneMask) (f : Nat → Bool) (hl : l < 32) (hn : n < t.preds.length)
    (h7 : n ≠ 7) : lane (nth (writePred t n m f).preds n 0) l = if lane m l then f l else lane (nth t.preds n 0) l := by
  simp only [writePred, h7, if_false, nth, setNth, List.getElem?_set_self hn, Option.getD_some, lane_or, lane_and,
    lane_not hl, lane_maskOf, hl, decide_true, Bool.true_and]
  cases lane m l <;> simp

/-- An instruction that writes a predicate and gives a vector, which leaves the predicate alone. -/
theorem writePred_giveVec {i : Instr} {c : Ctl} {o : Ops} {s : State} {x : Ctx} {sh : Shape} {body : Ctx → State → Res}
    {n : Fin 8} {f : Nat → Bool} {w : Nat} {v : Nat → Nat} (h : Clear s x i c o sh) (he : exec i s = ramson i body s)
    (hw : TakesWords i w)
    (hb : body (issueCtx i x) s = giveVec (issueCtx i x) s (writePred (issueCtx i x).st n.val x.tm f) i c o.d w v) :
    ∃ s', exec i s = .next s' ∧ PcPast s' x ∧ GotVec s' x i c o.d w v ∧ GotPred s' x (.pred n) f := by
  obtain ⟨g, hg⟩ := giveVec_go (issueCtx i x) s (writePred (issueCtx i x).st n.val x.tm f) i c o.d w v
  have like : LikeBefore x.st (writePred (issueCtx i x).st n.val x.tm f) x.pi :=
    (likeBefore_issueCtx i x).trans (likeBefore_writePred ..)
  have lanes : lanesAt (writePred (issueCtx i x).st n.val x.tm f) x.pi = some x.p.lanes := by
    rw [lanesAt_of_paths like.paths]; exact stands_lanes h.1
  obtain ⟨hwr, hv⟩ := hw sh h.1.2.2.1
  obtain ⟨plain, alike, _⟩ := plain_giveVec h (issueCtx_tm i x) like.pends lanes like.rest hg
  refine ⟨_, he.trans (ramson_go h (hb.trans hg)), plain_pc h.1 plain rfl,
    got_giveVec h (issueCtx_tm i x) like.pends lanes like.rest hwr hv hg rfl, ?_⟩
  obtain ⟨⟨u, hu, but⟩, _, _⟩ := plain_strand h.1 plain (s' := applyGo s x i c sh o g) rfl
  obtain ⟨ss, hss⟩ := issueCtx_eq i x
  have hpreds : u.preds = (writePred (withStalls ss x.st) n.val x.tm f).preds := by
    rw [but.preds, (finish_rest x c sh o g).1, alike.preds, hss]
  refine ⟨u, hu, fun l hl hn h7 => ?_⟩
  rw [hpreds]
  exact lane_writePred x.tm f hl hn h7

/-- Settles O1: each form is the exact integer of its operands, wrapped or clamped; `iaddc` writes the carry too. -/
theorem integerResults : Obligations.IntegerResults := by
  unfold Obligations.IntegerResults
  refine ⟨⟨?iadd, ?isub, ?imul, ?imulh, ?imad, ?imin, ?imax, ?iabs, ?ineg, ?isad, ?iclamp⟩, ?iaddc, ⟨?idiv, ?irem⟩,
    ?idot4⟩
  case iaddc =>
    exact fun c t cp o s x sh h => writePred_giveVec h rfl (takesWords_of_shape rfl rfl le_rfl) (by
      simp only [readSrc_issueCtx, carryIn_issueCtx, issueCtx_tm]
      rfl)
  case idiv => exact fun _ t _ => lanes2_result (fun _ => rfl) (takesWords_of_shape rfl rfl le_rfl) fun _ _ => fIdiv_eq t _ _
  case irem => exact fun _ t _ => lanes2_result (fun _ => rfl) (takesWords_of_shape rfl rfl le_rfl) fun _ _ => fIrem_eq t _ _
  case idot4 =>
    exact fun _ t sa sb sat _ =>
      lanes3_result (fun _ => rfl) (takesWords_of_shape rfl rfl (one_le_words t)) fun _ _ => fIdot4_eq t sa sb sat _ _ _
  case iabs | ineg => exact fun _ _ _ _ => lanes1_result (fun _ => rfl) (takesWords_of_shape rfl rfl le_rfl) fun _ _ => rfl
  case iadd | isub | imul =>
    exact fun _ _ _ _ => lanes2_result (fun _ => rfl) (takesWords_of_shape rfl rfl le_rfl) fun _ _ => rfl
  case imulh | imin | imax => exact fun _ _ _ => lanes2_result (fun _ => rfl) (takesWords_of_shape rfl rfl le_rfl) fun _ _ => rfl
  case imad => exact fun _ _ _ _ => lanes3_result (fun _ => rfl) (takesWords_of_shape rfl rfl le_rfl) fun _ _ => rfl
  case isad | iclamp => exact fun _ _ _ => lanes3_result (fun _ => rfl) (takesWords_of_shape rfl rfl le_rfl) fun _ _ => rfl

/-! ## Logic, shifts, counts and fields (R140-R143) -/

theorem fShl_eq (t : Ty) (cl : Bool) (a n : Nat) :
    fShl t cl a n = if cl = true ∧ t.bits ≤ n then 0 else a * 2 ^ (n % t.bits) % 2 ^ t.bits := by
  simp only [fShl, Nat.shiftLeft_eq, Bool.and_eq_true, decide_eq_true_eq]

theorem fShr_eq (t : Ty) (cl : Bool) (a n : Nat) :
    fShr t cl a n = if cl = true ∧ t.bits ≤ n then 0 else a / 2 ^ (n % t.bits) := by
  simp only [fShr, Nat.shiftRight_eq_div_pow, Bool.and_eq_true, decide_eq_true_eq]

/-- A count of the full width leaves copies of the sign. -/
theorem sext_div_two_pow (n x : Nat) : sext n x / ((2 ^ n : Nat) : Int) = if sext n x < 0 then -1 else 0 := by
  have hlt : x % 2 ^ n < 2 ^ n := Nat.mod_lt _ (Nat.two_pow_pos n)
  unfold sext
  dsimp only
  generalize x % 2 ^ n = y at hlt
  generalize 2 ^ n = m at hlt
  by_cases hy : 2 * y < m
  · rw [if_pos hy, if_neg (by omega), Int.ediv_eq_zero_of_lt (by omega) (by omega)]
  · rw [if_neg hy, if_pos (by omega), Int.ediv_eq_iff_of_pos (by omega)]
    omega

theorem fSar_eq (t : Ty) (cl : Bool) (a n : Nat) : fSar t cl a n =
    wrap t.bits (sext t.bits a / ((2 ^ (if cl = true ∧ t.bits ≤ n then t.bits else n % t.bits) : Nat) : Int)) := by
  by_cases h : cl = true ∧ t.bits ≤ n
  · simp only [fSar, Bool.and_eq_true, decide_eq_true_eq, if_pos h, sext_div_two_pow]
  · simp only [fSar, Bool.and_eq_true, decide_eq_true_eq, if_neg h]

theorem fRotl_eq (t : Ty) (a n : Nat) :
    fRotl t a n = (a * 2 ^ (n % t.bits) ||| a / 2 ^ (t.bits - n % t.bits)) % 2 ^ t.bits := by
  simp only [fRotl, Nat.shiftLeft_eq, Nat.shiftRight_eq_div_pow]

/-- The form of `bsel`: one word, whether B and C are read or not (R143). -/
theorem takesWords_bsel (c : Ctl) (t : Ty) (m : BselMode) (o : Ops) : TakesWords (.bsel c t m o) 1 := by
  cases m with
  | rev => exact takesWords_of_shape (n := 1) rfl rfl le_rfl
  | pick | funnel => exact takesWords_of_shape rfl rfl (one_le_words t)

/-- Settles O3: each form is its function of R140 to R143 on the lanes' words. -/
theorem bitResults : Obligations.BitResults := by
  unfold Obligations.BitResults
  refine ⟨⟨?and, ?or, ?xor, ?not, ?andn, ?shl, ?shr, ?sar, ?rotl, ?popc, ?clz, ?brev⟩, ?bfe, ?bfi, ?bmix, ?bsel⟩
  case and | or | xor | andn | bfe =>
    exact fun _ _ _ => lanes2_result (fun _ => rfl) (takesWords_of_shape rfl rfl le_rfl) fun _ _ => rfl
  case not | brev => exact fun _ _ _ => lanes1_result (fun _ => rfl) (takesWords_of_shape rfl rfl le_rfl) fun _ _ => rfl
  case popc | clz =>
    exact fun _ _ _ => lanes1_result (fun _ => rfl) (takesWords_of_shape (n := 1) rfl rfl le_rfl) fun _ _ => rfl
  case shl => exact fun _ t cl _ => lanes2_result (fun _ => rfl) (takesWords_of_shape rfl rfl le_rfl) fun _ _ => fShl_eq t cl _ _
  case shr => exact fun _ t cl _ => lanes2_result (fun _ => rfl) (takesWords_of_shape rfl rfl le_rfl) fun _ _ => fShr_eq t cl _ _
  case sar => exact fun _ t cl _ => lanes2_result (fun _ => rfl) (takesWords_of_shape rfl rfl le_rfl) fun _ _ => fSar_eq t cl _ _
  case rotl => exact fun _ t _ => lanes2_result (fun _ => rfl) (takesWords_of_shape rfl rfl le_rfl) fun _ _ => fRotl_eq t _ _
  case bfi => exact fun _ _ _ => lanes3_result (fun _ => rfl) (takesWords_of_shape rfl rfl le_rfl) fun _ _ => rfl
  case bmix => exact fun _ _ _ _ => lanes3_result (fun _ => rfl) (takesWords_of_shape rfl rfl le_rfl) fun _ _ => rfl
  case bsel => exact fun c t m o => lanes3_result (fun _ => rfl) (takesWords_bsel c t m o) fun _ _ => rfl

/-! ## Compares and classes (R145, R146, R149) -/

/-- An instruction whose predicate is a test of each lane. -/
theorem predLanes_result {i : Instr} {c : Ctl} {o : Ops} {f : Ctx → Nat → Bool}
    (he : ∀ s, exec i s = ramson i (fun x s => givePred x s o.d (f x)) s) (hf : ∀ x, f (issueCtx i x) = f x) :
    PredResult i c o f :=
  predResult_of (fun s _ => he s) fun _ x _ _ => by rw [hf]

/-- R146: a NaN makes every condition false but `.ne` and `.nan`. -/
theorem fcmpFlag_eq (t : Ty) (q : FCond) (a b : Nat) : fcmpFlag t q a b =
    let x := decodeF (fmtOf t) a
    let y := decodeF (fmtOf t) b
    if x.isNaN = true ∨ y.isNaN = true then decide (q = .ne ∨ q = .nan)
    else
      match q with
      | .eq => decide (cmpX x y = 0) | .ne => decide (cmpX x y ≠ 0) | .lt => decide (cmpX x y < 0)
      | .le => decide (cmpX x y ≤ 0) | .gt => decide (0 < cmpX x y) | .ge => decide (0 ≤ cmpX x y)
      | .num => true | .nan => false := by
  dsimp only [fcmpFlag]
  by_cases h : (decodeF (fmtOf t) a).isNaN = true ∨ (decodeF (fmtOf t) b).isNaN = true
  · rw [if_pos h, if_pos (by simpa using h)]
    cases q <;> rfl
  · rw [if_neg h, if_neg (by simpa using h)]
    cases q with
    | ne => exact (decide_not ..).symm
    | _ => rfl

/-- Settles O5: each compare writes its condition on the two values of the lane, `pclass` the bit of B at A's class. -/
theorem compareResults : Obligations.CompareResults := by
  unfold Obligations.CompareResults
  refine ⟨fun c t q o => ?icmp, fun c t q o => ?fcmp, fun c t o => ?pclass, fun c t q o => ?acmp⟩
  case icmp => exact predLanes_result (fun _ => rfl) fun x => by simp only [intA, intB, readSrc_issueCtx]
  case fcmp =>
    exact predResult_congr (predLanes_result (f := fun x l => fcmpFlag t q (readSrc x (.flt t) o.a l % 2 ^ t.bits)
      (readSrc x (.flt t) o.b l % 2 ^ t.bits)) (fun _ => rfl) fun x => by simp only [readSrc_issueCtx])
      fun x l => fcmpFlag_eq t q _ _
  case pclass => exact predLanes_result (fun _ => rfl) fun x => by simp only [readSrc_issueCtx]
  case acmp =>
    exact predResult_of (fun s h => ramsonS_strand h) fun s x _ _ => by simp only [readPair_issueCtx]; rfl

/-! ## Exchange, broadcast and match (R152, R153, R155) -/

/-- R152, R153: the source lane when it is one of T, else the lane's own A. -/
theorem fromLane_eq (tm : LaneMask) (a : Nat → Nat) (l : Nat) (k : Int) :
    fromLane tm a l k = if 0 ≤ k ∧ k ≤ 31 ∧ lane tm k.toNat = true then a k.toNat else a l := by
  simp only [fromLane, Bool.and_eq_true, decide_eq_true_eq, and_assoc]

theorem fromLane_ofNat (tm : LaneMask) (a : Nat → Nat) (l k : Nat) :
    fromLane tm a l k = if k ≤ 31 ∧ lane tm k = true then a k else a l := by
  have h0 : (0 : Int) ≤ k := Int.natCast_nonneg k
  have h31 : (k : Int) ≤ 31 ↔ k ≤ 31 := by omega
  simp only [fromLane_eq, h0, h31, Int.toNat_natCast, true_and]

/-- The sum of the bits of those lanes of a mask that pass a test is the mask of these lanes. -/
theorem bitsum_lanesOf (f : Nat → Bool) (tm : LaneMask) :
    bitsum f (lanesOf tm) = (maskOf (fun l => lane tm l && f l)).toNat := by
  have hfold : bitsum f (lanesOf tm) =
      (List.range 32).foldl (fun acc l => if lane tm l && f l then acc + 2 ^ l else acc) 0 := by
    simp only [bitsum, lanesOf, lanes32, List.foldl_filter, Bool.and_eq_true, ite_and]
  rw [hfold, maskOf, lanes32, BitVec.toNat_ofNat, Nat.mod_eq_of_lt (bitsum_lt _ 32)]

/-- An instruction that gives each lane a function of the words of A. -/
theorem crossLanes_result {i : Instr} {c : Ctl} {o : Ops} {w : Nat} {v : Ctx → Nat → Nat}
    (he : ∀ s, exec i s = ramson i (fun x s => giveVec x s x.st i c o.d w (v x)) s) (hw : TakesWords i w)
    (hv : ∀ x, v (issueCtx i x) = v x) : VecResult i c o w v :=
  vecResult_plain he hw fun s x _ _ => by rw [hv]

theorem lxch_result (c : Ctl) (t : Ty) (m : XchMode) (o : Ops) : VecResult (.lxch c t m o) c o t.words (fun x l =>
    fLxch x.tm m (readSrc x (rdI t) o.a) (readSrc x rd32 o.b) l) :=
  crossLanes_result (fun _ => rfl) (takesWords_of_shape rfl rfl le_rfl) fun x => by
    simp only [readSrc_issueCtx_lanes, issueCtx_tm]

theorem lbcast_result (c : Ctl) (t : Ty) (o : Ops) : VecResult (.lbcast c t o) c o t.words (fun x l =>
    fLbcast x.tm (readSrc x (rdI t) o.a) (readSrc x rd32 o.b) l) :=
  crossLanes_result (fun _ => rfl) (takesWords_of_shape rfl rfl le_rfl) fun x => by
    simp only [readSrc_issueCtx_lanes, issueCtx_tm]

theorem lmatch_result (c : Ctl) (t : Ty) (o : Ops) : VecResult (.lmatch c t o) c o 1 (fun x l =>
    fLmatch x.tm (readSrc x (rdI t) o.a) l) :=
  crossLanes_result (fun _ => rfl) (takesWords_of_shape (n := 1) rfl rfl le_rfl) fun x => by
    simp only [readSrc_issueCtx_lanes, issueCtx_tm]

/-! ## Reductions and scans (R154) -/

section
variable {i : Instr} {c : Ctl} {o : Ops} {t : Ty} {ok ok' : Bool} {r : Rnd} {v f : Ctx → Nat → Nat}

/-- A reduction or scan over an integer type. -/
theorem reduceInt_result (hf : t.isFloat = false)
    (hs : shape i = if t.isFloat then some (da 1 (.flt t) ok) else some (da t.words (rdI t) ok'))
    (he : ∀ s, exec i s = ramson i (fun x s =>
      if t.isFloat then let y := seeded x r; giveVec y s y.st i c o.d 1 (f x)
      else giveVec x s x.st i c o.d t.words (v x)) s)
    (hv : ∀ x, v (issueCtx i x) = v x) : VecResult i c o t.words v :=
  vecResult_plain he (takesWords_of_shape (by rw [hs, hf]; rfl) rfl le_rfl) fun s x _ _ => by
    simp only [hf, Bool.false_eq_true, if_false, hv]

/-- A reduction or scan over a float type; the seed has advanced under RS (R118). -/
theorem reduceFloat_result (hf : t.isFloat = true)
    (hs : shape i = if t.isFloat then some (da 1 (.flt t) ok) else some (da t.words (rdI t) ok'))
    (he : ∀ s, exec i s = ramson i (fun x s =>
      if t.isFloat then let y := seeded x r; giveVec y s y.st i c o.d 1 (f x)
      else giveVec x s x.st i c o.d t.words (v x)) s)
    (hv : ∀ x, f (issueCtx i x) = f x) : VecResult i c o 1 f :=
  vecResult_seeded r he (takesWords_of_shape (n := 1) (by rw [hs, hf]; rfl) rfl le_rfl) fun s x _ _ => by
    simp only [hf, if_true, hv]

end

/-! ## What an integer reduction is (R154) -/

theorem wrap_sext (n x : Nat) : wrap n (sext n x) = x % 2 ^ n := by
  have hmod : sext n x % ((2 ^ n : Nat) : Int) = ((x % 2 ^ n : Nat) : Int) := by
    unfold sext
    dsimp only
    split
    · rw [← Int.natCast_emod, Nat.mod_mod]
    · rw [Int.sub_emod_right, ← Int.natCast_emod, Nat.mod_mod]
  rw [wrap, hmod, Int.toNat_natCast]

/-- A value of a type that fills its word or group stands there as it is. -/
theorem placeI_valI {t : Ty} {v : Nat} (ht : 32 ≤ t.bits) (hv : v < 2 ^ t.bits) : placeI t (valI t v) = v := by
  have hnarrow : (t.signed && decide (t.bits < 32)) = false := by simp [Nat.not_lt.2 ht]
  rw [placeI, hnarrow, if_neg Bool.false_ne_true, valI]
  cases t.signed with
  | true => rw [if_pos rfl, wrap_sext, Nat.mod_eq_of_lt hv]
  | false => rw [if_neg Bool.false_ne_true, wrap, ← Int.natCast_emod, Nat.mod_mod, Nat.mod_eq_of_lt hv, Int.toNat_natCast]

theorem fImin_eq {t : Ty} {a b : Nat} (ht : 32 ≤ t.bits) (ha : a < 2 ^ t.bits) (hb : b < 2 ^ t.bits) :
    fImin t a b = if valI t a ≤ valI t b then a else b := by
  unfold fImin minI
  split
  · exact placeI_valI ht ha
  · exact placeI_valI ht hb

theorem fImax_eq {t : Ty} {a b : Nat} (ht : 32 ≤ t.bits) (ha : a < 2 ^ t.bits) (hb : b < 2 ^ t.bits) :
    fImax t a b = if valI t a ≤ valI t b then b else a := by
  unfold fImax maxI
  split
  · exact placeI_valI ht hb
  · exact placeI_valI ht ha

/-- Folding a choice of the argument with the lesser key gives an element with the least key. -/
theorem foldl_least {f : Nat → Nat → Nat} {key : Nat → Int} {P : Nat → Prop}
    (hf : ∀ a b, P a → P b → (f a b = a ∧ key a ≤ key b) ∨ (f a b = b ∧ key b ≤ key a)) :
    ∀ (xs : List Nat) (x : Nat), (∀ v ∈ x :: xs, P v) →
      xs.foldl f x ∈ x :: xs ∧ ∀ v ∈ x :: xs, key (xs.foldl f x) ≤ key v := by
  intro xs
  induction xs with
  | nil => intro x _; simp
  | cons y ys ih =>
    intro x hP
    simp only [List.forall_mem_cons] at hP
    obtain ⟨hx, hy, hys⟩ := hP
    rcases hf x y hx hy with ⟨e, hle⟩ | ⟨e, hle⟩
    · obtain ⟨hmem, hleast⟩ := ih x (List.forall_mem_cons.2 ⟨hx, hys⟩)
      simp only [List.foldl_cons, e, List.mem_cons, forall_eq_or_imp] at hmem hleast ⊢
      exact ⟨hmem.imp_right .inr, hleast.1, hleast.1.trans hle, hleast.2⟩
    · obtain ⟨hmem, hleast⟩ := ih y (List.forall_mem_cons.2 ⟨hy, hys⟩)
      simp only [List.foldl_cons, e, List.mem_cons, forall_eq_or_imp] at hmem hleast ⊢
      exact ⟨.inr hmem, hleast.1.trans hle, hleast⟩

theorem redInt_min {t : Ty} (ht : 32 ≤ t.bits) {xs : List Nat} (hne : xs ≠ []) (hlt : ∀ v ∈ xs, v < 2 ^ t.bits) :
    redInt t 2 xs ∈ xs ∧ ∀ v ∈ xs, valI t (redInt t 2 xs) ≤ valI t v := by
  obtain ⟨x, ys, rfl⟩ := List.exists_cons_of_ne_nil hne
  have hred : redInt t 2 (x :: ys) = ys.foldl (fImin t) x := by
    rw [redInt, placeI_valI ht (hlt x List.mem_cons_self)]
  rw [hred]
  refine foldl_least (P := (· < 2 ^ t.bits)) (fun a b ha hb => ?_) ys x hlt
  rw [fImin_eq ht ha hb]
  split
  · next h => exact .inl ⟨rfl, h⟩
  · next h => exact .inr ⟨rfl, by omega⟩

theorem redInt_max {t : Ty} (ht : 32 ≤ t.bits) {xs : List Nat} (hne : xs ≠ []) (hlt : ∀ v ∈ xs, v < 2 ^ t.bits) :
    redInt t 3 xs ∈ xs ∧ ∀ v ∈ xs, valI t v ≤ valI t (redInt t 3 xs) := by
  obtain ⟨x, ys, rfl⟩ := List.exists_cons_of_ne_nil hne
  have hred : redInt t 3 (x :: ys) = ys.foldl (fImax t) x := by
    rw [redInt, placeI_valI ht (hlt x List.mem_cons_self)]
  rw [hred]
  have hgreatest := foldl_least (f := fImax t) (key := fun v => -valI t v) (P := (· < 2 ^ t.bits)) (fun a b ha hb => by
    rw [fImax_eq ht ha hb]
    split
    · exact .inr ⟨rfl, by omega⟩
    · exact .inl ⟨rfl, by omega⟩) ys x hlt
  exact ⟨hgreatest.1, fun v hv => Int.neg_le_neg_iff.1 (hgreatest.2 v hv)⟩

theorem testBit_foldl_and (i : Nat) : ∀ (xs : List Nat) (x : Nat),
    (xs.foldl fAnd x).testBit i = (x :: xs).all (fun v => v.testBit i) := by
  intro xs
  induction xs with
  | nil => intro x; simp
  | cons y ys ih => intro x; simp [ih, fAnd, Bool.and_assoc]

theorem testBit_foldl_or (i : Nat) : ∀ (xs : List Nat) (x : Nat),
    (xs.foldl fOr x).testBit i = (x :: xs).any (fun v => v.testBit i) := by
  intro xs
  induction xs with
  | nil => intro x; simp
  | cons y ys ih => intro x; simp [ih, fOr, Bool.or_assoc]

/-- Bit `i` of an exclusive or is the parity of the elements that have it. -/
theorem testBit_foldl_xor (i : Nat) : ∀ (xs : List Nat) (x : Nat), (xs.foldl fXor x).testBit i =
    decide (((x :: xs).filter (fun v => v.testBit i)).length % 2 = 1) := by
  intro xs
  induction xs with
  | nil => intro x; cases hx : x.testBit i <;> simp [hx]
  | cons y ys ih =>
    intro x
    rw [List.foldl_cons, ih]
    simp only [← List.countP_eq_length_filter, List.countP_cons, fXor, Nat.testBit_xor]
    cases x.testBit i with
    | false => simp
    | true =>
      cases y.testBit i with
      | false => simp
      | true => simp [Nat.add_assoc]

theorem testBit_redInt (t : Ty) {xs : List Nat} (hne : xs ≠ []) (i : Nat) :
    (redInt t 4 xs).testBit i = xs.all (fun v => v.testBit i) ∧ (redInt t 5 xs).testBit i = xs.any (fun v => v.testBit i) ∧
      (redInt t 6 xs).testBit i = decide ((xs.filter (fun v => v.testBit i)).length % 2 = 1) := by
  obtain ⟨x, ys, rfl⟩ := List.exists_cons_of_ne_nil hne
  exact ⟨testBit_foldl_and i ys x, testBit_foldl_or i ys x, testBit_foldl_xor i ys x⟩

theorem redInt_sum (t : Ty) {xs : List Nat} (hne : xs ≠ []) :
    redInt t 0 xs = inType t false (xs.map (valI t)).sum ∧ redInt t 1 xs = inType t true (xs.map (valI t)).sum := by
  obtain ⟨x, ys, rfl⟩ := List.exists_cons_of_ne_nil hne
  rw [List.sum_eq_foldl]
  exact ⟨rfl, rfl⟩

theorem bits_ge_of_wide {t : Ty} (ht : t ∈ [Ty.s32, .n32, .s64, .n64]) : 32 ≤ t.bits := by
  simp only [List.mem_cons, List.not_mem_nil, or_false] at ht
  rcases ht with rfl | rfl | rfl | rfl <;> decide

/-! ## The tree of a float reduction (R121, R122) -/

section
variable {t : Ty} {op : Nat} {sd : Word} {N : Nat → Nat → Option Nat}

@[simp] theorem lredComb_none_left (l : Nat) (y : Option Nat) : lredComb t op sd l none y = y := by cases y <;> rfl

@[simp] theorem lredComb_none_right (l : Nat) (x : Option Nat) : lredComb t op sd l x none = x := by cases x <;> rfl

/-- The modes of the five additions in the order of their codes (R154). -/
theorem lredMode_of_lt (h : op < 5) : lredMode op = some (nth [Rnd.rne, .rtz, .rdn, .rup, .rs] op .rne) := by
  match op, h with
  | 0, _ | 1, _ | 2, _ | 3, _ | 4, _ => rfl

theorem lredMode_of_le (h : 5 ≤ op) : lredMode op = none := by
  match op, h with
  | _ + 5, _ => rfl

/-- Two present values are added in the mode of the code, or the least or greatest is taken, per element. -/
theorem lredComb_some (l p q : Nat) : lredComb t op sd l (some p) (some q) = some (perElem t (fun e =>
    if op < 5 then roundF (fmtOf t) (nth [Rnd.rne, .rtz, .rdn, .rup, .rs] op .rne) (rsOf sd l e)
      (addX (nth [Rnd.rne, .rtz, .rdn, .rup, .rs] op .rne) (dec t (elem t p e)) (dec t (elem t q e)))
    else if op = 5 then elMin t (elem t p e) (elem t q e) else elMax t (elem t p e) (elem t q e))) := by
  by_cases h : op < 5
  · simp only [lredComb, lredMode_of_lt h, if_pos h, elAdd]
  · simp only [lredComb, lredMode_of_le (Nat.not_lt.1 h), if_neg h]

/-- The nodes `N k i` are those of the tree over the leaves of T: node `i` of a level combines nodes 2i and 2i + 1 of the one
below. -/
structure TreeNodes (t : Ty) (op : Nat) (sd : Word) (tm : LaneMask) (a : Nat → Nat) (N : Nat → Nat → Option Nat) : Prop where
  leaf : ∀ i, i < 32 → N 0 i = if lane tm i then some (a i % 2 ^ t.bits) else none
  node : ∀ k i, k < 5 → i < 2 ^ (4 - k) →
    N (k + 1) i = lredComb t op sd (2 ^ (k + 1) * i) (N k (2 * i)) (N k (2 * i + 1))

theorem treeLevel_range' (w : Nat) (M : Nat → Option Nat) : ∀ n i,
    treeLevel t op sd w i ((List.range' (2 * i) (2 * n)).map M) =
      (List.range' i n).map (fun j => lredComb t op sd (w * j) (M (2 * j)) (M (2 * j + 1))) := by
  intro n
  induction n with
  | zero => intro i; rfl
  | succ n ih =>
    intro i
    simp only [Nat.mul_succ, List.range'_succ, List.map_cons, treeLevel]
    exact congrArg _ (ih (i + 1))

theorem treeLevel_nodes {tm : LaneMask} {a : Nat → Nat} (h : TreeNodes t op sd tm a N) {k : Nat} (hk : k < 5) :
    treeLevel t op sd (2 ^ (k + 1)) 0 ((List.range (2 * 2 ^ (4 - k))).map (N k)) =
      (List.range (2 ^ (4 - k))).map (N (k + 1)) := by
  rw [List.range_eq_range', List.range_eq_range']
  refine (treeLevel_range' (2 ^ (k + 1)) (N k) (2 ^ (4 - k)) 0).trans (List.map_congr_left fun i hi => ?_)
  exact (h.node k i hk (by simpa using hi)).symm

theorem treeLevels_nodes {tm : LaneMask} {a : Nat → Nat} (h : TreeNodes t op sd tm a N) :
    treeLevels t op sd (leavesOf t tm a) = (List.range 6).map (fun k => (List.range (2 ^ (5 - k))).map (N k)) := by
  have hleaves : leavesOf t tm a = (List.range 32).map (N 0) :=
    List.map_congr_left fun i hi => (h.leaf i (List.mem_range.1 hi)).symm
  have h1 := treeLevel_nodes h (k := 0) (by decide)
  have h2 := treeLevel_nodes h (k := 1) (by decide)
  have h3 := treeLevel_nodes h (k := 2) (by decide)
  have h4 := treeLevel_nodes h (k := 3) (by decide)
  have h5 := treeLevel_nodes h (k := 4) (by decide)
  simp only [Nat.reducePow, Nat.reduceAdd, Nat.reduceSub, Nat.reduceMul] at h1 h2 h3 h4 h5
  simp only [treeLevels, hleaves, h1, h2, h3, h4, h5]
  rfl

theorem nth_treeLevels {tm : LaneMask} {a : Nat → Nat} (h : TreeNodes t op sd tm a N) {k i : Nat} (hk : k < 6)
    (hi : i < 2 ^ (5 - k)) : nth (nth (treeLevels t op sd (leavesOf t tm a)) k []) i none = N k i := by
  rw [treeLevels_nodes h, nth_map_range 6 k _ _ hk, nth_map_range _ i _ _ hi]

theorem fLredF_top {tm : LaneMask} {a : Nat → Nat} (h : TreeNodes t op sd tm a N) :
    fLredF t op sd tm a = (N 5 0).getD 0 := by
  rw [fLredF, nth_treeLevels h (by decide) (by decide)]

/-- The fold over the levels below `m`, once the blocks of the levels above have been taken: they end at the greatest multiple of
`2 ^ m` up to `j + 1`, and level `m` has a block at it where bit `m` of `j + 1` is set. -/
theorem scanFold_blocks {lv : List (List (Option Nat))} {j : Nat} (hj : j < 32)
    (hlv : ∀ k i, k < 6 → i < 2 ^ (5 - k) → nth (nth lv k []) i none = N k i) : ∀ m acc, m ≤ 6 →
      scanFold t op sd lv j m ((j + 1) / 2 ^ m * 2 ^ m) acc =
        ((List.range m).reverse.filter (fun k => (j + 1).testBit k)).foldl
          (fun acc k => lredComb t op sd j acc (N k ((j + 1) / 2 ^ (k + 1) * 2))) acc := by
  intro m
  induction m with
  | zero => intro acc _; rfl
  | succ m ih =>
    intro acc hm
    have hpos : 0 < 2 ^ m := Nat.two_pow_pos m
    have hhalf : (j + 1) / 2 ^ (m + 1) = (j + 1) / 2 ^ m / 2 := by rw [Nat.pow_succ, Nat.div_div_eq_div_mul]
    have hstart : (j + 1) / 2 ^ (m + 1) * 2 ^ (m + 1) = (j + 1) / 2 ^ m / 2 * 2 * 2 ^ m := by
      rw [hhalf, Nat.pow_succ, Nat.mul_assoc, Nat.mul_comm 2 (2 ^ m)]
    have hrest : (j + 1 - (j + 1) / 2 ^ m / 2 * 2 * 2 ^ m) / 2 ^ m = (j + 1) / 2 ^ m % 2 := by
      rw [Nat.mul_comm _ (2 ^ m), Nat.sub_mul_div]; omega
    have hbit : (j + 1).testBit m = decide ((j + 1) / 2 ^ m % 2 = 1) := Nat.testBit_eq_decide_div_mod_eq
    have hbound : (j + 1) / 2 ^ m ≤ 2 ^ (5 - m) := by
      rw [← Nat.pow_div (by omega) (by decide)]
      exact Nat.div_le_div_right (by omega)
    have hblock : (j + 1) / 2 ^ m / 2 * 2 * 2 ^ m / 2 ^ m = (j + 1) / 2 ^ (m + 1) * 2 := by
      rw [Nat.mul_div_cancel _ hpos, hhalf]
    rw [hstart, List.range_succ, List.reverse_append, List.reverse_singleton, List.singleton_append]
    simp only [scanFold, hrest, hblock]
    rcases Nat.mod_two_eq_zero_or_one ((j + 1) / 2 ^ m) with hq | hq
    · rw [if_pos hq, List.filter_cons_of_neg (by simp [hbit, hq]), ← ih acc (by omega),
        show (j + 1) / 2 ^ m / 2 * 2 = (j + 1) / 2 ^ m by omega]
    · rw [if_neg (by omega), List.filter_cons_of_pos (by simp [hbit, hq]), List.foldl_cons,
        hlv m _ (by omega) (by omega), ← ih _ (by omega), ← Nat.succ_mul,
        show ((j + 1) / 2 ^ m / 2 * 2).succ = (j + 1) / 2 ^ m by omega]

theorem fLscanF_blocks {tm : LaneMask} {a : Nat → Nat} (h : TreeNodes t op sd tm a N) {j : Nat} (hj : j < 32) :
    fLscanF t op sd tm a j = (([5, 4, 3, 2, 1, 0].filter (fun k => (j + 1).testBit k)).foldl
      (fun acc k => lredComb t op sd j acc (N k ((j + 1) / 2 ^ (k + 1) * 2))) none).getD 0 := by
  have hfold := scanFold_blocks (t := t) (op := op) (sd := sd) hj (fun k i hk hi => nth_treeLevels h hk hi) 6 none le_rfl
  rw [Nat.div_eq_of_lt (by omega), Nat.zero_mul] at hfold
  rw [fLscanF, hfold]
  rfl

end

/-- Settles O7: the lane functions are those of R152 to R155, and the float tree combines its nodes as R121 and R122 say. -/
theorem crossLaneResults : Obligations.CrossLaneResults := by
  unfold Obligations.CrossLaneResults
  refine ⟨?lxch, ?lbcast, ?lmatch, ?lredInt, ?lscanInt, ?lredFloat, ?lscanFloat, ?integer, ?tree⟩
  case lxch => exact fun c t m o => vecResult_congr (lxch_result c t m o) fun x l => fromLane_eq ..
  case lbcast => exact fun c t o => vecResult_congr (lbcast_result c t o) fun x l => fromLane_ofNat ..
  case lmatch => exact fun c t o => vecResult_congr (lmatch_result c t o) fun x l => bitsum_lanesOf ..
  case lredInt | lscanInt =>
    exact fun c t op o hf => reduceInt_result hf rfl (fun _ => rfl) fun x => by
      simp only [readSrc_issueCtx_lanes, lanes_issueCtx]
  case lredFloat | lscanFloat =>
    exact fun c t op o hf => reduceFloat_result hf rfl (fun _ => rfl) fun x => by
      simp only [seeded_issueCtx, seed_issueCtx, readSrc_issueCtx_lanes, issueCtx_tm]
  case integer =>
    intro t ht xs hne hlt
    have hw := bits_ge_of_wide ht
    exact ⟨redInt_sum t hne, redInt_min hw hne hlt, redInt_max hw hne hlt, testBit_redInt t hne⟩
  case tree =>
    intro t op sd tm a N _ r comb hleaf hnode
    have hcomb : lredComb t op sd = comb := by
      funext l x y
      cases x with
      | none => exact lredComb_none_left l y
      | some p =>
        cases y with
        | none => exact lredComb_none_right l (some p)
        | some q => exact lredComb_some l p q
    have tree : TreeNodes t op sd tm a N := ⟨hleaf, by rw [hcomb]; exact hnode⟩
    rw [← hcomb]
    exact ⟨fLredF_top tree, fun j hj => fLscanF_blocks tree hj⟩

end Sys2Proof.Machine
end
